-- ==== Sys2Proof/Word.lean ====
section
/-!
DEFINITION. The plain value types of the engine (00_scope.md R9): bytes, byte sequences, the two wider
unsigned words, and port identifiers. Times and durations are natural numbers of milliseconds (10_state.md R41).
-/

namespace Sys2Proof

/-- A byte: 8 bits, unsigned (R9). -/
abbrev Byte := BitVec 8

/-- A finite sequence of bytes, first byte first in time and first on the wire (R9). -/
abbrev Bytes := List Byte

/-- A 16-bit unsigned value: the CRC register, a channel index (R9). -/
abbrev Word16 := BitVec 16

/-- A 32-bit unsigned value: a frequency in Hz, a digital identifier (R9). -/
abbrev Word32 := BitVec 32

/-- A port identifier; opaque to the engine, which only compares it (R71, R336). Log 10. -/
abbrev PortId := Nat

end Sys2Proof
end

