-- ==== Sys2Proof/Config.lean ====
section
/-!
DEFINITION. The configuration record `Config` (00_scope.md R6), the constraints it must satisfy (R7), and the
spec's reference instance `CFG_REF`. A model is parametric in it: the record is a field of State, and no
operation writes it (10_state.md R29).
-/

namespace Sys2Proof

/-- The admitted form of a payload (30_encoding.md R98). -/
inductive Shape where
  /-- Exactly `n` payload bytes. -/
  | fixed (n : Nat)
  /-- Exactly `RECORD_LEN` bytes, laid out as a channel record (R99). -/
  | record
  /-- Any length from 0 to 252, contents not interpreted. -/
  | any
deriving DecidableEq, Repr

/-- The risk class of an opcode (60_exceptions.md R330 to R333). -/
inductive Risk where
  | stable
  | unstable
  | blocked
deriving DecidableEq, Repr

/-- One row of the opcode table (44_commands.md R230). -/
structure Row where
  name     : String
  request  : Shape
  response : Shape
  risk     : Risk
deriving DecidableEq, Repr

/-- Scope of the rate-limit register (R6 `RATE_SCOPE`, 10_state.md R32). -/
inductive RateScope where
  | perClass
  | perCommand
deriving DecidableEq, Repr

/-- Parity of the serial line (R6 `PARITY`). -/
inductive Parity where
  | none
  | odd
  | even
deriving DecidableEq, Repr

/-- Layout of the digital tail (R6 `TAIL`, 30_encoding.md R100): its length in bytes, and for each field the source
names the bit positions that hold it, the most significant bit of its value first. Position `k` is a bit of byte
`k / 8` of the tail; position 0 is the most significant bit of byte 0. A list gives a field any order, offset, width
and byte order, and a packing into parts of a byte. Log 14. -/
structure TailLayout where
  len      : Nat
  group    : List Nat
  radio    : List Nat
  rxColor  : List Nat
  txColor  : List Nat
  timeslot : List Nat
deriving DecidableEq, Repr

/-- What a tail field of too few bits holds for a value that it cannot: a free value, of which nothing is known. The
spec gives the fields' widths to `cfg.TAIL` (R100) and says nothing of such a value, which no valid record has (R277).
It depends on the positions of the field and on the value. Log 36. -/
opaque Config.narrowed : List Nat → Byte → Nat

/-- The configuration record of R6, with the names of R231 for the eleven wire commands. -/
structure Config where
  magic       : Bytes
  crcWidth    : Nat
  crcInit     : Word16
  poly        : Word16
  baud        : Nat
  dataBits    : Nat
  parity      : Parity
  stopBits    : Nat
  maxRetries  : Nat
  minInterval : Nat
  tStabilize  : Nat
  retryDelay  : Nat
  optable     : List (Byte × Row)
  opPtt        : Byte
  opModeSet    : Byte
  opStatusSync : Byte
  opEquipId    : Byte
  opPowerSet   : Byte
  opRxoffSet   : Byte
  opMeterSync  : Byte
  opParamSync  : Byte
  opSpectrum   : Byte
  opChWrite    : Byte
  opChRead     : Byte
  modes       : List (Byte × String)
  modeUnused  : Byte
  modeNfm     : Byte
  tones       : List (Nat × Nat)
  maxChannel  : Nat
  nameField   : Nat
  tail        : TailLayout
  rateScope   : RateScope
deriving DecidableEq, Repr

/-- `RECORD_LEN = 26 + TAIL_LEN` (R99). -/
def Config.recordLen (cfg : Config) : Nat := 26 + cfg.tail.len

/-- The opcodes of the eleven wire commands, in the order of R231. -/
def Config.opcodes (cfg : Config) : List Byte :=
  [cfg.opPtt, cfg.opModeSet, cfg.opStatusSync, cfg.opEquipId, cfg.opPowerSet, cfg.opRxoffSet,
    cfg.opMeterSync, cfg.opParamSync, cfg.opSpectrum, cfg.opChWrite, cfg.opChRead]

/-- No element of the list occurs twice. -/
def noRepeats {α : Type} [DecidableEq α] : List α → Bool
  | [] => true
  | a :: rest => !rest.contains a && noRepeats rest

/-- The five reserved tone indices (R69). -/
def reservedTones : List Nat := [25, 45, 47, 51, 53]

/-- `i` is one of the 50 tone indices a table may assign (R7, R265). -/
def assignableTone (i : Nat) : Bool := decide (1 ≤ i) && decide (i ≤ 55) && !reservedTones.contains i

/-- The positions of all fields of the tail. -/
def TailLayout.positions (t : TailLayout) : List Nat :=
  t.group ++ t.radio ++ t.rxColor ++ t.txColor ++ t.timeslot

/-- A legal tail layout (log 13): every position lies inside the tail and no two fields share one, the identifiers are
32 bits wide (R100), the other fields can hold their legal values 0 to 15 and 1 or 2 (R100) and are bytes at most
(45_channel_codec.md R260), so that the kind is recoverable from the bytes (R275); and a record fits a frame (R92). -/
def TailLayout.wf (t : TailLayout) : Bool :=
  t.positions.all (fun k => decide (k < 8 * t.len)) && noRepeats t.positions &&
  decide (t.group.length = 32) && decide (t.radio.length = 32) &&
  decide (4 ≤ t.rxColor.length) && decide (t.rxColor.length ≤ 8) &&
  decide (4 ≤ t.txColor.length) && decide (t.txColor.length ≤ 8) &&
  decide (2 ≤ t.timeslot.length) && decide (t.timeslot.length ≤ 8) &&
  decide (26 + t.len ≤ 252)

/-- The constraints of R7 on the tables. `MAX_RETRIES ≥ 0` and "`POLY` and `CRC_INIT` fit 16 bits" hold by
the types of the fields. That no tone has the frequency 0 follows from 45_channel_codec.md R266, by which 0 has no
index, and R268, by which every frequency of the table has one (log 13). -/
def Config.tablesWf (cfg : Config) : Bool :=
  decide (cfg.magic.length = 4) &&
  noRepeats (cfg.optable.map Prod.fst) &&
  noRepeats (cfg.tones.map Prod.fst) &&
  noRepeats (cfg.tones.map Prod.snd) &&
  (cfg.tones.map Prod.fst).all assignableTone &&
  !(cfg.tones.map Prod.snd).contains 0 &&
  (cfg.modes.map Prod.fst).contains cfg.modeUnused &&
  (cfg.modes.map Prod.fst).contains cfg.modeNfm &&
  decide (cfg.modeUnused ≠ cfg.modeNfm)

/-- What the source fixes and R6 still lists as parameters, and what R70, R92 and R275 need (log 13). -/
def Config.fixedWf (cfg : Config) : Bool :=
  decide (cfg.crcWidth = 16) && decide (cfg.dataBits = 8) && decide (cfg.parity = .none) &&
  decide (cfg.stopBits = 1) && decide (cfg.nameField = 12) &&
  noRepeats cfg.opcodes && cfg.tail.wf

/-- A configuration the model accepts (R7): the model refuses every other. -/
def Config.wf (cfg : Config) : Bool := cfg.tablesWf && cfg.fixedWf

/-- `TONES_T` (45_channel_codec.md R270): the spec's TEST table, not the device's. Log 1. -/
def tonesT : List (Nat × Nat) :=
  [(1, 670), (2, 693), (3, 719), (4, 744), (5, 770), (6, 797), (7, 825), (8, 854), (9, 885), (10, 915),
    (11, 948), (12, 974), (13, 1000), (14, 1035), (15, 1072), (16, 1109), (17, 1148), (18, 1188)] ++
  [(19, 1230), (20, 1273), (21, 1318), (22, 1365), (23, 1413), (24, 1462), (26, 1514), (27, 1567),
    (28, 1598), (29, 1622), (30, 1655), (31, 1679), (32, 1713), (33, 1738), (34, 1773), (35, 1799)] ++
  [(36, 1835), (37, 1862), (38, 1899), (39, 1928), (40, 1966), (41, 1995), (42, 2035), (43, 2065),
    (44, 2107), (46, 2181), (48, 2257), (49, 2291), (50, 2336), (52, 2418), (54, 2503), (55, 2541)]

/-- `CFG_REF.OPTABLE` (44_commands.md R231). -/
def optableRef : List (Byte × Row) :=
  [(0x07#8, ⟨"push-to-talk control", .any, .any, .stable⟩),
    (0x0A#8, ⟨"mode set", .any, .any, .stable⟩),
    (0x0B#8, ⟨"status sync", .any, .any, .stable⟩),
    (0x27#8, ⟨"equipment-identity query", .any, .any, .stable⟩),
    (0x28#8, ⟨"power-level set", .any, .any, .stable⟩),
    (0x29#8, ⟨"receive-offset set", .any, .any, .stable⟩),
    (0x2A#8, ⟨"meter sync", .any, .fixed 2, .unstable⟩),
    (0x2B#8, ⟨"parameter sync", .any, .fixed 30, .unstable⟩),
    (0x39#8, ⟨"spectrum-data request", .any, .any, .stable⟩),
    (0x40#8, ⟨"channel write", .record, .record, .stable⟩),
    (0x41#8, ⟨"channel read", .fixed 2, .record, .stable⟩)]

/-- `CFG_REF.MODES` (45_channel_codec.md R264). -/
def modesRef : List (Byte × String) :=
  [(0#8, "USB"), (1#8, "LSB"), (2#8, "CWR"), (3#8, "CWL"), (4#8, "AM"), (5#8, "WFM"), (6#8, "NFM"),
    (7#8, "DIGI"), (8#8, "PKT"), (9#8, "DMR"), (255#8, "unused slot")]

/-- The bit positions of `n` whole bytes from offset `o` of the tail, in big-endian order (R96). -/
def wholeBytes (o n : Nat) : List Nat := List.range' (8 * o) (8 * n)

/-- `CFG_REF.TAIL` (30_encoding.md R100, 45_channel_codec.md R275): 11 bytes, every field in whole bytes. -/
def tailRef : TailLayout where
  len := 11
  group := wholeBytes 0 4
  radio := wholeBytes 4 4
  rxColor := wholeBytes 8 1
  txColor := wholeBytes 9 1
  timeslot := wholeBytes 10 1

/-- `CFG_REF`, the reference configuration of R6. Its values that the source does not give are the spec's own
choice and are marked so there. Log 1. -/
def cfgRef : Config where
  magic := [0xA5#8, 0xA5#8, 0xA5#8, 0xA5#8]
  crcWidth := 16
  crcInit := 0xFFFF#16
  poly := 0x1021#16
  baud := 115200
  dataBits := 8
  parity := .none
  stopBits := 1
  maxRetries := 3
  minInterval := 5000
  tStabilize := 100
  retryDelay := 0
  optable := optableRef
  opPtt := 0x07#8
  opModeSet := 0x0A#8
  opStatusSync := 0x0B#8
  opEquipId := 0x27#8
  opPowerSet := 0x28#8
  opRxoffSet := 0x29#8
  opMeterSync := 0x2A#8
  opParamSync := 0x2B#8
  opSpectrum := 0x39#8
  opChWrite := 0x40#8
  opChRead := 0x41#8
  modes := modesRef
  modeUnused := 255#8
  modeNfm := 6#8
  tones := tonesT
  maxChannel := 999
  nameField := 12
  tail := tailRef
  rateScope := .perClass

end Sys2Proof
end

