-- ==== Sys2Proof/Syntax.lean ====
section
/-!
DEFINITION. The operations of the block (00_scope.md R8: an instruction is an operation of the block), one
constructor of `Instr` for each row of spec/opcode_table.json, and the values they take and return: channel
records (45_channel_codec.md R260), packets and decode results (30_encoding.md R108, 41_frame_codec.md R146).
-/

namespace Sys2Proof

/-- A tone field of a record (R260). -/
inductive Tone where
  | noTone
  /-- A frequency in tenths of Hz. -/
  | freq (f : Nat)
  /-- Only ever the result of decoding a reserved or out-of-range index. -/
  | unknown (i : Byte)
deriving DecidableEq, Repr

/-- The kind of a channel and the digital-only fields (R260). -/
inductive ChannelKind where
  | analog
  | digital (groupId radioId : Word32) (rxColor txColor timeslot : Byte)
deriving DecidableEq, Repr

/-- One programmable memory slot, as a value (R260). -/
structure ChannelRecord where
  index  : Word16
  rxFreq : Word32
  txFreq : Word32
  rxMode : Byte
  txMode : Byte
  rxTone : Tone
  txTone : Tone
  name   : Bytes
  kind   : ChannelKind
deriving DecidableEq, Repr

/-- The two tone fields of a record, as the strict encoder's error names them (R269). -/
inductive ToneField where
  | rxTone
  | txTone
deriving DecidableEq, Repr

/-- What the strict encoder returns (R269). -/
inductive StrictResult where
  | bytes (s : Bytes)
  | unrepresentable (field : ToneField) (tone : Tone)
deriving DecidableEq, Repr

/-- A decoded packet (R108). -/
structure Packet where
  header  : Bytes
  length  : Byte
  command : Byte
  payload : Bytes
  crc     : Word16
deriving DecidableEq, Repr

/-- The classes of `FramingError` that DECODE reports (R146, R157). -/
inductive FramingClass where
  | magic
  | truncated
  | lengthInvalid
  | crc
deriving DecidableEq, Repr

/-- What DECODE returns: a packet with the number of bytes consumed, or a `FramingError` (R146). -/
inductive DecodeResult where
  | packet (q : Packet) (consumed : Nat)
  | error (cls : FramingClass)
deriving DecidableEq, Repr

/-- The two readings of the CRC register (R125). -/
inductive CrcReadForm where
  /-- CRC.VALUE: the register. -/
  | value
  /-- CRC.APPEND: its two bytes, high first. -/
  | append
deriving DecidableEq, Repr

/-- The three forms of the streaming decoder's step (R152). -/
inductive DecOp where
  | start
  | byte (b : Byte)
  | finish
deriving DecidableEq, Repr

/-- The operations of the block: one constructor for each row of spec/opcode_table.json, in its order. `p` is
the Session (identified by its port), `t` the per-request timeout (44_commands.md, 46_host_operations.md). -/
inductive Instr where
  -- the eleven wire commands (44_commands.md R232 to R242)
  | ptt (p : PortId) (t : Nat) (payload : Bytes)
  | modeSet (p : PortId) (t : Nat) (payload : Bytes)
  | statusSync (p : PortId) (t : Nat) (payload : Bytes)
  | equipId (p : PortId) (t : Nat) (payload : Bytes)
  | powerSet (p : PortId) (t : Nat) (payload : Bytes)
  | rxoffSet (p : PortId) (t : Nat) (payload : Bytes)
  | meterSync (p : PortId) (t : Nat) (payload : Bytes)
  | paramSync (p : PortId) (t : Nat) (payload : Bytes)
  | spectrum (p : PortId) (t : Nat) (payload : Bytes)
  | chWrite (p : PortId) (t : Nat) (payload : Bytes)
  | chRead (p : PortId) (t : Nat) (index : Word16)
  -- the CRC generator (40_crc.md R121 to R127)
  | crcInit
  | crcByte (b : Byte)
  | crcBit (d : Bool)
  | crc16 (bytes : Bytes)
  | crcValue (form : CrcReadForm)
  | crcCheck (bytes : Bytes) (received : Word16)
  -- the frame codec (41_frame_codec.md R141, R146, R152)
  | encode (command : Byte) (payload : Bytes)
  | decode (bytes : Bytes)
  | decStep (op : DecOp)
  -- the transport interface (42_transport.md R171 to R176)
  | connect (p : PortId)
  | disconnect (p : PortId)
  | resetInput (p : PortId)
  | txPut (p : PortId) (bytes : Bytes)
  | rxTake (p : PortId)
  -- the dispatcher (43_dispatcher.md R190)
  | send (p : PortId) (command : Byte) (payload : Bytes) (t : Nat) (allowBlocked : Bool)
  -- the record codec (45_channel_codec.md R261 to R269)
  | encodeChannel (record : ChannelRecord)
  | encodeChannelStrict (record : ChannelRecord)
  | decodeChannel (bytes : Bytes)
  | freqToIndex (freqTenthsHz : Nat)
  | indexToFreq (index : Nat)
  -- the host operations (46_host_operations.md R292 to R298)
  | readChannel (p : PortId) (index : Word16) (t : Nat)
  | writeChannel (p : PortId) (record : ChannelRecord) (t : Nat) (allowBlocked : Bool)
  | queryStatus (p : PortId) (t : Nat)
  | setAllowUnstable (p : PortId) (b : Bool)
  | queryMeters (p : PortId) (t : Nat)
  | queryParams (p : PortId) (t : Nat)
  | readAll (p : PortId) (t : Nat) (indices : List Word16)
  | writeAll (p : PortId) (t : Nat) (records : List ChannelRecord)
deriving DecidableEq, Repr

end Sys2Proof
end

