-- ==== Sys2Proof/Machine/Bits.lean ====
section
/-!
DEFINITION. Byte order and field assembly (00_scope.md R9; 20_memory.md R60, R61; 30_encoding.md R96): every
multi-byte field is big-endian and unsigned.
-/

namespace Sys2Proof.Machine

/-- `hi8(v) = v[15:8]` (R9). -/
def hi8 (v : Word16) : Byte := v.extractLsb' 8 8

/-- `lo8(v) = v[7:0]` (R9). -/
def lo8 (v : Word16) : Byte := v.extractLsb' 0 8

/-- `be16(v) = hi8(v) ‖ lo8(v)` (R9). -/
def be16 (v : Word16) : Bytes := [hi8 v, lo8 v]

/-- `be32(v)`, most significant byte first (R9). -/
def be32 (v : Word32) : Bytes :=
  [v.extractLsb' 24 8, v.extractLsb' 16 8, v.extractLsb' 8 8, v.extractLsb' 0 8]

/-- `unbe16(b0 b1) = 256·b0 + b1` (R9): `b0` is bits 15..8. -/
def unbe16 (b0 b1 : Byte) : Word16 := b0 ++ b1

/-- `unbe32`, likewise (R9): `b0` is bits 31..24. -/
def unbe32 (b0 b1 b2 b3 : Byte) : Word32 := b0 ++ b1 ++ b2 ++ b3

/-- Byte `i` of a sequence (R9 `s[i]`). Only used where `i < len(s)`. -/
def byteAt (s : Bytes) (i : Nat) : Byte := s.getD i 0#8

/-- Bit `k` of a sequence, the most significant bit of each byte first. The numbering is the model's (log 14). -/
def bitAt (s : Bytes) (k : Nat) : Bool := (byteAt s (k / 8)).getMsbD (k % 8)

/-- The number whose bits, most significant first, are `bs`. -/
def natOfBits : List Bool → Nat
  | [] => 0
  | b :: bs => b.toNat * 2 ^ bs.length + natOfBits bs

/-- The `n` bytes whose bits, numbered as in `bitAt`, are `bit 0`, `bit 1`, and so on. -/
def packBits (bit : Nat → Bool) (n : Nat) : Bytes :=
  (List.range n).map (fun j => BitVec.ofNat 8 (natOfBits ((List.range 8).map (fun i => bit (8 * j + i)))))

/-- The 16-bit field at offset `i`. -/
def u16At (s : Bytes) (i : Nat) : Word16 := unbe16 (byteAt s i) (byteAt s (i + 1))

/-- The 32-bit field at offset `i`. -/
def u32At (s : Bytes) (i : Nat) : Word32 :=
  unbe32 (byteAt s i) (byteAt s (i + 1)) (byteAt s (i + 2)) (byteAt s (i + 3))

/-- The value a finite map given as a list of pairs holds for a key (`cfg.OPTABLE[op]`, `cfg.TONES[i]`). -/
def assoc {κ α : Type} [DecidableEq κ] (k : κ) : List (κ × α) → Option α
  | [] => none
  | (k', a) :: rest => if k' = k then some a else assoc k rest

end Sys2Proof.Machine
end

