-- ==== Sys2Proof/Machine/Crc.lean ====
section
/-!
DEFINITION. The CRC-16 generator as functions of the register, the polynomial and the data (40_crc.md R121 to
R131). No reflection of input or output, no final XOR.
-/

namespace Sys2Proof.Machine

/-- One shift iteration of R122: the bit shifted out decides whether `poly` is XORed in. -/
def crcShift (poly c : Word16) : Word16 :=
  if c.getLsbD 15 then (c <<< 1) ^^^ poly else c <<< 1

/-- `n` shift iterations (R122 "repeat 8 times"). -/
def crcShifts (poly : Word16) : Nat → Word16 → Word16
  | 0, c => c
  | n + 1, c => crcShifts poly n (crcShift poly c)

/-- CRC.BYTE `b`: the byte is XORed into the top byte of the register, then eight shifts (R122). -/
def crcByteStep (poly c : Word16) (b : Byte) : Word16 :=
  crcShifts poly 8 (c ^^^ (b.zeroExtend 16 <<< 8))

/-- CRC.BIT `d`: the data bit is XORed into the feedback (R123). -/
def crcBitStep (poly c : Word16) (d : Bool) : Word16 :=
  if c.getLsbD 15 != d then (c <<< 1) ^^^ poly else c <<< 1

/-- `fold(c, s)`: CRC.BYTE for each byte of `s` in order (R129). -/
def crcFold (poly c : Word16) (s : Bytes) : Word16 := s.foldl (crcByteStep poly) c

/-- `crc16(s)`: CRC.INIT, then CRC.BYTE for each byte; the register is the CRC (R124). -/
def crc16 (cfg : Config) (s : Bytes) : Word16 := crcFold cfg.poly cfg.crcInit s

end Sys2Proof.Machine
end

