-- ==== Sys2Proof/Machine/FrameCodec.lean ====
section
/-!
DEFINITION. The one frame format as functions: ENCODE (41_frame_codec.md R141) and DECODE (R146 to R151).
The frame is magic, length, command, payload, CRC (30_encoding.md R90).
-/

namespace Sys2Proof.Machine

/-- The length byte of a frame: `n + 3` (R91). -/
def lengthByte (payload : Bytes) : Byte := BitVec.ofNat 8 (payload.length + 3)

/-- The bytes a frame's CRC covers: `length ‖ command ‖ payload` (R93). -/
def crcInput (command : Byte) (payload : Bytes) : Bytes := lengthByte payload :: command :: payload

/-- The CRC of a frame (R126). -/
def frameCrc (cfg : Config) (command : Byte) (payload : Bytes) : Word16 :=
  crc16 cfg (crcInput command payload)

/-- ENCODE (R141), for a payload of at most 252 bytes. -/
def encodeFrame (cfg : Config) (command : Byte) (payload : Bytes) : Bytes :=
  cfg.magic ++ crcInput command payload ++ be16 (frameCrc cfg command payload)

/-- The hunt of R146 and R147: the least `i` with `i + 4 ≤ len(s)` and `s[i..i+4) = magic`. -/
def findMagic (magic : Bytes) : Bytes → Option Nat
  | [] => none
  | b :: rest =>
    if decide (4 ≤ (b :: rest).length) && decide ((b :: rest).take 4 = magic) then some 0
    else (findMagic magic rest).map (· + 1)

/-- The packet or CRC failure that a complete body gives (R146); `p` is the position of the magic. -/
def decodeBody (cfg : Config) (p : Nat) (len : Byte) (body : Bytes) : DecodeResult :=
  let command := byteAt body 0
  let payload := (body.drop 1).take (len.toNat - 3)
  let received := unbe16 (byteAt body (len.toNat - 2)) (byteAt body (len.toNat - 1))
  if crc16 cfg (len :: command :: payload) = received then
    .packet ⟨cfg.magic, len, command, payload, received⟩ (p + 5 + len.toNat)
  else .error .crc

/-- What DECODE makes of the bytes after the magic (R146, R148, R149). -/
def decodeAfterMagic (cfg : Config) (p : Nat) : Bytes → DecodeResult
  | [] => .error .truncated
  | len :: rest =>
    if len.toNat < 3 then .error .lengthInvalid
    else if rest.length < len.toNat then .error .truncated
    else decodeBody cfg p len (rest.take len.toNat)

/-- DECODE (R146): the checks in exactly that order; bytes after the frame are not examined (R151). -/
def decodeFrame (cfg : Config) (s : Bytes) : DecodeResult :=
  match findMagic cfg.magic s with
  | none => .error .magic
  | some p => decodeAfterMagic cfg p (s.drop (p + 4))

end Sys2Proof.Machine
end

