-- ==== Sys2Proof/WellFormed.lean ====
section
/-!
DEFINITION. Which operations are well formed under a configuration: the operands lie in the ranges the spec
gives them. An operation outside is one the spec gives no meaning (60_exceptions.md R318), or, for the
timeout, one whose operand is outside the type R190 gives it (log 21).
-/

namespace Sys2Proof

/-- The largest payload of a frame (30_encoding.md R92). -/
def maxPayload : Nat := 252

/-- R190: `timeout`, a duration > 0. -/
def timeoutWf (t : Nat) : Bool := decide (0 < t)

/-- R92, R142: a payload fits a frame. -/
def payloadWf (payload : Bytes) : Bool := decide (payload.length ≤ maxPayload)

/-- R291: a channel index a host operation admits. -/
def indexWf (cfg : Config) (index : Word16) : Bool := decide (index.toNat ≤ cfg.maxChannel)

/-- R99, R262: exactly `RECORD_LEN` bytes. -/
def recordBytesWf (cfg : Config) (bytes : Bytes) : Bool := decide (bytes.length = cfg.recordLen)

/-- The operands of `i` lie in the ranges the spec gives them. -/
def Instr.wf (cfg : Config) (i : Instr) : Bool :=
  match i with
  | .ptt _ t payload => timeoutWf t && payloadWf payload
  | .modeSet _ t payload => timeoutWf t && payloadWf payload
  | .statusSync _ t payload => timeoutWf t && payloadWf payload
  | .equipId _ t payload => timeoutWf t && payloadWf payload
  | .powerSet _ t payload => timeoutWf t && payloadWf payload
  | .rxoffSet _ t payload => timeoutWf t && payloadWf payload
  | .meterSync _ t payload => timeoutWf t && payloadWf payload
  | .paramSync _ t payload => timeoutWf t && payloadWf payload
  | .spectrum _ t payload => timeoutWf t && payloadWf payload
  | .chWrite _ t payload => timeoutWf t && recordBytesWf cfg payload
  | .chRead _ t _ => timeoutWf t
  | .crcInit => true
  | .crcByte _ => true
  | .crcBit _ => true
  | .crc16 _ => true
  | .crcValue _ => true
  | .crcCheck _ _ => true
  | .encode _ payload => payloadWf payload
  | .decode _ => true
  | .decStep _ => true
  | .connect _ => true
  | .disconnect _ => true
  | .resetInput _ => true
  | .txPut _ _ => true
  | .rxTake _ => true
  | .send _ _ payload t _ => timeoutWf t && payloadWf payload
  | .encodeChannel _ => true
  | .encodeChannelStrict _ => true
  | .decodeChannel bytes => recordBytesWf cfg bytes
  | .freqToIndex _ => true
  | .indexToFreq _ => true
  | .readChannel _ index t => timeoutWf t && indexWf cfg index
  | .writeChannel _ record t _ => timeoutWf t && indexWf cfg record.index
  | .queryStatus _ t => timeoutWf t
  | .setAllowUnstable _ _ => true
  | .queryMeters _ t => timeoutWf t
  | .queryParams _ t => timeoutWf t
  | .readAll _ t indices => timeoutWf t && indices.all (indexWf cfg)
  | .writeAll _ t records => timeoutWf t && records.all (fun r => indexWf cfg r.index)

end Sys2Proof
end

