-- ==== Sys2Proof/Machine/Operands.lean ====
section
/-!
DEFINITION. Every operand form of the block: payload shapes (30_encoding.md R98), the tone lookups
(45_channel_codec.md R265 to R269), the name field (R271, R272), the digital tail (R274 to R276) and the channel
record codec (R261, R262, R269, R277).
-/

namespace Sys2Proof.Machine

/-- A payload fits a shape (43_dispatcher.md R197): `Fixed(n)` exactly `n` bytes, `Record` exactly
`RECORD_LEN`, `Any` at most 252. -/
def fits (cfg : Config) (shape : Shape) (payload : Bytes) : Bool :=
  match shape with
  | .fixed n => decide (payload.length = n)
  | .record => decide (payload.length = cfg.recordLen)
  | .any => decide (payload.length ≤ maxPayload)

/-- The row of an opcode in `cfg.OPTABLE` (R230). -/
def rowOf (cfg : Config) (op : Byte) : Option Row := assoc op cfg.optable

/-- The number of zero payload bytes that an instruction word with no operand bits stands for. -/
def operandBytes (cfg : Config) : Shape → Nat
  | .fixed n => n
  | .record => cfg.recordLen
  | .any => 0

/-! ## The tone table -/

/-- INDEX_TO_FREQ (R267). -/
def indexToFrequency (cfg : Config) (i : Nat) : Option Nat := assoc i cfg.tones

/-- FREQ_TO_INDEX (R266): an exact match only; 0 is not a frequency and has no index, whatever the table holds. -/
def frequencyToIndex (cfg : Config) (f : Nat) : Option Nat :=
  if f = 0 then none else assoc f (cfg.tones.map (fun e => (e.2, e.1)))

/-- `toneOf` (R267): 0 is no tone; an index outside the table is an unknown tone, not an error. -/
def toneOf (cfg : Config) (b : Byte) : Tone :=
  if b = 0#8 then .noTone
  else match indexToFrequency cfg b.toNat with
    | some f => .freq f
    | none => .unknown b

/-- `toneByte` (R269), the lenient form: what has no table entry encodes as 0. -/
def toneByte (cfg : Config) : Tone → Byte
  | .noTone => 0#8
  | .freq f =>
    match frequencyToIndex cfg f with
    | some i => BitVec.ofNat 8 i
    | none => 0#8
  | .unknown _ => 0#8

/-- A tone the strict encoder represents (R269). -/
def toneRepresentable (cfg : Config) : Tone → Bool
  | .noTone => true
  | .freq f => (frequencyToIndex cfg f).isSome
  | .unknown _ => false

/-! ## The name field -/

/-- The 12-byte name field (R271): at most 11 bytes of the name, then NUL bytes. -/
def nameField (name : Bytes) : Bytes :=
  name.take 11 ++ List.replicate (12 - (name.take 11).length) 0#8

/-- The name a field holds (R272): the bytes before the first NUL, or all of them. -/
def nameOf (field : Bytes) : Bytes := field.takeWhile (fun b => b != 0#8)

/-! ## The digital tail -/

/-- The bit that the value `v` puts at position `k`, in a field at the positions `ps`; 0 outside the field. -/
def fieldBit : List Nat → Nat → Nat → Bool
  | [], _, _ => false
  | p :: ps, v, k => if p = k then v.testBit ps.length else fieldBit ps v k

/-- The value that a field at the positions `ps` holds in a tail. -/
def fieldValue (t : Bytes) (ps : List Nat) : Nat := natOfBits (ps.map (bitAt t))

/-- What a colour code field holds for the value `v`: the value, or a free value of the field's width where the field
is too narrow for it (log 36). -/
def colorValue (ps : List Nat) (v : Byte) : Nat :=
  if v.toNat < 2 ^ ps.length then v.toNat else Config.narrowed ps v % 2 ^ ps.length

/-- What the timeslot field holds for the value `v`: the value, or, where the field is too narrow for it, a free value
of the field's width that is not 0, since the kind stays recoverable from the bytes (R275, log 36). -/
def timeslotValue (ps : List Nat) (v : Byte) : Nat :=
  if v.toNat < 2 ^ ps.length then v.toNat else 1 + Config.narrowed ps v % (2 ^ ps.length - 1)

/-- Bit `k` of the tail that holds the given digital fields, under the layout `cfg.tail` (R275). A bit that no field
of the layout covers is 0. -/
def tailBit (l : TailLayout) (g r : Word32) (rc tc ts : Byte) (k : Nat) : Bool :=
  fieldBit l.group g.toNat k || fieldBit l.radio r.toNat k ||
    fieldBit l.rxColor (colorValue l.rxColor rc) k || fieldBit l.txColor (colorValue l.txColor tc) k ||
    fieldBit l.timeslot (timeslotValue l.timeslot ts) k

/-- `tailBytes` (R274, R275): an Analog tail is all zero. -/
def tailBytes (l : TailLayout) : ChannelKind → Bytes
  | .analog => List.replicate l.len 0#8
  | .digital g r rc tc ts => packBits (tailBit l g r rc tc ts) l.len

/-- `kindOf` (R276): Digital exactly when the timeslot field is not 0. By 92_eei_decisions.md D17 it is the only field
that can tell the kinds apart. -/
def kindOf (l : TailLayout) (t : Bytes) : ChannelKind :=
  if fieldValue t l.timeslot = 0 then .analog
  else .digital (BitVec.ofNat 32 (fieldValue t l.group)) (BitVec.ofNat 32 (fieldValue t l.radio))
    (BitVec.ofNat 8 (fieldValue t l.rxColor)) (BitVec.ofNat 8 (fieldValue t l.txColor))
    (BitVec.ofNat 8 (fieldValue t l.timeslot))

/-- A kind is Digital. -/
def isDigital : ChannelKind → Bool
  | .analog => false
  | .digital _ _ _ _ _ => true

/-! ## The channel record codec -/

/-- ENCODE_CHANNEL (R261), the lenient form; the layout is 30_encoding.md R99. -/
def encodeRecord (cfg : Config) (r : ChannelRecord) : Bytes :=
  be16 r.index ++ [r.rxMode, r.txMode] ++ be32 r.rxFreq ++ be32 r.txFreq ++
    [toneByte cfg r.rxTone, toneByte cfg r.txTone] ++ nameField r.name ++ tailBytes cfg.tail r.kind

/-- DECODE_CHANNEL (R262) of exactly `RECORD_LEN` bytes. -/
def decodeRecord (cfg : Config) (s : Bytes) : ChannelRecord where
  index := u16At s 0
  rxMode := byteAt s 2
  txMode := byteAt s 3
  rxFreq := u32At s 4
  txFreq := u32At s 8
  rxTone := toneOf cfg (byteAt s 12)
  txTone := toneOf cfg (byteAt s 13)
  name := nameOf ((s.drop 14).take 12)
  kind := kindOf cfg.tail (s.drop 26)

/-- ENCODE_CHANNEL_STRICT (R269): `encodeRecord`, but a tone without a table entry is reported; the receive
tone is examined first (95_test_vectors.md section 5, record E). -/
def encodeRecordStrict (cfg : Config) (r : ChannelRecord) : StrictResult :=
  if !toneRepresentable cfg r.rxTone then .unrepresentable .rxTone r.rxTone
  else if !toneRepresentable cfg r.txTone then .unrepresentable .txTone r.txTone
  else .bytes (encodeRecord cfg r)

/-- A mode byte of the enumeration (R264, R277). -/
def modeValid (cfg : Config) (m : Byte) : Bool := (cfg.modes.map Prod.fst).contains m

/-- The tone part of R277: `NoTone`, or a frequency in the range of `cfg.TONES`. -/
def toneValid (cfg : Config) : Tone → Bool
  | .noTone => true
  | .freq f => (cfg.tones.map Prod.snd).contains f
  | .unknown _ => false

/-- The digital part of R277: colour codes at most 15, timeslot 1 or 2. -/
def kindValid : ChannelKind → Bool
  | .analog => true
  | .digital _ _ rc tc ts =>
    decide (rc.toNat ≤ 15) && decide (tc.toNat ≤ 15) && (decide (ts = 1#8) || decide (ts = 2#8))

/-- `validRecord(r)` (R277). -/
def validRecord (cfg : Config) (r : ChannelRecord) : Bool :=
  decide (r.index.toNat ≤ 999) && modeValid cfg r.rxMode && modeValid cfg r.txMode &&
    toneValid cfg r.rxTone && toneValid cfg r.txTone &&
    decide (r.name.length ≤ 11) && !r.name.contains 0#8 && kindValid r.kind

end Sys2Proof.Machine
end

