-- ==== Sys2Proof/Decode.lean ====
section
/-!
DEFINITION. The instruction words of the block: the eleven wire commands are encoded as frames
(30_encoding.md R90, opcode_table.json); every other operation has no encoding ("selected through the host or
internal interface, not by bits on the wire"). Decoding is DECODE (41_frame_codec.md R146) followed by the
choice of the command by its opcode (44_commands.md R231), total on any bytes, rejecting by name. The Session
`p` and the timeout `t` of a call are not in the frame; the caller supplies them (log 16, log 17).
-/

namespace Sys2Proof

open Sys2Proof.Machine

/-- Why bytes are no instruction word. -/
inductive DecodeError where
  /-- The bytes hold no frame: the `FramingError` of R146. -/
  | framing (cls : FramingClass)
  /-- A good frame whose command byte has no row in `cfg.OPTABLE` (R104). -/
  | unassignedOpcode (command : Byte) (payload : Bytes)
  /-- A good frame whose payload does not fit the operand of its command (R241, R242). -/
  | operandShape (command : Byte) (payload : Bytes)
deriving DecidableEq, Repr

/-- The instruction that bytes begin with and the bytes after it, or why there is none. -/
inductive Decoded where
  | instr (i : Instr) (rest : Bytes)
  | rejected (e : DecodeError)
deriving DecidableEq, Repr

/-- The wire command of an opcode with its payload (R231 to R242). An opcode that `cfg.OPTABLE` has beyond the
eleven named ones is sent by SEND as its row says (R105, R243). -/
def commandOf (cfg : Config) (p : PortId) (t : Nat) (command : Byte) (payload : Bytes) :
    Except DecodeError Instr :=
  if command = cfg.opPtt then .ok (.ptt p t payload)
  else if command = cfg.opModeSet then .ok (.modeSet p t payload)
  else if command = cfg.opStatusSync then .ok (.statusSync p t payload)
  else if command = cfg.opEquipId then .ok (.equipId p t payload)
  else if command = cfg.opPowerSet then .ok (.powerSet p t payload)
  else if command = cfg.opRxoffSet then .ok (.rxoffSet p t payload)
  else if command = cfg.opMeterSync then .ok (.meterSync p t payload)
  else if command = cfg.opParamSync then .ok (.paramSync p t payload)
  else if command = cfg.opSpectrum then .ok (.spectrum p t payload)
  else if command = cfg.opChWrite then
    if payload.length = cfg.recordLen then .ok (.chWrite p t payload)
    else .error (.operandShape command payload)
  else if command = cfg.opChRead then
    match payload with
    | [b0, b1] => .ok (.chRead p t (unbe16 b0 b1))
    | _ => .error (.operandShape command payload)
  else
    match rowOf cfg command with
    | some _ => .ok (.send p command payload t false)
    | none => .error (.unassignedOpcode command payload)

/-- The decoder of instruction words: the first frame of `bytes` (R146), then its command. -/
def decode (cfg : Config) (p : PortId) (t : Nat) (bytes : Bytes) : Decoded :=
  match decodeFrame cfg bytes with
  | .error cls => .rejected (.framing cls)
  | .packet q consumed =>
    match commandOf cfg p t q.command q.payload with
    | .ok i => .instr i (bytes.drop consumed)
    | .error e => .rejected e

/-- The frame of a wire command with a payload that fits a frame (R92). -/
def encodeCommand (cfg : Config) (command : Byte) (payload : Bytes) : Option Bytes :=
  if payloadWf payload then some (encodeFrame cfg command payload) else none

/-- The encoder: the frame of a wire command (R90, R101, R232 to R242); no other operation has bits on the
wire. -/
def encode (cfg : Config) (i : Instr) : Option Bytes :=
  match i with
  | .ptt _ _ payload => encodeCommand cfg cfg.opPtt payload
  | .modeSet _ _ payload => encodeCommand cfg cfg.opModeSet payload
  | .statusSync _ _ payload => encodeCommand cfg cfg.opStatusSync payload
  | .equipId _ _ payload => encodeCommand cfg cfg.opEquipId payload
  | .powerSet _ _ payload => encodeCommand cfg cfg.opPowerSet payload
  | .rxoffSet _ _ payload => encodeCommand cfg cfg.opRxoffSet payload
  | .meterSync _ _ payload => encodeCommand cfg cfg.opMeterSync payload
  | .paramSync _ _ payload => encodeCommand cfg cfg.opParamSync payload
  | .spectrum _ _ payload => encodeCommand cfg cfg.opSpectrum payload
  | .chWrite _ _ payload => encodeCommand cfg cfg.opChWrite payload
  | .chRead _ _ index => encodeCommand cfg cfg.opChRead (be16 index)
  | .crcInit | .crcByte _ | .crcBit _ | .crc16 _ | .crcValue _ | .crcCheck _ _ => none
  | .encode _ _ | .decode _ | .decStep _ => none
  | .connect _ | .disconnect _ | .resetInput _ | .txPut _ _ | .rxTake _ => none
  | .send _ _ _ _ _ => none
  | .encodeChannel _ | .encodeChannelStrict _ | .decodeChannel _ | .freqToIndex _ | .indexToFreq _ => none
  | .readChannel _ _ _ | .writeChannel _ _ _ _ | .queryStatus _ _ | .setAllowUnstable _ _ => none
  | .queryMeters _ _ | .queryParams _ _ | .readAll _ _ _ | .writeAll _ _ _ => none

/-- The Session (port) of an instruction word of the opcode table, which gives it no bits (log 8). -/
def tablePort : PortId := 0

/-- The timeout of an instruction word of the opcode table, which gives it no bits: the value of the spec's
vectors (R6 `timeout`, log 8). -/
def tableTimeout : Nat := 1000

/-- Byte `k` of a number, byte 0 its least significant. -/
def byteOfNat (w k : Nat) : Byte := BitVec.ofNat 8 (w / 2 ^ (8 * k))

/-- The bytes of an instruction word as opcode_table.json numbers them: its low byte is the command byte of the
frame, the bytes above it are the payload's first bytes, every payload byte the table gives no bits is zero, and
the magic, the length and the CRC are those of the frame (R90 to R93). -/
def tableBytes (cfg : Config) (nbits w : Nat) : Option Bytes :=
  if nbits = 0 then none
  else
    let word := w % 2 ^ nbits
    let command := byteOfNat word 0
    let given := (List.range ((nbits + 7) / 8 - 1)).map (fun k => byteOfNat word (k + 1))
    let want := match rowOf cfg command with
      | some row => operandBytes cfg row.request
      | none => 0
    some (encodeFrame cfg command (given ++ List.replicate (want - given.length) 0#8))

/-- The instruction the decoder reads from a word of the opcode table, under `CFG_REF`, whose opcodes the table
lists. -/
def decodeTableWord (nbits w : Nat) : Option Instr :=
  match tableBytes cfgRef nbits w with
  | none => none
  | some bytes =>
    match decode cfgRef tablePort tableTimeout bytes with
    | .instr i _ => some i
    | .rejected _ => none

end Sys2Proof
end

