-- ==== Sys2Proof/Machine/State.lean ====
section
/-!
DEFINITION. The state of the engine as plain data (10_state.md R20 to R36, R41, R46), the values and typed errors
an operation returns (60_exceptions.md R310 to R318), the inputs of the environment, the refusals, and the state
at power-on.
-/

namespace Sys2Proof.Machine

/-! ## Values of the registers -/

/-- `dec.phase` (R22). -/
inductive Phase where
  | hunt
  | len
  | body
  | done
deriving DecidableEq, Repr

/-- The decoder registers `dec` (R22), and the result that DEC.BYTE and DEC.END store (41_frame_codec.md R152;
log 18). -/
structure Dec where
  phase   : Phase
  win     : Bytes
  len     : Byte
  cnt     : Byte
  body    : Bytes
  skipped : Nat
  result  : Option DecodeResult
deriving DecidableEq, Repr

/-- `disp`, the dispatcher state (R24). -/
inductive Disp where
  | idle
  | sent
  | decoded
  | timedOut
  | framingFailed
deriving DecidableEq, Repr

/-- The failure class of an attempt (R27). -/
inductive FailClass where
  | timeout
  | magic
  | truncated
  | lengthInvalid
  | crc
  | shape
deriving DecidableEq, Repr

/-- The level of an output control line (R28). -/
inductive LineLevel where
  | low
  | high
deriving DecidableEq, Repr

/-- A live Session (R30). -/
structure Session where
  port          : PortId
  baud          : Nat
  dtr           : LineLevel
  rts           : LineLevel
  connected     : Bool
  allowUnstable : Bool
deriving DecidableEq, Repr

/-- The state kept for one port identifier: the Session, its streams and its dispatcher registers (R171: each
Session has "its own `rx`, `tx`, `disp`"), and the policy registers, which outlive the Session (R32). Log 9. -/
structure Link where
  session      : Option Session
  rx           : Bytes
  tx           : Bytes
  disp         : Disp
  attempt      : Nat
  curCmd       : Byte
  curPayload   : Bytes
  curFrame     : Bytes
  deadline     : Nat
  curTimeout   : Nat
  lastRaw      : Bytes
  lastFail     : Option FailClass
  /-- `policy.last_unstable` of the class (`RATE_SCOPE = PerClass`). -/
  unstableAt   : Option Nat
  /-- `policy.last_unstable` of each opcode, by its number (`RATE_SCOPE = PerCommand`). -/
  unstableAtOp : List (Nat × Nat)
deriving DecidableEq, Repr

/-! ## What operations return -/

/-- Causes of `ConnectionError` (R311). -/
inductive ConnectionCause where
  | portUnavailable
  | handshakeFailed
  | notConnected
deriving DecidableEq, Repr

/-- Causes of `UnsupportedOperationError` (R316). -/
inductive UnsupportedCause where
  | blocked
  | notOptedIn
  | noTableEntry
deriving DecidableEq, Repr

/-- The typed errors that reach a caller (R310 to R317), with what each records. `FramingError` and
`TimeoutError` surface only inside a `ProtocolError` (R312, R313), as its class. -/
inductive TypedError where
  | connection (port : PortId) (cause : ConnectionCause)
  | unsupported (opcode : Byte) (cause : UnsupportedCause) (index : Option Word16)
  | rateLimited (opcode : Byte) (remaining : Nat)
  | protocol (opcode : Byte) (cls : FailClass) (attempts : Nat) (lastRaw : Bytes)
  | echoMismatch (index : Word16) (sent echoed : Bytes)
deriving DecidableEq, Repr

/-- An error as it is reported: "every error value carries the opcode, and for channel operations the index"
(46_host_operations.md R290), and the risk class of the request, without which a failure cannot be told from an
ordinary transient one (60_exceptions.md R327: "unless the specific opcode and risk class are reported"). Log
12. -/
structure ErrorReport where
  error   : TypedError
  opcode  : Option Byte
  channel : Option Word16
  risk    : Option Risk
deriving DecidableEq, Repr

/-- What `read_channel` returns: the record and its two reports (R292). -/
structure ReadReport where
  record       : ChannelRecord
  valid        : Bool
  indexMatches : Bool
deriving DecidableEq, Repr

/-- A result slot of READ_ALL (R297). -/
inductive ReadSlot where
  | ok (report : ReadReport)
  | err (report : ErrorReport)
deriving DecidableEq, Repr

/-- A result slot of WRITE_ALL (R298). -/
inductive WriteSlot where
  | ok
  | err (report : ErrorReport)
deriving DecidableEq, Repr

/-- The value or typed error that an operation returns. Log 11. -/
inductive RetVal where
  /-- No operation has returned since power-on. -/
  | nothing
  /-- `()`: the operation returns no value. -/
  | unit
  | word (w : Word16)
  | bytes (s : Bytes)
  | bool (b : Bool)
  | decoded (r : DecodeResult)
  /-- A step of the streaming decoder: whether the byte was consumed, and the result so far (R152). -/
  | decStep (consumed : Bool) (result : Option DecodeResult)
  | packet (q : Packet)
  /-- RX_TAKE: a byte, or empty (R176). -/
  | taken (b : Option Byte)
  | session (x : Session)
  | record (r : ChannelRecord)
  | strict (r : StrictResult)
  | toneIndex (i : Option Nat)
  | toneFreq (f : Option Nat)
  | read (report : ReadReport)
  | readAll (slots : List ReadSlot)
  | writeAll (slots : List WriteSlot)
  | error (report : ErrorReport)
deriving DecidableEq, Repr

/-! ## Inputs -/

/-- What the environment does at one wait of the engine (43_dispatcher.md R202): `now` advances, and bytes
arrive on ports, in order. -/
structure Wait where
  dt     : Nat
  arrive : List (PortId × Byte)
deriving DecidableEq, Repr

/-- The environment's choices still to come, one list for each kind of observation point (R10 `draw`, R41, R44,
R171, R177, R299). Log 6; what happens when a list is exhausted is log 7. -/
structure Env where
  waits   : List Wait
  ioFails : List Bool
  opens   : List Bool
  lines   : List Bool
  cancels : List Bool
deriving DecidableEq, Repr

/-- One entry of the host's queue (log 8). -/
inductive Request where
  /-- The host issues nothing for one step of the environment. -/
  | idle
  /-- An operation selected through the host interface, with its operands. -/
  | op (i : Instr)
  /-- A wire command given as its frame, on the Session of port `p` with timeout `t`. -/
  | frame (p : PortId) (t : Nat) (bytes : Bytes)
deriving DecidableEq, Repr

/-! ## The state -/

/-- The state of the machine. `cfg` to `now` are the spec's (R20, R46); `requests`, `env` and `ret` are the
model's own inputs and outputs (log 6, 8, 11). -/
structure State where
  cfg       : Config
  crcReg    : Word16
  dec       : Dec
  /-- The ports whose record differs from power-on, port numbers strictly rising (log 9). -/
  links     : List (Nat × Link)
  /-- `ports_held` (R31), strictly rising. -/
  portsHeld : List PortId
  now       : Nat
  requests  : List Request
  env       : Env
  ret       : RetVal
deriving DecidableEq, Repr

/-- Why a step could stop with a fault. The spec has none: an error is a value an operation returns, after which
the machine goes on (60_exceptions.md R325, R326). There is no constructor, so no step ends in a fault; log 33. -/
inductive Fault where
deriving DecidableEq, Repr

/-- Why the model gives an input no meaning. Each is safe: a refusal makes no claim about what a real
implementation does with the input (60_exceptions.md R318). -/
inductive Refusal where
  /-- An operation of the opcode table without a meaning yet; raised by `exec`'s refused arms only. Safe. -/
  | notModelled (mnemonic : String)
  /-- An operation on a Session with a request in flight (43_dispatcher.md R191, 70_reset_and_hazards.md R361);
  raised by SEND's gate, CONNECT, DISCONNECT, RESET_INPUT, TX_PUT, RX_TAKE, SET_ALLOW_UNSTABLE, READ_ALL and
  WRITE_ALL. Safe. -/
  | busy (p : PortId)
  /-- A request payload that does not fit its row's request shape (R197); raised by SEND's gate. Safe. -/
  | requestShape (command : Byte)
  /-- A payload longer than 252 bytes (41_frame_codec.md R142); raised by ENCODE and SEND's gate. Safe. -/
  | payloadTooLong (length : Nat)
  /-- A channel index above `MAX_CHANNEL` (46_host_operations.md R291); raised by READ_CHANNEL, WRITE_CHANNEL,
  READ_ALL and WRITE_ALL. Safe. -/
  | indexOutOfRange (index : Word16)
  /-- DECODE_CHANNEL of a number of bytes other than `RECORD_LEN` (45_channel_codec.md R262); raised by
  DECODE_CHANNEL, and by READ_CHANNEL under a table whose response shape is not `Record`. Safe. -/
  | recordLength (length : Nat)
  /-- A configuration that violates R7; raised by `step`. Safe. -/
  | illFormedConfig
deriving DecidableEq, Repr

/-! ## Power-on -/

/-- The decoder registers after DEC.START (R22, R152). -/
def Dec.start : Dec :=
  { phase := .hunt, win := [], len := 0#8, cnt := 0#8, body := [], skipped := 0, result := none }

/-- The record of a port at power-on (R46; the latches R26 are log 3). -/
def Link.powerOn : Link where
  session := none
  rx := []
  tx := []
  disp := .idle
  attempt := 0
  curCmd := 0#8
  curPayload := []
  curFrame := []
  deadline := 0
  curTimeout := 0
  lastRaw := []
  lastFail := none
  unstableAt := none
  unstableAtOp := []

/-- No input of the environment is listed. -/
def Env.empty : Env := { waits := [], ioFails := [], opens := [], lines := [], cancels := [] }

/-- The machine at power-on (10_state.md R46, 70_reset_and_hazards.md R350, R351). The values of `cfg`, `crcReg`
and `now` are log 1, 2 and 4. -/
def State.reset : State where
  cfg := cfgRef
  crcReg := 0xFFFF#16
  dec := Dec.start
  links := []
  portsHeld := []
  now := 0
  requests := []
  env := Env.empty
  ret := .nothing

end Sys2Proof.Machine
end

