-- ==== Sys2Proof/Machine/Flags.lean ====
section
/-!
DEFINITION. The flags of the block (10_state.md R28), read from a port's record, and the risk class of a request
(R33, 43_dispatcher.md R194).
-/

namespace Sys2Proof.Machine

/-- `busy` = `disp ≠ Idle or attempt ≠ 0` (R28). -/
def Link.busy (l : Link) : Bool := decide (l.disp ≠ .idle) || decide (l.attempt ≠ 0)

/-- `session.connected`, false while the Session is absent (R28, R46). -/
def Link.isConnected (l : Link) : Bool :=
  match l.session with
  | none => false
  | some x => x.connected

/-- `session.allow_unstable`, false while the Session is absent (R28, R46). -/
def Link.optedIn (l : Link) : Bool :=
  match l.session with
  | none => false
  | some x => x.allowUnstable

/-- The "terminal ready" line, low while the Session is absent (R28, R46). -/
def Link.dtrLevel (l : Link) : LineLevel :=
  match l.session with
  | none => .low
  | some x => x.dtr

/-- The "request to send" line, low while the Session is absent (R28, R46). -/
def Link.rtsLevel (l : Link) : LineLevel :=
  match l.session with
  | none => .low
  | some x => x.rts

/-- The payload of a channel write that holds a Digital record (R194, 45_channel_codec.md R276). -/
def digitalWrite (cfg : Config) (row : Row) (command : Byte) (payload : Bytes) : Bool :=
  decide (row.request = .record) && decide (command = cfg.opChWrite) &&
    decide (payload.length = cfg.recordLen) && isDigital (kindOf cfg.tail (payload.drop 26))

/-- The effective risk class of a request (R194): the row's class, refined to Blocked for a Digital channel
write. -/
def effectiveRisk (cfg : Config) (row : Row) (command : Byte) (payload : Bytes) : Risk :=
  if digitalWrite cfg row command payload then .blocked else row.risk

/-- The `policy.last_unstable` register that the rate limit of an opcode reads (R32): one for the class, or one
for each opcode. Log 27. -/
def Link.lastUnstable (cfg : Config) (l : Link) (command : Byte) : Option Nat :=
  match cfg.rateScope with
  | .perClass => l.unstableAt
  | .perCommand => assoc command.toNat l.unstableAtOp

end Sys2Proof.Machine
end

