-- ==== Sys2Proof/Machine/Ops.lean ====
section
/-!
DEFINITION. The named operations over the state: the per-port records, the environment's draws, the three I/O
steps TxPut, RxTake and RxFlush (42_transport.md R174 to R177), waiting, the decoder's steps on the registers,
and how an operation ends, with a value or with a typed error (60_exceptions.md R324, R325).
-/

namespace Sys2Proof.Machine

/-! ## Per-port records -/

/-- A table without the entries of key `k`. -/
def eraseKey {α : Type} (k : Nat) (t : List (Nat × α)) : List (Nat × α) :=
  t.filter (fun e => decide (e.1 ≠ k))

/-- A table with an entry put before the first larger key. -/
def insertKey {α : Type} (k : Nat) (a : α) : List (Nat × α) → List (Nat × α)
  | [] => [(k, a)]
  | (k', a') :: rest => if k < k' then (k, a) :: (k', a') :: rest else (k', a') :: insertKey k a rest

/-- The record of a port; a port that is not listed has its power-on record. -/
def linkAt (t : List (Nat × Link)) (p : PortId) : Link := (assoc p t).getD Link.powerOn

/-- The table with port `p`'s record replaced; a power-on record is not listed. -/
def putLink (t : List (Nat × Link)) (p : PortId) (l : Link) : List (Nat × Link) :=
  if l = Link.powerOn then eraseKey p t else insertKey p l (eraseKey p t)

/-- The record of port `p`. -/
def State.link (s : State) (p : PortId) : Link := linkAt s.links p

/-- The state with port `p`'s record replaced. -/
def State.setLink (s : State) (p : PortId) (l : Link) : State := { s with links := putLink s.links p l }

/-- `keys` rise strictly. -/
def rising : List Nat → Bool
  | [] => true
  | k :: rest => rest.all (fun k' => decide (k < k')) && rising rest

/-- The canonical form of the per-port table: ports strictly rising, no entry equal to a power-on record. -/
def linksWf (t : List (Nat × Link)) : Bool :=
  rising (t.map Prod.fst) && t.all (fun e => decide (e.2 ≠ Link.powerOn))

/-- A number put into a strictly rising list. -/
def insertPort (p : Nat) : List Nat → List Nat
  | [] => [p]
  | q :: rest => if p < q then p :: q :: rest else q :: insertPort p rest

/-- `ports_held − {p}` (R31). -/
def dropPort (p : PortId) (ps : List PortId) : List PortId := ps.filter (fun q => decide (q ≠ p))

/-- `ports_held ∪ {p}` (R31). -/
def holdPort (p : PortId) (ps : List PortId) : List PortId := insertPort p (dropPort p ps)

/-! ## Draws of the environment -/

/-- The next draw of a list and the draws after it; an exhausted list gives `dflt` (log 7). -/
def nextDraw (dflt : Bool) : List Bool → Bool × List Bool
  | [] => (dflt, [])
  | b :: rest => (b, rest)

/-- Does the platform report an I/O failure at this I/O step (R177)? -/
def State.drawIo (s : State) : Bool × State :=
  ((nextDraw false s.env.ioFails).1,
    { s with env := { s.env with ioFails := (nextDraw false s.env.ioFails).2 } })

/-- Does the port open (R171)? -/
def State.drawOpen (s : State) : Bool × State :=
  ((nextDraw true s.env.opens).1, { s with env := { s.env with opens := (nextDraw true s.env.opens).2 } })

/-- Can the control lines be set (R171)? -/
def State.drawLines (s : State) : Bool × State :=
  ((nextDraw true s.env.lines).1, { s with env := { s.env with lines := (nextDraw true s.env.lines).2 } })

/-- Has the host requested cancellation (R299, R320)? -/
def State.drawCancel (s : State) : Bool × State :=
  ((nextDraw false s.env.cancels).1,
    { s with env := { s.env with cancels := (nextDraw false s.env.cancels).2 } })

/-! ## The device's bytes and the passage of time -/

/-- The device appends one byte to a port's `rx` (10_state.md R44). -/
def arriveByte (s : State) (e : PortId × Byte) : State :=
  s.setLink e.1 { s.link e.1 with rx := (s.link e.1).rx ++ [e.2] }

/-- What the environment does at one wait: `now` advances, bytes arrive (R41, R44). -/
def applyWait (w : Wait) (s : State) : State :=
  w.arrive.foldl arriveByte { s with now := s.now + w.dt }

/-- One wait of the engine for time `target`. When no input is listed, `now` advances to `target` and nothing
arrives (log 7). -/
def waitStep (target : Nat) (s : State) : State :=
  match s.env.waits with
  | [] => { s with now := max s.now target }
  | w :: ws => applyWait w { s with env := { s.env with waits := ws } }

/-- Wait while `now < target`; `fuel` bounds the number of waits (`waitUntil` gives enough). -/
def waitLoop (target : Nat) : Nat → State → State
  | 0, s => s
  | n + 1, s => if target ≤ s.now then s else waitLoop target n (waitStep target s)

/-- "wait until now has advanced" to `target` (R171, R179): at least so far, no upper bound. -/
def waitUntil (target : Nat) (s : State) : State := waitLoop target (s.env.waits.length + 1) s

/-- One step of the environment while the engine is idle: bytes accumulate in `rx`, time passes (R321). -/
def idleStep (s : State) : State :=
  match s.env.waits with
  | [] => s
  | w :: ws => applyWait w { s with env := { s.env with waits := ws } }

/-! ## I/O steps -/

/-- The Session of port `p` torn down (R177): lines low, handle closed, `disp` Idle, `attempt` 0; `rx` is empty
(R46). Log 23. -/
def teardown (p : PortId) (s : State) : State :=
  { s.setLink p { s.link p with session := none, rx := [], disp := .idle, attempt := 0 } with
    portsHeld := dropPort p s.portsHeld }

/-- How an I/O step ends: done, or with an unrecoverable failure after which the Session is torn down. -/
inductive IoResult where
  | ok (s : State)
  | failed (s : State)

/-- RxFlush (R174, R177). -/
def rxFlush (p : PortId) (s : State) : IoResult :=
  if s.drawIo.1 then .failed (teardown p s.drawIo.2)
  else .ok (s.drawIo.2.setLink p { s.drawIo.2.link p with rx := [] })

/-- TxPut `bytes` (R175, R177): the whole sequence, contiguously, in no time. -/
def txPut (p : PortId) (bytes : Bytes) (s : State) : IoResult :=
  if s.drawIo.1 then .failed (teardown p s.drawIo.2)
  else .ok (s.drawIo.2.setLink p { s.drawIo.2.link p with tx := (s.drawIo.2.link p).tx ++ bytes })

/-- How RxTake ends. -/
inductive TakeResult where
  | byte (b : Byte) (s : State)
  | empty (s : State)
  | failed (s : State)

/-- RxTake (R176, R177): the oldest byte, which is appended to `last_raw`, or empty. -/
def rxTake (p : PortId) (s : State) : TakeResult :=
  if s.drawIo.1 then .failed (teardown p s.drawIo.2)
  else match (s.drawIo.2.link p).rx with
    | [] => .empty s.drawIo.2
    | b :: rest =>
      .byte b (s.drawIo.2.setLink p
        { s.drawIo.2.link p with rx := rest, lastRaw := (s.drawIo.2.link p).lastRaw ++ [b] })

/-! ## The streaming decoder (41_frame_codec.md R152) -/

/-- The last 4 bytes of a sequence (`dec.win`). -/
def lastFour (l : Bytes) : Bytes := l.drop (l.length - 4)

/-- The result of a complete body, from the registers and the CRC of the bytes before the CRC field. -/
def bodyResult (cfg : Config) (d : Dec) (body : Bytes) (crc : Word16) : DecodeResult :=
  let received := unbe16 (byteAt body (body.length - 2)) (byteAt body (body.length - 1))
  if crc = received then
    .packet ⟨cfg.magic, d.len, byteAt body 0, (body.drop 1).take (body.length - 3), received⟩
      (d.skipped + 5 + d.len.toNat)
  else .error .crc

/-- DEC.BYTE `b` on the decoder registers and `crc_reg` (R152). In DONE the byte is not consumed. -/
def decByte (cfg : Config) (d : Dec) (crc : Word16) (b : Byte) : Dec × Word16 :=
  match d.phase with
  | .hunt =>
    let win := lastFour (d.win ++ [b])
    if win.length = 4 ∧ win = cfg.magic then ({ d with win := win, phase := .len }, crc)
    else if win.length = 4 then ({ d with win := win, skipped := d.skipped + 1 }, crc)
    else ({ d with win := win }, crc)
  | .len =>
    if b.toNat < 3 then ({ d with len := b, result := some (.error .lengthInvalid), phase := .done }, crc)
    else ({ d with len := b, cnt := b, phase := .body }, crcByteStep cfg.poly cfg.crcInit b)
  | .body =>
    let body := d.body ++ [b]
    let cnt := d.cnt - 1#8
    let crc' := if 2 ≤ cnt.toNat then crcByteStep cfg.poly crc b else crc
    if cnt = 0#8 then
      ({ d with body := body, cnt := cnt, result := some (bodyResult cfg d body crc'), phase := .done }, crc')
    else ({ d with body := body, cnt := cnt }, crc')
  | .done => (d, crc)

/-- DEC.END (R152): no more input. The phase is left as it stands (log 18). -/
def decEnd (d : Dec) : Dec :=
  match d.phase with
  | .hunt => { d with result := some (.error .magic) }
  | .len => { d with result := some (.error .truncated) }
  | .body => { d with result := some (.error .truncated) }
  | .done => d

/-- DEC.BYTE for each byte in order. -/
def decFeed (cfg : Config) (d : Dec) (crc : Word16) : Bytes → Dec × Word16
  | [] => (d, crc)
  | b :: rest => decFeed cfg (decByte cfg d crc b).1 (decByte cfg d crc b).2 rest

/-- DEC.BYTE on the state. -/
def State.decTake (s : State) (b : Byte) : State :=
  { s with dec := (decByte s.cfg s.dec s.crcReg b).1, crcReg := (decByte s.cfg s.dec s.crcReg b).2 }

/-- DEC.END on the state. -/
def State.decStop (s : State) : State := { s with dec := decEnd s.dec }

/-- The result that stands after DEC.END; there always is one (`decEnd_result` for the phases before DONE). -/
def Dec.outcome (d : Dec) : DecodeResult := d.result.getD (.error .truncated)

/-! ## How an operation ends -/

/-- `disp <- Idle; attempt <- 0`, as after every error and every return (R24, R212, R324). A record that is
idle already is left as it stands. -/
def goIdle (p : PortId) (s : State) : State :=
  if (s.link p).busy then s.setLink p { s.link p with disp := .idle, attempt := 0 } else s

/-- TAKING AN ERROR (60_exceptions.md R324, R325): the engine is left with `disp = Idle` and `attempt = 0` on the
port, and the error value, with the opcode and the channel it concerns (R290), is the only thing saved. Control
goes back to the caller. -/
def raiseError (p : PortId) (report : ErrorReport) (s : State) : State :=
  { goIdle p s with ret := .error report }

/-- Returning a value. There is no return-from-trap: after an error the next operation starts from Idle like any
other (R326). -/
def returnValue (v : RetVal) (s : State) : State := { s with ret := v }

/-- `ConnectionError` of a port (R311), from an operation that makes no request: no opcode, no risk class. -/
def connectionReport (p : PortId) (cause : ConnectionCause) : ErrorReport :=
  { error := .connection p cause, opcode := none, channel := none, risk := none }

end Sys2Proof.Machine
end

