-- ==== Sys2Proof/Machine/CodecOps.lean ====
section
/-!
DEFINITION. The frame codec operations ENCODE, DECODE and DEC.STEP (41_frame_codec.md R141, R142, R146, R152).
They touch neither `rx` nor `tx` and use `crc_reg` and `dec` as scratch (R140).
-/

namespace Sys2Proof.Machine

/-- ENCODE (R141, R142): `crc_reg` is left with the CRC of the frame. -/
def execEncode (command : Byte) (payload : Bytes) (s : State) : Host.Outcome State Fault Refusal :=
  if payload.length ≤ maxPayload then
    .next (returnValue (.bytes (encodeFrame s.cfg command payload))
      { s with crcReg := frameCrc s.cfg command payload })
  else .refused (.payloadTooLong payload.length)

/-- DECODE (R146): the result of the function; the registers are left as the streaming form leaves them (R140,
R152). Log 19. -/
def execDecode (bytes : Bytes) (s : State) : Host.Outcome State Fault Refusal :=
  .next (returnValue (.decoded (decodeFrame s.cfg bytes))
    { s with
      dec := decEnd (decFeed s.cfg Dec.start s.crcReg bytes).1,
      crcReg := (decFeed s.cfg Dec.start s.crcReg bytes).2 })

/-- DEC.START, DEC.BYTE b, DEC.END (R152). DEC.BYTE returns whether the byte was consumed. -/
def execDecStep (op : DecOp) (s : State) : Host.Outcome State Fault Refusal :=
  match op with
  | .start => .next (returnValue (.decStep false none) { s with dec := Dec.start })
  | .byte b =>
    .next (returnValue (.decStep (decide (s.dec.phase ≠ .done)) (s.decTake b).dec.result) (s.decTake b))
  | .finish => .next (returnValue (.decStep false s.decStop.dec.result) s.decStop)

end Sys2Proof.Machine
end

