-- ==== Sys2Proof/Machine/CrcOps.lean ====
section
/-!
DEFINITION. The CRC operations (40_crc.md R121 to R127). They write `crc_reg`, no flag, and raise no error.
-/

namespace Sys2Proof.Machine

/-- CRC.INIT (R121). -/
def execCrcInit (s : State) : Host.Outcome State Fault Refusal :=
  .next (returnValue .unit { s with crcReg := s.cfg.crcInit })

/-- CRC.BYTE b (R122). -/
def execCrcByte (b : Byte) (s : State) : Host.Outcome State Fault Refusal :=
  .next (returnValue .unit { s with crcReg := crcByteStep s.cfg.poly s.crcReg b })

/-- CRC.BIT d (R123). -/
def execCrcBit (d : Bool) (s : State) : Host.Outcome State Fault Refusal :=
  .next (returnValue .unit { s with crcReg := crcBitStep s.cfg.poly s.crcReg d })

/-- `crc16(s)` (R124): the register is the scratch of the computation and holds its result. -/
def execCrc16 (bytes : Bytes) (s : State) : Host.Outcome State Fault Refusal :=
  .next (returnValue (.word (crc16 s.cfg bytes)) { s with crcReg := crc16 s.cfg bytes })

/-- CRC.VALUE and CRC.APPEND (R125). -/
def execCrcValue (form : CrcReadForm) (s : State) : Host.Outcome State Fault Refusal :=
  match form with
  | .value => .next (returnValue (.word s.crcReg) s)
  | .append => .next (returnValue (.bytes (be16 s.crcReg)) s)

/-- CRC.CHECK (R127): *match* exactly when `crc16(s)` is the received value. Log 19. -/
def execCrcCheck (bytes : Bytes) (received : Word16) (s : State) : Host.Outcome State Fault Refusal :=
  .next (returnValue (.bool (decide (crc16 s.cfg bytes = received))) { s with crcReg := crc16 s.cfg bytes })

end Sys2Proof.Machine
end

