-- ==== Sys2Proof/Machine/Dispatcher.lean ====
section
/-!
DEFINITION. SEND (43_dispatcher.md R190 to R213): the gate, the latch, the attempt, the bounded retry loop. The
loops of R202 and R206 are recursions on a number that bounds them.
-/

namespace Sys2Proof.Machine

/-! ## The gate (R191 to R198) -/

/-- What the gate answers. -/
inductive Gate where
  | pass (risk : Risk)
  | error (e : TypedError)
  | refused (r : Refusal)
deriving DecidableEq, Repr

/-- The index an `UnsupportedOperationError` records for a channel write: the first two payload bytes (R195,
R316). Log 25. -/
def writeIndex (cfg : Config) (command : Byte) (payload : Bytes) : Option Word16 :=
  if command = cfg.opChWrite ∧ 2 ≤ payload.length then some (u16At payload 0) else none

/-- R197: the payload fits the request shape, and a frame (41_frame_codec.md R142). -/
def gateShape (cfg : Config) (row : Row) (command : Byte) (payload : Bytes) (risk : Risk) : Gate :=
  if !fits cfg row.request payload then .refused (.requestShape command)
  else if maxPayload < payload.length then .refused (.payloadTooLong payload.length)
  else .pass risk

/-- R196: opt-in, then interval; then R197. -/
def gateUnstable (cfg : Config) (l : Link) (now : Nat) (row : Row) (command : Byte) (payload : Bytes) : Gate :=
  if !l.optedIn then .error (.unsupported command .notOptedIn (writeIndex cfg command payload))
  else match l.lastUnstable cfg command with
    | none => gateShape cfg row command payload .unstable
    | some t0 =>
      if now - t0 < cfg.minInterval then .error (.rateLimited command (cfg.minInterval - (now - t0)))
      else gateShape cfg row command payload .unstable

/-- The checks made before any byte is sent, in the order of R198; the first that fails decides. -/
def gate (cfg : Config) (l : Link) (now : Nat) (p : PortId) (command : Byte) (payload : Bytes)
    (allowBlocked : Bool) : Gate :=
  if l.busy then .refused (.busy p)
  else if !l.isConnected then .error (.connection p .notConnected)
  else match rowOf cfg command with
    | none => .error (.unsupported command .noTableEntry (writeIndex cfg command payload))
    | some row =>
      match effectiveRisk cfg row command payload with
      | .blocked =>
        if !allowBlocked then .error (.unsupported command .blocked (writeIndex cfg command payload))
        else gateShape cfg row command payload .blocked
      | .unstable => gateUnstable cfg l now row command payload
      | .stable => gateShape cfg row command payload .stable

/-- `policy.last_unstable <- now` (R196), the register that `RATE_SCOPE` selects (R32). -/
def Link.stampUnstable (cfg : Config) (l : Link) (command : Byte) (now : Nat) : Link :=
  match cfg.rateScope with
  | .perClass => { l with unstableAt := some now }
  | .perCommand =>
    { l with unstableAtOp := insertKey command.toNat now (eraseKey command.toNat l.unstableAtOp) }

/-- What passing the gate writes: the rate-limit register, for an Unstable request only (R196, R198). -/
def stampPolicy (p : PortId) (command : Byte) (risk : Risk) (s : State) : State :=
  match risk with
  | .unstable => s.setLink p ((s.link p).stampUnstable s.cfg command s.now)
  | .stable => s
  | .blocked => s

/-! ## Latch and attempt -/

/-- The latch (R199). ENCODE leaves the frame's CRC in `crc_reg` (41_frame_codec.md R141). -/
def latch (p : PortId) (command : Byte) (payload : Bytes) (timeout : Nat) (s : State) : State :=
  { s.setLink p { s.link p with
      curCmd := command, curPayload := payload, curFrame := encodeFrame s.cfg command payload,
      curTimeout := timeout, attempt := 0, lastFail := none } with
    crcReg := frameCrc s.cfg command payload }

/-- How the receive loop ends. -/
inductive RecvResult where
  | done (s : State)
  | ioFailed (s : State)

/-- The receive loop (R202): buffered bytes are consumed before the deadline is examined. `fuel` bounds the
number of iterations (`receive` gives enough: `receiveLoop_enough_fuel`). -/
def receiveLoop (p : PortId) : Nat → State → RecvResult
  | 0, s => .done s.decStop
  | n + 1, s =>
    if s.dec.phase = .done then .done s
    else match rxTake p s with
      | .failed s1 => .ioFailed s1
      | .byte b s1 => receiveLoop p n (s1.decTake b)
      | .empty s1 =>
        if (s1.link p).deadline ≤ s1.now then .done s1.decStop
        else receiveLoop p n (waitStep (s1.link p).deadline s1)

/-- A bound on the iterations of the receive loop: the bytes that wait or arrive, the waits listed, one wait
beyond them and the last look at the deadline. -/
def receiveFuel (p : PortId) (s : State) : Nat :=
  (s.link p).rx.length + (s.env.waits.map (fun w => w.arrive.length)).sum + s.env.waits.length + 2

/-- The receive loop from a state with `disp = Sent` (R202). -/
def receive (p : PortId) (s : State) : RecvResult := receiveLoop p (receiveFuel p s) s

/-- The dispatcher's name of a decoder failure (R203, R27). -/
def failOf : FramingClass → FailClass
  | .magic => .magic
  | .truncated => .truncated
  | .lengthInvalid => .lengthInvalid
  | .crc => .crc

/-- How an attempt ends. -/
inductive AttemptResult where
  | decoded (q : Packet) (s : State)
  | failed (s : State)
  | ioFailed (s : State)

/-- The attempt ends in `TimedOut` or `FramingFailed` (R203, R204), then `disp` goes back to Idle (R205). -/
def failAttempt (p : PortId) (disp : Disp) (cls : FailClass) (s : State) : State :=
  let s1 := s.setLink p { s.link p with disp := disp, lastFail := some cls }
  s1.setLink p { s1.link p with disp := .idle }

/-- The attempt ends in `Decoded` (R204), then `disp` goes back to Idle (R205). -/
def passAttempt (p : PortId) (s : State) : State :=
  let s1 := s.setLink p { s.link p with disp := .decoded }
  s1.setLink p { s1.link p with disp := .idle }

/-- A reply answers the request in flight: its command byte is the request's and its payload fits the response
shape (R204). -/
def replyFits (cfg : Config) (command : Byte) (q : Packet) : Bool :=
  decide (q.command = command) &&
    (match rowOf cfg command with
     | some row => fits cfg row.response q.payload
     | none => false)

/-- Classify and validate (R203, R204). -/
def classify (p : PortId) (s : State) : AttemptResult :=
  match s.dec.outcome with
  | .error cls =>
    if (s.link p).lastRaw = [] then .failed (failAttempt p .timedOut .timeout s)
    else .failed (failAttempt p .framingFailed (failOf cls) s)
  | .packet q _ =>
    if replyFits s.cfg (s.link p).curCmd q then .decoded q (passAttempt p s)
    else .failed (failAttempt p .framingFailed .shape s)

/-- `attempt <- attempt + 1; last_raw <- []` (R201). -/
def countAttempt (p : PortId) (s : State) : State :=
  s.setLink p { s.link p with attempt := (s.link p).attempt + 1, lastRaw := [] }

/-- `deadline <- now + cur_timeout; disp <- Sent` (R201). -/
def armDeadline (p : PortId) (s : State) : State :=
  s.setLink p { s.link p with deadline := s.now + (s.link p).curTimeout, disp := .sent }

/-- DEC.START (R152). -/
def State.decBegin (s : State) : State := { s with dec := Dec.start }

/-- One attempt: flush and transmit (R201), receive (R202), classify and validate (R203, R204), back to Idle
(R205). -/
def attempt (p : PortId) (s : State) : AttemptResult :=
  match rxFlush p (countAttempt p s) with
  | .failed s1 => .ioFailed s1
  | .ok s1 =>
    match txPut p (s1.decBegin.link p).curFrame s1.decBegin with
    | .failed s2 => .ioFailed s2
    | .ok s2 =>
      match receive p (armDeadline p s2) with
      | .ioFailed s3 => .ioFailed s3
      | .done s3 => classify p s3

/-! ## The retry loop (R200, R206 to R208) -/

/-- How SEND ends. -/
inductive Reply where
  | packet (q : Packet) (s : State)
  | error (e : TypedError) (s : State)
  | refused (r : Refusal)

/-- The error of the last admitted attempt (R207). -/
def protocolError (l : Link) : TypedError :=
  .protocol l.curCmd (l.lastFail.getD .timeout) l.attempt l.lastRaw

/-- The pause before the next attempt: `RETRY_DELAY`, 0 in `CFG_REF` (R200, R206). Log 15. -/
def retryPause (s : State) : State := waitUntil (s.now + s.cfg.retryDelay) s

/-- One attempt and, after a failed one, up to `retries` more (R200, R206 to R208). -/
def tryAttempts (p : PortId) : Nat → State → Reply
  | 0, s =>
    match attempt p s with
    | .ioFailed s1 => .error (.connection p .portUnavailable) s1
    | .decoded q s1 => .packet q (goIdle p s1)
    | .failed s1 => .error (protocolError (s1.link p)) (goIdle p s1)
  | n + 1, s =>
    match attempt p s with
    | .ioFailed s1 => .error (.connection p .portUnavailable) s1
    | .decoded q s1 => .packet q (goIdle p s1)
    | .failed s1 => tryAttempts p n (retryPause s1)

/-- SEND (R190): the gate, the latch, the attempts. -/
def sendRequest (p : PortId) (command : Byte) (payload : Bytes) (timeout : Nat) (allowBlocked : Bool)
    (s : State) : Reply :=
  match gate s.cfg (s.link p) s.now p command payload allowBlocked with
  | .refused r => .refused r
  | .error e => .error e s
  | .pass risk =>
    tryAttempts p s.cfg.maxRetries (latch p command payload timeout (stampPolicy p command risk s))

/-- The risk class that a failed request reports (60_exceptions.md R327): the effective class (R194) of a command
that has a row. Log 12. -/
def reportedRisk (cfg : Config) (command : Byte) (payload : Bytes) : Option Risk :=
  (rowOf cfg command).map (fun row => effectiveRisk cfg row command payload)

/-- The report of an error that SEND raised (R290, R314, R327). -/
def sendReport (cfg : Config) (command : Byte) (payload : Bytes) (channel : Option Word16) (e : TypedError) :
    ErrorReport :=
  { error := e, opcode := some command, channel := channel, risk := reportedRisk cfg command payload }

end Sys2Proof.Machine
end

