-- ==== Sys2Proof/Machine/Commands.lean ====
section
/-!
DEFINITION. SEND (43_dispatcher.md R190) and the eleven wire commands carried by it (44_commands.md R232 to
R242). What a command does is a function of its row of `cfg.OPTABLE` (R230).
-/

namespace Sys2Proof.Machine

/-- SEND (R190): returns the Packet or a typed error. -/
def execSend (p : PortId) (command : Byte) (payload : Bytes) (t : Nat) (allowBlocked : Bool) (s : State) :
    Host.Outcome State Fault Refusal :=
  match sendRequest p command payload t allowBlocked s with
  | .packet q s1 => .next (returnValue (.packet q) s1)
  | .error e s1 => .next (raiseError p (sendReport s.cfg command payload none e) s1)
  | .refused r => .refused r

/-- `q <- send(s, op, payload, t); return q.payload`, with the channel a failure concerns (R232 to R242). -/
def wireCommand (op : Byte) (p : PortId) (t : Nat) (payload : Bytes) (channel : Option Word16) (s : State) :
    Host.Outcome State Fault Refusal :=
  match sendRequest p op payload t false s with
  | .packet q s1 => .next (returnValue (.bytes q.payload) s1)
  | .error e s1 => .next (raiseError p (sendReport s.cfg op payload channel e) s1)
  | .refused r => .refused r

/-- PTT (R232). -/
def execPtt (p : PortId) (t : Nat) (payload : Bytes) (s : State) : Host.Outcome State Fault Refusal :=
  wireCommand s.cfg.opPtt p t payload none s

/-- MODE_SET (R233). -/
def execModeSet (p : PortId) (t : Nat) (payload : Bytes) (s : State) : Host.Outcome State Fault Refusal :=
  wireCommand s.cfg.opModeSet p t payload none s

/-- STATUS_SYNC (R234). -/
def execStatusSync (p : PortId) (t : Nat) (payload : Bytes) (s : State) : Host.Outcome State Fault Refusal :=
  wireCommand s.cfg.opStatusSync p t payload none s

/-- EQUIP_ID (R235). -/
def execEquipId (p : PortId) (t : Nat) (payload : Bytes) (s : State) : Host.Outcome State Fault Refusal :=
  wireCommand s.cfg.opEquipId p t payload none s

/-- POWER_SET (R236). -/
def execPowerSet (p : PortId) (t : Nat) (payload : Bytes) (s : State) : Host.Outcome State Fault Refusal :=
  wireCommand s.cfg.opPowerSet p t payload none s

/-- RXOFF_SET (R237). -/
def execRxoffSet (p : PortId) (t : Nat) (payload : Bytes) (s : State) : Host.Outcome State Fault Refusal :=
  wireCommand s.cfg.opRxoffSet p t payload none s

/-- METER_SYNC (R238). -/
def execMeterSync (p : PortId) (t : Nat) (payload : Bytes) (s : State) : Host.Outcome State Fault Refusal :=
  wireCommand s.cfg.opMeterSync p t payload none s

/-- PARAM_SYNC (R239). -/
def execParamSync (p : PortId) (t : Nat) (payload : Bytes) (s : State) : Host.Outcome State Fault Refusal :=
  wireCommand s.cfg.opParamSync p t payload none s

/-- SPECTRUM (R240). -/
def execSpectrum (p : PortId) (t : Nat) (payload : Bytes) (s : State) : Host.Outcome State Fault Refusal :=
  wireCommand s.cfg.opSpectrum p t payload none s

/-- CH_WRITE (R241): the operand is the request payload (log 16). -/
def execChWrite (p : PortId) (t : Nat) (payload : Bytes) (s : State) : Host.Outcome State Fault Refusal :=
  wireCommand s.cfg.opChWrite p t payload (writeIndex s.cfg s.cfg.opChWrite payload) s

/-- CH_READ (R242): the request payload is `be16(index)`. -/
def execChRead (p : PortId) (t : Nat) (index : Word16) (s : State) : Host.Outcome State Fault Refusal :=
  wireCommand s.cfg.opChRead p t (be16 index) (some index) s

end Sys2Proof.Machine
end

