-- ==== Sys2Proof/Machine/HostOps.lean ====
section
/-!
DEFINITION. The host operations (46_host_operations.md R290 to R300): fixed compositions of SEND and the codecs,
with no state of their own.
-/

namespace Sys2Proof.Machine

/-- R291: the index is above `MAX_CHANNEL`. -/
def indexTooLarge (cfg : Config) (index : Word16) : Bool := decide (cfg.maxChannel < index.toNat)

/-- How one channel read ends. -/
inductive ReadResult where
  | ok (report : ReadReport) (s : State)
  | error (report : ErrorReport) (s : State)
  | refused (r : Refusal)

/-- One channel read (R292): SEND of CH_READ, DECODE_CHANNEL, and the two reports. -/
def readOne (p : PortId) (t : Nat) (index : Word16) (s : State) : ReadResult :=
  match sendRequest p s.cfg.opChRead (be16 index) t false s with
  | .packet q s1 =>
    if q.payload.length = s.cfg.recordLen then
      .ok
        { record := decodeRecord s.cfg q.payload,
          valid := validRecord s.cfg (decodeRecord s.cfg q.payload),
          indexMatches := decide ((decodeRecord s.cfg q.payload).index = index) } s1
    else .refused (.recordLength q.payload.length)
  | .error e s1 => .error (sendReport s.cfg s.cfg.opChRead (be16 index) (some index) e) s1
  | .refused r => .refused r

/-- READ_CHANNEL (R291, R292). An index out of range is refused before anything else is looked at, a busy port or an
absent Session included: no rule orders R291 against R178 and R191, and the order is the model's choice (log 22). -/
def execReadChannel (p : PortId) (index : Word16) (t : Nat) (s : State) : Host.Outcome State Fault Refusal :=
  if indexTooLarge s.cfg index then .refused (.indexOutOfRange index)
  else match readOne p t index s with
    | .ok report s1 => .next (returnValue (.read report) s1)
    | .error report s1 => .next (raiseError p report s1)
    | .refused r => .refused r

/-- How one channel write ends. -/
inductive WriteResult where
  | ok (s : State)
  | error (report : ErrorReport) (s : State)
  | refused (r : Refusal)

/-- One channel write (R293, R294): SEND of CH_WRITE with the lenient encoding, then the byte-exact echo compare,
which is not retried. The Digital check is SEND's gate. -/
def writeOne (p : PortId) (t : Nat) (allowBlocked : Bool) (record : ChannelRecord) (s : State) : WriteResult :=
  match sendRequest p s.cfg.opChWrite (encodeRecord s.cfg record) t allowBlocked s with
  | .packet q s1 =>
    if q.payload = encodeRecord s.cfg record then .ok s1
    else
      .error
        (sendReport s.cfg s.cfg.opChWrite (encodeRecord s.cfg record) (some record.index)
          (.echoMismatch record.index (encodeRecord s.cfg record) q.payload)) s1
  | .error e s1 =>
    .error (sendReport s.cfg s.cfg.opChWrite (encodeRecord s.cfg record) (some record.index) e) s1
  | .refused r => .refused r

/-- WRITE_CHANNEL (R291, R293, R294). The index check comes first, by the model's choice, as in READ_CHANNEL (log
22). -/
def execWriteChannel (p : PortId) (record : ChannelRecord) (t : Nat) (allowBlocked : Bool) (s : State) :
    Host.Outcome State Fault Refusal :=
  if indexTooLarge s.cfg record.index then .refused (.indexOutOfRange record.index)
  else match writeOne p t allowBlocked record s with
    | .ok s1 => .next (returnValue .unit s1)
    | .error report s1 => .next (raiseError p report s1)
    | .refused r => .refused r

/-- QUERY_STATUS (R295): STATUS_SYNC with the empty payload. -/
def execQueryStatus (p : PortId) (t : Nat) (s : State) : Host.Outcome State Fault Refusal :=
  wireCommand s.cfg.opStatusSync p t [] none s

/-- `session.allow_unstable <- b`. -/
def setOptIn (p : PortId) (b : Bool) (s : State) : State :=
  s.setLink p { s.link p with session := (s.link p).session.map (fun x => { x with allowUnstable := b }) }

/-- SET_ALLOW_UNSTABLE (R296), on a live Session with no request in flight (R178, R191). -/
def execSetAllowUnstable (p : PortId) (b : Bool) (s : State) : Host.Outcome State Fault Refusal :=
  if (s.link p).busy then .refused (.busy p)
  else if !(s.link p).isConnected then .next (raiseError p (connectionReport p .notConnected) s)
  else .next (returnValue .unit (setOptIn p b s))

/-- QUERY_METERS (R296): METER_SYNC with the empty payload. -/
def execQueryMeters (p : PortId) (t : Nat) (s : State) : Host.Outcome State Fault Refusal :=
  wireCommand s.cfg.opMeterSync p t [] none s

/-- QUERY_PARAMS (R296): PARAM_SYNC with the empty payload. -/
def execQueryParams (p : PortId) (t : Nat) (s : State) : Host.Outcome State Fault Refusal :=
  wireCommand s.cfg.opParamSync p t [] none s

/-! ## Bulk operations -/

/-- How a bulk loop ends: one slot for each attempted item, in order. -/
inductive BulkResult (α : Type) where
  | done (slots : List α) (s : State)
  | refused (r : Refusal)

/-- A slot put before the slots of the later items. -/
def BulkResult.cons {α : Type} (a : α) : BulkResult α → BulkResult α
  | .done slots s => .done (a :: slots) s
  | .refused r => .refused r

/-- The loop of READ_ALL (R297, R299): the cancel request is sampled between items; an error fills its item's
slot and the loop goes on. A refusal of an item refuses the operation (log 22). -/
def readItems (p : PortId) (t : Nat) : List Word16 → State → BulkResult ReadSlot
  | [], s => .done [] s
  | index :: rest, s =>
    if s.drawCancel.1 then .done [] s.drawCancel.2
    else match readOne p t index s.drawCancel.2 with
      | .ok report s1 => (readItems p t rest s1).cons (.ok report)
      | .error report s1 => (readItems p t rest (goIdle p s1)).cons (.err report)
      | .refused r => .refused r

/-- READ_ALL (R191, R291, R297, R299, R300). A batch on an absent Session fills every slot with the error (log
34). -/
def execReadAll (p : PortId) (t : Nat) (indices : List Word16) (s : State) :
    Host.Outcome State Fault Refusal :=
  if (s.link p).busy then .refused (.busy p)
  else match indices.find? (indexTooLarge s.cfg) with
  | some index => .refused (.indexOutOfRange index)
  | none =>
    match readItems p t indices s with
    | .done slots s1 => .next (returnValue (.readAll slots) s1)
    | .refused r => .refused r

/-- The loop of WRITE_ALL (R298, R299); the override is never given. -/
def writeItems (p : PortId) (t : Nat) : List ChannelRecord → State → BulkResult WriteSlot
  | [], s => .done [] s
  | record :: rest, s =>
    if s.drawCancel.1 then .done [] s.drawCancel.2
    else match writeOne p t false record s.drawCancel.2 with
      | .ok s1 => (writeItems p t rest s1).cons .ok
      | .error report s1 => (writeItems p t rest (goIdle p s1)).cons (.err report)
      | .refused r => .refused r

/-- WRITE_ALL (R191, R291, R298, R299, R300). Log 34. -/
def execWriteAll (p : PortId) (t : Nat) (records : List ChannelRecord) (s : State) :
    Host.Outcome State Fault Refusal :=
  if (s.link p).busy then .refused (.busy p)
  else match records.find? (fun r => indexTooLarge s.cfg r.index) with
  | some r => .refused (.indexOutOfRange r.index)
  | none =>
    match writeItems p t records s with
    | .done slots s1 => .next (returnValue (.writeAll slots) s1)
    | .refused r => .refused r

end Sys2Proof.Machine
end

