-- ==== Sys2Proof/Machine/RecordOps.lean ====
section
/-!
DEFINITION. The record codec operations (45_channel_codec.md R261, R262, R266, R267, R269). They are pure: they
read `cfg` and write nothing but the returned value.
-/

namespace Sys2Proof.Machine

/-- ENCODE_CHANNEL (R261), total. -/
def execEncodeChannel (record : ChannelRecord) (s : State) : Host.Outcome State Fault Refusal :=
  .next (returnValue (.bytes (encodeRecord s.cfg record)) s)

/-- ENCODE_CHANNEL_STRICT (R269). -/
def execEncodeChannelStrict (record : ChannelRecord) (s : State) : Host.Outcome State Fault Refusal :=
  .next (returnValue (.strict (encodeRecordStrict s.cfg record)) s)

/-- DECODE_CHANNEL (R262): total on exactly `RECORD_LEN` bytes, refused on any other number. -/
def execDecodeChannel (bytes : Bytes) (s : State) : Host.Outcome State Fault Refusal :=
  if bytes.length = s.cfg.recordLen then .next (returnValue (.record (decodeRecord s.cfg bytes)) s)
  else .refused (.recordLength bytes.length)

/-- FREQ_TO_INDEX (R266). -/
def execFreqToIndex (freqTenthsHz : Nat) (s : State) : Host.Outcome State Fault Refusal :=
  .next (returnValue (.toneIndex (frequencyToIndex s.cfg freqTenthsHz)) s)

/-- INDEX_TO_FREQ (R267). -/
def execIndexToFreq (index : Nat) (s : State) : Host.Outcome State Fault Refusal :=
  .next (returnValue (.toneFreq (indexToFrequency s.cfg index)) s)

end Sys2Proof.Machine
end

