-- ==== Sys2Proof/Machine/Transport.lean ====
section
/-!
DEFINITION. The transport operations (42_transport.md R171 to R178): CONNECT, DISCONNECT, RESET_INPUT, TX_PUT,
RX_TAKE.
-/

namespace Sys2Proof.Machine

/-- The Session that CONNECT creates (10_state.md R30). -/
def newSession (cfg : Config) (p : PortId) : Session where
  port := p
  baud := cfg.baud
  dtr := .high
  rts := .high
  connected := true
  allowUnstable := false

/-- The Session opened and its port held (R171). -/
def openSession (p : PortId) (s : State) : State :=
  { s.setLink p { s.link p with session := some (newSession s.cfg p) } with
    portsHeld := holdPort p s.portsHeld }

/-- `disp <- Idle; attempt <- 0; last_raw <- []` (R171). -/
def readyLink (p : PortId) (s : State) : State :=
  s.setLink p { s.link p with disp := .idle, attempt := 0, lastRaw := [] }

/-- The second half of CONNECT (R171): the lines can be set; the Session, the flush, the stabilization wait. -/
def finishConnect (p : PortId) (s : State) : Host.Outcome State Fault Refusal :=
  match rxFlush p (openSession p s) with
  | .failed s1 => .next (raiseError p (connectionReport p .portUnavailable) s1)
  | .ok s1 =>
    .next (returnValue (.session (newSession s.cfg p))
      (readyLink p (waitUntil (s1.now + s1.cfg.tStabilize) s1)))

/-- CONNECT (R171): a held port, a port that does not open and lines that cannot be set each fail. -/
def execConnect (p : PortId) (s : State) : Host.Outcome State Fault Refusal :=
  if (s.link p).busy then .refused (.busy p)
  else if s.portsHeld.contains p then .next (raiseError p (connectionReport p .portUnavailable) s)
  else if !s.drawOpen.1 then .next (raiseError p (connectionReport p .portUnavailable) s.drawOpen.2)
  else if !s.drawOpen.2.drawLines.1 then
    .next (raiseError p (connectionReport p .handshakeFailed) s.drawOpen.2.drawLines.2)
  else finishConnect p s.drawOpen.2.drawLines.2

/-- The Session closed (R173): lines low, port released, unread bytes unreachable. -/
def closeSession (p : PortId) (s : State) : State :=
  { s.setLink p { s.link p with session := none, rx := [] } with portsHeld := dropPort p s.portsHeld }

/-- DISCONNECT (R173), idempotent; not admitted while a request is in flight (R191). -/
def execDisconnect (p : PortId) (s : State) : Host.Outcome State Fault Refusal :=
  if (s.link p).busy then .refused (.busy p)
  else if (s.link p).session = none then .next (returnValue .unit s)
  else .next (returnValue .unit (closeSession p s))

/-- RESET_INPUT (R174, R177, R178); not admitted while a request is in flight (70_reset_and_hazards.md R361).
Log 20. -/
def execResetInput (p : PortId) (s : State) : Host.Outcome State Fault Refusal :=
  if (s.link p).busy then .refused (.busy p)
  else if !(s.link p).isConnected then .next (raiseError p (connectionReport p .notConnected) s)
  else match rxFlush p s with
    | .failed s1 => .next (raiseError p (connectionReport p .portUnavailable) s1)
    | .ok s1 => .next (returnValue .unit s1)

/-- TX_PUT (R175, R177, R178); not admitted while a request is in flight (70_reset_and_hazards.md R361).
Log 20. -/
def execTxPut (p : PortId) (bytes : Bytes) (s : State) : Host.Outcome State Fault Refusal :=
  if (s.link p).busy then .refused (.busy p)
  else if !(s.link p).isConnected then .next (raiseError p (connectionReport p .notConnected) s)
  else match txPut p bytes s with
    | .failed s1 => .next (raiseError p (connectionReport p .portUnavailable) s1)
    | .ok s1 => .next (returnValue .unit s1)

/-- RX_TAKE (R176, R177, R178); not admitted while a request is in flight (70_reset_and_hazards.md R361).
Log 20. -/
def execRxTake (p : PortId) (s : State) : Host.Outcome State Fault Refusal :=
  if (s.link p).busy then .refused (.busy p)
  else if !(s.link p).isConnected then .next (raiseError p (connectionReport p .notConnected) s)
  else match rxTake p s with
    | .failed s1 => .next (raiseError p (connectionReport p .portUnavailable) s1)
    | .byte b s1 => .next (returnValue (.taken (some b)) s1)
    | .empty s1 => .next (returnValue (.taken none) s1)

end Sys2Proof.Machine
end

