-- ==== Sys2Proof/Machine/Dispatch.lean ====
section
/-!
DEFINITION. The dispatch of an operation to its meaning, one arm for each row of spec/opcode_table.json.
-/

namespace Sys2Proof.Machine

def exec (i : Instr) (s : State) : Host.Outcome State Fault Refusal :=
  match i with
  | .ptt p t payload => Sys2Proof.Machine.execPtt p t payload s
  | .modeSet p t payload => Sys2Proof.Machine.execModeSet p t payload s
  | .statusSync p t payload => Sys2Proof.Machine.execStatusSync p t payload s
  | .equipId p t payload => Sys2Proof.Machine.execEquipId p t payload s
  | .powerSet p t payload => Sys2Proof.Machine.execPowerSet p t payload s
  | .rxoffSet p t payload => Sys2Proof.Machine.execRxoffSet p t payload s
  | .meterSync p t payload => Sys2Proof.Machine.execMeterSync p t payload s
  | .paramSync p t payload => Sys2Proof.Machine.execParamSync p t payload s
  | .spectrum p t payload => Sys2Proof.Machine.execSpectrum p t payload s
  | .chWrite p t payload => Sys2Proof.Machine.execChWrite p t payload s
  | .chRead p t index => Sys2Proof.Machine.execChRead p t index s
  | .crcInit => Sys2Proof.Machine.execCrcInit s
  | .crcByte b => Sys2Proof.Machine.execCrcByte b s
  | .crcBit d => Sys2Proof.Machine.execCrcBit d s
  | .crc16 bytes => Sys2Proof.Machine.execCrc16 bytes s
  | .crcValue form => Sys2Proof.Machine.execCrcValue form s
  | .crcCheck bytes received => Sys2Proof.Machine.execCrcCheck bytes received s
  | .encode command payload => Sys2Proof.Machine.execEncode command payload s
  | .decode bytes => Sys2Proof.Machine.execDecode bytes s
  | .decStep op => Sys2Proof.Machine.execDecStep op s
  | .connect p => Sys2Proof.Machine.execConnect p s
  | .disconnect p => Sys2Proof.Machine.execDisconnect p s
  | .resetInput p => Sys2Proof.Machine.execResetInput p s
  | .txPut p bytes => Sys2Proof.Machine.execTxPut p bytes s
  | .rxTake p => Sys2Proof.Machine.execRxTake p s
  | .send p command payload t allowBlocked => Sys2Proof.Machine.execSend p command payload t allowBlocked s
  | .encodeChannel record => Sys2Proof.Machine.execEncodeChannel record s
  | .encodeChannelStrict record => Sys2Proof.Machine.execEncodeChannelStrict record s
  | .decodeChannel bytes => Sys2Proof.Machine.execDecodeChannel bytes s
  | .freqToIndex freqTenthsHz => Sys2Proof.Machine.execFreqToIndex freqTenthsHz s
  | .indexToFreq index => Sys2Proof.Machine.execIndexToFreq index s
  | .readChannel p index t => Sys2Proof.Machine.execReadChannel p index t s
  | .writeChannel p record t allowBlocked => Sys2Proof.Machine.execWriteChannel p record t allowBlocked s
  | .queryStatus p t => Sys2Proof.Machine.execQueryStatus p t s
  | .setAllowUnstable p b => Sys2Proof.Machine.execSetAllowUnstable p b s
  | .queryMeters p t => Sys2Proof.Machine.execQueryMeters p t s
  | .queryParams p t => Sys2Proof.Machine.execQueryParams p t s
  | .readAll p t indices => Sys2Proof.Machine.execReadAll p t indices s
  | .writeAll p t records => Sys2Proof.Machine.execWriteAll p t records s

end Sys2Proof.Machine
end

