-- ==== Sys2Proof/Machine/Fetch.lean ====
section
/-!
DEFINITION. How a step finds its operation: the head of the host's queue (log 8). A wire command given as its
frame is decoded (41_frame_codec.md R146); any other operation is given with its operands.
-/

namespace Sys2Proof.Machine

/-- What a step finds. -/
inductive Fetched where
  /-- No operation is issued: the environment takes one step. -/
  | idle (s : State)
  /-- The operation, and the state with its request removed from the queue. -/
  | run (i : Instr) (s : State)

/-- The state with the head of the queue removed. -/
def State.popRequest (s : State) : State := { s with requests := s.requests.tail }

/-- The operation that a request stands for whose bytes are no wire command. Bytes without a good frame have the
effect of DECODE, which returns their `FramingError` (41_frame_codec.md R146, 93_implementation_defined.md U9). A
good frame is a request that SEND's gate answers: with `NoTableEntry` for an opcode without a row (30_encoding.md
R104, U8), by R197 for a payload of another shape, and before both with the gate's earlier checks (R198). Log 17. -/
def rejectedOp (p : PortId) (t : Nat) (bytes : Bytes) : DecodeError → Instr
  | .framing _ => .decode bytes
  | .unassignedOpcode command payload => .send p command payload t false
  | .operandShape command payload => .send p command payload t false

/-- Fetch and decode the head of the queue. -/
def fetch (s : State) : Fetched :=
  match s.requests with
  | [] => .idle s
  | .idle :: _ => .idle s.popRequest
  | .op i :: _ => .run i s.popRequest
  | .frame p t bytes :: _ =>
    match decode s.cfg p t bytes with
    | .instr i _ => .run i s.popRequest
    | .rejected e => .run (rejectedOp p t bytes e) s.popRequest

/-- The request that stands for an instruction word of the opcode table; bits that are no word stand for an
empty frame. -/
def tableRequest (cfg : Config) (nbits w : Nat) : Request :=
  .frame tablePort tableTimeout ((tableBytes cfg nbits w).getD [])

end Sys2Proof.Machine
end

