-- ==== Sys2Proof/Machine/Step.lean ====
section
/-!
DEFINITION. One step of the machine: one operation of the host, run to its end (log 5), or one step of the
environment when none is issued. An ill-formed configuration is refused (00_scope.md R7; log 30).
-/

namespace Sys2Proof.Machine

/-- One step. -/
def step (s : State) : Host.Outcome State Fault Refusal :=
  if s.cfg.wf then
    match fetch s with
    | .idle s1 => .next (idleStep s1)
    | .run i s1 => exec i s1
  else .refused .illFormedConfig

/-- The state with an instruction word of the opcode table at the head of the host's queue, where `step` fetches
(log 8). -/
def State.withFetchWord (s : State) (nbits w : Nat) : State :=
  { s with requests := tableRequest s.cfg nbits w :: s.requests }

end Sys2Proof.Machine
end

