-- ==== Sys2Proof/Safety.lean ====
section
/-!
DEFINITION. The safe states of the engine between two operations, in the terms the statements use: the invariant
that power-on satisfies and every step keeps.
-/

namespace Sys2Proof.Machine

/-- The decoder registers hold what their phase says (10_state.md R22, 41_frame_codec.md R152): a window of at
most 4 bytes; no body before the length byte; in BODY the bytes received and the bytes still to come make up the
length byte; in DONE a result stands. -/
structure DecSafe (d : Dec) : Prop where
  win  : d.win.length ≤ 4
  body : match d.phase with
    | .hunt => d.body = [] ∧ d.len = 0#8
    | .len => d.body = [] ∧ d.len = 0#8
    | .body => d.body.length + d.cnt.toNat = d.len.toNat ∧ 1 ≤ d.cnt.toNat ∧ 3 ≤ d.len.toNat
    | .done => d.body.length ≤ d.len.toNat ∧ d.result.isSome = true

/-- A live Session holds what CONNECT gave it, but for the opt-in (10_state.md R30; 42_transport.md R170: both
control lines are high for the duration of the session). -/
def SessionSafe (cfg : Config) (p : PortId) (x : Session) : Prop :=
  x.port = p ∧ x.baud = cfg.baud ∧ x.dtr = .high ∧ x.rts = .high ∧ x.connected = true

/-- What holds of a port's record at every moment of an operation: a live Session is as CONNECT made it, and the
latched operands have the widths of R26. -/
structure LinkSafe (cfg : Config) (p : PortId) (l : Link) : Prop where
  session    : ∀ x, l.session = some x → SessionSafe cfg p x
  curPayload : l.curPayload.length ≤ 252
  curFrame   : l.curFrame.length ≤ 260
  perOp      : rising (l.unstableAtOp.map Prod.fst) = true

/-- What holds at every moment of an operation: the configuration is admitted (00_scope.md R7), the per-port table
and `ports_held` have their canonical form, a port is held exactly while a Session on it is live (R31), the
decoder registers and the records of the ports are safe. -/
structure State.Coherent (s : State) : Prop where
  cfg   : s.cfg.wf = true
  links : linksWf s.links = true
  held  : rising s.portsHeld = true
  live  : ∀ p, p ∈ s.portsHeld ↔ (s.link p).session.isSome = true
  dec   : DecSafe s.dec
  port  : ∀ p, LinkSafe s.cfg p (s.link p)

/-- The invariant between two operations: coherent, and no request is in flight on any port (10_state.md R24:
"After any operation returns (success or error): `Idle`"). -/
structure State.Inv (s : State) : Prop where
  coherent : s.Coherent
  idle     : ∀ p, (s.link p).busy = false

end Sys2Proof.Machine
end

