-- ==== Sys2Proof/Certificates/Slice0/Obligations.lean ====
section
/-!
DEFINITION. The statements for the provers, in the order of the opcode table's families: the CRC generator, the
frame codec, the transport, SEND, the wire commands and host operations, the record codec, the machine. The names
they share come first. Each docstring names the rule of spec/ it formalises.
-/

namespace Sys2Proof.Statements

open Sys2Proof Sys2Proof.Machine

/-- The operations of a list, one after another. -/
def runAll : List Instr → State → Host.Outcome State Fault Refusal
  | [], s => .next s
  | i :: rest, s =>
    match exec i s with
    | .next t => runAll rest t
    | .fault f => .fault f
    | .refused r => .refused r

/-- One of the eight iterations of R122: the top bit is the bit about to be shifted out. -/
def shiftOnce (poly c : Word16) : Word16 := (c <<< 1) ^^^ (if c.msb then poly else 0#16)

/-- The bytes of a list of arrivals that are for port `p`, in order. -/
def arriving (p : PortId) (es : List (PortId × Byte)) : Bytes :=
  (es.filter (fun e => decide (e.1 = p))).map Prod.snd

/-- The bytes that a list of waits brings to port `p`. -/
def arrivingIn (p : PortId) (ws : List Wait) : Bytes := ws.flatMap (fun w => arriving p w.arrive)

/-- The frame of R90 written out. -/
def frameOf (cfg : Config) (command : Byte) (payload : Bytes) : Bytes :=
  let len : Byte := BitVec.ofNat 8 (payload.length + 3)
  let crc : Word16 := crc16 cfg (len :: command :: payload)
  cfg.magic ++ [len, command] ++ payload ++ [crc.extractLsb' 8 8, crc.extractLsb' 0 8]

/-- The leftmost position at which all four magic bytes match (R147). -/
def FirstMagic (cfg : Config) (bytes : Bytes) (at_ : Nat) : Prop :=
  at_ + 4 ≤ bytes.length ∧ (bytes.drop at_).take 4 = cfg.magic ∧
    ∀ i, i < at_ → (bytes.drop i).take 4 ≠ cfg.magic

/-- The packet that R146 reads after the magic at `at_`, where the length byte is `len`. -/
def packetAt (cfg : Config) (bytes : Bytes) (at_ : Nat) (len : Byte) : Packet where
  header := cfg.magic
  length := len
  command := bytes.getD (at_ + 5) 0#8
  payload := (bytes.drop (at_ + 6)).take (len.toNat - 3)
  crc := BitVec.ofNat 16
    (256 * (bytes.getD (at_ + 3 + len.toNat) 0#8).toNat + (bytes.getD (at_ + 4 + len.toNat) 0#8).toNat)

/-- The checks of R146, in its order, as a relation between the bytes and the result. -/
def DecodeSays (cfg : Config) (bytes : Bytes) (r : DecodeResult) : Prop :=
  ((∀ i, ¬ FirstMagic cfg bytes i) → r = .error .magic) ∧
  ∀ i, FirstMagic cfg bytes i →
    (bytes.length < i + 5 → r = .error .truncated) ∧
    ∀ len, bytes[i + 4]? = some len →
      (len.toNat < 3 → r = .error .lengthInvalid) ∧
      (3 ≤ len.toNat → bytes.length < i + 5 + len.toNat → r = .error .truncated) ∧
      (3 ≤ len.toNat → i + 5 + len.toNat ≤ bytes.length →
        let q := packetAt cfg bytes i len
        (crc16 cfg (len :: q.command :: q.payload) ≠ q.crc → r = .error .crc) ∧
        (crc16 cfg (len :: q.command :: q.payload) = q.crc → r = .packet q (i + 5 + len.toNat)))

/-- `s` with the unread bytes of port `p` replaced. -/
def withInput (p : PortId) (bytes : Bytes) (s : State) : State := s.setLink p { s.link p with rx := bytes }

/-- The value an operation returned, and no other change (CRC operations apart, every pure operation). -/
def returning (v : RetVal) (s : State) : State := { s with ret := v }

/-- A payload fits a shape (R197, R204): `Fixed(n)`, `Record` (R99), `Any`. -/
def Fits (cfg : Config) (shape : Shape) (payload : Bytes) : Prop :=
  match shape with
  | .fixed n => payload.length = n
  | .record => payload.length = 26 + cfg.tail.len
  | .any => payload.length ≤ 252

/-- Bit `k` of a byte sequence, the most significant bit of each byte first: the numbering of `cfg.tail` (log 14). -/
def bitOf (bytes : Bytes) (k : Nat) : Bool := (bytes.getD (k / 8) 0#8).toNat.testBit (7 - k % 8)

/-- The field at the positions `ps` of the tail holds the value `v`, its most significant bit first. -/
def Holds (tail : Bytes) (ps : List Nat) (v : Nat) : Prop :=
  v < 2 ^ ps.length ∧ ∀ j, j < ps.length → bitOf tail (ps.getD j 0) = v.testBit (ps.length - 1 - j)

/-- The effective risk class of a request (R194): the row's, but Blocked for a channel write whose payload is a
record with a timeslot field other than 0 (R276). -/
def riskOf (cfg : Config) (row : Row) (command : Byte) (payload : Bytes) : Risk :=
  if row.request = .record ∧ command = cfg.opChWrite ∧ payload.length = 26 + cfg.tail.len ∧
      cfg.tail.timeslot.any (bitOf (payload.drop 26)) = true then .blocked
  else row.risk

/-- The risk class that a failure of a request reports (R327): the effective class of a command with a row. -/
def classOf (cfg : Config) (command : Byte) (payload : Bytes) : Option Risk :=
  match rowOf cfg command with
  | none => none
  | some row => some (riskOf cfg row command payload)

/-- A typed error returned, and no other change (R198: "Gate errors change nothing at all"). -/
def erring (e : TypedError) (opcode : Option Byte) (channel : Option Word16) (risk : Option Risk) (s : State) :
    State :=
  { s with ret := .error { error := e, opcode := opcode, channel := channel, risk := risk } }

/-- The channel index an error of a channel write records (R195, R316). -/
def indexOf (cfg : Config) (command : Byte) (payload : Bytes) : Option Word16 :=
  if command = cfg.opChWrite ∧ 2 ≤ payload.length then
    some (BitVec.ofNat 16 (256 * (payload.getD 0 0#8).toNat + (payload.getD 1 0#8).toNat))
  else none

/-- The risk class admits the request at this moment (R195, R196, R331 to R333). -/
def Admitted (s : State) (p : PortId) (row : Row) (command : Byte) (payload : Bytes) (allow : Bool) : Prop :=
  match riskOf s.cfg row command payload with
  | .stable => True
  | .blocked => allow = true
  | .unstable => (s.link p).optedIn = true ∧
      ∀ t0, (s.link p).lastUnstable s.cfg command = some t0 → s.cfg.minInterval ≤ s.now - t0

/-- The request passes SEND's gate (R191 to R197): nothing in flight, a live Session, a row, a class that admits
it, a payload that fits the row's request shape and a frame. -/
structure Passes (s : State) (p : PortId) (row : Row) (command : Byte) (payload : Bytes) (allow : Bool) :
    Prop where
  idle      : (s.link p).busy = false
  connected : (s.link p).isConnected = true
  table     : rowOf s.cfg command = some row
  admitted  : Admitted s p row command payload allow
  request   : Fits s.cfg row.request payload
  length    : payload.length ≤ 252

/-- The first attempt of the request is answered at the first wait: the environment reports no I/O failure and
delivers there one frame with the request's command and a payload that fits the response shape, and then
`extra`. -/
structure Answered (s : State) (p : PortId) (row : Row) (command : Byte) (timeout : Nat) (reply extra : Bytes)
    (w : Wait) (later : List Wait) : Prop where
  magic     : s.cfg.magic.length = 4
  timeout   : 0 < timeout
  response  : Fits s.cfg row.response reply
  length    : reply.length ≤ 252
  noFailure : s.env.ioFails = []
  waits     : s.env.waits = w :: later
  arrives   : arriving p w.arrive = frameOf s.cfg command reply ++ extra

/-- The record of port `p` with the rate-limit register written, if the request is Unstable (R196, R212). -/
def stampedLink (s : State) (p : PortId) (row : Row) (command : Byte) (payload : Bytes) : Link :=
  match riskOf s.cfg row command payload with
  | .unstable => (s.link p).stampUnstable s.cfg command s.now
  | .stable => s.link p
  | .blocked => s.link p

/-- The packet of a reply. -/
def replyPacket (cfg : Config) (command : Byte) (reply : Bytes) : Packet where
  header := cfg.magic
  length := BitVec.ofNat 8 (reply.length + 3)
  command := command
  payload := reply
  crc := crc16 cfg (BitVec.ofNat 8 (reply.length + 3) :: command :: reply)

/-- What an answered request changes, and that it changes nothing else but the returned value (R199 to R208, R212).
The decoder registers are left with the packet (R205), `crc_reg` with the CRC of the reply. -/
structure Exchanged (s t : State) (p : PortId) (row : Row) (command : Byte) (payload : Bytes) (timeout : Nat)
    (reply extra : Bytes) (w : Wait) (later : List Wait) : Prop where
  link : t.link p = { stampedLink s p row command payload with
    rx := extra,
    tx := (s.link p).tx ++ frameOf s.cfg command payload,
    disp := .idle, attempt := 0,
    curCmd := command, curPayload := payload, curFrame := frameOf s.cfg command payload,
    deadline := s.now + timeout, curTimeout := timeout,
    lastRaw := frameOf s.cfg command reply, lastFail := none }
  others : ∀ q, q ≠ p → t.link q = { s.link q with rx := (s.link q).rx ++ arriving q w.arrive }
  now : t.now = s.now + w.dt
  env : t.env = { s.env with waits := later }
  crcReg : t.crcReg = crc16 s.cfg (BitVec.ofNat 8 (reply.length + 3) :: command :: reply)
  dec : t.dec = {
    phase := .done, win := s.cfg.magic, len := BitVec.ofNat 8 (reply.length + 3), cnt := 0#8,
    body := command :: reply ++
      [(replyPacket s.cfg command reply).crc.extractLsb' 8 8, (replyPacket s.cfg command reply).crc.extractLsb' 0 8],
    skipped := 0, result := some (.packet (replyPacket s.cfg command reply) (reply.length + 8)) }
  cfg : t.cfg = s.cfg
  portsHeld : t.portsHeld = s.portsHeld
  requests : t.requests = s.requests

/-- The request that a wire command makes of SEND (R232 to R242): port, timeout, opcode, payload. -/
def wireRequest (cfg : Config) : Instr → Option (PortId × Nat × Byte × Bytes)
  | .ptt p t payload => some (p, t, cfg.opPtt, payload)
  | .modeSet p t payload => some (p, t, cfg.opModeSet, payload)
  | .statusSync p t payload => some (p, t, cfg.opStatusSync, payload)
  | .equipId p t payload => some (p, t, cfg.opEquipId, payload)
  | .powerSet p t payload => some (p, t, cfg.opPowerSet, payload)
  | .rxoffSet p t payload => some (p, t, cfg.opRxoffSet, payload)
  | .meterSync p t payload => some (p, t, cfg.opMeterSync, payload)
  | .paramSync p t payload => some (p, t, cfg.opParamSync, payload)
  | .spectrum p t payload => some (p, t, cfg.opSpectrum, payload)
  | .chWrite p t payload => some (p, t, cfg.opChWrite, payload)
  | .chRead p t index => some (p, t, cfg.opChRead, [index.extractLsb' 8 8, index.extractLsb' 0 8])
  | _ => none

/-- The request that a query of the host makes of SEND (R295, R296). -/
def queryRequest (cfg : Config) : Instr → Option (PortId × Nat × Byte × Bytes)
  | .queryStatus p t => some (p, t, cfg.opStatusSync, [])
  | .queryMeters p t => some (p, t, cfg.opMeterSync, [])
  | .queryParams p t => some (p, t, cfg.opParamSync, [])
  | _ => none

/-- The port whose Session an operation works on, for the operations that need one (R178, R191). -/
def sessionPort : Instr → Option PortId
  | .ptt p _ _ | .modeSet p _ _ | .statusSync p _ _ | .equipId p _ _ | .powerSet p _ _ | .rxoffSet p _ _ => some p
  | .meterSync p _ _ | .paramSync p _ _ | .spectrum p _ _ | .chWrite p _ _ | .chRead p _ _ => some p
  | .send p _ _ _ _ | .readChannel p _ _ | .writeChannel p _ _ _ | .queryStatus p _ => some p
  | .setAllowUnstable p _ | .queryMeters p _ | .queryParams p _ | .readAll p _ _ | .writeAll p _ _ => some p
  | .resetInput p | .txPut p _ | .rxTake p => some p
  | _ => none

/-- The ports an operation works on. -/
def portOf : Instr → Option PortId
  | .connect p | .disconnect p => some p
  | i => sessionPort i

/-- The channel indices an operation names lie in the channel map (R291). -/
def indicesOk (cfg : Config) : Instr → Prop
  | .readChannel _ index _ => index.toNat ≤ cfg.maxChannel
  | .writeChannel _ record _ _ => record.index.toNat ≤ cfg.maxChannel
  | .readAll _ _ indices => ∀ index ∈ indices, index.toNat ≤ cfg.maxChannel
  | .writeAll _ _ records => ∀ r ∈ records, r.index.toNat ≤ cfg.maxChannel
  | _ => True

/-- An error with a cause, whatever opcode and channel it names. -/
def isErrorOf (e : TypedError) : RetVal → Prop
  | .error report => report.error = e
  | _ => False

/-- What the bytes received in an attempt say of a failure of class `cls` (R203, R204): no byte at all, a decoder
failure, or a good frame that does not answer the request. -/
def FailedBy (cfg : Config) (command : Byte) (raw : Bytes) (cls : FailClass) : Prop :=
  match cls with
  | .timeout => raw = []
  | .magic => raw ≠ [] ∧ DecodeSays cfg raw (.error .magic)
  | .truncated => raw ≠ [] ∧ DecodeSays cfg raw (.error .truncated)
  | .lengthInvalid => DecodeSays cfg raw (.error .lengthInvalid)
  | .crc => DecodeSays cfg raw (.error .crc)
  | .shape => ∃ q, DecodeSays cfg raw (.packet q raw.length) ∧
      (q.command ≠ command ∨ ∀ row, rowOf cfg command = some row → ¬ Fits cfg row.response q.payload)

/-- The operation on port `p` that led from `s` to `t` ended with `ConnectionError(PortUnavailable)`, the Session torn
down (R177). -/
structure TornDown (s t : State) (p : PortId) : Prop where
  error : isErrorOf (.connection p .portUnavailable) t.ret
  session : (t.link p).session = none
  connected : (t.link p).isConnected = false
  dtr : (t.link p).dtrLevel = .low
  rts : (t.link p).rtsLevel = .low
  disp : (t.link p).disp = .idle
  attempt : (t.link p).attempt = 0
  held : ∀ q, q ∈ t.portsHeld ↔ q ∈ s.portsHeld ∧ q ≠ p

/-- What `read_channel` returned, as the slot of its item (R297). -/
def readSlotOf : RetVal → Option ReadSlot
  | .read report => some (.ok report)
  | .error report => some (.err report)
  | _ => none

/-- What `write_channel` returned, as the slot of its item (R298). -/
def writeSlotOf : RetVal → Option WriteSlot
  | .unit => some .ok
  | .error report => some (.err report)
  | _ => none

/-- The channel read row as R231 has its shapes; nothing is asked of its class. -/
def ReadRowShapes (cfg : Config) : Prop :=
  ∃ row, rowOf cfg cfg.opChRead = some row ∧ row.request = .fixed 2 ∧ row.response = .record

/-- The channel write row as R231 has its shapes, and a record fits a frame. -/
def WriteRowShapes (cfg : Config) : Prop :=
  ∃ row, rowOf cfg cfg.opChWrite = some row ∧ row.request = .record ∧ row.response = .record ∧
    cfg.recordLen ≤ 252

/-- A tone without an entry in the table: a frequency that is not there, or an unknown tone (R269). -/
def NoEntry (cfg : Config) (x : Tone) : Prop :=
  (∃ f, x = .freq f ∧ ∀ e ∈ cfg.tones, e.2 ≠ f) ∨ ∃ i, x = .unknown i

/-- The byte that a tone field is encoded as (R269, lenient): 0 for no tone and for a tone without an entry, else the
index of the frequency. -/
def ToneByteSays (cfg : Config) (x : Tone) (b : Byte) : Prop :=
  (x = .noTone → b = 0#8) ∧ (NoEntry cfg x → b = 0#8) ∧
    ∀ i f, x = .freq f → (i, f) ∈ cfg.tones → b.toNat = i

/-- The tone that a byte decodes to (R267): no tone for 0, the frequency of an assigned index, else unknown. -/
def ToneSays (cfg : Config) (b : Byte) (x : Tone) : Prop :=
  (b = 0#8 → x = .noTone) ∧ (∀ f, (b.toNat, f) ∈ cfg.tones → x = .freq f) ∧
    (b ≠ 0#8 → (∀ e ∈ cfg.tones, e.1 ≠ b.toNat) → x = .unknown b)

/-- The four bytes of a 32-bit value, most significant first. -/
def fourBytes (v : Word32) : Bytes :=
  [v.extractLsb' 24 8, v.extractLsb' 16 8, v.extractLsb' 8 8, v.extractLsb' 0 8]

/-- The tone part of R277. -/
def ValidTone (cfg : Config) (x : Tone) : Prop := x = .noTone ∨ ∃ i f, x = .freq f ∧ (i, f) ∈ cfg.tones

/-- `validRecord(r)`, written out (R277). -/
structure ValidRecord (cfg : Config) (r : ChannelRecord) : Prop where
  index  : r.index.toNat ≤ 999
  rxMode : ∃ name, (r.rxMode, name) ∈ cfg.modes
  txMode : ∃ name, (r.txMode, name) ∈ cfg.modes
  rxTone : ValidTone cfg r.rxTone
  txTone : ValidTone cfg r.txTone
  length : r.name.length ≤ 11
  noNul  : 0#8 ∉ r.name
  kind   : ∀ g i rc tc ts, r.kind = .digital g i rc tc ts →
    rc.toNat ≤ 15 ∧ tc.toNat ≤ 15 ∧ (ts = 1#8 ∨ ts = 2#8)

/-- `k` copies of a frame. -/
def copiesOf (k : Nat) (frame : Bytes) : Bytes := (List.replicate k frame).flatten

end Sys2Proof.Statements

open Sys2Proof Sys2Proof.Machine Sys2Proof.Statements

/-! ## The CRC generator -/

/-- R121. CRC.INIT loads the seed, all-ones in `CFG_REF`, and changes nothing else. -/
def Obligations.CrcInitLoadsTheSeed : Prop :=
  (∀ s : State, exec .crcInit s = .next (returning .unit { s with crcReg := s.cfg.crcInit })) ∧
  cfgRef.crcInit = 0xFFFF#16

/-- R122. CRC.BYTE XORs the byte into bits 15..8 and makes eight shift iterations. -/
def Obligations.CrcByteMakesEightShifts : Prop :=
  ∀ (b : Byte) (s : State),
    exec (.crcByte b) s = .next (returning .unit
      { s with crcReg := (shiftOnce s.cfg.poly)^[8] (s.crcReg ^^^ (b.zeroExtend 16 <<< 8)) })

/-- R123. CRC.BIT is one iteration with the data bit in the feedback, and eight of them on the bits of a byte,
most significant first, are CRC.BYTE. -/
def Obligations.CrcByteIsEightCrcBits : Prop :=
  (∀ (d : Bool) (s : State),
    exec (.crcBit d) s = .next (returning .unit
      { s with crcReg := if (s.crcReg.msb ^^ d) = true then (s.crcReg <<< 1) ^^^ s.cfg.poly
                         else s.crcReg <<< 1 })) ∧
  ∀ (b : Byte) (s : State),
    runAll ((List.range 8).map (fun k => .crcBit (b.getLsbD (7 - k)))) s = exec (.crcByte b) s

/-- R124. `crc16` is CRC.INIT and then CRC.BYTE for each byte; its result is the register, and depends on the
bytes, the polynomial and the seed only. -/
def Obligations.CrcSixteenIsInitThenBytes : Prop :=
  ∀ (bytes : Bytes) (s : State), ∃ v : Word16,
    ∀ t : State, t.cfg.poly = s.cfg.poly → t.cfg.crcInit = s.cfg.crcInit →
      runAll (.crcInit :: bytes.map .crcByte) t = .next (returning .unit { t with crcReg := v }) ∧
      exec (.crc16 bytes) t = .next (returning (.word v) { t with crcReg := v })

/-- R125. CRC.VALUE returns the register and CRC.APPEND its two bytes, high first; the register stands. -/
def Obligations.CrcValueReadsTheRegister : Prop :=
  ∀ s : State,
    exec (.crcValue .value) s = .next (returning (.word s.crcReg) s) ∧
    exec (.crcValue .append) s =
      .next (returning (.bytes [s.crcReg.extractLsb' 8 8, s.crcReg.extractLsb' 0 8]) s)

/-- R127. CRC.CHECK matches exactly when `crc16` of the bytes is the received value. -/
def Obligations.CrcCheckMatchesOnEqualityOnly : Prop :=
  ∀ (bytes : Bytes) (received : Word16) (s : State), ∃ t u v,
    exec (.crc16 bytes) s = .next t ∧ t.ret = .word v ∧
    exec (.crcCheck bytes received) s = .next u ∧ u.ret = .bool (decide (v = received)) ∧
    u = { s with crcReg := u.crcReg, ret := u.ret }

/-- R129. The CRC of `a ‖ b` is reached from that of `a` by CRC.BYTE for each byte of `b`. -/
def Obligations.CrcIsIncremental : Prop :=
  ∀ (a b : Bytes) (s : State), ∃ t u v,
    exec (.crc16 a) s = .next t ∧ runAll (b.map .crcByte) t = .next u ∧
    exec (.crc16 (a ++ b)) s = .next v ∧ u.crcReg = v.crcReg ∧ v.ret = .word u.crcReg

/-- R130. A sequence followed by its own CRC, high byte first, leaves 0 in the register, for every polynomial;
and, when the polynomial's constant term is 1, only its own CRC does. -/
def Obligations.CrcResidueIsZero : Prop :=
  (∀ (bytes : Bytes) (s t : State), exec (.crc16 bytes) s = .next t →
    ∃ u, exec (.crc16 (bytes ++ [t.crcReg.extractLsb' 8 8, t.crcReg.extractLsb' 0 8])) s = .next u ∧
      u.crcReg = 0#16) ∧
  ∀ (bytes : Bytes) (r : Word16) (s t u : State), s.cfg.poly.getLsbD 0 = true →
    exec (.crc16 bytes) s = .next t →
    exec (.crc16 (bytes ++ [r.extractLsb' 8 8, r.extractLsb' 0 8])) s = .next u →
    u.crcReg = 0#16 → t.crcReg = r

/-- R131. When the polynomial's constant term is 1, a change of at most 16 adjacent bits changes the CRC: `x` and
`y` are three adjacent bytes of the two sequences and differ by a burst `e` shifted by `j`. -/
def Obligations.CrcDetectsBursts : Prop :=
  ∀ (s t u : State) (before after : Bytes) (x y : BitVec 24) (e : BitVec 16) (j : Nat),
    s.cfg.poly.getLsbD 0 = true → j ≤ 8 → e ≠ 0#16 → y = x ^^^ (e.zeroExtend 24 <<< j) →
    exec (.crc16 (before ++ [x.extractLsb' 16 8, x.extractLsb' 8 8, x.extractLsb' 0 8] ++ after)) s = .next t →
    exec (.crc16 (before ++ [y.extractLsb' 16 8, y.extractLsb' 8 8, y.extractLsb' 0 8] ++ after)) s = .next u →
    t.crcReg ≠ u.crcReg

/-! ## The frame codec -/

/-- R141, R142. ENCODE returns `MAGIC ‖ L ‖ command ‖ payload ‖ be16(k)` and leaves `crc_reg = k`; a payload longer
than 252 bytes, and no other, is refused. -/
def Obligations.EncodeBuildsTheFrame : Prop :=
  ∀ (command : Byte) (payload : Bytes) (s : State),
    (payload.length ≤ 252 →
      exec (.encode command payload) s = .next (returning (.bytes (frameOf s.cfg command payload))
        { s with crcReg := crc16 s.cfg (BitVec.ofNat 8 (payload.length + 3) :: command :: payload) })) ∧
    (252 < payload.length → exec (.encode command payload) s = .refused (.payloadTooLong payload.length))

/-- R143. The length, the fixed bytes and the injectivity of ENCODE, under a configuration that R7 admits. -/
def Obligations.EncodedFramesDetermineTheirParts : Prop :=
  ∀ (c d : Byte) (a b f g : Bytes) (s t u v : State), s.cfg.wf = true → s.cfg = u.cfg →
    exec (.encode c a) s = .next t → t.ret = .bytes f →
    exec (.encode d b) u = .next v → v.ret = .bytes g →
    f.length = a.length + 8 ∧ f.take 4 = s.cfg.magic ∧ f[4]? = some (BitVec.ofNat 8 (a.length + 3)) ∧
    f[5]? = some c ∧ (f = g ↔ c = d ∧ a = b)

/-- R146. DECODE's checks, in its order, and nothing but the scratch registers changes. -/
def Obligations.DecodeFollowsTheScan : Prop :=
  ∀ (bytes : Bytes) (s : State), s.cfg.magic.length = 4 →
    ∃ t r, exec (.decode bytes) s = .next t ∧ t.ret = .decoded r ∧ DecodeSays s.cfg bytes r ∧
      t = { s with dec := t.dec, crcReg := t.crcReg, ret := t.ret }

/-- R108. A packet that DECODE returns is consistent, and the bytes it consumed end with exactly the frame that
ENCODE builds from its command and payload. -/
def Obligations.DecodedPacketsReencode : Prop :=
  ∀ (bytes : Bytes) (s t : State) (q : Packet) (n : Nat), s.cfg.magic.length = 4 →
    exec (.decode bytes) s = .next t → t.ret = .decoded (.packet q n) →
    q.header = s.cfg.magic ∧ q.length.toNat = q.payload.length + 3 ∧
    q.crc = crc16 s.cfg (q.length :: q.command :: q.payload) ∧
    n ≤ bytes.length ∧ ∃ before, bytes.take n = before ++ frameOf s.cfg q.command q.payload

/-- R155. DECODE inverts ENCODE behind any prefix that does not disturb the hunt and before any suffix. -/
def Obligations.DecodeInvertsEncode : Prop :=
  ∀ (before payload after : Bytes) (command : Byte) (s : State), s.cfg.magic.length = 4 →
    payload.length ≤ 252 → FirstMagic s.cfg (before ++ s.cfg.magic) before.length →
    ∃ t, exec (.decode (before ++ frameOf s.cfg command payload ++ after)) s = .next t ∧
      t.ret = .decoded (.packet (replyPacket s.cfg command payload) (before.length + payload.length + 8))

/-- R156. A frame with one byte changed is rejected: a changed command, payload or CRC byte always by its CRC; a
length byte below 3, or above the true one, by its class; a changed magic byte when the magic stands nowhere. -/
def Obligations.CorruptedFramesAreRejected : Prop :=
  ∀ (command b : Byte) (payload : Bytes) (k : Nat) (s t : State) (r : DecodeResult), s.cfg.magic.length = 4 →
    payload.length ≤ 252 → (frameOf s.cfg command payload)[k]? ≠ some b →
    exec (.decode ((frameOf s.cfg command payload).set k b)) s = .next t → t.ret = .decoded r →
    (5 ≤ k → k < payload.length + 8 → s.cfg.poly.getLsbD 0 = true → r = .error .crc) ∧
    (k = 4 → b.toNat < 3 → r = .error .lengthInvalid) ∧
    (k = 4 → payload.length + 3 < b.toNat → r = .error .truncated) ∧
    (k < 4 → (∀ i, ((((frameOf s.cfg command payload).set k b).drop i).take 4) ≠ s.cfg.magic) →
      r = .error .magic)

/-- R152. The steps of the streaming decoder, phase by phase. The returned value is the model's (log 11). -/
def Obligations.DecoderStepsByPhase : Prop :=
  ∀ s : State,
    exec (.decStep .start) s = .next (returning (.decStep false none) { s with dec :=
      { phase := .hunt, win := [], len := 0#8, cnt := 0#8, body := [], skipped := 0, result := none } }) ∧
    (∀ b : Byte, ∃ t, exec (.decStep (.byte b)) s = .next t ∧
      t = { s with dec := t.dec, crcReg := t.crcReg, ret := t.ret } ∧
      match s.dec.phase with
      | .hunt =>
        let win := (s.dec.win ++ [b]).drop ((s.dec.win ++ [b]).length - 4)
        t.crcReg = s.crcReg ∧
        t.dec = (if win.length = 4 ∧ win = s.cfg.magic then { s.dec with win := win, phase := .len }
          else if win.length = 4 then { s.dec with win := win, skipped := s.dec.skipped + 1 }
          else { s.dec with win := win })
      | .len =>
        (b.toNat < 3 → t.crcReg = s.crcReg ∧
          t.dec = { s.dec with len := b, result := some (.error .lengthInvalid), phase := .done }) ∧
        (3 ≤ b.toNat → t.dec = { s.dec with len := b, cnt := b, phase := .body } ∧
          t.crcReg = crc16 s.cfg [b])
      | .body =>
        let cnt := s.dec.cnt - 1#8
        let body := s.dec.body ++ [b]
        let crc := if 2 ≤ cnt.toNat then crcFold s.cfg.poly s.crcReg [b] else s.crcReg
        t.crcReg = crc ∧
        (cnt ≠ 0#8 → t.dec = { s.dec with body := body, cnt := cnt }) ∧
        (cnt = 0#8 → t.dec = { s.dec with
          body := body, cnt := cnt, phase := .done, result := some (bodyResult s.cfg s.dec body crc) })
      | .done => t.dec = s.dec ∧ t.crcReg = s.crcReg) ∧
    ∃ t, exec (.decStep .finish) s = .next t ∧ t = { s with dec := t.dec, ret := t.ret } ∧
      t.dec = { s.dec with result := match s.dec.phase with
        | .hunt => some (.error .magic)
        | .len => some (.error .truncated)
        | .body => some (.error .truncated)
        | .done => s.dec.result }

/-- R152, "Agreement": DEC.START, DEC.BYTE for each byte, DEC.END give the result of DECODE, and DONE is reached
after exactly the bytes of the frame when that is a packet or a CRC error, after the length byte when the length is
invalid. -/
def Obligations.StreamingDecoderAgrees : Prop :=
  ∀ (bytes : Bytes) (s t : State) (r : DecodeResult), s.cfg.magic.length = 4 →
    exec (.decode bytes) s = .next t → t.ret = .decoded r →
    (∃ u, runAll (.decStep .start :: (bytes.map (fun b => .decStep (.byte b)) ++ [.decStep .finish])) s =
        .next u ∧ u.dec.result = some r) ∧
    ∀ k, k ≤ bytes.length →
      ∃ u, runAll (.decStep .start :: (bytes.take k).map (fun b => .decStep (.byte b))) s = .next u ∧
        (∀ q n, r = .packet q n → (u.dec.phase = .done ↔ n ≤ k)) ∧
        ∀ i len, FirstMagic s.cfg bytes i → bytes[i + 4]? = some len →
          (r = .error .lengthInvalid → (u.dec.phase = .done ↔ i + 5 ≤ k)) ∧
          (r = .error .crc → (u.dec.phase = .done ↔ i + 5 + len.toNat ≤ k))

/-! ## The transport -/

/-- R171. CONNECT on a free port that opens and whose lines can be set: the Session is as R30 says, `rx` holds only
what arrived during the stabilization wait, nothing is transmitted. -/
def Obligations.ConnectOpensTheSession : Prop :=
  ∀ (p : PortId) (s : State), (s.link p).busy = false → p ∉ s.portsHeld →
    s.env.opens.head? ≠ some false → s.env.lines.head? ≠ some false → s.env.ioFails.head? ≠ some true →
    ∃ t n, exec (.connect p) s = .next t ∧
      t.ret = .session { port := p, baud := s.cfg.baud, dtr := .high, rts := .high, connected := true,
                         allowUnstable := false } ∧
      t.link p = { s.link p with
        session := some { port := p, baud := s.cfg.baud, dtr := .high, rts := .high, connected := true,
                          allowUnstable := false },
        rx := arrivingIn p (s.env.waits.take n), disp := .idle, attempt := 0, lastRaw := [] } ∧
      (∀ q, q ≠ p → t.link q =
        { s.link q with rx := (s.link q).rx ++ arrivingIn q (s.env.waits.take n) }) ∧
      (∀ q, q ∈ t.portsHeld ↔ q = p ∨ q ∈ s.portsHeld) ∧
      s.now + s.cfg.tStabilize ≤ t.now ∧ t.env.waits = s.env.waits.drop n ∧
      t.cfg = s.cfg ∧ t.crcReg = s.crcReg ∧ t.dec = s.dec ∧ t.requests = s.requests

/-- R171. The failures of CONNECT, in their order: a held port, a port that does not open, lines that cannot be
set. None leaves a Session or changes `ports_held`. What the error reports beside its cause is left open (log 12). -/
def Obligations.ConnectFailuresLeaveNoSession : Prop :=
  ∀ (p : PortId) (s : State), (s.link p).busy = false →
    (p ∈ s.portsHeld → ∃ t, exec (.connect p) s = .next t ∧
      isErrorOf (.connection p .portUnavailable) t.ret ∧ t = { s with ret := t.ret }) ∧
    (p ∉ s.portsHeld → s.env.opens.head? = some false → ∃ t, exec (.connect p) s = .next t ∧
      isErrorOf (.connection p .portUnavailable) t.ret ∧
      t = { s with env := { s.env with opens := s.env.opens.tail }, ret := t.ret }) ∧
    (p ∉ s.portsHeld → s.env.opens.head? ≠ some false → s.env.lines.head? = some false →
      ∃ t, exec (.connect p) s = .next t ∧ isErrorOf (.connection p .handshakeFailed) t.ret ∧
      t = { s with env := { s.env with opens := s.env.opens.tail, lines := s.env.lines.tail }, ret := t.ret })

/-- R173. DISCONNECT lowers the lines, releases the port and empties `rx`, transmits nothing, keeps the rate-limit
register, and a second one changes nothing. -/
def Obligations.DisconnectClosesTheSession : Prop :=
  ∀ (p : PortId) (s : State), (s.link p).busy = false →
    ((s.link p).session = none → exec (.disconnect p) s = .next (returning .unit s)) ∧
    ((s.link p).session ≠ none → ∃ t, exec (.disconnect p) s = .next t ∧
      t.link p = { s.link p with session := none, rx := [] } ∧
      (t.link p).dtrLevel = .low ∧ (t.link p).rtsLevel = .low ∧ (t.link p).isConnected = false ∧
      (∀ q, q ≠ p → t.link q = s.link q) ∧ (∀ q, q ∈ t.portsHeld ↔ q ∈ s.portsHeld ∧ q ≠ p) ∧
      t = { s with links := t.links, portsHeld := t.portsHeld, ret := .unit } ∧
      exec (.disconnect p) t = .next t)

/-- R174. With no request in flight (R361), RESET_INPUT empties `rx` and does nothing else; it does not wait. -/
def Obligations.ResetInputDiscardsUnreadBytes : Prop :=
  ∀ (p : PortId) (s : State), (s.link p).busy = false → (s.link p).isConnected = true →
    s.env.ioFails.head? ≠ some true →
    ∃ t, exec (.resetInput p) s = .next t ∧ t.ret = .unit ∧ t.link p = { s.link p with rx := [] } ∧
      (∀ q, q ≠ p → t.link q = s.link q) ∧
      t = { s with links := t.links, env := { s.env with ioFails := s.env.ioFails.tail }, ret := t.ret }

/-- R175. With no request in flight (R361), TX_PUT appends the whole sequence to `tx`, contiguously, in no time. -/
def Obligations.TxPutAppendsTheBytes : Prop :=
  ∀ (p : PortId) (bytes : Bytes) (s : State), (s.link p).busy = false → (s.link p).isConnected = true →
    s.env.ioFails.head? ≠ some true →
    ∃ t, exec (.txPut p bytes) s = .next t ∧ t.ret = .unit ∧
      t.link p = { s.link p with tx := (s.link p).tx ++ bytes } ∧
      (∀ q, q ≠ p → t.link q = s.link q) ∧
      t = { s with links := t.links, env := { s.env with ioFails := s.env.ioFails.tail }, ret := t.ret }

/-- R176. With no request in flight (R361), RX_TAKE removes and returns the oldest byte and appends it to `last_raw`, or
reports empty. -/
def Obligations.RxTakeTakesTheOldestByte : Prop :=
  ∀ (p : PortId) (s : State), (s.link p).busy = false → (s.link p).isConnected = true →
    s.env.ioFails.head? ≠ some true →
    ∃ t, exec (.rxTake p) s = .next t ∧ t.ret = .taken (s.link p).rx.head? ∧
      t.link p = { s.link p with
        rx := (s.link p).rx.tail, lastRaw := (s.link p).lastRaw ++ (s.link p).rx.head?.toList } ∧
      (∀ q, q ≠ p → t.link q = s.link q) ∧
      t = { s with links := t.links, env := { s.env with ioFails := s.env.ioFails.tail }, ret := t.ret }

/-- R177. An I/O failure tears the Session down and ends the operation with `ConnectionError(PortUnavailable)`,
without a retry: at the transport operations, no request being in flight; at CONNECT's flush; in SEND at the flush and the transmission of the
first attempt (nothing sent), at the first RxTake (the frame sent once), at the flush and the transmission of a second
attempt after a silent first one; and wherever a SEND takes a failure. -/
def Obligations.IoFailureTearsTheSessionDown : Prop :=
  ∀ (p : PortId) (s : State),
    ((s.link p).busy = false → (s.link p).isConnected = true → s.env.ioFails.head? = some true →
      ∀ i, (i = .resetInput p ∨ (∃ bytes, i = .txPut p bytes) ∨ i = .rxTake p) →
        ∃ t, exec i s = .next t ∧ TornDown s t p ∧ (t.link p).tx = (s.link p).tx ∧
          ∀ q, q ≠ p → t.link q = s.link q) ∧
    ((s.link p).busy = false → p ∉ s.portsHeld → s.env.opens.head? ≠ some false →
      s.env.lines.head? ≠ some false → s.env.ioFails.head? = some true →
        ∃ t, exec (.connect p) s = .next t ∧ TornDown s t p ∧ (t.link p).tx = (s.link p).tx ∧
          ∀ q, q ≠ p → t.link q = s.link q) ∧
    ∀ (command : Byte) (payload : Bytes) (timeout : Nat) (allow : Bool),
      (∀ row, Passes s p row command payload allow →
        (s.env.ioFails.head? = some true ∨ s.env.ioFails.take 2 = [false, true] →
          ∃ t, exec (.send p command payload timeout allow) s = .next t ∧ TornDown s t p ∧
            (t.link p).tx = (s.link p).tx ∧ ∀ q, q ≠ p → t.link q = s.link q) ∧
        (s.env.ioFails.take 3 = [false, false, true] →
          ∃ t, exec (.send p command payload timeout allow) s = .next t ∧ TornDown s t p ∧
            (t.link p).tx = (s.link p).tx ++ frameOf s.cfg command payload ∧ ∀ q, q ≠ p → t.link q = s.link q) ∧
        ∀ dt later, 1 ≤ s.cfg.maxRetries → s.cfg.retryDelay = 0 → 0 < timeout → timeout ≤ dt →
          s.env.waits = { dt := dt, arrive := [] } :: later →
          s.env.ioFails.take 5 = [false, false, false, false, true] ∨
            s.env.ioFails.take 6 = [false, false, false, false, false, true] →
          ∃ t, exec (.send p command payload timeout allow) s = .next t ∧ TornDown s t p ∧
            (t.link p).tx = (s.link p).tx ++ frameOf s.cfg command payload) ∧
      ∀ t n, exec (.send p command payload timeout allow) s = .next t →
        t.env.ioFails = s.env.ioFails.drop n → true ∈ s.env.ioFails.take n → TornDown s t p

/-- R178. On an absent Session every operation but CONNECT and DISCONNECT ends with
`ConnectionError(NotConnected)`, and nothing is put on `tx`. That the transport operations do so, and a bulk
operation in every slot, is the model's (log 20, log 34). -/
def Obligations.WithoutASessionNothingIsSent : Prop :=
  ∀ (i : Instr) (p : PortId) (s : State), sessionPort i = some p → indicesOk s.cfg i →
    (s.link p).busy = false → (s.link p).isConnected = false →
    ∃ t, exec i s = .next t ∧ (∀ q, t.link q = s.link q) ∧
      match t.ret with
      | .readAll slots => ∀ x ∈ slots, ∃ report, x = .err report ∧ report.error = .connection p .notConnected
      | .writeAll slots => ∀ x ∈ slots, ∃ report, x = .err report ∧ report.error = .connection p .notConnected
      | v => isErrorOf (.connection p .notConnected) v

/-! ## SEND -/

/-- R198 with R191 to R193, R195 to R197. The gate's checks run in their order, the first that fails decides, and
a failing call changes nothing but the returned value. That each error reports the effective risk class, NotConnected
too, is the model's reading of R327 (log 12); that NoTableEntry and NotOptedIn record the index of a channel write as
Blocked does, and that a payload of fewer than two bytes gives none, is its reading of R195 and R316 (log 25). -/
def Obligations.GateChecksInOrder : Prop :=
  ∀ (p : PortId) (command : Byte) (payload : Bytes) (t : Nat) (allow : Bool) (s : State),
    let error := fun e => exec (.send p command payload t allow) s =
      .next (erring e (some command) none (classOf s.cfg command payload) s)
    let index := indexOf s.cfg command payload
    let refused := fun r => exec (.send p command payload t allow) s = .refused r
    let shape := fun (row : Row) =>
      (¬ Fits s.cfg row.request payload → refused (.requestShape command)) ∧
      (Fits s.cfg row.request payload → 252 < payload.length → refused (.payloadTooLong payload.length))
    ((s.link p).busy = true → refused (.busy p)) ∧
    ((s.link p).busy = false → (s.link p).isConnected = false → error (.connection p .notConnected)) ∧
    ((s.link p).busy = false → (s.link p).isConnected = true →
      match rowOf s.cfg command with
      | none => error (.unsupported command .noTableEntry index)
      | some row =>
        match riskOf s.cfg row command payload with
        | .stable => shape row
        | .blocked => if allow then shape row else error (.unsupported command .blocked index)
        | .unstable =>
          if (s.link p).optedIn then
            match (s.link p).lastUnstable s.cfg command with
            | none => shape row
            | some t0 =>
              if s.now - t0 < s.cfg.minInterval then
                error (.rateLimited command (s.cfg.minInterval - (s.now - t0)))
              else shape row
          else error (.unsupported command .notOptedIn index))

/-- R191, R361. While a request is in flight on a port, every operation on it is refused: SEND, CONNECT, DISCONNECT, the
host operations and the transport operations. It is refused as busy, but that a channel read or write with an index
above `MAX_CHANNEL` may be refused for the index is the model's choice (log 22). -/
def Obligations.BusyPortsRefuseOperations : Prop :=
  ∀ (i : Instr) (p : PortId) (s : State), (s.link p).busy = true → portOf i = some p →
    (indicesOk s.cfg i → exec i s = .refused (.busy p)) ∧
    (exec i s = .refused (.busy p) ∨
      ∃ index : Word16, s.cfg.maxChannel < index.toNat ∧ exec i s = .refused (.indexOutOfRange index))

/-- R195 with R293 and R194. WRITE_CHANNEL of a Digital record without the override fails with
`UnsupportedOperationError(Blocked)`, naming the index and the effective risk class (log 12), and changes nothing: no
byte is put on the wire. That a timeslot too wide for its field still encodes as Digital is the model's (log 36). -/
def Obligations.BlockedDigitalWriteSendsNothing : Prop :=
  ∀ (p : PortId) (r : ChannelRecord) (t : Nat) (s : State) (row : Row) (g i : Word32) (rc tc ts : Byte),
    s.cfg.wf = true → (s.link p).busy = false → (s.link p).isConnected = true →
    rowOf s.cfg s.cfg.opChWrite = some row → row.request = .record → r.index.toNat ≤ s.cfg.maxChannel →
    r.kind = .digital g i rc tc ts → ts ≠ 0#8 →
    exec (.writeChannel p r t false) s =
      .next (erring (.unsupported s.cfg.opChWrite .blocked (some r.index)) (some s.cfg.opChWrite)
        (some r.index) (some .blocked) s)

/-- R196 with R195, R316 and R327. An Unstable request needs the opt-in and the interval; an interval of exactly
`MIN_INTERVAL` is admitted; only a request that passes the gate writes the rate-limit register, with the time of the
gate, whatever follows. Under `PerClass` there is one register for all opcodes, so that the next Unstable request of
any opcode inside the interval is rate-limited; under `PerCommand` the register of every other opcode stays (R32).
That both errors report the class Unstable and no channel is the model's reading of R290 and
R327 (log 12), and the index that NotOptedIn names, where the request is a channel write, its reading of R316
(log 25). -/
def Obligations.UnstableRequestsAreRateLimited : Prop :=
  ∀ (p : PortId) (command : Byte) (payload : Bytes) (t : Nat) (allow : Bool) (s : State) (row : Row),
    (s.link p).busy = false → (s.link p).isConnected = true → rowOf s.cfg command = some row →
    riskOf s.cfg row command payload = .unstable →
    ((s.link p).optedIn = false →
      exec (.send p command payload t allow) s = .next
        (erring (.unsupported command .notOptedIn (indexOf s.cfg command payload)) (some command) none
          (some .unstable) s)) ∧
    (∀ t0, (s.link p).optedIn = true → (s.link p).lastUnstable s.cfg command = some t0 →
      s.now - t0 < s.cfg.minInterval → exec (.send p command payload t allow) s = .next
        (erring (.rateLimited command (s.cfg.minInterval - (s.now - t0))) (some command) none (some .unstable) s)) ∧
    ((s.link p).optedIn = true → Fits s.cfg row.request payload → payload.length ≤ 252 →
      (∀ t0, (s.link p).lastUnstable s.cfg command = some t0 → s.cfg.minInterval ≤ s.now - t0) →
      ∃ u, exec (.send p command payload t allow) s = .next u ∧
        (u.link p).lastUnstable s.cfg command = some s.now ∧
        (s.cfg.rateScope = .perClass →
          (∀ other, (u.link p).lastUnstable s.cfg other = some s.now) ∧
          ∀ other row' payload' t' allow', rowOf s.cfg other = some row' →
            riskOf s.cfg row' other payload' = .unstable → (u.link p).isConnected = true →
            u.now - s.now < s.cfg.minInterval →
            exec (.send p other payload' t' allow') u = .next
              (erring (.rateLimited other (s.cfg.minInterval - (u.now - s.now))) (some other) none
                (some .unstable) u)) ∧
        (s.cfg.rateScope = .perCommand → ∀ other, other ≠ command →
          (u.link p).lastUnstable s.cfg other = (s.link p).lastUnstable s.cfg other))

/-- R199 to R205 and R208. SEND of a request whose first attempt is answered returns the reply's packet, and
changes exactly what `Exchanged` says. -/
def Obligations.SendReturnsTheReply : Prop :=
  ∀ (p : PortId) (command : Byte) (payload : Bytes) (timeout : Nat) (allow : Bool) (s : State) (row : Row)
    (reply extra : Bytes) (w : Wait) (later : List Wait),
    Passes s p row command payload allow → Answered s p row command timeout reply extra w later →
    ∃ t, exec (.send p command payload timeout allow) s = .next t ∧
      t.ret = .packet (replyPacket s.cfg command reply) ∧
      Exchanged s t p row command payload timeout reply extra w later

/-- R203, R204, R208. A packet that SEND returns is one DECODE reads from the bytes received in the last attempt,
all of them, and it answers the request: same command byte, payload of the response shape. -/
def Obligations.ReturnedPacketsWereReceived : Prop :=
  ∀ (p : PortId) (command : Byte) (payload : Bytes) (timeout : Nat) (allow : Bool) (s t : State) (q : Packet),
    s.cfg.magic.length = 4 → exec (.send p command payload timeout allow) s = .next t → t.ret = .packet q →
    q.command = command ∧
    (∃ row, rowOf s.cfg command = some row ∧ Fits s.cfg row.response q.payload) ∧
    DecodeSays s.cfg (t.link p).lastRaw (.packet q (t.link p).lastRaw.length)

/-- R207, R314, R203, R204, R327. A `ProtocolError` is raised after exactly `1 + MAX_RETRIES` transmissions of the
frame and carries the opcode, that count, the bytes of the last attempt and the class that these bytes have; the report
adds the effective risk class (log 12). -/
def Obligations.ExhaustionRaisesProtocolError : Prop :=
  ∀ (p : PortId) (command : Byte) (payload : Bytes) (timeout : Nat) (allow : Bool) (s t : State)
    (report : ErrorReport) (opcode : Byte) (cls : FailClass) (attempts : Nat) (raw : Bytes),
    exec (.send p command payload timeout allow) s = .next t →
    t.ret = .error report → report.error = .protocol opcode cls attempts raw →
    report.opcode = some command ∧ report.risk = classOf s.cfg command payload ∧
    opcode = command ∧ attempts = 1 + s.cfg.maxRetries ∧ (t.link p).lastFail = some cls ∧
    raw = (t.link p).lastRaw ∧ (t.link p).attempt = 0 ∧ (t.link p).disp = .idle ∧
    (t.link p).tx = (s.link p).tx ++ copiesOf (1 + s.cfg.maxRetries) (frameOf s.cfg command payload) ∧
    (s.cfg.magic.length = 4 → FailedBy s.cfg command raw cls)

/-- R203, R206, R207, R209. A device that never answers: every attempt times out, and SEND raises
`ProtocolError(Timeout)` after `(1 + MAX_RETRIES) × timeout`, plus the pauses between attempts. What waits in `rx`
before is discarded and does not help. That no listed wait means time runs to each deadline, and that a pause lasts
`RETRY_DELAY`, is the model's choice (log 7, log 15), and so is the class that is reported (log 12). -/
def Obligations.SilentDeviceTimesOut : Prop :=
  ∀ (p : PortId) (command : Byte) (payload : Bytes) (timeout : Nat) (allow : Bool) (s : State) (row : Row),
    Passes s p row command payload allow → s.env.waits = [] → s.env.ioFails = [] →
    ∃ t, exec (.send p command payload timeout allow) s = .next t ∧
      t.ret = .error { error := .protocol command .timeout (1 + s.cfg.maxRetries) [],
                       opcode := some command, channel := none,
                       risk := some (riskOf s.cfg row command payload) } ∧
      t.now = s.now + (1 + s.cfg.maxRetries) * timeout + s.cfg.maxRetries * s.cfg.retryDelay ∧
      (t.link p).rx = [] ∧
      (t.link p).tx = (s.link p).tx ++ copiesOf (1 + s.cfg.maxRetries) (frameOf s.cfg command payload)

/-- R206. A silent first attempt and an answered second: the frame is sent twice and SEND returns the packet. -/
def Obligations.SecondAttemptSucceeds : Prop :=
  ∀ (p : PortId) (command : Byte) (payload : Bytes) (timeout dt : Nat) (allow : Bool) (s : State) (row : Row)
    (reply extra : Bytes) (w : Wait) (later : List Wait),
    Passes s p row command payload allow → 1 ≤ s.cfg.maxRetries → s.cfg.retryDelay = 0 → timeout ≤ dt →
    s.env.waits = { dt := dt, arrive := [] } :: w :: later →
    Answered { s with env := { s.env with waits := w :: later } } p row command timeout reply extra w later →
    ∃ t, exec (.send p command payload timeout allow) s = .next t ∧
      t.ret = .packet (replyPacket s.cfg command reply) ∧ t.now = s.now + dt + w.dt ∧
      (t.link p).rx = extra ∧
      (t.link p).tx = (s.link p).tx ++ copiesOf 2 (frameOf s.cfg command payload)

/-- R212. What SEND leaves on every exit: nothing in flight, `tx` longer by `k` whole copies of the frame with
`k ≤ 1 + MAX_RETRIES`, and, when the gate was passed, in `rx` only bytes that arrived during the call. -/
def Obligations.SendLeavesWholeFrames : Prop :=
  ∀ (p : PortId) (command : Byte) (payload : Bytes) (timeout : Nat) (allow : Bool) (s t : State),
    exec (.send p command payload timeout allow) s = .next t →
    (t.link p).disp = .idle ∧ (t.link p).attempt = 0 ∧ (t.link p).busy = false ∧
    (∃ k, k ≤ 1 + s.cfg.maxRetries ∧
      (t.link p).tx = (s.link p).tx ++ copiesOf k (frameOf s.cfg command payload)) ∧
    ∀ row, Passes s p row command payload allow →
      ∃ n, t.env.waits = s.env.waits.drop n ∧ (t.link p).rx <:+ arrivingIn p (s.env.waits.take n)

/-- R201, R360. The bytes that wait in `rx` when a request passes the gate have no influence on it. -/
def Obligations.StaleBytesDoNotMatter : Prop :=
  ∀ (p : PortId) (command : Byte) (payload : Bytes) (timeout : Nat) (allow : Bool) (s : State) (row : Row)
    (stale : Bytes), Passes s p row command payload allow →
    exec (.send p command payload timeout allow) (withInput p stale s) =
      exec (.send p command payload timeout allow) s

/-! ## The wire commands and the host operations -/

/-- R232 to R242. A wire command is `q <- send(s, op, payload, t); return q.payload`: it returns the payload of
the packet SEND returns, raises what SEND raises, and leaves the state SEND leaves. -/
def Obligations.WireCommandsAreSend : Prop :=
  ∀ (i : Instr) (p : PortId) (timeout : Nat) (op : Byte) (payload : Bytes) (s : State),
    wireRequest s.cfg i = some (p, timeout, op, payload) →
    match exec (.send p op payload timeout false) s with
    | .next t => ∃ u, exec i s = .next u ∧ u = { t with ret := u.ret } ∧
        (∀ q, t.ret = .packet q → u.ret = .bytes q.payload) ∧
        (∀ e, isErrorOf e t.ret → isErrorOf e u.ret)
    | .fault f => exec i s = .fault f
    | .refused r => exec i s = .refused r

/-- R232 to R242, R295, R296. Each wire command and each query that is answered completes with the reply's
payload. -/
def Obligations.WireCommandsReturnTheReply : Prop :=
  ∀ (i : Instr) (p : PortId) (timeout : Nat) (op : Byte) (payload : Bytes) (s : State) (row : Row)
    (reply extra : Bytes) (w : Wait) (later : List Wait),
    (wireRequest s.cfg i = some (p, timeout, op, payload) ∨
      queryRequest s.cfg i = some (p, timeout, op, payload)) →
    Passes s p row op payload false → Answered s p row op timeout reply extra w later →
    ∃ t, exec i s = .next t ∧ t.ret = .bytes reply ∧
      Exchanged s t p row op payload timeout reply extra w later

/-- R291, R292, R277. READ_CHANNEL refuses an index above `MAX_CHANNEL` on a live Session; of an answered request it
returns the decoded record with its two reports; neither makes it an error. -/
def Obligations.ReadChannelReportsTheRecord : Prop :=
  ∀ (p : PortId) (index : Word16) (timeout : Nat) (s : State),
    ((s.link p).busy = false → (s.link p).isConnected = true → s.cfg.maxChannel < index.toNat →
      exec (.readChannel p index timeout) s = .refused (.indexOutOfRange index)) ∧
    ∀ (row : Row) (reply extra : Bytes) (w : Wait) (later : List Wait), index.toNat ≤ s.cfg.maxChannel →
      Passes s p row s.cfg.opChRead [index.extractLsb' 8 8, index.extractLsb' 0 8] false →
      Answered s p row s.cfg.opChRead timeout reply extra w later → reply.length = s.cfg.recordLen →
      ∃ t u r valid, exec (.readChannel p index timeout) s = .next t ∧
        exec (.decodeChannel reply) s = .next u ∧ u.ret = .record r ∧
        t.ret = .read { record := r, valid := valid, indexMatches := decide (r.index = index) } ∧
        (valid = true ↔ ValidRecord s.cfg r) ∧
        Exchanged s t p row s.cfg.opChRead [index.extractLsb' 8 8, index.extractLsb' 0 8] timeout reply extra w
          later

/-- R291, R294, R315. WRITE_CHANNEL refuses an index above `MAX_CHANNEL` on a live Session. Else, where the request
passes the gate and is answered, it completes: it sends the lenient encoding, the bytes that ENCODE_CHANNEL returns,
and compares the echo byte by byte: equal, it returns; different, it raises `EchoMismatchError` with both, after one
exchange that is not repeated. The risk class reported is the effective one (log 12). -/
def Obligations.WriteChannelComparesTheEcho : Prop :=
  ∀ (p : PortId) (r : ChannelRecord) (timeout : Nat) (allow : Bool) (s : State),
    ((s.link p).busy = false → (s.link p).isConnected = true → s.cfg.maxChannel < r.index.toNat →
      exec (.writeChannel p r timeout allow) s = .refused (.indexOutOfRange r.index)) ∧
    ∀ (row : Row) (echo extra : Bytes) (w : Wait) (later : List Wait),
      let sent := encodeRecord s.cfg r
      r.index.toNat ≤ s.cfg.maxChannel → Passes s p row s.cfg.opChWrite sent allow →
      Answered s p row s.cfg.opChWrite timeout echo extra w later →
      ∃ t, exec (.writeChannel p r timeout allow) s = .next t ∧
        exec (.encodeChannel r) s = .next (returning (.bytes sent) s) ∧
        Exchanged s t p row s.cfg.opChWrite sent timeout echo extra w later ∧
        (echo = sent → t.ret = .unit) ∧
        (echo ≠ sent → t.ret = .error { error := .echoMismatch r.index sent echo,
                                        opcode := some s.cfg.opChWrite, channel := some r.index,
                                        risk := some (riskOf s.cfg row s.cfg.opChWrite sent) })

/-- R296, R334. SET_ALLOW_UNSTABLE writes the opt-in of a live Session and nothing else. -/
def Obligations.OptInIsWritten : Prop :=
  ∀ (p : PortId) (b : Bool) (s : State) (x : Session), (s.link p).busy = false →
    (s.link p).session = some x → x.connected = true →
    ∃ t, exec (.setAllowUnstable p b) s = .next t ∧ t.ret = .unit ∧
      t.link p = { s.link p with session := some { x with allowUnstable := b } } ∧
      (t.link p).optedIn = b ∧ (∀ q, q ≠ p → t.link q = s.link q) ∧
      t = { s with links := t.links, ret := t.ret }

/-- R297, R299. READ_ALL is READ_CHANNEL of each index in the order given, with the cancel request sampled before
each, and the value or error of each in its slot. -/
def Obligations.ReadAllVisitsItemsInOrder : Prop :=
  ∀ (p : PortId) (timeout : Nat) (s : State), (s.link p).busy = false →
    exec (.readAll p timeout []) s = .next (returning (.readAll []) s) ∧
    ∀ (index : Word16) (rest : List Word16), (∀ j ∈ index :: rest, j.toNat ≤ s.cfg.maxChannel) →
      let sampled := { s with env := { s.env with cancels := s.env.cancels.tail } }
      (s.env.cancels.head? = some true →
        exec (.readAll p timeout (index :: rest)) s = .next (returning (.readAll []) sampled)) ∧
      (s.env.cancels.head? ≠ some true → ∀ t u slot slots,
        exec (.readChannel p index timeout) sampled = .next t → readSlotOf t.ret = some slot →
        exec (.readAll p timeout rest) t = .next u → u.ret = .readAll slots →
        exec (.readAll p timeout (index :: rest)) s = .next (returning (.readAll (slot :: slots)) u))

/-- R298, R299. WRITE_ALL is WRITE_CHANNEL, without the override, of each record in the order given, likewise. -/
def Obligations.WriteAllVisitsItemsInOrder : Prop :=
  ∀ (p : PortId) (timeout : Nat) (s : State), (s.link p).busy = false →
    exec (.writeAll p timeout []) s = .next (returning (.writeAll []) s) ∧
    ∀ (r : ChannelRecord) (rest : List ChannelRecord),
      (∀ x ∈ r :: rest, x.index.toNat ≤ s.cfg.maxChannel) →
      let sampled := { s with env := { s.env with cancels := s.env.cancels.tail } }
      (s.env.cancels.head? = some true →
        exec (.writeAll p timeout (r :: rest)) s = .next (returning (.writeAll []) sampled)) ∧
      (s.env.cancels.head? ≠ some true → ∀ t u slot slots,
        exec (.writeChannel p r timeout false) sampled = .next t → writeSlotOf t.ret = some slot →
        exec (.writeAll p timeout rest) t = .next u → u.ret = .writeAll slots →
        exec (.writeAll p timeout (r :: rest)) s = .next (returning (.writeAll (slot :: slots)) u))

/-- R297, R298, R300, R291. A bulk operation that is not cancelled completes and fills every slot, whatever fails on
the way: a timeout, a policy, an I/O failure that ends the Session. On a live Session one with an index above
`MAX_CHANNEL` is refused; that it is refused before the first item is the model's (log 22). -/
def Obligations.BulkOperationsFillEverySlot : Prop :=
  ∀ (p : PortId) (timeout : Nat) (s : State), (s.link p).busy = false → s.env.cancels = [] →
    (∀ indices : List Word16, ReadRowShapes s.cfg → (∀ j ∈ indices, j.toNat ≤ s.cfg.maxChannel) →
      ∃ t slots, exec (.readAll p timeout indices) s = .next t ∧ t.ret = .readAll slots ∧
        slots.length = indices.length ∧ (t.link p).busy = false) ∧
    (∀ records : List ChannelRecord, WriteRowShapes s.cfg →
      (∀ r ∈ records, r.index.toNat ≤ s.cfg.maxChannel) →
      ∃ t slots, exec (.writeAll p timeout records) s = .next t ∧ t.ret = .writeAll slots ∧
        slots.length = records.length ∧ (t.link p).busy = false) ∧
    ((s.link p).isConnected = true →
      (∀ (before after : List Word16) (bad : Word16), (∀ j ∈ before, j.toNat ≤ s.cfg.maxChannel) →
        s.cfg.maxChannel < bad.toNat →
        exec (.readAll p timeout (before ++ bad :: after)) s = .refused (.indexOutOfRange bad)) ∧
      ∀ (before after : List ChannelRecord) (bad : ChannelRecord),
        (∀ r ∈ before, r.index.toNat ≤ s.cfg.maxChannel) → s.cfg.maxChannel < bad.index.toNat →
        exec (.writeAll p timeout (before ++ bad :: after)) s = .refused (.indexOutOfRange bad.index))

/-- R299. A cancel request that stands before item `k` leaves exactly the `k` items before it with a slot. -/
def Obligations.CancelStopsBetweenItems : Prop :=
  ∀ (p : PortId) (timeout k : Nat) (indices : List Word16) (more : List Bool) (s : State),
    (s.link p).busy = false → ReadRowShapes s.cfg → (∀ j ∈ indices, j.toNat ≤ s.cfg.maxChannel) →
    k < indices.length → s.env.cancels = List.replicate k false ++ true :: more →
    ∃ t slots, exec (.readAll p timeout indices) s = .next t ∧ t.ret = .readAll slots ∧
      slots.length = k ∧ t.env.cancels = more

/-! ## The record codec -/

/-- R261, R99, R60, R269, R271, R274, R275. ENCODE_CHANNEL: exactly `RECORD_LEN` bytes, every field at its offset,
integers most significant byte first; the tone bytes are the indices of the table; the tail of an Analog record is all
zero, that of a Digital record holds each field at its positions of `cfg.tail` and 0 elsewhere, which under the layout
of R275 is the byte sequence of that rule. For another layout (log 14) a colour code or timeslot that its field is too
narrow for is a free value; the timeslot field is 0 exactly for the timeslot 0 (log 36). -/
def Obligations.EncodeChannelLayout : Prop :=
  ∀ (r : ChannelRecord) (s : State), ∃ bytes,
    exec (.encodeChannel r) s = .next (returning (.bytes bytes) s) ∧
    bytes.length = 26 + s.cfg.tail.len ∧
    bytes.take 2 = [r.index.extractLsb' 8 8, r.index.extractLsb' 0 8] ∧
    bytes[2]? = some r.rxMode ∧ bytes[3]? = some r.txMode ∧
    (bytes.drop 4).take 4 = fourBytes r.rxFreq ∧ (bytes.drop 8).take 4 = fourBytes r.txFreq ∧
    bytes[12]? = some (toneByte s.cfg r.rxTone) ∧ bytes[13]? = some (toneByte s.cfg r.txTone) ∧
    (s.cfg.wf = true → ∃ a b, bytes[12]? = some a ∧ bytes[13]? = some b ∧
      ToneByteSays s.cfg r.rxTone a ∧ ToneByteSays s.cfg r.txTone b) ∧
    (bytes.drop 14).take 12 = r.name.take 11 ++ List.replicate (12 - min r.name.length 11) 0#8 ∧
    bytes.drop 26 = tailBytes s.cfg.tail r.kind ∧
    (r.kind = .analog → ∀ k, 26 ≤ k → k < bytes.length → bytes[k]? = some 0#8) ∧
    ∀ g i rc tc ts, r.kind = .digital g i rc tc ts →
      (s.cfg.tail = tailRef → bytes.drop 26 = fourBytes g ++ fourBytes i ++ [rc, tc, ts]) ∧
      (s.cfg.wf = true →
        let tail := bytes.drop 26
        let layout := s.cfg.tail
        Holds tail layout.group g.toNat ∧ Holds tail layout.radio i.toNat ∧
        (rc.toNat < 2 ^ layout.rxColor.length → Holds tail layout.rxColor rc.toNat) ∧
        (tc.toNat < 2 ^ layout.txColor.length → Holds tail layout.txColor tc.toNat) ∧
        (ts.toNat < 2 ^ layout.timeslot.length → Holds tail layout.timeslot ts.toNat) ∧
        (ts = 0#8 ↔ ∀ k ∈ layout.timeslot, bitOf tail k = false) ∧
        ∀ k, k ∉ layout.positions → bitOf tail k = false)

/-- R269. The strict encoder is the lenient one where both tones have a table entry, and reports the first field
that has none; and no tone byte of either is reserved or above 55. -/
def Obligations.StrictEncoderReportsTones : Prop :=
  ∀ (r : ChannelRecord) (s : State), s.cfg.wf = true → ∃ bytes result,
    exec (.encodeChannel r) s = .next (returning (.bytes bytes) s) ∧
    exec (.encodeChannelStrict r) s = .next (returning (.strict result) s) ∧
    (NoEntry s.cfg r.rxTone → result = .unrepresentable .rxTone r.rxTone) ∧
    (¬ NoEntry s.cfg r.rxTone → NoEntry s.cfg r.txTone → result = .unrepresentable .txTone r.txTone) ∧
    (¬ NoEntry s.cfg r.rxTone → ¬ NoEntry s.cfg r.txTone → result = .bytes bytes) ∧
    ∀ k b, (k = 12 ∨ k = 13) → bytes[k]? = some b →
      b.toNat ≤ 55 ∧ b.toNat ∉ [25, 45, 47, 51, 53]

/-- R262, R267, R272, R276. DECODE_CHANNEL reads each field at its offset, and refuses exactly the inputs that are not
`RECORD_LEN` bytes long. The kind is Digital exactly when the timeslot field is not 0, with each field at its positions
of `cfg.tail` (for another layout than that of R275, log 14); under the layout of R275 the fields are the bytes that
R276 names. -/
def Obligations.DecodeChannelReadsTheFields : Prop :=
  ∀ (bytes : Bytes) (s : State),
    let u8 := fun k => bytes.getD k 0#8
    let u16 := fun k => 256 * (u8 k).toNat + (u8 (k + 1)).toNat
    (bytes.length ≠ 26 + s.cfg.tail.len →
      exec (.decodeChannel bytes) s = .refused (.recordLength bytes.length)) ∧
    (bytes.length = 26 + s.cfg.tail.len → ∃ r,
      exec (.decodeChannel bytes) s = .next (returning (.record r) s) ∧
      r.index.toNat = u16 0 ∧ r.rxMode = u8 2 ∧ r.txMode = u8 3 ∧
      r.rxFreq.toNat = 65536 * u16 4 + u16 6 ∧ r.txFreq.toNat = 65536 * u16 8 + u16 10 ∧
      r.rxTone = toneOf s.cfg (u8 12) ∧ r.txTone = toneOf s.cfg (u8 13) ∧
      r.name = ((bytes.drop 14).take 12).takeWhile (fun b => b != 0#8) ∧
      (s.cfg.wf = true → ToneSays s.cfg (u8 12) r.rxTone ∧ ToneSays s.cfg (u8 13) r.txTone) ∧
      r.kind = kindOf s.cfg.tail (bytes.drop 26) ∧
      (let tail := bytes.drop 26
       let layout := s.cfg.tail
       ((∀ k ∈ layout.timeslot, bitOf tail k = false) → r.kind = .analog) ∧
       (s.cfg.wf = true → ∀ k ∈ layout.timeslot, bitOf tail k = true → ∃ g i rc tc ts,
         r.kind = .digital g i rc tc ts ∧ Holds tail layout.group g.toNat ∧ Holds tail layout.radio i.toNat ∧
         Holds tail layout.rxColor rc.toNat ∧ Holds tail layout.txColor tc.toNat ∧
         Holds tail layout.timeslot ts.toNat)) ∧
      (s.cfg.tail = tailRef →
        (u8 36 = 0#8 → r.kind = .analog) ∧
        (u8 36 ≠ 0#8 → ∃ g i, r.kind = .digital g i (u8 34) (u8 35) (u8 36) ∧
          g.toNat = 65536 * u16 26 + u16 28 ∧ i.toNat = 65536 * u16 30 + u16 32)))

/-- R278. A valid record survives encoding and decoding, and both encoders agree on it; the listed failures are
failures. -/
def Obligations.ValidRecordsRoundTrip : Prop :=
  ∀ (r : ChannelRecord) (s t u v : State) (bytes : Bytes) (result : StrictResult) (d : ChannelRecord),
    s.cfg.wf = true → exec (.encodeChannel r) s = .next t → t.ret = .bytes bytes →
    exec (.encodeChannelStrict r) s = .next u → u.ret = .strict result →
    exec (.decodeChannel bytes) s = .next v → v.ret = .record d →
    (ValidRecord s.cfg r → d = r ∧ result = .bytes bytes) ∧
    (11 < r.name.length ∨ 0#8 ∈ r.name → d.name ≠ r.name) ∧
    (∀ f, (∀ e ∈ s.cfg.tones, e.2 ≠ f) →
      (r.rxTone = .freq f → d.rxTone = .noTone) ∧ (r.txTone = .freq f → d.txTone = .noTone)) ∧
    (∀ i, (r.rxTone = .unknown i → d.rxTone = .noTone) ∧ (r.txTone = .unknown i → d.txTone = .noTone)) ∧
    (∀ g i rc tc, r.kind = .digital g i rc tc 0#8 → d.kind = .analog)

/-- R266 to R268. The two lookups are exact, change nothing, and invert each other. The frequency 0 has no index: that
an admitted table does not assign it is read from R266 and R268 (log 13). -/
def Obligations.ToneTableIsBijective : Prop :=
  (∀ s : State, exec (.freqToIndex 0) s = .next (returning (.toneIndex none) s)) ∧
  ∀ (i f : Nat) (s : State), s.cfg.wf = true → ∃ a b,
    exec (.indexToFreq i) s = .next (returning (.toneFreq a) s) ∧
    exec (.freqToIndex f) s = .next (returning (.toneIndex b) s) ∧
    (a = some f ↔ (i, f) ∈ s.cfg.tones) ∧ (b = some i ↔ (i, f) ∈ s.cfg.tones) ∧
    (a = some f ↔ b = some i)

/-- R69, R267. A reserved tone index, or one above 55, has no frequency and decodes to an unknown tone; the index 0
decodes to no tone; an assigned index decodes to its frequency. In either tone field. -/
def Obligations.ReservedTonesAreUnknown : Prop :=
  ∀ (bytes : Bytes) (b : Byte) (k : Nat) (s : State), s.cfg.wf = true → bytes.length = s.cfg.recordLen →
    (k = 12 ∨ k = 13) → bytes[k]? = some b →
    ∃ r x, exec (.decodeChannel bytes) s = .next (returning (.record r) s) ∧
      (k = 12 → r.rxTone = x) ∧ (k = 13 → r.txTone = x) ∧
      (b.toNat ∈ [25, 45, 47, 51, 53] ∨ 55 < b.toNat →
        x = .unknown b ∧ exec (.indexToFreq b.toNat) s = .next (returning (.toneFreq none) s)) ∧
      (b = 0#8 → x = .noTone ∧ exec (.indexToFreq 0) s = .next (returning (.toneFreq none) s)) ∧
      (∀ f, (b.toNat, f) ∈ s.cfg.tones →
        x = .freq f ∧ exec (.indexToFreq b.toNat) s = .next (returning (.toneFreq (some f)) s))

/-- R271, R272. The name that comes back is the first 11 bytes up to the first NUL. -/
def Obligations.NamesAreTruncated : Prop :=
  ∀ (r d : ChannelRecord) (s t u : State) (bytes : Bytes), exec (.encodeChannel r) s = .next t →
    t.ret = .bytes bytes → exec (.decodeChannel bytes) s = .next u → u.ret = .record d →
    d.name = (r.name.take 11).takeWhile (fun b => b != 0#8) ∧ d.name.length ≤ 11 ∧ bytes[25]? = some 0#8

/-! ## The machine -/

/-- A step runs the operation at the head of the host's queue: a wire command given as its frame is decoded and run
with its Session and timeout, an operation given with its operands is run as it is. Bytes without a good frame have
the effect of DECODE, and a frame that is no wire command is a request that SEND's gate answers (R104, R197). With no
operation issued, the environment takes one step: time advances, bytes accumulate in `rx` of their ports, and the
engine takes no notice (R321). A state whose configuration is ill-formed is refused (R7, R318). The queue, that
frames are requests in it, and that nothing changes when no wait is listed, are the model's (log 7, log 8, log 17). -/
def Obligations.StepRunsTheDecodedInstruction : Prop :=
  (∀ (s : State) (i : Instr) (rest : List Request), s.cfg.wf = true →
    (∀ (p : PortId) (t : Nat) (bytes more : Bytes), s.requests = .frame p t bytes :: rest →
      decode s.cfg p t bytes = .instr i more → step s = exec i { s with requests := rest }) ∧
    (∀ (p : PortId) (t : Nat) (bytes payload : Bytes) (command : Byte) (cls : FramingClass),
      s.requests = .frame p t bytes :: rest →
      (decode s.cfg p t bytes = .rejected (.framing cls) →
        step s = exec (.decode bytes) { s with requests := rest }) ∧
      (decode s.cfg p t bytes = .rejected (.unassignedOpcode command payload) ∨
          decode s.cfg p t bytes = .rejected (.operandShape command payload) →
        step s = exec (.send p command payload t false) { s with requests := rest })) ∧
    (s.requests = .op i :: rest → step s = exec i { s with requests := rest })) ∧
  (∀ s : State, s.cfg.wf = true → s.requests = [] ∨ s.requests.head? = some .idle →
    (s.env.waits = [] → step s = .next { s with requests := s.requests.tail }) ∧
    ∀ w later, s.env.waits = w :: later → ∃ t, step s = .next t ∧
      (∀ q, t.link q = { s.link q with rx := (s.link q).rx ++ arriving q w.arrive }) ∧
      t = { s with
        now := s.now + w.dt, links := t.links, env := { s.env with waits := later },
        requests := s.requests.tail }) ∧
  ∀ s : State, s.cfg.wf = false → step s = .refused .illFormedConfig

/-- R90, R231 to R242. The decoder of instruction words inverts the encoder on every well-formed wire command with
every operand, whatever follows the frame. -/
def Obligations.InstructionDecodingInvertsEncoding : Prop :=
  ∀ (cfg : Config) (i : Instr) (p : PortId) (t : Nat) (op : Byte) (payload : Bytes), cfg.wf = true →
    i.wf cfg = true → wireRequest cfg i = some (p, t, op, payload) →
    encode cfg i = some (frameOf cfg op payload) ∧
    ∀ more, decode cfg p t (frameOf cfg op payload ++ more) = .instr i more

/-- The instruction words of the spec's examples (R232, R234, R242, R241) decode to their commands. -/
def Obligations.ExampleWordsDecode : Prop :=
  decode cfgRef 3 1000 [0xA5#8, 0xA5#8, 0xA5#8, 0xA5#8, 0x04#8, 0x07#8, 0x01#8, 0x99#8, 0xEA#8] =
    .instr (.ptt 3 1000 [0x01#8]) [] ∧
  decode cfgRef 3 1000 [0xA5#8, 0xA5#8, 0xA5#8, 0xA5#8, 0x03#8, 0x0B#8, 0xF9#8, 0x37#8, 0xEE#8] =
    .instr (.statusSync 3 1000 []) [0xEE#8] ∧
  decode cfgRef 3 1000 [0xA5#8, 0xA5#8, 0xA5#8, 0xA5#8, 0x05#8, 0x41#8, 0x03#8, 0xE7#8, 0xCA#8, 0x82#8] =
    .instr (.chRead 3 1000 999#16) []

/-- The invariant `State.Inv` holds at power-on. -/
def Obligations.PowerOnIsSafe : Prop := State.reset.Inv

/-- R351, R46. Power-on: on every port nothing in flight, no Session, both lines low, empty streams, no opt-in and
no rate-limit time; no port held; the decoder as after DEC.START. -/
def Obligations.PowerOnValues : Prop :=
  ∀ p : PortId,
    let l := State.reset.link p
    l.disp = .idle ∧ l.attempt = 0 ∧ l.busy = false ∧ l.session = none ∧ l.dtrLevel = .low ∧ l.rtsLevel = .low ∧
    l.isConnected = false ∧ l.optedIn = false ∧ l.rx = [] ∧ l.tx = [] ∧ l.lastRaw = [] ∧ l.lastFail = none ∧
    (∀ command, l.lastUnstable State.reset.cfg command = none) ∧ p ∉ State.reset.portsHeld ∧
    ∃ t, exec (.decStep .start) State.reset = .next t ∧ t.dec = State.reset.dec

/-- R24, R31, R170, R22. The invariant is kept by every step from every state. -/
def Obligations.StepKeepsTheInvariant : Prop :=
  ∀ s t : State, s.Inv → step s = .next t → t.Inv

/-- R29, R35, R41. No operation writes a field of the configuration, `tx` of every port only grows, and time does
not run back. -/
def Obligations.TransmitLogOnlyGrows : Prop :=
  ∀ (i : Instr) (s t : State), exec i s = .next t →
    t.cfg = s.cfg ∧ s.now ≤ t.now ∧ ∀ p, (s.link p).tx <+: (t.link p).tx

/-- R171, R180, R337. An operation on one port leaves every other port's record as it is, but for the bytes that the
waits it took brought to its `rx`; an operation on no port takes no wait and leaves all of them. -/
def Obligations.OtherPortsAreLeftAlone : Prop :=
  ∀ (i : Instr) (s t : State) (q : PortId), exec i s = .next t → portOf i ≠ some q →
    (∃ n, t.env.waits = s.env.waits.drop n ∧
      t.link q = { s.link q with rx := (s.link q).rx ++ arrivingIn q (s.env.waits.take n) }) ∧
    (portOf i = none → t.env.waits = s.env.waits ∧ t.link q = s.link q) ∧
    (q ∈ t.portsHeld ↔ q ∈ s.portsHeld)
end

