-- ==== Sys2Proof/Laws/Crc.lean ====
section
/-!
SUPPORT. Laws of the CRC generator (40_crc.md R122 to R131): the shift is linear over GF(2), and injective when the
polynomial's constant term is 1.
-/

namespace Sys2Proof.Machine

theorem crcShift_eq (poly c : Word16) :
    crcShift poly c = (c <<< 1) ^^^ (if c.msb then poly else 0#16) := by
  unfold crcShift
  rw [BitVec.msb_eq_getLsbD_last]
  split <;> simp

theorem crcShift_xor (poly a b : Word16) :
    crcShift poly (a ^^^ b) = crcShift poly a ^^^ crcShift poly b := by
  simp only [crcShift_eq, BitVec.msb_xor, BitVec.shiftLeft_xor_distrib]
  cases a.msb <;> cases b.msb
  · simp
  · simp; ac_rfl
  · simp; ac_rfl
  · simp only [Bool.xor_self, Bool.false_eq_true, if_false, if_true, BitVec.xor_zero]
    rw [show a <<< 1 ^^^ poly ^^^ (b <<< 1 ^^^ poly) = a <<< 1 ^^^ b <<< 1 ^^^ (poly ^^^ poly) by ac_rfl,
      BitVec.xor_self, BitVec.xor_zero]

theorem crcShift_zero (poly : Word16) : crcShift poly 0#16 = 0#16 := by simp [crcShift]

theorem crcShifts_xor (poly : Word16) (n : Nat) (a b : Word16) :
    crcShifts poly n (a ^^^ b) = crcShifts poly n a ^^^ crcShifts poly n b := by
  induction n generalizing a b with
  | zero => rfl
  | succ n ih => simp only [crcShifts, crcShift_xor, ih]

theorem crcShifts_zero (poly : Word16) (n : Nat) : crcShifts poly n 0#16 = 0#16 := by
  induction n with
  | zero => rfl
  | succ n ih => simp only [crcShifts, crcShift_zero, ih]

theorem crcShifts_add (poly : Word16) (m n : Nat) (c : Word16) :
    crcShifts poly (m + n) c = crcShifts poly n (crcShifts poly m c) := by
  induction m generalizing c with
  | zero => simp [crcShifts]
  | succ m ih => rw [Nat.succ_add]; simp only [crcShifts, ih]

/-- With a constant term of 1 only 0 shifts to 0. -/
theorem crcShift_eq_zero {poly c : Word16} (hp : poly.getLsbD 0 = true) (h : crcShift poly c = 0#16) :
    c = 0#16 := by
  rw [crcShift_eq] at h
  have h0 := congrArg (fun v => v.getLsbD 0) h
  have hm : c.msb = false := by
    cases hc : c.msb
    · rfl
    · rw [hc, if_pos rfl, BitVec.getLsbD_xor, hp] at h0
      simp at h0
  rw [hm] at h
  simp only [Bool.false_eq_true, if_false, BitVec.xor_zero] at h
  rw [BitVec.msb_eq_getLsbD_last] at hm
  apply BitVec.eq_of_getLsbD_eq
  intro i hi
  rcases Nat.lt_or_ge i 15 with hlt | hge
  · have := congrArg (fun v => v.getLsbD (i + 1)) h
    rw [BitVec.getLsbD_shiftLeft] at this
    simpa [show i + 1 < 16 by omega] using this
  · have : i = 15 := by omega
    subst this
    simpa using hm

theorem crcShifts_eq_zero {poly c : Word16} (hp : poly.getLsbD 0 = true) {n : Nat}
    (h : crcShifts poly n c = 0#16) : c = 0#16 := by
  induction n generalizing c with
  | zero => exact h
  | succ n ih => exact crcShift_eq_zero hp (ih h)

/-- The bytes of a sequence shifted in through the top byte of the register. -/
theorem crcByteStep_xor (poly a b : Word16) (x y : Byte) :
    crcByteStep poly (a ^^^ b) (x ^^^ y) = crcByteStep poly a x ^^^ crcByteStep poly b y := by
  unfold crcByteStep
  rw [← crcShifts_xor]
  congr 1
  rw [show (x ^^^ y).zeroExtend 16 = x.zeroExtend 16 ^^^ y.zeroExtend 16 by
    simp [BitVec.setWidth_xor], BitVec.shiftLeft_xor_distrib]
  ac_rfl

theorem crcFold_append (poly c : Word16) (a b : Bytes) :
    crcFold poly c (a ++ b) = crcFold poly (crcFold poly c a) b := by simp [crcFold]

theorem crcFold_cons (poly c : Word16) (x : Byte) (b : Bytes) :
    crcFold poly c (x :: b) = crcFold poly (crcByteStep poly c x) b := rfl

@[simp] theorem crcFold_nil (poly c : Word16) : crcFold poly c [] = c := rfl

theorem crc16_append (cfg : Config) (a b : Bytes) :
    crc16 cfg (a ++ b) = crcFold cfg.poly (crc16 cfg a) b := crcFold_append _ _ a b

/-- Different registers stay different over the same bytes. -/
theorem crcFold_injective {poly : Word16} (hp : poly.getLsbD 0 = true) (s : Bytes) {c d : Word16}
    (h : crcFold poly c s = crcFold poly d s) : c = d := by
  induction s generalizing c d with
  | nil => exact h
  | cons x s ih =>
    have h1 := ih h
    have h2 : crcByteStep poly (c ^^^ d) (x ^^^ x) = 0#16 := by
      rw [crcByteStep_xor, h1, BitVec.xor_self]
    rw [BitVec.xor_self] at h2
    unfold crcByteStep at h2
    have h3 := crcShifts_eq_zero hp h2
    simp only [BitVec.truncate_eq_setWidth, BitVec.setWidth_zero, BitVec.zero_shiftLeft, BitVec.xor_zero] at h3
    have h4 : (c ^^^ d) ^^^ d = 0#16 ^^^ d := by rw [h3]
    rw [BitVec.xor_assoc, BitVec.xor_self, BitVec.xor_zero, BitVec.zero_xor] at h4
    exact h4

end Sys2Proof.Machine
end

