-- ==== Sys2Proof/Laws/Codec.lean ====
section
/-!
SUPPORT. Laws of the frame codec (41_frame_codec.md): what the hunt finds, the pieces of an encoded frame, and the
registers of the streaming decoder after any number of bytes, phase by phase.
-/

namespace Sys2Proof.Machine

/-! ## Fields -/

@[simp] theorem be16_length (v : Word16) : (be16 v).length = 2 := rfl

@[simp] theorem unbe16_hi8_lo8 (v : Word16) : unbe16 (hi8 v) (lo8 v) = v := by
  unfold unbe16 hi8 lo8
  apply BitVec.eq_of_getLsbD_eq
  intro i hi
  rw [BitVec.getLsbD_append]
  by_cases h : i < 8
  · simp [h]
  · simp [h, show i - 8 < 8 by omega, show 8 + (i - 8) = i by omega]

@[simp] theorem lengthByte_toNat {payload : Bytes} (h : payload.length ≤ 252) :
    (lengthByte payload).toNat = payload.length + 3 := by
  simp only [lengthByte, BitVec.toNat_ofNat]
  omega

/-! ## The hunt (R146, R147) -/

/-- The four bytes at position `i` are the magic. -/
def matchesAt (magic s : Bytes) (i : Nat) : Prop := i + 4 ≤ s.length ∧ (s.drop i).take 4 = magic

theorem matchesAt_cons_succ (magic : Bytes) (b : Byte) (rest : Bytes) (i : Nat) :
    matchesAt magic (b :: rest) (i + 1) ↔ matchesAt magic rest i := by
  simp [matchesAt]

theorem matchesAt_zero (magic s : Bytes) :
    (decide (4 ≤ s.length) && decide (s.take 4 = magic)) = true ↔ matchesAt magic s 0 := by
  rw [Bool.and_eq_true, decide_eq_true_iff, decide_eq_true_iff, matchesAt, List.drop_zero, Nat.zero_add]

theorem findMagic_none {magic s : Bytes} : findMagic magic s = none ↔ ∀ i, ¬ matchesAt magic s i := by
  induction s with
  | nil => simp [findMagic, matchesAt]
  | cons b rest ih =>
    unfold findMagic
    constructor
    · intro h i hm
      split at h
      · cases h
      · rename_i h0
        cases i with
        | zero =>
          exact h0 ((matchesAt_zero ..).2 hm)
        | succ i =>
          simp only [Option.map_eq_none_iff] at h
          exact ih.1 h i ((matchesAt_cons_succ ..).1 hm)
    · intro h
      rw [if_neg, Option.map_eq_none_iff]
      · exact ih.2 (fun i hm => h (i + 1) ((matchesAt_cons_succ ..).2 hm))
      · exact fun h0 => h 0 ((matchesAt_zero ..).1 h0)

theorem findMagic_some {magic s : Bytes} {p : Nat} :
    findMagic magic s = some p ↔ matchesAt magic s p ∧ ∀ i < p, ¬ matchesAt magic s i := by
  induction s generalizing p with
  | nil => simp [findMagic, matchesAt]
  | cons b rest ih =>
    unfold findMagic
    by_cases h0 : matchesAt magic (b :: rest) 0
    · rw [if_pos ((matchesAt_zero ..).2 h0)]
      constructor
      · intro h
        cases h
        exact ⟨h0, fun i hi => absurd hi (Nat.not_lt_zero i)⟩
      · rintro ⟨_, h2⟩
        cases p with
        | zero => rfl
        | succ p => exact absurd h0 (h2 0 (Nat.succ_pos p))
    · rw [if_neg (fun h => h0 ((matchesAt_zero ..).1 h))]
      cases p with
      | zero =>
        constructor
        · intro h
          simp at h
        · exact fun h => absurd h.1 h0
      | succ p =>
        rw [Option.map_eq_some_iff]
        constructor
        · rintro ⟨a, ha, e⟩
          cases e
          obtain ⟨h1, h2⟩ := ih.1 ha
          refine ⟨(matchesAt_cons_succ ..).2 h1, fun i hi => ?_⟩
          cases i with
          | zero => exact h0
          | succ i => exact fun hm => h2 i (by omega) ((matchesAt_cons_succ ..).1 hm)
        · rintro ⟨h1, h2⟩
          exact ⟨p, ih.2 ⟨(matchesAt_cons_succ ..).1 h1,
            fun i hi hm => h2 (i + 1) (by omega) ((matchesAt_cons_succ ..).2 hm)⟩, rfl⟩

/-! ## The streaming decoder (R152) -/

theorem decFeed_append (cfg : Config) (d : Dec) (crc : Word16) (a b : Bytes) :
    decFeed cfg d crc (a ++ b) = decFeed cfg (decFeed cfg d crc a).1 (decFeed cfg d crc a).2 b := by
  induction a generalizing d crc with
  | nil => rfl
  | cons x a ih => exact ih _ _

/-- In DONE no byte is consumed. -/
theorem decFeed_done (cfg : Config) {d : Dec} (h : d.phase = .done) (crc : Word16) (s : Bytes) :
    decFeed cfg d crc s = (d, crc) := by
  induction s with
  | nil => rfl
  | cons b rest ih =>
    have e : decByte cfg d crc b = (d, crc) := by simp [decByte, h]
    rw [decFeed, e]
    exact ih

/-- The decoder while it hunts, after `s`. -/
def huntingDec (s : Bytes) : Dec := { Dec.start with win := lastFour s, skipped := s.length - 3 }

theorem lastFour_snoc (s : Bytes) (b : Byte) : lastFour (lastFour s ++ [b]) = lastFour (s ++ [b]) := by
  simp only [lastFour, List.length_append, List.length_drop, List.length_singleton]
  rcases Nat.lt_or_ge s.length 4 with h | h
  · simp [show s.length - 4 = 0 by omega]
  · rw [show s.length - (s.length - 4) + 1 - 4 = 1 by omega, show s.length + 1 - 4 = s.length - 4 + 1 by omega,
      ← List.drop_append_of_le_length (by omega), List.drop_drop]

theorem lastFour_length_eq (s : Bytes) : (lastFour s).length = min s.length 4 := by
  simp only [lastFour, List.length_drop]
  omega

/-- The window after `s` is the magic exactly when the magic ends there. -/
theorem lastFour_eq_magic {magic s : Bytes} (hm : magic.length = 4) :
    lastFour s = magic ↔ 4 ≤ s.length ∧ matchesAt magic s (s.length - 4) := by
  constructor
  · intro h
    have hl := congrArg List.length h
    rw [lastFour_length_eq, hm] at hl
    refine ⟨by omega, by omega, ?_⟩
    rw [List.take_of_length_le (by simp; omega)]
    exact h
  · rintro ⟨h4, _, h⟩
    rw [List.take_of_length_le (by simp; omega)] at h
    exact h

/-- While no window has matched, the decoder hunts on and `crc_reg` stands. -/
theorem decFeed_hunting {cfg : Config} (hm : cfg.magic.length = 4) (crc : Word16) (s : Bytes)
    (h : ∀ i, ¬ matchesAt cfg.magic s i) : decFeed cfg Dec.start crc s = (huntingDec s, crc) := by
  induction s using List.reverseRecOn with
  | nil => rfl
  | append_singleton s b ih =>
    have hs : ∀ i, ¬ matchesAt cfg.magic s i := fun i hi => h i
      ⟨by have := hi.1; simp; omega, by rw [List.drop_append_of_le_length (by have := hi.1; omega),
        List.take_append_of_le_length (by have := hi.1; simp; omega)]; exact hi.2⟩
    rw [decFeed_append, ih hs]
    have hw : ¬ (lastFour (s ++ [b])).length = 4 ∨ lastFour (s ++ [b]) ≠ cfg.magic := by
      by_cases h4 : lastFour (s ++ [b]) = cfg.magic
      · exact absurd ((lastFour_eq_magic hm).1 h4).2 (h _)
      · exact .inr h4
    have hne : lastFour (s ++ [b]) ≠ cfg.magic := by
      rcases hw with hw | hw
      · intro e
        exact hw (by rw [e, hm])
      · exact hw
    simp only [decFeed, decByte, huntingDec, Dec.start, lastFour_snoc, lastFour_length_eq, hne, and_false,
      if_false]
    split
    · rename_i h4
      simp only [List.length_append, List.length_singleton] at h4 ⊢
      rw [show s.length + 1 - 3 = s.length - 3 + 1 by omega]
    · rename_i h4
      simp only [List.length_append, List.length_singleton] at h4 ⊢
      rw [show s.length + 1 - 3 = 0 by omega, show s.length - 3 = 0 by omega]

/-- The byte that completes the first match ends the hunt. -/
theorem decFeed_magic {cfg : Config} (hm : cfg.magic.length = 4) (crc : Word16) {s : Bytes} {p : Nat}
    (h : findMagic cfg.magic s = some p) :
    decFeed cfg Dec.start crc (s.take (p + 4)) =
      ({ Dec.start with win := cfg.magic, skipped := p, phase := .len }, crc) := by
  obtain ⟨⟨hl, hp⟩, hfirst⟩ := findMagic_some.1 h
  have hlt : p + 3 < s.length := by omega
  have hsplit : s.take (p + 4) = s.take (p + 3) ++ [s[p + 3]] := by
    rw [List.take_succ_eq_append_getElem hlt]
  have hno : ∀ i, ¬ matchesAt cfg.magic (s.take (p + 3)) i := by
    rintro i ⟨h1, h2⟩
    rw [List.length_take] at h1
    apply hfirst i (by omega)
    refine ⟨by omega, ?_⟩
    rw [List.drop_take, List.take_take] at h2
    rwa [Nat.min_eq_left (by omega)] at h2
  rw [hsplit, decFeed_append, decFeed_hunting hm crc _ hno]
  have hwin : lastFour (s.take (p + 3) ++ [s[p + 3]]) = cfg.magic := by
    rw [← hsplit, lastFour_eq_magic hm]
    refine ⟨by simp; omega, by simp; omega, ?_⟩
    rw [List.length_take, Nat.min_eq_left (by omega), show p + 4 - 4 = p by omega, List.drop_take,
      List.take_take]
    rwa [Nat.min_eq_left (by omega)]
  have hlen : (s.take (p + 3)).length - 3 = p := by
    rw [List.length_take, Nat.min_eq_left (by omega)]
    omega
  simp only [decFeed, decByte, huntingDec, Dec.start, lastFour_snoc, hwin, hm, hlen, and_self, if_true]

/-- The decoder in BODY with `body` received of `len` bytes. -/
def bodyDec (cfg : Config) (p : Nat) (len : Byte) (body : Bytes) : Dec :=
  { Dec.start with
    win := cfg.magic, skipped := p, phase := .body, len := len, body := body,
    cnt := BitVec.ofNat 8 (len.toNat - body.length) }

/-- In BODY, before the last byte: the bytes received, the count, and the CRC of those before the CRC field. -/
theorem decFeed_body {cfg : Config} (p : Nat) (len : Byte) (body : Bytes) (h : body.length < len.toNat) :
    decFeed cfg (bodyDec cfg p len []) (crcByteStep cfg.poly cfg.crcInit len) body =
      (bodyDec cfg p len body, crc16 cfg (len :: body.take (len.toNat - 2))) := by
  induction body using List.reverseRecOn with
  | nil => simp [decFeed, crc16, crcFold_cons]
  | append_singleton body b ih =>
    simp only [List.length_append, List.length_singleton] at h
    have hl := len.isLt
    rw [decFeed_append, ih (by omega)]
    have hc : (BitVec.ofNat 8 (len.toNat - body.length) - 1#8 : Byte) =
        BitVec.ofNat 8 (len.toNat - (body.length + 1)) := by
      apply BitVec.eq_of_toNat_eq
      simp only [BitVec.toNat_sub, BitVec.toNat_ofNat]
      omega
    have hn : (BitVec.ofNat 8 (len.toNat - (body.length + 1)) : Byte).toNat = len.toNat - (body.length + 1) := by
      simp only [BitVec.toNat_ofNat]
      omega
    have h0 : ¬ (BitVec.ofNat 8 (len.toNat - (body.length + 1)) : Byte) = 0#8 := fun e => by
      rw [e] at hn
      simp at hn
      omega
    simp only [decFeed, decByte, bodyDec, Dec.start, hc, hn, h0, if_false, List.length_append,
      List.length_singleton]
    congr 1
    split
    · rename_i h2
      rw [List.take_of_length_le (by omega), List.take_of_length_le (by simp; omega), ← List.cons_append,
        crc16_append]
      rfl
    · rename_i h2
      rw [List.take_append_of_le_length (by omega)]

/-- The last byte of the body. -/
theorem decFeed_last {cfg : Config} (p : Nat) (len : Byte) (body : Bytes) (h3 : 3 ≤ len.toNat)
    (h : body.length = len.toNat) :
    decFeed cfg (bodyDec cfg p len []) (crcByteStep cfg.poly cfg.crcInit len) body =
      ({ Dec.start with
          win := cfg.magic, skipped := p, phase := .done, len := len, body := body, cnt := 0#8,
          result := some (decodeBody cfg p len body) },
        crc16 cfg (len :: body.take (len.toNat - 2))) := by
  rcases List.eq_nil_or_concat body with rfl | ⟨init, b, rfl⟩
  · simp at h
    omega
  · simp only [List.concat_eq_append, List.length_append, List.length_singleton] at h ⊢
    have hl := len.isLt
    rw [decFeed_append, decFeed_body p len init (by omega)]
    have hc : (BitVec.ofNat 8 (len.toNat - init.length) - 1#8 : Byte) = 0#8 := by
      rw [show len.toNat - init.length = 1 by omega]
      rfl
    have hb : byteAt (init ++ [b]) 0 :: ((init ++ [b]).drop 1).take (len.toNat - 3) =
        (init ++ [b]).take (len.toNat - 2) := by
      cases init with
      | nil =>
        simp at h
        omega
      | cons x init =>
        rw [show len.toNat - 2 = (len.toNat - 3) + 1 by omega]
        simp [byteAt]
    have ht : init.take (len.toNat - 2) = (init ++ [b]).take (len.toNat - 2) := by
      rw [List.take_append_of_le_length (by omega)]
    simp only [decFeed, decByte, bodyDec, Dec.start, hc, if_true, BitVec.toNat_ofNat, Nat.reducePow,
      Nat.zero_mod, show ¬ (2 ≤ 0) by omega, if_false, bodyResult, decodeBody, hb, ht, List.length_append,
      List.length_singleton, h]

end Sys2Proof.Machine
end

