-- ==== Sys2Proof/Laws/Records.lean ====
section
/-!
SUPPORT. Laws of the channel record codec (45_channel_codec.md): the tables as exact lookups, the pieces of an encoded
record at their offsets, and what reading each piece back gives.
-/

namespace Sys2Proof.Machine

/-! ## Tables -/

theorem noRepeats_cons {α : Type} [DecidableEq α] {a : α} {l : List α} :
    noRepeats (a :: l) = true ↔ a ∉ l ∧ noRepeats l = true := by
  simp [noRepeats, List.contains_eq_mem]

/-- In a table without a repeated key, a lookup finds exactly the entries. -/
theorem assoc_eq_some {κ α : Type} [DecidableEq κ] {k : κ} {a : α} {t : List (κ × α)}
    (h : noRepeats (t.map Prod.fst) = true) : assoc k t = some a ↔ (k, a) ∈ t := by
  induction t with
  | nil => simp [assoc]
  | cons e rest ih =>
    obtain ⟨k', a'⟩ := e
    rw [List.map_cons, noRepeats_cons] at h
    by_cases hk : k' = k
    · subst hk
      simp only [assoc, if_true, Option.some.injEq, List.mem_cons, Prod.mk.injEq, true_and]
      refine ⟨fun e => .inl e.symm, fun e => ?_⟩
      rcases e with e | e
      · exact e.symm
      · exact absurd (List.mem_map_of_mem (f := Prod.fst) e) h.1
    · simp only [assoc, if_neg hk, List.mem_cons, Prod.mk.injEq]
      rw [ih h.2]
      exact ⟨.inr, fun e => e.resolve_left fun x => hk x.1.symm⟩

theorem assoc_eq_none {κ α : Type} [DecidableEq κ] {k : κ} {t : List (κ × α)} :
    assoc k t = none ↔ ∀ e ∈ t, e.1 ≠ k := by
  induction t with
  | nil => simp [assoc]
  | cons e rest ih =>
    obtain ⟨k', a'⟩ := e
    by_cases hk : k' = k
    · simp [assoc, hk]
    · simp [assoc, hk, ih]

/-- What `Config.wf` says of the tone table (R7). -/
theorem wf_tones {cfg : Config} (h : cfg.wf = true) :
    noRepeats (cfg.tones.map Prod.fst) = true ∧ noRepeats (cfg.tones.map Prod.snd) = true ∧
      (∀ e ∈ cfg.tones, 1 ≤ e.1 ∧ e.1 ≤ 55 ∧ e.1 ∉ reservedTones) ∧ ∀ e ∈ cfg.tones, e.2 ≠ 0 := by
  simp only [Config.wf, Config.tablesWf, Bool.and_eq_true, List.all_eq_true] at h
  obtain ⟨⟨⟨⟨⟨⟨⟨⟨⟨_, _⟩, h1⟩, h2⟩, h3⟩, h4⟩, _⟩, _⟩, _⟩, _⟩ := h
  refine ⟨h1, h2, fun e he => ?_, fun e he h0 => ?_⟩
  · have := h3 e.1 (List.mem_map_of_mem he)
    simpa [assignableTone, List.contains_eq_mem, and_assoc] using this
  · have := List.mem_map_of_mem (f := Prod.snd) he
    rw [h0] at this
    simp [this] at h4

/-- What `Config.wf` says of the tail layout (R275). -/
theorem wf_tail {cfg : Config} (h : cfg.wf = true) : cfg.tail.wf = true := by
  simp only [Config.wf, Config.fixedWf, Bool.and_eq_true] at h
  exact h.2.2

theorem indexToFrequency_eq_some {cfg : Config} (h : cfg.wf = true) {i f : Nat} :
    indexToFrequency cfg i = some f ↔ (i, f) ∈ cfg.tones := assoc_eq_some (wf_tones h).1

theorem frequencyToIndex_eq_some {cfg : Config} (h : cfg.wf = true) {i f : Nat} :
    frequencyToIndex cfg f = some i ↔ (i, f) ∈ cfg.tones := by
  have hs : noRepeats ((cfg.tones.map (fun e => (e.2, e.1))).map Prod.fst) = true := by
    simpa [List.map_map, Function.comp_def] using (wf_tones h).2.1
  by_cases h0 : f = 0
  · subst h0
    exact ⟨nofun, fun he => absurd rfl ((wf_tones h).2.2.2 _ he)⟩
  rw [frequencyToIndex, if_neg h0, assoc_eq_some hs]
  simp only [List.mem_map, Prod.mk.injEq]
  constructor
  · rintro ⟨⟨a, b⟩, he, rfl, rfl⟩
    exact he
  · intro he
    exact ⟨(i, f), he, rfl, rfl⟩

theorem frequencyToIndex_eq_none {cfg : Config} (h : cfg.wf = true) {f : Nat} :
    frequencyToIndex cfg f = none ↔ ∀ e ∈ cfg.tones, e.2 ≠ f := by
  rw [Option.eq_none_iff_forall_ne_some]
  simp only [ne_eq, frequencyToIndex_eq_some h]
  exact ⟨fun n e he h0 => n e.1 (h0 ▸ he), fun n i he => n _ he rfl⟩

/-- The byte of a tone is 0 or an index of the table. -/
theorem toneByte_cases {cfg : Config} (h : cfg.wf = true) (x : Tone) :
    (toneByte cfg x = 0#8 ∧ toneOf cfg (toneByte cfg x) = .noTone ∧
      (x = .noTone ∨ toneRepresentable cfg x = false)) ∨
    ∃ i f, x = .freq f ∧ (i, f) ∈ cfg.tones ∧ (toneByte cfg x).toNat = i ∧
      toneOf cfg (toneByte cfg x) = x ∧ toneRepresentable cfg x = true := by
  cases x with
  | noTone => exact .inl ⟨rfl, rfl, .inl rfl⟩
  | unknown i => exact .inl ⟨rfl, rfl, .inr rfl⟩
  | freq f =>
    cases hf : frequencyToIndex cfg f with
    | none =>
      left
      simp [toneByte, toneRepresentable, hf, toneOf]
    | some i =>
      have hm := (frequencyToIndex_eq_some h).1 hf
      obtain ⟨h1, h2, h3⟩ := (wf_tones h).2.2.1 _ hm
      simp only [] at h1 h2 h3
      have hn : (BitVec.ofNat 8 i).toNat = i := by
        rw [BitVec.toNat_ofNat]
        omega
      refine .inr ⟨i, f, rfl, hm, ?_⟩
      have hne : BitVec.ofNat 8 i ≠ 0#8 := fun e => by
        rw [e] at hn
        simp at hn
        omega
      simp [toneByte, toneRepresentable, hf, toneOf, hne, hn, (indexToFrequency_eq_some h).2 hm]

/-! ## The name field -/

@[simp] theorem nameField_length (name : Bytes) : (nameField name).length = 12 := by
  simp [nameField]

/-- The name that a field holds after `nameField` (R271, R272). -/
theorem nameOf_nameField (name : Bytes) :
    nameOf (nameField name) = (name.take 11).takeWhile (fun b => b != 0#8) := by
  have hz : ∀ n : Nat, (List.replicate n 0#8).takeWhile (fun b : Byte => b != 0#8) = [] := by
    intro n
    cases n <;> simp [List.replicate_succ]
  rw [nameOf, nameField, List.takeWhile_append]
  split
  · rename_i h
    rw [hz, List.append_nil]
    exact ((List.takeWhile_prefix _).eq_of_length h).symm
  · rfl

/-! ## The pieces of a record -/

@[simp] theorem packBits_length (bit : Nat → Bool) (n : Nat) : (packBits bit n).length = n := by
  simp [packBits]

@[simp] theorem tailBytes_length (l : TailLayout) (k : ChannelKind) : (tailBytes l k).length = l.len := by
  cases k <;> simp [tailBytes]

@[simp] theorem encodeRecord_length (cfg : Config) (r : ChannelRecord) :
    (encodeRecord cfg r).length = cfg.recordLen := by
  simp [encodeRecord, be16, be32, Config.recordLen]
  omega

theorem encodeRecord_drop_tail (cfg : Config) (r : ChannelRecord) :
    (encodeRecord cfg r).drop 26 = tailBytes cfg.tail r.kind := by
  rw [encodeRecord, List.drop_append_of_le_length (by simp [be16, be32]),
    List.drop_of_length_le (by simp [be16, be32])]
  rfl

theorem encodeRecord_name (cfg : Config) (r : ChannelRecord) :
    ((encodeRecord cfg r).drop 14).take 12 = nameField r.name := by
  have e : encodeRecord cfg r = (be16 r.index ++ [r.rxMode, r.txMode] ++ be32 r.rxFreq ++ be32 r.txFreq ++
      [toneByte cfg r.rxTone, toneByte cfg r.txTone]) ++ (nameField r.name ++ tailBytes cfg.tail r.kind) := by
    simp [encodeRecord]
  rw [e, List.drop_append_of_le_length (by simp [be16, be32]), List.drop_of_length_le (by simp [be16, be32]),
    List.nil_append, List.take_append_of_le_length (by simp), List.take_of_length_le (by simp)]

theorem unbe16_be16 (v : Word16) : unbe16 (hi8 v) (lo8 v) = v := by
  apply BitVec.eq_of_getLsbD_eq
  intro i hi
  rw [unbe16, BitVec.getLsbD_append]
  by_cases h : i < 8
  · simp [lo8, h]
  · simp only [h, hi8, BitVec.getLsbD_extractLsb']
    have : i - 8 < 8 := by omega
    simp [this, show 8 + (i - 8) = i by omega]

theorem unbe32_be32 (v : Word32) :
    unbe32 (v.extractLsb' 24 8) (v.extractLsb' 16 8) (v.extractLsb' 8 8) (v.extractLsb' 0 8) = v := by
  apply BitVec.eq_of_getLsbD_eq
  intro i hi
  simp only [unbe32, BitVec.getLsbD_append, BitVec.getLsbD_extractLsb']
  by_cases h1 : i < 8
  · simp [h1]
  · by_cases h2 : i < 16
    · have : i - 8 < 8 := by omega
      simp [h1, this, show 8 + (i - 8) = i by omega]
    · by_cases h3 : i < 24
      · have a : ¬ i - 8 < 8 := by omega
        have b : i - 8 - 8 < 8 := by omega
        simp [h1, a, b, show 16 + (i - 8 - 8) = i by omega]
      · have a : ¬ i - 8 < 8 := by omega
        have b : ¬ i - 8 - 8 < 8 := by omega
        have c : i - 8 - 8 - 8 < 8 := by omega
        simp [h1, a, b, c, show 24 + (i - 8 - 8 - 8) = i by omega]

/-- Reading back what the encoder wrote, field by field; the tones and the name as their own laws say. -/
theorem decodeRecord_encodeRecord (cfg : Config) (r : ChannelRecord) :
    decodeRecord cfg (encodeRecord cfg r) =
      { index := r.index, rxFreq := r.rxFreq, txFreq := r.txFreq, rxMode := r.rxMode, txMode := r.txMode,
        rxTone := toneOf cfg (toneByte cfg r.rxTone), txTone := toneOf cfg (toneByte cfg r.txTone),
        name := nameOf (nameField r.name), kind := kindOf cfg.tail (tailBytes cfg.tail r.kind) } := by
  rw [decodeRecord, encodeRecord_name, encodeRecord_drop_tail]
  have e : encodeRecord cfg r = be16 r.index ++ ([r.rxMode, r.txMode] ++ (be32 r.rxFreq ++ (be32 r.txFreq ++
      ([toneByte cfg r.rxTone, toneByte cfg r.txTone] ++ (nameField r.name ++ tailBytes cfg.tail r.kind))))) := by
    simp [encodeRecord]
  rw [e]
  simp only [be16, be32, u16At, u32At, byteAt, List.cons_append, List.nil_append, List.getD_cons_zero,
    List.getD_cons_succ, unbe16_be16, unbe32_be32]

/-! ## The tail -/

theorem noRepeats_iff {α : Type} [DecidableEq α] {l : List α} : noRepeats l = true ↔ l.Nodup := by
  induction l with
  | nil => simp [noRepeats]
  | cons a l ih => rw [noRepeats_cons, List.nodup_cons, ih]

theorem natOfBits_lt (bs : List Bool) : natOfBits bs < 2 ^ bs.length := by
  induction bs with
  | nil => simp [natOfBits]
  | cons b bs ih =>
    have : b.toNat ≤ 1 := Bool.toNat_le b
    simp only [natOfBits, List.length_cons, Nat.pow_succ]
    nlinarith

theorem testBit_natOfBits (bs : List Bool) (i : Nat) (h : i < bs.length) :
    (natOfBits bs).testBit (bs.length - 1 - i) = bs[i] := by
  induction bs generalizing i with
  | nil => simp at h
  | cons b bs ih =>
    simp only [natOfBits, Nat.mul_comm b.toNat]
    rw [Nat.testBit_two_pow_mul_add _ (natOfBits_lt bs)]
    cases i with
    | zero => cases b <;> simp
    | succ i =>
      have hi : i < bs.length := by simpa using h
      rw [if_pos (by simp only [List.length_cons]; omega)]
      simpa [Nat.sub_sub, Nat.add_comm] using ih i hi

/-- Reading a bit of packed bytes gives the bit that was put there. -/
theorem bitAt_packBits (bit : Nat → Bool) {n k : Nat} (h : k < 8 * n) : bitAt (packBits bit n) k = bit k := by
  have hb : byteAt (packBits bit n) (k / 8) =
      BitVec.ofNat 8 (natOfBits ((List.range 8).map (fun i => bit (8 * (k / 8) + i)))) := by
    simp [byteAt, packBits, List.getD_eq_getElem?_getD, show k / 8 < n by omega]
  have ht := testBit_natOfBits ((List.range 8).map (fun i => bit (8 * (k / 8) + i))) (k % 8)
    (by simp; omega)
  simp only [List.length_map, List.length_range, List.getElem_map, List.getElem_range] at ht
  rw [bitAt, hb, BitVec.getMsbD, BitVec.getLsbD_ofNat, ht]
  simp only [show 8 - 1 - k % 8 < 8 by omega, show k % 8 < 8 by omega, decide_true, Bool.true_and]
  congr 1
  omega

@[simp] theorem fieldValue_nil (t : Bytes) : fieldValue t [] = 0 := rfl

theorem fieldValue_cons (t : Bytes) (p : Nat) (ps : List Nat) :
    fieldValue t (p :: ps) = (bitAt t p).toNat * 2 ^ ps.length + fieldValue t ps := by
  simp [fieldValue, natOfBits]

theorem fieldValue_lt (t : Bytes) (ps : List Nat) : fieldValue t ps < 2 ^ ps.length := by
  simpa [fieldValue] using natOfBits_lt (ps.map (bitAt t))

/-- The bits of the value of a field, the most significant first, are the bits at its positions. -/
theorem testBit_fieldValue (t : Bytes) {ps : List Nat} {j : Nat} (h : j < ps.length) :
    (fieldValue t ps).testBit (ps.length - 1 - j) = bitAt t (ps.getD j 0) := by
  have := testBit_natOfBits (ps.map (bitAt t)) j (by simpa using h)
  simpa [fieldValue, List.getD_eq_getElem?_getD, h] using this

theorem fieldBit_of_not_mem {ps : List Nat} {k : Nat} (v : Nat) (h : k ∉ ps) : fieldBit ps v k = false := by
  induction ps with
  | nil => rfl
  | cons p ps ih =>
    rw [List.mem_cons, not_or] at h
    rw [fieldBit, if_neg (Ne.symm h.1), ih h.2]

/-- A field whose bits stand in the bytes reads as its value, as far as the field is wide. -/
theorem fieldValue_of_bits {t : Bytes} {ps : List Nat} {v : Nat} (hn : ps.Nodup)
    (h : ∀ k ∈ ps, bitAt t k = fieldBit ps v k) : fieldValue t ps = v % 2 ^ ps.length := by
  induction ps with
  | nil => simp [Nat.mod_one]
  | cons p ps ih =>
    rw [List.nodup_cons] at hn
    have h0 := h p List.mem_cons_self
    rw [fieldBit, if_pos rfl] at h0
    rw [fieldValue_cons, h0, ih hn.2 fun k hk => ?_, List.length_cons, Nat.mod_pow_succ, Nat.toNat_testBit]
    · ring
    · rw [h k (List.mem_cons_of_mem _ hk), fieldBit, if_neg]
      rintro rfl
      exact hn.1 hk

/-- What a legal tail layout says (log 13). -/
structure TailFacts (l : TailLayout) : Prop where
  inside : ∀ k ∈ l.positions, k < 8 * l.len
  nodup : l.positions.Nodup
  group : l.group.length = 32
  radio : l.radio.length = 32
  rxColor : 4 ≤ l.rxColor.length ∧ l.rxColor.length ≤ 8
  txColor : 4 ≤ l.txColor.length ∧ l.txColor.length ≤ 8
  timeslot : 2 ≤ l.timeslot.length ∧ l.timeslot.length ≤ 8
  fits : 26 + l.len ≤ 252

theorem tail_facts {l : TailLayout} (h : l.wf = true) : TailFacts l := by
  simp only [TailLayout.wf, Bool.and_eq_true, List.all_eq_true, decide_eq_true_eq, noRepeats_iff] at h
  obtain ⟨⟨⟨⟨⟨⟨⟨⟨⟨⟨h1, h2⟩, h3⟩, h4⟩, h5⟩, h6⟩, h7⟩, h8⟩, h9⟩, h10⟩, h11⟩ := h
  exact ⟨h1, h2, h3, h4, ⟨h5, h6⟩, ⟨h7, h8⟩, ⟨h9, h10⟩, h11⟩

theorem colorValue_lt (ps : List Nat) (v : Byte) : colorValue ps v < 2 ^ ps.length := by
  unfold colorValue
  split
  · assumption
  · exact Nat.mod_lt _ (Nat.two_pow_pos _)

/-- A field of at least one bit holds a value of its width, and 0 exactly for 0. -/
theorem timeslotValue_lt {ps : List Nat} (h : 1 ≤ ps.length) (v : Byte) :
    timeslotValue ps v < 2 ^ ps.length ∧ (timeslotValue ps v = 0 ↔ v = 0#8) := by
  have h2 : 2 ^ 1 ≤ 2 ^ ps.length := Nat.pow_le_pow_right (by omega) h
  unfold timeslotValue
  split
  · exact ⟨by assumption, by rw [← BitVec.toNat_inj]; rfl⟩
  · rename_i hv
    have := Nat.mod_lt (Config.narrowed ps v) (show 2 ^ ps.length - 1 > 0 by omega)
    refine ⟨by omega, ⟨by omega, ?_⟩⟩
    rintro rfl
    simp at hv

theorem colorValue_of_lt {ps : List Nat} {v : Byte} (h : v.toNat < 2 ^ ps.length) : colorValue ps v = v.toNat :=
  if_pos h

theorem timeslotValue_of_lt {ps : List Nat} {v : Byte} (h : v.toNat < 2 ^ ps.length) :
    timeslotValue ps v = v.toNat := if_pos h

/-- What each field of a Digital tail reads as (R275). -/
theorem fieldValue_tailBytes {l : TailLayout} (h : l.wf = true) (g i : Word32) (rc tc ts : Byte) :
    fieldValue (tailBytes l (.digital g i rc tc ts)) l.group = g.toNat ∧
    fieldValue (tailBytes l (.digital g i rc tc ts)) l.radio = i.toNat ∧
    fieldValue (tailBytes l (.digital g i rc tc ts)) l.rxColor = colorValue l.rxColor rc ∧
    fieldValue (tailBytes l (.digital g i rc tc ts)) l.txColor = colorValue l.txColor tc ∧
    fieldValue (tailBytes l (.digital g i rc tc ts)) l.timeslot = timeslotValue l.timeslot ts := by
  obtain ⟨hin, hnd, hg, hi, -, -, hts, -⟩ := tail_facts h
  have hbit : ∀ k ∈ l.positions, bitAt (tailBytes l (.digital g i rc tc ts)) k = tailBit l g i rc tc ts k :=
    fun k hk => bitAt_packBits _ (hin k hk)
  simp only [TailLayout.positions, List.mem_append, List.nodup_append] at hbit hnd
  obtain ⟨⟨⟨⟨n1, n2, d2⟩, n3, d3⟩, n4, d4⟩, n5, d5⟩ := hnd
  have off : ∀ {ps : List Nat} {k : Nat} (v : Nat), k ∉ ps → fieldBit ps v k = false :=
    fun v hk => fieldBit_of_not_mem v hk
  refine ⟨?_, ?_, ?_, ?_, ?_⟩
  · rw [fieldValue_of_bits (v := g.toNat) n1 fun k hk => ?_, hg, Nat.mod_eq_of_lt g.isLt]
    rw [hbit k (by tauto), tailBit, off _ fun e => d2 k hk k e rfl, off _ fun e => d3 k (by tauto) k e rfl,
      off _ fun e => d4 k (by tauto) k e rfl, off _ fun e => d5 k (by tauto) k e rfl]
    simp
  · rw [fieldValue_of_bits (v := i.toNat) n2 fun k hk => ?_, hi, Nat.mod_eq_of_lt i.isLt]
    rw [hbit k (by tauto), tailBit, off _ fun e => d2 k e k hk rfl, off _ fun e => d3 k (by tauto) k e rfl,
      off _ fun e => d4 k (by tauto) k e rfl, off _ fun e => d5 k (by tauto) k e rfl]
    simp
  · rw [fieldValue_of_bits (v := colorValue l.rxColor rc) n3 fun k hk => ?_,
      Nat.mod_eq_of_lt (colorValue_lt _ _)]
    rw [hbit k (by tauto), tailBit, off _ fun e => d3 k (.inl e) k hk rfl, off _ fun e => d3 k (.inr e) k hk rfl,
      off _ fun e => d4 k (by tauto) k e rfl, off _ fun e => d5 k (by tauto) k e rfl]
    simp
  · rw [fieldValue_of_bits (v := colorValue l.txColor tc) n4 fun k hk => ?_,
      Nat.mod_eq_of_lt (colorValue_lt _ _)]
    rw [hbit k (by tauto), tailBit, off _ fun e => d4 k (.inl (.inl e)) k hk rfl,
      off _ fun e => d4 k (.inl (.inr e)) k hk rfl, off _ fun e => d4 k (.inr e) k hk rfl,
      off _ fun e => d5 k (by tauto) k e rfl]
    simp
  · rw [fieldValue_of_bits (v := timeslotValue l.timeslot ts) n5 fun k hk => ?_,
      Nat.mod_eq_of_lt (timeslotValue_lt (by omega) _).1]
    rw [hbit k (by tauto), tailBit, off _ fun e => d5 k (.inl (.inl (.inl e))) k hk rfl,
      off _ fun e => d5 k (.inl (.inl (.inr e))) k hk rfl, off _ fun e => d5 k (.inl (.inr e)) k hk rfl,
      off _ fun e => d5 k (.inr e) k hk rfl]
    simp

theorem fieldValue_zeros (n : Nat) (ps : List Nat) : fieldValue (List.replicate n 0#8) ps = 0 := by
  induction ps with
  | nil => rfl
  | cons p ps ih =>
    have : byteAt (List.replicate n 0#8) (p / 8) = 0#8 := by
      simp [byteAt, List.getD_eq_getElem?_getD, List.getElem?_replicate]
      split <;> rfl
    rw [fieldValue_cons, ih, bitAt, this]
    simp

/-- The kind that a tail holds after `tailBytes` (R274 to R276): Analog survives; Digital survives as Digital exactly
with a timeslot other than 0, and whole where the colour codes and the timeslot fit their fields. -/
theorem kindOf_tailBytes {l : TailLayout} (h : l.wf = true) (k : ChannelKind) :
    kindOf l (tailBytes l k) = match k with
      | .analog => .analog
      | .digital g i rc tc ts =>
        if ts = 0#8 then .analog
        else .digital g i (BitVec.ofNat 8 (colorValue l.rxColor rc)) (BitVec.ofNat 8 (colorValue l.txColor tc))
          (BitVec.ofNat 8 (timeslotValue l.timeslot ts)) := by
  cases k with
  | analog => rw [kindOf, tailBytes, fieldValue_zeros, if_pos rfl]
  | digital g i rc tc ts =>
    obtain ⟨hg, hi, hrc, htc, hts⟩ := fieldValue_tailBytes h g i rc tc ts
    have := (timeslotValue_lt (by have := (tail_facts h).timeslot; omega) ts (ps := l.timeslot)).2
    simp only [kindOf, hg, hi, hrc, htc, hts, this, BitVec.ofNat_toNat, BitVec.setWidth_eq]

/-! ### Fields in whole bytes: the layout of R275 -/

/-- The bits of one byte, read at their positions, are its value. -/
theorem fieldValue_byte (t : Bytes) (o : Nat) : fieldValue t (wholeBytes o 1) = (byteAt t o).toNat := by
  have h : ∀ b : Byte, (b.getMsbD 0).toNat * 128 + ((b.getMsbD 1).toNat * 64 + ((b.getMsbD 2).toNat * 32 +
      ((b.getMsbD 3).toNat * 16 + ((b.getMsbD 4).toNat * 8 + ((b.getMsbD 5).toNat * 4 +
        ((b.getMsbD 6).toNat * 2 + ((b.getMsbD 7).toNat + 0))))))) = b.toNat := by decide +kernel
  rw [← h (byteAt t o)]
  simp [wholeBytes, List.range', fieldValue_cons, bitAt, Nat.add_assoc, Nat.mul_add_div]

theorem fieldValue_append (t : Bytes) (ps qs : List Nat) :
    fieldValue t (ps ++ qs) = fieldValue t ps * 2 ^ qs.length + fieldValue t qs := by
  induction ps with
  | nil => simp
  | cons p ps ih =>
    rw [List.cons_append, fieldValue_cons, ih, fieldValue_cons, List.length_append, Nat.pow_add]
    ring

theorem wholeBytes_add (o m n : Nat) : wholeBytes o (m + n) = wholeBytes o m ++ wholeBytes (o + m) n := by
  rw [wholeBytes, wholeBytes, wholeBytes, Nat.mul_add 8 m n, Nat.mul_add 8 o m, ← List.range'_append_1]

/-- Four bytes, read at their positions, are the 32-bit field of R9. -/
theorem fieldValue_word (t : Bytes) (o : Nat) : fieldValue t (wholeBytes o 4) = (u32At t o).toNat := by
  have e : wholeBytes o 4 =
      wholeBytes o 1 ++ (wholeBytes (o + 1) 1 ++ (wholeBytes (o + 2) 1 ++ wholeBytes (o + 3) 1)) := by
    rw [show 4 = 1 + (1 + (1 + 1)) from rfl, wholeBytes_add, wholeBytes_add, wholeBytes_add]
  have l : ∀ o, (wholeBytes o 1).length = 8 := fun o => List.length_range'
  have a : ∀ {n : Nat} (x : BitVec n) (b : Byte), (x ++ b).toNat = x.toNat * 2 ^ 8 + b.toNat := fun x b => by
    rw [BitVec.toNat_append, ← Nat.shiftLeft_add_eq_or_of_lt b.isLt, Nat.shiftLeft_eq]
  rw [e, u32At, unbe32, a, a, a]
  simp only [fieldValue_append, List.length_append, l, fieldValue_byte]
  omega

/-- `kindOf` under the layout of `CFG_REF` is what R276 writes. -/
theorem kindOf_tailRef (t : Bytes) : kindOf tailRef t =
    if byteAt t 10 = 0#8 then .analog
    else .digital (u32At t 0) (u32At t 4) (byteAt t 8) (byteAt t 9) (byteAt t 10) := by
  simp only [kindOf, tailRef, fieldValue_word, fieldValue_byte, BitVec.ofNat_toNat, BitVec.setWidth_eq]
  simp only [← BitVec.toNat_inj, BitVec.toNat_ofNat, Nat.zero_mod]

theorem fieldBit_range' (o n v k : Nat) :
    fieldBit (List.range' o n) v k = (decide (o ≤ k ∧ k < o + n) && v.testBit (n - 1 - (k - o))) := by
  induction n generalizing o with
  | zero => simp [fieldBit]
  | succ n ih =>
    rw [List.range'_succ, fieldBit, List.length_range', ih]
    split
    · rename_i h
      subst h
      simp
    · have e : (o + 1 ≤ k ∧ k < o + 1 + n) ↔ (o ≤ k ∧ k < o + (n + 1)) := by omega
      simp only [e]
      by_cases hk : o ≤ k ∧ k < o + (n + 1)
      · rw [show n - 1 - (k - (o + 1)) = n + 1 - 1 - (k - o) by omega]
      · simp [hk]

/-- `tailBytes` under the layout of `CFG_REF` is what R275 writes. -/
theorem tailBytes_tailRef (g i : Word32) (rc tc ts : Byte) :
    tailBytes tailRef (.digital g i rc tc ts) = be32 g ++ be32 i ++ [rc, tc, ts] := by
  have c : ∀ (o : Nat) (v : Byte), colorValue (wholeBytes o 1) v = v.toNat := fun o v =>
    colorValue_of_lt (by simpa [wholeBytes] using v.isLt)
  have s : ∀ (o : Nat) (v : Byte), timeslotValue (wholeBytes o 1) v = v.toNat := fun o v =>
    timeslotValue_of_lt (by simpa [wholeBytes] using v.isLt)
  have b : ∀ (x : Byte), BitVec.ofNat 8 (natOfBits ((List.range 8).map (fun j => x.toNat.testBit (7 - j)))) = x := by
    decide +kernel
  have m : ∀ (n : Nat) (x : Byte),
      (∀ j, j < 8 → tailBit tailRef g i rc tc ts (8 * n + j) = x.toNat.testBit (7 - j)) →
      BitVec.ofNat 8 (natOfBits ((List.range 8).map (fun j => tailBit tailRef g i rc tc ts (8 * n + j)))) = x := by
    intro n x h
    rw [List.map_congr_left fun j hj => h j (List.mem_range.1 hj), b x]
  have d : ∀ (v : Word32) (o n j : Nat), j < 8 →
      tailBit tailRef g i rc tc ts (8 * n + j) = v.toNat.testBit (o + (7 - j)) →
      tailBit tailRef g i rc tc ts (8 * n + j) = (v.extractLsb' o 8).toNat.testBit (7 - j) := by
    intro v o n j hj h
    rw [h, BitVec.testBit_toNat, BitVec.testBit_toNat, BitVec.getLsbD_extractLsb']
    simp [show 7 - j < 8 by omega]
  have t : ∀ k, tailBit tailRef g i rc tc ts k =
      (decide (0 ≤ k ∧ k < 32) && g.toNat.testBit (31 - k) ||
        decide (32 ≤ k ∧ k < 64) && i.toNat.testBit (31 - (k - 32)) ||
        decide (64 ≤ k ∧ k < 72) && rc.toNat.testBit (7 - (k - 64)) ||
        decide (72 ≤ k ∧ k < 80) && tc.toNat.testBit (7 - (k - 72)) ||
        decide (80 ≤ k ∧ k < 88) && ts.toNat.testBit (7 - (k - 80))) := fun k => by
    rw [tailBit, tailRef]
    simp only [c, s]
    simp only [wholeBytes, fieldBit_range']
    rfl
  refine congrArg₂ _ (m 0 _ fun j hj => d g 24 0 j hj ?_) <| congrArg₂ _ (m 1 _ fun j hj => d g 16 1 j hj ?_) <|
    congrArg₂ _ (m 2 _ fun j hj => d g 8 2 j hj ?_) <| congrArg₂ _ (m 3 _ fun j hj => d g 0 3 j hj ?_) <|
    congrArg₂ _ (m 4 _ fun j hj => d i 24 4 j hj ?_) <| congrArg₂ _ (m 5 _ fun j hj => d i 16 5 j hj ?_) <|
    congrArg₂ _ (m 6 _ fun j hj => d i 8 6 j hj ?_) <| congrArg₂ _ (m 7 _ fun j hj => d i 0 7 j hj ?_) <|
    congrArg₂ _ (m 8 rc fun j hj => ?_) <| congrArg₂ _ (m 9 tc fun j hj => ?_) <|
    congrArg₂ _ (m 10 ts fun j hj => ?_) rfl
  all_goals
    rw [t]
    simp (disch := omega) only [decide_eq_true, decide_eq_false, Bool.true_and, Bool.false_and, Bool.or_false,
      Bool.false_or]
    congr 1
    omega

/-- A valid kind survives its tail (R277, R278). -/
theorem kindOf_tailBytes_valid {l : TailLayout} (h : l.wf = true) {k : ChannelKind} (hk : kindValid k = true) :
    kindOf l (tailBytes l k) = k := by
  rw [kindOf_tailBytes h]
  cases k with
  | analog => rfl
  | digital g i rc tc ts =>
    simp only [kindValid, Bool.and_eq_true, Bool.or_eq_true, decide_eq_true_eq] at hk
    obtain ⟨⟨hrc, htc⟩, hts⟩ := hk
    have f := tail_facts h
    have w : ∀ {n m : Nat}, m ≤ n → 2 ^ m ≤ 2 ^ n := fun h => Nat.pow_le_pow_right (by omega) h
    have h4 := w f.rxColor.1
    have h5 := w f.txColor.1
    have h6 := w f.timeslot.1
    have hn : ts ≠ 0#8 := by rcases hts with rfl | rfl <;> decide
    have hv : ts.toNat < 4 := by rcases hts with rfl | rfl <;> decide
    simp only []
    rw [if_neg hn, colorValue_of_lt (by omega), colorValue_of_lt (by omega), timeslotValue_of_lt (by omega)]
    simp

end Sys2Proof.Machine
end

