-- ==== Sys2Proof/Laws/Decoding.lean ====
section
/-!
SUPPORT. What well-formedness gives the decoder of instruction words: payload bounds, distinct opcodes
(44_commands.md R231), and that only the eleven wire commands have a frame.
-/

namespace Sys2Proof

open Sys2Proof.Machine

theorem payloadWf_iff {payload : Bytes} : payloadWf payload = true ↔ payload.length ≤ 252 := by
  rw [payloadWf, decide_eq_true_eq]
  rfl

theorem recordBytesWf_iff {cfg : Config} {bytes : Bytes} :
    recordBytesWf cfg bytes = true ↔ bytes.length = cfg.recordLen := by
  rw [recordBytesWf, decide_eq_true_eq]

/-- A record fits a frame under an admitted configuration (R92, R99). -/
theorem recordLen_le {cfg : Config} (h : cfg.wf = true) : cfg.recordLen ≤ 252 := by
  have := (tail_facts (wf_tail h)).fits
  rw [Config.recordLen]
  omega

/-- The opcodes of the wire commands are pairwise different under an admitted configuration. -/
theorem opcodes_noRepeats {cfg : Config} (h : cfg.wf = true) : noRepeats cfg.opcodes = true := by
  simp only [Config.wf, Config.fixedWf, Bool.and_eq_true] at h
  exact h.2.1.2

theorem magic_length {cfg : Config} (h : cfg.wf = true) : cfg.magic.length = 4 := by
  simp only [Config.wf, Config.tablesWf, Bool.and_eq_true, decide_eq_true_eq] at h
  exact h.1.1.1.1.1.1.1.1.1

/-- The frame of a wire command: 8 bytes around its payload, the magic first. -/
theorem encodeCommand_length {cfg : Config} {op : Byte} {payload bytes : Bytes} (hm : cfg.magic.length = 4)
    (h : encodeCommand cfg op payload = some bytes) :
    bytes.length = payload.length + 8 ∧ payload.length ≤ 252 ∧ bytes.take 4 = cfg.magic := by
  unfold encodeCommand at h
  split at h
  · rename_i hp
    cases h
    refine ⟨?_, payloadWf_iff.1 hp, ?_⟩
    · simp [encodeFrame, crcInput, be16]
      omega
    · rw [encodeFrame, List.append_assoc, List.take_append_of_le_length (by omega),
        List.take_of_length_le (by omega)]
  · cases h

end Sys2Proof
end

