-- ==== Sys2Proof/Laws/Links.lean ====
section
/-!
SUPPORT. Laws of the per-port table and of `ports_held`: a read after a write, the other ports left alone, and
the canonical form kept. The read laws need no hypothesis on the table.
-/

namespace Sys2Proof.Machine

theorem assoc_eraseKey_same {α : Type} (k : Nat) (t : List (Nat × α)) : assoc k (eraseKey k t) = none := by
  induction t with
  | nil => rfl
  | cons e rest ih =>
    obtain ⟨k', a⟩ := e
    by_cases h : k' = k <;> simp_all [eraseKey, assoc]

theorem assoc_eraseKey_other {α : Type} {k j : Nat} (h : j ≠ k) (t : List (Nat × α)) :
    assoc j (eraseKey k t) = assoc j t := by
  induction t with
  | nil => rfl
  | cons e rest ih =>
    obtain ⟨k', a⟩ := e
    by_cases h1 : k' = k
    · subst h1
      have : ¬ k' = j := fun e => h e.symm
      simp_all [eraseKey, assoc]
    · by_cases h2 : k' = j <;> simp_all [eraseKey, assoc]

theorem assoc_insertKey_same {α : Type} (k : Nat) (a : α) (t : List (Nat × α)) (h : assoc k t = none) :
    assoc k (insertKey k a t) = some a := by
  induction t with
  | nil => simp [insertKey, assoc]
  | cons e rest ih =>
    obtain ⟨k', a'⟩ := e
    by_cases h1 : k < k'
    · simp [insertKey, assoc, h1]
    · rw [insertKey, if_neg h1]
      by_cases h2 : k' = k <;> simp_all [assoc]

theorem assoc_insertKey_other {α : Type} {k j : Nat} (h : j ≠ k) (a : α) (t : List (Nat × α)) :
    assoc j (insertKey k a t) = assoc j t := by
  have hk : ¬ k = j := fun e => h e.symm
  induction t with
  | nil => simp [insertKey, assoc, hk]
  | cons e rest ih =>
    obtain ⟨k', a'⟩ := e
    by_cases h1 : k < k'
    · simp [insertKey, assoc, h1, hk]
    · rw [insertKey, if_neg h1]
      by_cases h2 : k' = j <;> simp_all [assoc]

@[simp] theorem linkAt_nil (p : PortId) : linkAt [] p = Link.powerOn := rfl

@[simp] theorem linkAt_putLink_same (t : List (Nat × Link)) (p : PortId) (l : Link) :
    linkAt (putLink t p l) p = l := by
  unfold linkAt putLink
  by_cases h : l = Link.powerOn
  · simp [h, assoc_eraseKey_same]
  · simp [h, assoc_insertKey_same _ _ _ (assoc_eraseKey_same p t)]

theorem linkAt_putLink_other {p q : PortId} (h : q ≠ p) (t : List (Nat × Link)) (l : Link) :
    linkAt (putLink t p l) q = linkAt t q := by
  unfold linkAt putLink
  by_cases hl : l = Link.powerOn
  · simp [hl, assoc_eraseKey_other h]
  · simp [hl, assoc_insertKey_other h, assoc_eraseKey_other h]

theorem eraseKey_idem {α : Type} (k : Nat) (t : List (Nat × α)) :
    eraseKey k (eraseKey k t) = eraseKey k t := by simp [eraseKey]

theorem eraseKey_insertKey {α : Type} (k : Nat) (a : α) (t : List (Nat × α)) :
    eraseKey k (insertKey k a t) = eraseKey k t := by
  induction t with
  | nil => simp [eraseKey, insertKey]
  | cons e rest ih =>
    obtain ⟨k', a'⟩ := e
    by_cases h1 : k < k'
    · simp [eraseKey, insertKey, h1]
    · rw [insertKey, if_neg h1]
      by_cases h2 : k' = k <;> simp_all [eraseKey]

/-- A second write of a port's record replaces the first. -/
@[simp] theorem putLink_putLink (t : List (Nat × Link)) (p : PortId) (l m : Link) :
    putLink (putLink t p l) p m = putLink t p m := by
  unfold putLink
  by_cases h1 : l = Link.powerOn <;> by_cases h2 : m = Link.powerOn <;>
    simp [h1, h2, eraseKey_idem, eraseKey_insertKey]

/-! ## The canonical form -/

theorem rising_cons {k : Nat} {ks : List Nat} :
    rising (k :: ks) = true ↔ (∀ j ∈ ks, k < j) ∧ rising ks = true := by
  simp [rising, List.all_eq_true]

theorem rising_filter (P : Nat → Bool) {ks : List Nat} (h : rising ks = true) :
    rising (ks.filter P) = true := by
  induction ks with
  | nil => rfl
  | cons k rest ih =>
    rw [rising_cons] at h
    by_cases hp : P k = true
    · rw [List.filter_cons_of_pos hp, rising_cons]
      exact ⟨fun j hj => h.1 j (List.mem_filter.1 hj).1, ih h.2⟩
    · rw [List.filter_cons_of_neg hp]
      exact ih h.2

theorem map_fst_eraseKey {α : Type} (k : Nat) (t : List (Nat × α)) :
    (eraseKey k t).map Prod.fst = (t.map Prod.fst).filter (fun j => decide (j ≠ k)) := by
  simp [eraseKey, List.filter_map]
  rfl

theorem map_fst_insertKey {α : Type} (k : Nat) (a : α) (t : List (Nat × α)) :
    (insertKey k a t).map Prod.fst = insertPort k (t.map Prod.fst) := by
  induction t with
  | nil => rfl
  | cons e rest ih =>
    obtain ⟨k', a'⟩ := e
    by_cases h1 : k < k' <;> simp [insertKey, insertPort, h1, ih]

theorem mem_insertPort {p q : PortId} {ps : List PortId} : q ∈ insertPort p ps ↔ q = p ∨ q ∈ ps := by
  induction ps with
  | nil => simp [insertPort]
  | cons r rest ih =>
    by_cases h : p < r
    · simp [insertPort, h]
    · simp only [insertPort, h, if_false, List.mem_cons, ih]
      tauto

theorem rising_insertPort {p : PortId} {ps : List PortId} (h : rising ps = true) (hp : p ∉ ps) :
    rising (insertPort p ps) = true := by
  induction ps with
  | nil => simp [insertPort, rising]
  | cons r rest ih =>
    rw [rising_cons] at h
    by_cases hlt : p < r
    · rw [insertPort, if_pos hlt, rising_cons, rising_cons]
      refine ⟨fun j hj => ?_, h⟩
      rcases List.mem_cons.1 hj with rfl | hj
      · exact hlt
      · exact Nat.lt_trans hlt (h.1 j hj)
    · rw [insertPort, if_neg hlt, rising_cons]
      have hne : p ≠ r := fun e => hp (by simp [e])
      refine ⟨fun j hj => ?_, ih h.2 (fun hm => hp (List.mem_cons_of_mem _ hm))⟩
      rcases mem_insertPort.1 hj with rfl | hj
      · exact Nat.lt_of_le_of_ne (Nat.le_of_not_lt hlt) (Ne.symm hne)
      · exact h.1 j hj

theorem mem_insertKey {α : Type} {k : Nat} {a : α} {e : Nat × α} {t : List (Nat × α)} :
    e ∈ insertKey k a t ↔ e = (k, a) ∨ e ∈ t := by
  induction t with
  | nil => simp [insertKey]
  | cons r rest ih =>
    obtain ⟨k', a'⟩ := r
    by_cases h : k < k'
    · simp [insertKey, h]
    · simp only [insertKey, h, if_false, List.mem_cons, ih]
      tauto

theorem rising_eraseKey {α : Type} (k : Nat) {t : List (Nat × α)} (h : rising (t.map Prod.fst) = true) :
    rising ((eraseKey k t).map Prod.fst) = true := by
  rw [map_fst_eraseKey]
  exact rising_filter _ h

theorem rising_putKey {α : Type} (k : Nat) (a : α) {t : List (Nat × α)}
    (h : rising (t.map Prod.fst) = true) : rising ((insertKey k a (eraseKey k t)).map Prod.fst) = true := by
  rw [map_fst_insertKey]
  apply rising_insertPort (rising_eraseKey k h)
  rw [map_fst_eraseKey]
  simp

/-- Writing a port's record keeps the table's canonical form. -/
theorem linksWf_putLink {t : List (Nat × Link)} (p : PortId) (l : Link) (h : linksWf t = true) :
    linksWf (putLink t p l) = true := by
  simp only [linksWf, Bool.and_eq_true, List.all_eq_true, decide_eq_true_eq] at h ⊢
  unfold putLink
  split
  · refine ⟨rising_eraseKey p h.1, fun e he => h.2 e (List.mem_filter.1 he).1⟩
  · rename_i hl
    refine ⟨rising_putKey p l h.1, fun e he => ?_⟩
    rcases mem_insertKey.1 he with rfl | he
    · exact hl
    · exact h.2 e (List.mem_filter.1 he).1

theorem mem_dropPort {p q : PortId} {ps : List PortId} : q ∈ dropPort p ps ↔ q ∈ ps ∧ q ≠ p := by
  simp [dropPort]

theorem mem_holdPort {p q : PortId} {ps : List PortId} : q ∈ holdPort p ps ↔ q = p ∨ q ∈ ps := by
  simp only [holdPort, mem_insertPort, mem_dropPort]
  by_cases h : q = p <;> simp [h]

theorem rising_dropPort (p : PortId) {ps : List PortId} (h : rising ps = true) :
    rising (dropPort p ps) = true := rising_filter _ h

theorem rising_holdPort (p : PortId) {ps : List PortId} (h : rising ps = true) :
    rising (holdPort p ps) = true :=
  rising_insertPort (rising_dropPort p h) (by simp [mem_dropPort])

end Sys2Proof.Machine
end

