-- ==== Sys2Proof/Laws/State.lean ====
section
/-!
SUPPORT. The field laws of the state's updates: one lemma for each field an update leaves alone, true by rfl, and
what each update makes of the records of the ports, so that no later proof unfolds a record update.
-/

namespace Sys2Proof.Machine

/-! ## Fields an update leaves alone -/

@[simp] theorem setLink_cfg (s : State) (p : PortId) (l : Link) : (s.setLink p l).cfg = s.cfg := rfl
@[simp] theorem setLink_crcReg (s : State) (p : PortId) (l : Link) : (s.setLink p l).crcReg = s.crcReg := rfl
@[simp] theorem setLink_dec (s : State) (p : PortId) (l : Link) : (s.setLink p l).dec = s.dec := rfl
@[simp] theorem setLink_portsHeld (s : State) (p : PortId) (l : Link) : (s.setLink p l).portsHeld = s.portsHeld := rfl
@[simp] theorem setLink_now (s : State) (p : PortId) (l : Link) : (s.setLink p l).now = s.now := rfl
@[simp] theorem setLink_requests (s : State) (p : PortId) (l : Link) : (s.setLink p l).requests = s.requests := rfl
@[simp] theorem setLink_env (s : State) (p : PortId) (l : Link) : (s.setLink p l).env = s.env := rfl
@[simp] theorem setLink_ret (s : State) (p : PortId) (l : Link) : (s.setLink p l).ret = s.ret := rfl

@[simp] theorem drawIo_cfg (s : State) : (s.drawIo.2).cfg = s.cfg := rfl
@[simp] theorem drawIo_crcReg (s : State) : (s.drawIo.2).crcReg = s.crcReg := rfl
@[simp] theorem drawIo_dec (s : State) : (s.drawIo.2).dec = s.dec := rfl
@[simp] theorem drawIo_links (s : State) : (s.drawIo.2).links = s.links := rfl
@[simp] theorem drawIo_portsHeld (s : State) : (s.drawIo.2).portsHeld = s.portsHeld := rfl
@[simp] theorem drawIo_now (s : State) : (s.drawIo.2).now = s.now := rfl
@[simp] theorem drawIo_requests (s : State) : (s.drawIo.2).requests = s.requests := rfl
@[simp] theorem drawIo_ret (s : State) : (s.drawIo.2).ret = s.ret := rfl

@[simp] theorem drawOpen_cfg (s : State) : (s.drawOpen.2).cfg = s.cfg := rfl
@[simp] theorem drawOpen_crcReg (s : State) : (s.drawOpen.2).crcReg = s.crcReg := rfl
@[simp] theorem drawOpen_dec (s : State) : (s.drawOpen.2).dec = s.dec := rfl
@[simp] theorem drawOpen_links (s : State) : (s.drawOpen.2).links = s.links := rfl
@[simp] theorem drawOpen_portsHeld (s : State) : (s.drawOpen.2).portsHeld = s.portsHeld := rfl
@[simp] theorem drawOpen_now (s : State) : (s.drawOpen.2).now = s.now := rfl
@[simp] theorem drawOpen_requests (s : State) : (s.drawOpen.2).requests = s.requests := rfl
@[simp] theorem drawOpen_ret (s : State) : (s.drawOpen.2).ret = s.ret := rfl

@[simp] theorem drawLines_cfg (s : State) : (s.drawLines.2).cfg = s.cfg := rfl
@[simp] theorem drawLines_crcReg (s : State) : (s.drawLines.2).crcReg = s.crcReg := rfl
@[simp] theorem drawLines_dec (s : State) : (s.drawLines.2).dec = s.dec := rfl
@[simp] theorem drawLines_links (s : State) : (s.drawLines.2).links = s.links := rfl
@[simp] theorem drawLines_portsHeld (s : State) : (s.drawLines.2).portsHeld = s.portsHeld := rfl
@[simp] theorem drawLines_now (s : State) : (s.drawLines.2).now = s.now := rfl
@[simp] theorem drawLines_requests (s : State) : (s.drawLines.2).requests = s.requests := rfl
@[simp] theorem drawLines_ret (s : State) : (s.drawLines.2).ret = s.ret := rfl

@[simp] theorem drawCancel_cfg (s : State) : (s.drawCancel.2).cfg = s.cfg := rfl
@[simp] theorem drawCancel_crcReg (s : State) : (s.drawCancel.2).crcReg = s.crcReg := rfl
@[simp] theorem drawCancel_dec (s : State) : (s.drawCancel.2).dec = s.dec := rfl
@[simp] theorem drawCancel_links (s : State) : (s.drawCancel.2).links = s.links := rfl
@[simp] theorem drawCancel_portsHeld (s : State) : (s.drawCancel.2).portsHeld = s.portsHeld := rfl
@[simp] theorem drawCancel_now (s : State) : (s.drawCancel.2).now = s.now := rfl
@[simp] theorem drawCancel_requests (s : State) : (s.drawCancel.2).requests = s.requests := rfl
@[simp] theorem drawCancel_ret (s : State) : (s.drawCancel.2).ret = s.ret := rfl

@[simp] theorem arriveByte_cfg (s : State) (e : PortId × Byte) : (arriveByte s e).cfg = s.cfg := rfl
@[simp] theorem arriveByte_crcReg (s : State) (e : PortId × Byte) : (arriveByte s e).crcReg = s.crcReg := rfl
@[simp] theorem arriveByte_dec (s : State) (e : PortId × Byte) : (arriveByte s e).dec = s.dec := rfl
@[simp] theorem arriveByte_portsHeld (s : State) (e : PortId × Byte) : (arriveByte s e).portsHeld = s.portsHeld := rfl
@[simp] theorem arriveByte_now (s : State) (e : PortId × Byte) : (arriveByte s e).now = s.now := rfl
@[simp] theorem arriveByte_requests (s : State) (e : PortId × Byte) : (arriveByte s e).requests = s.requests := rfl
@[simp] theorem arriveByte_env (s : State) (e : PortId × Byte) : (arriveByte s e).env = s.env := rfl
@[simp] theorem arriveByte_ret (s : State) (e : PortId × Byte) : (arriveByte s e).ret = s.ret := rfl

@[simp] theorem teardown_cfg (p : PortId) (s : State) : (teardown p s).cfg = s.cfg := rfl
@[simp] theorem teardown_crcReg (p : PortId) (s : State) : (teardown p s).crcReg = s.crcReg := rfl
@[simp] theorem teardown_dec (p : PortId) (s : State) : (teardown p s).dec = s.dec := rfl
@[simp] theorem teardown_now (p : PortId) (s : State) : (teardown p s).now = s.now := rfl
@[simp] theorem teardown_requests (p : PortId) (s : State) : (teardown p s).requests = s.requests := rfl
@[simp] theorem teardown_env (p : PortId) (s : State) : (teardown p s).env = s.env := rfl
@[simp] theorem teardown_ret (p : PortId) (s : State) : (teardown p s).ret = s.ret := rfl

@[simp] theorem decTake_cfg (s : State) (b : Byte) : (s.decTake b).cfg = s.cfg := rfl
@[simp] theorem decTake_links (s : State) (b : Byte) : (s.decTake b).links = s.links := rfl
@[simp] theorem decTake_portsHeld (s : State) (b : Byte) : (s.decTake b).portsHeld = s.portsHeld := rfl
@[simp] theorem decTake_now (s : State) (b : Byte) : (s.decTake b).now = s.now := rfl
@[simp] theorem decTake_requests (s : State) (b : Byte) : (s.decTake b).requests = s.requests := rfl
@[simp] theorem decTake_env (s : State) (b : Byte) : (s.decTake b).env = s.env := rfl
@[simp] theorem decTake_ret (s : State) (b : Byte) : (s.decTake b).ret = s.ret := rfl

@[simp] theorem decStop_cfg (s : State) : (s.decStop).cfg = s.cfg := rfl
@[simp] theorem decStop_crcReg (s : State) : (s.decStop).crcReg = s.crcReg := rfl
@[simp] theorem decStop_links (s : State) : (s.decStop).links = s.links := rfl
@[simp] theorem decStop_portsHeld (s : State) : (s.decStop).portsHeld = s.portsHeld := rfl
@[simp] theorem decStop_now (s : State) : (s.decStop).now = s.now := rfl
@[simp] theorem decStop_requests (s : State) : (s.decStop).requests = s.requests := rfl
@[simp] theorem decStop_env (s : State) : (s.decStop).env = s.env := rfl
@[simp] theorem decStop_ret (s : State) : (s.decStop).ret = s.ret := rfl

@[simp] theorem decBegin_cfg (s : State) : (s.decBegin).cfg = s.cfg := rfl
@[simp] theorem decBegin_crcReg (s : State) : (s.decBegin).crcReg = s.crcReg := rfl
@[simp] theorem decBegin_links (s : State) : (s.decBegin).links = s.links := rfl
@[simp] theorem decBegin_portsHeld (s : State) : (s.decBegin).portsHeld = s.portsHeld := rfl
@[simp] theorem decBegin_now (s : State) : (s.decBegin).now = s.now := rfl
@[simp] theorem decBegin_requests (s : State) : (s.decBegin).requests = s.requests := rfl
@[simp] theorem decBegin_env (s : State) : (s.decBegin).env = s.env := rfl
@[simp] theorem decBegin_ret (s : State) : (s.decBegin).ret = s.ret := rfl

@[simp] theorem returnValue_cfg (v : RetVal) (s : State) : (returnValue v s).cfg = s.cfg := rfl
@[simp] theorem returnValue_crcReg (v : RetVal) (s : State) : (returnValue v s).crcReg = s.crcReg := rfl
@[simp] theorem returnValue_dec (v : RetVal) (s : State) : (returnValue v s).dec = s.dec := rfl
@[simp] theorem returnValue_links (v : RetVal) (s : State) : (returnValue v s).links = s.links := rfl
@[simp] theorem returnValue_portsHeld (v : RetVal) (s : State) : (returnValue v s).portsHeld = s.portsHeld := rfl
@[simp] theorem returnValue_now (v : RetVal) (s : State) : (returnValue v s).now = s.now := rfl
@[simp] theorem returnValue_requests (v : RetVal) (s : State) : (returnValue v s).requests = s.requests := rfl
@[simp] theorem returnValue_env (v : RetVal) (s : State) : (returnValue v s).env = s.env := rfl

@[simp] theorem latch_cfg (p : PortId) (command : Byte) (payload : Bytes) (t : Nat) (s : State) : (latch p command payload t s).cfg = s.cfg := rfl
@[simp] theorem latch_dec (p : PortId) (command : Byte) (payload : Bytes) (t : Nat) (s : State) : (latch p command payload t s).dec = s.dec := rfl
@[simp] theorem latch_portsHeld (p : PortId) (command : Byte) (payload : Bytes) (t : Nat) (s : State) : (latch p command payload t s).portsHeld = s.portsHeld := rfl
@[simp] theorem latch_now (p : PortId) (command : Byte) (payload : Bytes) (t : Nat) (s : State) : (latch p command payload t s).now = s.now := rfl
@[simp] theorem latch_requests (p : PortId) (command : Byte) (payload : Bytes) (t : Nat) (s : State) : (latch p command payload t s).requests = s.requests := rfl
@[simp] theorem latch_env (p : PortId) (command : Byte) (payload : Bytes) (t : Nat) (s : State) : (latch p command payload t s).env = s.env := rfl
@[simp] theorem latch_ret (p : PortId) (command : Byte) (payload : Bytes) (t : Nat) (s : State) : (latch p command payload t s).ret = s.ret := rfl

@[simp] theorem countAttempt_cfg (p : PortId) (s : State) : (countAttempt p s).cfg = s.cfg := rfl
@[simp] theorem countAttempt_crcReg (p : PortId) (s : State) : (countAttempt p s).crcReg = s.crcReg := rfl
@[simp] theorem countAttempt_dec (p : PortId) (s : State) : (countAttempt p s).dec = s.dec := rfl
@[simp] theorem countAttempt_portsHeld (p : PortId) (s : State) : (countAttempt p s).portsHeld = s.portsHeld := rfl
@[simp] theorem countAttempt_now (p : PortId) (s : State) : (countAttempt p s).now = s.now := rfl
@[simp] theorem countAttempt_requests (p : PortId) (s : State) : (countAttempt p s).requests = s.requests := rfl
@[simp] theorem countAttempt_env (p : PortId) (s : State) : (countAttempt p s).env = s.env := rfl
@[simp] theorem countAttempt_ret (p : PortId) (s : State) : (countAttempt p s).ret = s.ret := rfl

@[simp] theorem armDeadline_cfg (p : PortId) (s : State) : (armDeadline p s).cfg = s.cfg := rfl
@[simp] theorem armDeadline_crcReg (p : PortId) (s : State) : (armDeadline p s).crcReg = s.crcReg := rfl
@[simp] theorem armDeadline_dec (p : PortId) (s : State) : (armDeadline p s).dec = s.dec := rfl
@[simp] theorem armDeadline_portsHeld (p : PortId) (s : State) : (armDeadline p s).portsHeld = s.portsHeld := rfl
@[simp] theorem armDeadline_now (p : PortId) (s : State) : (armDeadline p s).now = s.now := rfl
@[simp] theorem armDeadline_requests (p : PortId) (s : State) : (armDeadline p s).requests = s.requests := rfl
@[simp] theorem armDeadline_env (p : PortId) (s : State) : (armDeadline p s).env = s.env := rfl
@[simp] theorem armDeadline_ret (p : PortId) (s : State) : (armDeadline p s).ret = s.ret := rfl

@[simp] theorem failAttempt_cfg (p : PortId) (d : Disp) (c : FailClass) (s : State) : (failAttempt p d c s).cfg = s.cfg := rfl
@[simp] theorem failAttempt_crcReg (p : PortId) (d : Disp) (c : FailClass) (s : State) : (failAttempt p d c s).crcReg = s.crcReg := rfl
@[simp] theorem failAttempt_dec (p : PortId) (d : Disp) (c : FailClass) (s : State) : (failAttempt p d c s).dec = s.dec := rfl
@[simp] theorem failAttempt_portsHeld (p : PortId) (d : Disp) (c : FailClass) (s : State) : (failAttempt p d c s).portsHeld = s.portsHeld := rfl
@[simp] theorem failAttempt_now (p : PortId) (d : Disp) (c : FailClass) (s : State) : (failAttempt p d c s).now = s.now := rfl
@[simp] theorem failAttempt_requests (p : PortId) (d : Disp) (c : FailClass) (s : State) : (failAttempt p d c s).requests = s.requests := rfl
@[simp] theorem failAttempt_env (p : PortId) (d : Disp) (c : FailClass) (s : State) : (failAttempt p d c s).env = s.env := rfl
@[simp] theorem failAttempt_ret (p : PortId) (d : Disp) (c : FailClass) (s : State) : (failAttempt p d c s).ret = s.ret := rfl

@[simp] theorem passAttempt_cfg (p : PortId) (s : State) : (passAttempt p s).cfg = s.cfg := rfl
@[simp] theorem passAttempt_crcReg (p : PortId) (s : State) : (passAttempt p s).crcReg = s.crcReg := rfl
@[simp] theorem passAttempt_dec (p : PortId) (s : State) : (passAttempt p s).dec = s.dec := rfl
@[simp] theorem passAttempt_portsHeld (p : PortId) (s : State) : (passAttempt p s).portsHeld = s.portsHeld := rfl
@[simp] theorem passAttempt_now (p : PortId) (s : State) : (passAttempt p s).now = s.now := rfl
@[simp] theorem passAttempt_requests (p : PortId) (s : State) : (passAttempt p s).requests = s.requests := rfl
@[simp] theorem passAttempt_env (p : PortId) (s : State) : (passAttempt p s).env = s.env := rfl
@[simp] theorem passAttempt_ret (p : PortId) (s : State) : (passAttempt p s).ret = s.ret := rfl

@[simp] theorem openSession_cfg (p : PortId) (s : State) : (openSession p s).cfg = s.cfg := rfl
@[simp] theorem openSession_crcReg (p : PortId) (s : State) : (openSession p s).crcReg = s.crcReg := rfl
@[simp] theorem openSession_dec (p : PortId) (s : State) : (openSession p s).dec = s.dec := rfl
@[simp] theorem openSession_now (p : PortId) (s : State) : (openSession p s).now = s.now := rfl
@[simp] theorem openSession_requests (p : PortId) (s : State) : (openSession p s).requests = s.requests := rfl
@[simp] theorem openSession_env (p : PortId) (s : State) : (openSession p s).env = s.env := rfl
@[simp] theorem openSession_ret (p : PortId) (s : State) : (openSession p s).ret = s.ret := rfl

@[simp] theorem closeSession_cfg (p : PortId) (s : State) : (closeSession p s).cfg = s.cfg := rfl
@[simp] theorem closeSession_crcReg (p : PortId) (s : State) : (closeSession p s).crcReg = s.crcReg := rfl
@[simp] theorem closeSession_dec (p : PortId) (s : State) : (closeSession p s).dec = s.dec := rfl
@[simp] theorem closeSession_now (p : PortId) (s : State) : (closeSession p s).now = s.now := rfl
@[simp] theorem closeSession_requests (p : PortId) (s : State) : (closeSession p s).requests = s.requests := rfl
@[simp] theorem closeSession_env (p : PortId) (s : State) : (closeSession p s).env = s.env := rfl
@[simp] theorem closeSession_ret (p : PortId) (s : State) : (closeSession p s).ret = s.ret := rfl

@[simp] theorem readyLink_cfg (p : PortId) (s : State) : (readyLink p s).cfg = s.cfg := rfl
@[simp] theorem readyLink_crcReg (p : PortId) (s : State) : (readyLink p s).crcReg = s.crcReg := rfl
@[simp] theorem readyLink_dec (p : PortId) (s : State) : (readyLink p s).dec = s.dec := rfl
@[simp] theorem readyLink_portsHeld (p : PortId) (s : State) : (readyLink p s).portsHeld = s.portsHeld := rfl
@[simp] theorem readyLink_now (p : PortId) (s : State) : (readyLink p s).now = s.now := rfl
@[simp] theorem readyLink_requests (p : PortId) (s : State) : (readyLink p s).requests = s.requests := rfl
@[simp] theorem readyLink_env (p : PortId) (s : State) : (readyLink p s).env = s.env := rfl
@[simp] theorem readyLink_ret (p : PortId) (s : State) : (readyLink p s).ret = s.ret := rfl

@[simp] theorem setOptIn_cfg (p : PortId) (b : Bool) (s : State) : (setOptIn p b s).cfg = s.cfg := rfl
@[simp] theorem setOptIn_crcReg (p : PortId) (b : Bool) (s : State) : (setOptIn p b s).crcReg = s.crcReg := rfl
@[simp] theorem setOptIn_dec (p : PortId) (b : Bool) (s : State) : (setOptIn p b s).dec = s.dec := rfl
@[simp] theorem setOptIn_portsHeld (p : PortId) (b : Bool) (s : State) : (setOptIn p b s).portsHeld = s.portsHeld := rfl
@[simp] theorem setOptIn_now (p : PortId) (b : Bool) (s : State) : (setOptIn p b s).now = s.now := rfl
@[simp] theorem setOptIn_requests (p : PortId) (b : Bool) (s : State) : (setOptIn p b s).requests = s.requests := rfl
@[simp] theorem setOptIn_env (p : PortId) (b : Bool) (s : State) : (setOptIn p b s).env = s.env := rfl
@[simp] theorem setOptIn_ret (p : PortId) (b : Bool) (s : State) : (setOptIn p b s).ret = s.ret := rfl

@[simp] theorem popRequest_cfg (s : State) : (s.popRequest).cfg = s.cfg := rfl
@[simp] theorem popRequest_crcReg (s : State) : (s.popRequest).crcReg = s.crcReg := rfl
@[simp] theorem popRequest_dec (s : State) : (s.popRequest).dec = s.dec := rfl
@[simp] theorem popRequest_links (s : State) : (s.popRequest).links = s.links := rfl
@[simp] theorem popRequest_portsHeld (s : State) : (s.popRequest).portsHeld = s.portsHeld := rfl
@[simp] theorem popRequest_now (s : State) : (s.popRequest).now = s.now := rfl
@[simp] theorem popRequest_env (s : State) : (s.popRequest).env = s.env := rfl
@[simp] theorem popRequest_ret (s : State) : (s.popRequest).ret = s.ret := rfl

/-! ## The records of the ports -/

@[simp] theorem link_setLink_same (s : State) (p : PortId) (l : Link) : (s.setLink p l).link p = l :=
  linkAt_putLink_same s.links p l

theorem link_setLink_other {p q : PortId} (h : q ≠ p) (s : State) (l : Link) :
    (s.setLink p l).link q = s.link q := linkAt_putLink_other h s.links l

@[simp] theorem setLink_setLink (s : State) (p : PortId) (l m : Link) :
    (s.setLink p l).setLink p m = s.setLink p m := by simp [State.setLink]

/-- Two states with the same table have the same records. -/
theorem link_of_links_eq {s s' : State} (h : s'.links = s.links) (p : PortId) : s'.link p = s.link p := by
  rw [State.link, State.link, h]

@[simp] theorem link_reset (p : PortId) : State.reset.link p = Link.powerOn := rfl

@[simp] theorem link_drawIo (s : State) (q : PortId) : (s.drawIo.2).link q = s.link q := rfl

@[simp] theorem link_drawOpen (s : State) (q : PortId) : (s.drawOpen.2).link q = s.link q := rfl

@[simp] theorem link_drawLines (s : State) (q : PortId) : (s.drawLines.2).link q = s.link q := rfl

@[simp] theorem link_drawCancel (s : State) (q : PortId) : (s.drawCancel.2).link q = s.link q := rfl

@[simp] theorem link_decTake (s : State) (b : Byte) (q : PortId) : (s.decTake b).link q = s.link q := rfl

@[simp] theorem link_decStop (s : State) (q : PortId) : (s.decStop).link q = s.link q := rfl

@[simp] theorem link_decBegin (s : State) (q : PortId) : (s.decBegin).link q = s.link q := rfl

@[simp] theorem link_returnValue (v : RetVal) (s : State) (q : PortId) : (returnValue v s).link q = s.link q := rfl

@[simp] theorem link_popRequest (s : State) (q : PortId) : (s.popRequest).link q = s.link q := rfl

@[simp] theorem link_teardown_same (p : PortId) (s : State) :
    (teardown p s).link p =
      { s.link p with session := none, rx := [], disp := .idle, attempt := 0 } := by
  simp [teardown, State.link, State.setLink]

theorem link_teardown_other {q : PortId} (p : PortId) (s : State) (h : q ≠ p) :
    (teardown p s).link q = s.link q := by
  simp [teardown, State.link, State.setLink, linkAt_putLink_other h]

@[simp] theorem link_latch_same (p : PortId) (command : Byte) (payload : Bytes) (t : Nat) (s : State) :
    (latch p command payload t s).link p =
      { s.link p with
      curCmd := command, curPayload := payload, curFrame := encodeFrame s.cfg command payload,
      curTimeout := t, attempt := 0, lastFail := none } := by
  simp [latch, State.link, State.setLink]

theorem link_latch_other {q : PortId} (p : PortId) (command : Byte) (payload : Bytes) (t : Nat) (s : State) (h : q ≠ p) :
    (latch p command payload t s).link q = s.link q := by
  simp [latch, State.link, State.setLink, linkAt_putLink_other h]

@[simp] theorem link_countAttempt_same (p : PortId) (s : State) :
    (countAttempt p s).link p =
      { s.link p with attempt := (s.link p).attempt + 1, lastRaw := [] } := by
  simp [countAttempt, State.link, State.setLink]

theorem link_countAttempt_other {q : PortId} (p : PortId) (s : State) (h : q ≠ p) :
    (countAttempt p s).link q = s.link q := by
  simp [countAttempt, State.link, State.setLink, linkAt_putLink_other h]

@[simp] theorem link_armDeadline_same (p : PortId) (s : State) :
    (armDeadline p s).link p =
      { s.link p with deadline := s.now + (s.link p).curTimeout, disp := .sent } := by
  simp [armDeadline, State.link, State.setLink]

theorem link_armDeadline_other {q : PortId} (p : PortId) (s : State) (h : q ≠ p) :
    (armDeadline p s).link q = s.link q := by
  simp [armDeadline, State.link, State.setLink, linkAt_putLink_other h]

@[simp] theorem link_failAttempt_same (p : PortId) (d : Disp) (c : FailClass) (s : State) :
    (failAttempt p d c s).link p =
      { s.link p with lastFail := some c, disp := .idle } := by
  simp [failAttempt, State.link, State.setLink]

theorem link_failAttempt_other {q : PortId} (p : PortId) (d : Disp) (c : FailClass) (s : State) (h : q ≠ p) :
    (failAttempt p d c s).link q = s.link q := by
  simp [failAttempt, State.link, State.setLink, linkAt_putLink_other h]

@[simp] theorem link_passAttempt_same (p : PortId) (s : State) :
    (passAttempt p s).link p =
      { s.link p with disp := .idle } := by
  simp [passAttempt, State.link, State.setLink]

theorem link_passAttempt_other {q : PortId} (p : PortId) (s : State) (h : q ≠ p) :
    (passAttempt p s).link q = s.link q := by
  simp [passAttempt, State.link, State.setLink, linkAt_putLink_other h]

@[simp] theorem link_openSession_same (p : PortId) (s : State) :
    (openSession p s).link p =
      { s.link p with session := some (newSession s.cfg p) } := by
  simp [openSession, State.link, State.setLink]

theorem link_openSession_other {q : PortId} (p : PortId) (s : State) (h : q ≠ p) :
    (openSession p s).link q = s.link q := by
  simp [openSession, State.link, State.setLink, linkAt_putLink_other h]

@[simp] theorem link_closeSession_same (p : PortId) (s : State) :
    (closeSession p s).link p =
      { s.link p with session := none, rx := [] } := by
  simp [closeSession, State.link, State.setLink]

theorem link_closeSession_other {q : PortId} (p : PortId) (s : State) (h : q ≠ p) :
    (closeSession p s).link q = s.link q := by
  simp [closeSession, State.link, State.setLink, linkAt_putLink_other h]

@[simp] theorem link_readyLink_same (p : PortId) (s : State) :
    (readyLink p s).link p =
      { s.link p with disp := .idle, attempt := 0, lastRaw := [] } := by
  simp [readyLink, State.link, State.setLink]

theorem link_readyLink_other {q : PortId} (p : PortId) (s : State) (h : q ≠ p) :
    (readyLink p s).link q = s.link q := by
  simp [readyLink, State.link, State.setLink, linkAt_putLink_other h]

@[simp] theorem link_setOptIn_same (p : PortId) (b : Bool) (s : State) :
    (setOptIn p b s).link p =
      { s.link p with session := (s.link p).session.map (fun x => { x with allowUnstable := b }) } := by
  simp [setOptIn, State.link, State.setLink]

theorem link_setOptIn_other {q : PortId} (p : PortId) (b : Bool) (s : State) (h : q ≠ p) :
    (setOptIn p b s).link q = s.link q := by
  simp [setOptIn, State.link, State.setLink, linkAt_putLink_other h]

/-- The environment draws of a state: what is left of each list. -/
@[simp] theorem drawIo_of_nil {s : State} (h : s.env.ioFails = []) : s.drawIo = (false, s) := by
  obtain ⟨cfg, crc, dec, links, held, now, reqs, ⟨w, io, o, l, c⟩, ret⟩ := s
  simp only at h
  subst h
  rfl

@[simp] theorem drawIo_waits (s : State) : s.drawIo.2.env.waits = s.env.waits := rfl

end Sys2Proof.Machine
end

