-- ==== Sys2Proof/Laws/Frames.lean ====
section
/-!
SUPPORT. What the shared operations can do, said once. `Evolves p s s'`: from `s` to `s'` the engine worked on port
`p` only. The configuration and the host's queue are kept, time does not run back, `tx` of `p` only grows, every
other port's record is kept but for the bytes that the waits taken brought to its `rx`, and coherence is kept.
-/

namespace Sys2Proof.Machine

/-- The bytes of a list of arrivals that are for port `q`, in order. -/
def bytesFor (q : PortId) : List (PortId × Byte) → Bytes
  | [] => []
  | e :: rest => if e.1 = q then e.2 :: bytesFor q rest else bytesFor q rest

theorem bytesFor_append (q : PortId) (a b : List (PortId × Byte)) :
    bytesFor q (a ++ b) = bytesFor q a ++ bytesFor q b := by
  induction a with
  | nil => rfl
  | cons e a ih =>
    simp only [List.cons_append, bytesFor, ih]
    split <;> simp

/-- The bytes that a list of waits brings to port `q`. -/
def bytesIn (q : PortId) (ws : List Wait) : Bytes := bytesFor q (ws.flatMap Wait.arrive)

@[simp] theorem bytesIn_nil (q : PortId) : bytesIn q [] = [] := rfl

theorem bytesIn_cons (q : PortId) (w : Wait) (ws : List Wait) :
    bytesIn q (w :: ws) = bytesFor q w.arrive ++ bytesIn q ws := by simp [bytesIn, bytesFor_append]

theorem bytesIn_append (q : PortId) (a b : List Wait) : bytesIn q (a ++ b) = bytesIn q a ++ bytesIn q b := by
  simp [bytesIn, bytesFor_append]

/-- From `s` to `s'` the engine worked on port `p` only. -/
structure Evolves (p : PortId) (s s' : State) : Prop where
  cfg      : s'.cfg = s.cfg
  requests : s'.requests = s.requests
  now      : s.now ≤ s'.now
  tx       : ∃ more, (s'.link p).tx = (s.link p).tx ++ more
  arrivals : ∃ n, s'.env.waits = s.env.waits.drop n ∧
    ∀ q, q ≠ p → s'.link q = { s.link q with rx := (s.link q).rx ++ bytesIn q (s.env.waits.take n) }
  heldElse : ∀ q, q ≠ p → (q ∈ s'.portsHeld ↔ q ∈ s.portsHeld)
  coherent : s.Coherent → s'.Coherent

/-- Another port's record is kept but for bytes that arrived. -/
theorem Evolves.others {p q : PortId} {s s' : State} (h : Evolves p s s') (hq : q ≠ p) :
    ∃ more, s'.link q = { s.link q with rx := (s.link q).rx ++ more } := by
  obtain ⟨n, -, g⟩ := h.arrivals
  exact ⟨_, g q hq⟩

/-- No wait was taken, and no other port's record changed. -/
theorem arrivals_none {p : PortId} {s s' : State} (hw : s'.env.waits = s.env.waits)
    (hl : ∀ q, q ≠ p → s'.link q = s.link q) : ∃ n, s'.env.waits = s.env.waits.drop n ∧
      ∀ q, q ≠ p → s'.link q = { s.link q with rx := (s.link q).rx ++ bytesIn q (s.env.waits.take n) } :=
  ⟨0, hw, fun q hq => by simp [hl q hq]⟩

theorem Evolves.refl (p : PortId) (s : State) : Evolves p s s where
  cfg := rfl
  requests := rfl
  now := Nat.le_refl _
  tx := ⟨[], by simp⟩
  arrivals := arrivals_none rfl (fun _ _ => rfl)
  heldElse := fun _ _ => Iff.rfl
  coherent := id

theorem Evolves.trans {p : PortId} {a b c : State} (h : Evolves p a b) (g : Evolves p b c) : Evolves p a c where
  cfg := g.cfg.trans h.cfg
  requests := g.requests.trans h.requests
  now := Nat.le_trans h.now g.now
  tx := by
    obtain ⟨m, hm⟩ := h.tx
    obtain ⟨n, hn⟩ := g.tx
    exact ⟨m ++ n, by rw [hn, hm, List.append_assoc]⟩
  arrivals := by
    obtain ⟨m, hm, hl⟩ := h.arrivals
    obtain ⟨n, hn, gl⟩ := g.arrivals
    refine ⟨m + n, by rw [hn, hm, List.drop_drop], fun q hq => ?_⟩
    rw [gl q hq, hl q hq, hm, List.take_add, bytesIn_append, ← List.append_assoc]
  heldElse := fun q hq => (g.heldElse q hq).trans (h.heldElse q hq)
  coherent := fun ha => g.coherent (h.coherent ha)

/-- A write of port `p`'s record that keeps its Session live or absent as it was, extends its `tx`, and is safe
if the old record is. -/
theorem Evolves.setLink {p : PortId} {s : State} {l : Link}
    (htx : ∃ more, l.tx = (s.link p).tx ++ more)
    (hsess : l.session.isSome = (s.link p).session.isSome)
    (hsafe : ∀ cfg, LinkSafe cfg p (s.link p) → LinkSafe cfg p l) : Evolves p s (s.setLink p l) where
  cfg := rfl
  requests := rfl
  now := Nat.le_refl _
  tx := by simpa using htx
  arrivals := arrivals_none rfl (fun _ hq => link_setLink_other hq _ _)
  heldElse := fun _ _ => Iff.rfl
  coherent := fun h =>
    { cfg := h.cfg
      links := linksWf_putLink p l h.links
      held := h.held
      live := fun q => by
        by_cases hq : q = p
        · subst hq
          simp [h.live q, hsess]
        · simp [link_setLink_other hq, h.live q]
      dec := h.dec
      port := fun q => by
        by_cases hq : q = p
        · subst hq
          simpa using hsafe _ (h.port q)
        · simpa [link_setLink_other hq] using h.port q }

/-- A change of fields that are neither a record, a held port, the decoder, the configuration, the queue, the waits
to come nor time. -/
theorem Evolves.of_fields {p : PortId} {s s' : State} (hc : s'.cfg = s.cfg) (hr : s'.requests = s.requests)
    (hn : s.now ≤ s'.now) (hl : s'.links = s.links) (hh : s'.portsHeld = s.portsHeld)
    (hw : s'.env.waits = s.env.waits) (hd : DecSafe s.dec → DecSafe s'.dec) : Evolves p s s' where
  cfg := hc
  requests := hr
  now := hn
  tx := ⟨[], by simp [link_of_links_eq hl]⟩
  arrivals := arrivals_none hw (fun q _ => link_of_links_eq hl q)
  heldElse := fun _ _ => by rw [hh]
  coherent := fun h =>
    { cfg := hc ▸ h.cfg
      links := hl ▸ h.links
      held := hh ▸ h.held
      live := fun q => by rw [hh, link_of_links_eq hl]; exact h.live q
      dec := hd h.dec
      port := fun q => by rw [hc, link_of_links_eq hl]; exact h.port q }

/-! ## Draws and waits -/

theorem evolves_drawIo (p : PortId) (s : State) : Evolves p s s.drawIo.2 :=
  .of_fields rfl rfl (Nat.le_refl _) rfl rfl rfl id

theorem evolves_drawOpen (p : PortId) (s : State) : Evolves p s s.drawOpen.2 :=
  .of_fields rfl rfl (Nat.le_refl _) rfl rfl rfl id

theorem evolves_drawLines (p : PortId) (s : State) : Evolves p s s.drawLines.2 :=
  .of_fields rfl rfl (Nat.le_refl _) rfl rfl rfl id

theorem evolves_drawCancel (p : PortId) (s : State) : Evolves p s s.drawCancel.2 :=
  .of_fields rfl rfl (Nat.le_refl _) rfl rfl rfl id

/-- A safe record stays safe when only its streams change. -/
theorem LinkSafe.of_same {cfg : Config} {p : PortId} {l m : Link} (h : LinkSafe cfg p l)
    (h1 : m.session = l.session) (h2 : m.curPayload = l.curPayload) (h3 : m.curFrame = l.curFrame)
    (h4 : m.unstableAtOp = l.unstableAtOp) : LinkSafe cfg p m where
  session := fun x hx => h.session x (h1 ▸ hx)
  curPayload := h2 ▸ h.curPayload
  curFrame := h3 ▸ h.curFrame
  perOp := h4 ▸ h.perOp

/-- What the arrival of bytes does: each port's `rx` gains the bytes for it, and nothing else changes. -/
theorem link_arrivals (q : PortId) (es : List (PortId × Byte)) (s : State) :
    (es.foldl arriveByte s).link q = { s.link q with rx := (s.link q).rx ++ bytesFor q es } := by
  induction es generalizing s with
  | nil => simp [bytesFor]
  | cons e rest ih =>
    rw [List.foldl_cons, ih]
    by_cases h : e.1 = q
    · subst h
      simp [arriveByte, bytesFor]
    · simp [arriveByte, bytesFor, h, link_setLink_other (Ne.symm h)]

theorem arrivals_fields (es : List (PortId × Byte)) (s : State) :
    (es.foldl arriveByte s).cfg = s.cfg ∧ (es.foldl arriveByte s).crcReg = s.crcReg ∧
    (es.foldl arriveByte s).dec = s.dec ∧ (es.foldl arriveByte s).portsHeld = s.portsHeld ∧
    (es.foldl arriveByte s).now = s.now ∧ (es.foldl arriveByte s).requests = s.requests ∧
    (es.foldl arriveByte s).env = s.env ∧ (es.foldl arriveByte s).ret = s.ret := by
  induction es generalizing s with
  | nil => simp
  | cons e rest ih => simpa using ih (arriveByte s e)

theorem arrivals_linksWf (es : List (PortId × Byte)) (s : State) (h : linksWf s.links = true) :
    linksWf (es.foldl arriveByte s).links = true := by
  induction es generalizing s with
  | nil => exact h
  | cons e rest ih => exact ih _ (linksWf_putLink _ _ h)

theorem link_applyWait (q : PortId) (w : Wait) (s : State) :
    (applyWait w s).link q = { s.link q with rx := (s.link q).rx ++ bytesFor q w.arrive } := by
  rw [applyWait, link_arrivals]
  rfl

theorem applyWait_fields (w : Wait) (s : State) :
    (applyWait w s).cfg = s.cfg ∧ (applyWait w s).crcReg = s.crcReg ∧ (applyWait w s).dec = s.dec ∧
    (applyWait w s).portsHeld = s.portsHeld ∧ (applyWait w s).now = s.now + w.dt ∧
    (applyWait w s).requests = s.requests ∧ (applyWait w s).env = s.env ∧ (applyWait w s).ret = s.ret := by
  simpa [applyWait] using arrivals_fields w.arrive { s with now := s.now + w.dt }

/-- Arrivals and the passage of time keep coherence. -/
theorem coherent_of_arrivals {s s' : State} (hc : s'.cfg = s.cfg) (hd : s'.dec = s.dec)
    (hh : s'.portsHeld = s.portsHeld) (hw : linksWf s.links = true → linksWf s'.links = true)
    (hl : ∀ q, ∃ more, s'.link q = { s.link q with rx := (s.link q).rx ++ more }) (h : s.Coherent) :
    s'.Coherent where
  cfg := hc ▸ h.cfg
  links := hw h.links
  held := hh ▸ h.held
  live := fun q => by
    obtain ⟨m, hm⟩ := hl q
    rw [hh, hm]
    exact h.live q
  dec := hd ▸ h.dec
  port := fun q => by
    obtain ⟨m, hm⟩ := hl q
    rw [hc, hm]
    exact (h.port q).of_same rfl rfl rfl rfl

/-- The environment's next wait. -/
theorem evolves_nextWait (p : PortId) {w : Wait} {ws : List Wait} {s : State} (hw : s.env.waits = w :: ws) :
    Evolves p s (applyWait w { s with env := { s.env with waits := ws } }) := by
  obtain ⟨h1, _, h3, h4, h5, h6, h7, _⟩ := applyWait_fields w { s with env := { s.env with waits := ws } }
  exact
    { cfg := h1
      requests := h6
      now := Nat.le_trans (Nat.le_add_right _ _) (Nat.le_of_eq h5.symm)
      tx := ⟨[], by rw [link_applyWait, List.append_nil]; rfl⟩
      arrivals := ⟨1, by rw [h7, hw]; rfl, fun q _ => by
        rw [link_applyWait, hw, List.take_succ_cons, List.take_zero, bytesIn_cons, bytesIn_nil, List.append_nil]
        rfl⟩
      heldElse := fun q _ => by rw [h4]
      coherent := fun h => coherent_of_arrivals (s := s) h1 h3 h4 (fun hl => arrivals_linksWf _ _ hl)
        (fun q => ⟨_, link_applyWait q w _⟩) h }

theorem evolves_waitStep (p : PortId) (target : Nat) (s : State) : Evolves p s (waitStep target s) := by
  unfold waitStep
  split
  · exact .of_fields rfl rfl (Nat.le_max_left _ _) rfl rfl rfl id
  · exact evolves_nextWait p ‹_›

theorem evolves_idleStep (p : PortId) (s : State) : Evolves p s (idleStep s) := by
  unfold idleStep
  split
  · exact .refl p s
  · exact evolves_nextWait p ‹_›

theorem evolves_waitLoop (p : PortId) (target : Nat) (n : Nat) (s : State) :
    Evolves p s (waitLoop target n s) := by
  induction n generalizing s with
  | zero => exact .refl p s
  | succ n ih =>
    unfold waitLoop
    split
    · exact .refl p s
    · exact (evolves_waitStep p target s).trans (ih _)

theorem evolves_waitUntil (p : PortId) (target : Nat) (s : State) : Evolves p s (waitUntil target s) :=
  evolves_waitLoop p target _ s

/-! ## The decoder -/

theorem decSafe_start : DecSafe Dec.start := ⟨by decide, ⟨rfl, rfl⟩⟩

theorem lastFour_length (l : Bytes) : (lastFour l).length ≤ 4 := by
  simp [lastFour]
  omega

theorem decSafe_decByte {cfg : Config} {d : Dec} (crc : Word16) (b : Byte) (h : DecSafe d) :
    DecSafe (decByte cfg d crc b).1 := by
  obtain ⟨hw, hb⟩ := h
  unfold decByte
  cases hp : d.phase <;> simp only [hp] at hb ⊢
  · split
    · exact ⟨lastFour_length _, hb⟩
    · split <;> exact ⟨lastFour_length _, by simpa [hp] using hb⟩
  · split
    · exact ⟨hw, by simp [hb.1]⟩
    · refine ⟨hw, ?_⟩
      simp only [hb.1, List.length_nil]
      omega
  · have hc : (d.cnt - 1#8).toNat = d.cnt.toNat - 1 := by
      rw [BitVec.toNat_sub_of_le]
      · rfl
      · exact hb.2.1
    split
    · rename_i h0
      have h1 : (d.cnt - 1#8).toNat = 0 := by rw [h0]; rfl
      refine ⟨hw, ?_⟩
      simp only [List.length_append, List.length_singleton, Option.isSome_some, and_true]
      omega
    · rename_i h0
      have h1 : (d.cnt - 1#8).toNat ≠ 0 := fun e => h0 (BitVec.eq_of_toNat_eq (by simpa using e))
      refine ⟨hw, ?_⟩
      simp only [List.length_append, List.length_singleton]
      omega
  · exact ⟨hw, by simpa [hp] using hb⟩

theorem decSafe_decEnd {d : Dec} (h : DecSafe d) : DecSafe (decEnd d) := by
  obtain ⟨hw, hb⟩ := h
  unfold decEnd
  cases hp : d.phase <;> simp only [hp] at hb ⊢ <;> exact ⟨hw, by simpa [hp] using hb⟩

theorem decSafe_decFeed {cfg : Config} {d : Dec} (crc : Word16) (s : Bytes) (h : DecSafe d) :
    DecSafe (decFeed cfg d crc s).1 := by
  induction s generalizing d crc with
  | nil => exact h
  | cons b rest ih => exact ih _ (decSafe_decByte crc b h)

theorem evolves_decTake (p : PortId) (s : State) (b : Byte) : Evolves p s (s.decTake b) :=
  .of_fields rfl rfl (Nat.le_refl _) rfl rfl rfl (decSafe_decByte _ b)

theorem evolves_decStop (p : PortId) (s : State) : Evolves p s s.decStop :=
  .of_fields rfl rfl (Nat.le_refl _) rfl rfl rfl decSafe_decEnd

theorem evolves_decBegin (p : PortId) (s : State) : Evolves p s s.decBegin :=
  .of_fields rfl rfl (Nat.le_refl _) rfl rfl rfl (fun _ => decSafe_start)

theorem evolves_returnValue (p : PortId) (v : RetVal) (s : State) : Evolves p s (returnValue v s) :=
  .of_fields rfl rfl (Nat.le_refl _) rfl rfl rfl id

/-! ## I/O steps -/

theorem evolves_teardown (p : PortId) (s : State) : Evolves p s (teardown p s) where
  cfg := rfl
  requests := rfl
  now := Nat.le_refl _
  tx := ⟨[], by simp⟩
  arrivals := arrivals_none rfl (fun _ hq => link_teardown_other p s hq)
  heldElse := fun q hq => by simp [teardown, mem_dropPort, hq]
  coherent := fun h =>
    { cfg := h.cfg
      links := linksWf_putLink p _ h.links
      held := rising_dropPort p h.held
      live := fun q => by
        by_cases hq : q = p
        · subst hq
          simp [teardown, mem_dropPort, State.link, State.setLink]
        · rw [link_teardown_other p s hq]
          simp [teardown, mem_dropPort, hq, h.live q]
      dec := h.dec
      port := fun q => by
        by_cases hq : q = p
        · subst hq
          simp only [teardown_cfg, link_teardown_same]
          exact ⟨fun x hx => by simp at hx, (h.port q).curPayload, (h.port q).curFrame, (h.port q).perOp⟩
        · simpa [link_teardown_other p s hq] using h.port q }

/-- What RxFlush can do (R174, R177). -/
theorem rxFlush_cases (p : PortId) (s : State) :
    (s.drawIo.1 = true ∧ rxFlush p s = .failed (teardown p s.drawIo.2)) ∨
    (s.drawIo.1 = false ∧ rxFlush p s = .ok (s.drawIo.2.setLink p { s.link p with rx := [] })) := by
  cases h : s.drawIo.1 <;> simp [rxFlush, h]

/-- What TxPut can do (R175, R177). -/
theorem txPut_cases (p : PortId) (bytes : Bytes) (s : State) :
    (s.drawIo.1 = true ∧ txPut p bytes s = .failed (teardown p s.drawIo.2)) ∨
    (s.drawIo.1 = false ∧
      txPut p bytes s = .ok (s.drawIo.2.setLink p { s.link p with tx := (s.link p).tx ++ bytes })) := by
  cases h : s.drawIo.1 <;> simp [txPut, h]

/-- What RxTake can do (R176, R177). -/
theorem rxTake_cases (p : PortId) (s : State) :
    (s.drawIo.1 = true ∧ rxTake p s = .failed (teardown p s.drawIo.2)) ∨
    (s.drawIo.1 = false ∧ (s.link p).rx = [] ∧ rxTake p s = .empty s.drawIo.2) ∨
    (∃ b rest, s.drawIo.1 = false ∧ (s.link p).rx = b :: rest ∧
      rxTake p s = .byte b (s.drawIo.2.setLink p
        { s.link p with rx := rest, lastRaw := (s.link p).lastRaw ++ [b] })) := by
  cases h : s.drawIo.1
  · cases hr : (s.link p).rx with
    | nil => exact .inr (.inl ⟨rfl, rfl, by simp [rxTake, h, hr]⟩)
    | cons b rest => exact .inr (.inr ⟨b, rest, rfl, rfl, by simp [rxTake, h, hr]⟩)
  · exact .inl ⟨rfl, by simp [rxTake, h]⟩

theorem evolves_ioFailed (p : PortId) (s : State) : Evolves p s (teardown p s.drawIo.2) :=
  (evolves_drawIo p s).trans (evolves_teardown p _)

theorem evolves_rxFlush_ok {p : PortId} {s s' : State} (h : rxFlush p s = .ok s') : Evolves p s s' := by
  rcases rxFlush_cases p s with ⟨_, e⟩ | ⟨_, e⟩ <;> rw [e] at h <;> cases h
  exact (evolves_drawIo p s).trans
    (.setLink ⟨[], by simp⟩ rfl (fun _ hl => hl.of_same rfl rfl rfl rfl))

theorem evolves_rxFlush_failed {p : PortId} {s s' : State} (h : rxFlush p s = .failed s') : Evolves p s s' := by
  rcases rxFlush_cases p s with ⟨_, e⟩ | ⟨_, e⟩ <;> rw [e] at h <;> cases h
  exact evolves_ioFailed p s

theorem evolves_txPut_ok {p : PortId} {bytes : Bytes} {s s' : State} (h : txPut p bytes s = .ok s') :
    Evolves p s s' := by
  rcases txPut_cases p bytes s with ⟨_, e⟩ | ⟨_, e⟩ <;> rw [e] at h <;> cases h
  exact (evolves_drawIo p s).trans
    (.setLink ⟨bytes, by simp⟩ rfl (fun _ hl => hl.of_same rfl rfl rfl rfl))

theorem evolves_txPut_failed {p : PortId} {bytes : Bytes} {s s' : State} (h : txPut p bytes s = .failed s') :
    Evolves p s s' := by
  rcases txPut_cases p bytes s with ⟨_, e⟩ | ⟨_, e⟩ <;> rw [e] at h <;> cases h
  exact evolves_ioFailed p s

theorem evolves_rxTake_byte {p : PortId} {b : Byte} {s s' : State} (h : rxTake p s = .byte b s') :
    Evolves p s s' := by
  rcases rxTake_cases p s with ⟨_, e⟩ | ⟨_, _, e⟩ | ⟨b', rest, _, _, e⟩ <;> rw [e] at h <;> cases h
  exact (evolves_drawIo p s).trans
    (.setLink ⟨[], by simp⟩ rfl (fun _ hl => hl.of_same rfl rfl rfl rfl))

theorem evolves_rxTake_empty {p : PortId} {s s' : State} (h : rxTake p s = .empty s') : Evolves p s s' := by
  rcases rxTake_cases p s with ⟨_, e⟩ | ⟨_, _, e⟩ | ⟨b', rest, _, _, e⟩ <;> rw [e] at h <;> cases h
  exact evolves_drawIo p s

theorem evolves_rxTake_failed {p : PortId} {s s' : State} (h : rxTake p s = .failed s') : Evolves p s s' := by
  rcases rxTake_cases p s with ⟨_, e⟩ | ⟨_, _, e⟩ | ⟨b', rest, _, _, e⟩ <;> rw [e] at h <;> cases h
  exact evolves_ioFailed p s

/-! ## How operations end -/

theorem evolves_goIdle (p : PortId) (s : State) : Evolves p s (goIdle p s) := by
  unfold goIdle
  split
  · exact .setLink ⟨[], by simp⟩ rfl (fun _ hl => hl.of_same rfl rfl rfl rfl)
  · exact .refl p s

/-- After `goIdle` no request is in flight on the port. -/
@[simp] theorem goIdle_busy (p : PortId) (s : State) : ((goIdle p s).link p).busy = false := by
  unfold goIdle
  by_cases h : (s.link p).busy = true <;> simp_all [Link.busy]

theorem goIdle_of_idle {p : PortId} {s : State} (h : (s.link p).busy = false) : goIdle p s = s := by
  simp [goIdle, h]

theorem evolves_raiseError (p : PortId) (r : ErrorReport) (s : State) : Evolves p s (raiseError p r s) :=
  (evolves_goIdle p s).trans (.of_fields rfl rfl (Nat.le_refl _) rfl rfl rfl id)

@[simp] theorem raiseError_busy (p : PortId) (r : ErrorReport) (s : State) :
    ((raiseError p r s).link p).busy = false := goIdle_busy p s

theorem raiseError_of_idle {p : PortId} {s : State} (h : (s.link p).busy = false) (r : ErrorReport) :
    raiseError p r s = { s with ret := .error r } := by
  simp [raiseError, goIdle_of_idle h]

/-- Other ports' busy flags survive whatever the engine does on port `p`. -/
theorem Evolves.busy_other {p q : PortId} {s s' : State} (h : Evolves p s s') (hq : q ≠ p) :
    (s'.link q).busy = (s.link q).busy := by
  obtain ⟨m, hm⟩ := h.others hq
  rw [hm]
  rfl

end Sys2Proof.Machine
end

