-- ==== Sys2Proof/Laws/Dispatcher.lean ====
section
/-!
SUPPORT. What SEND and its parts can do, said once each: the receive loop, one attempt, the retry loop, the gate
and SEND as a whole (43_dispatcher.md R190 to R212).
-/

namespace Sys2Proof.Machine

/-! ## The receive loop (R202) -/

/-- While it receives, the engine changes nothing of the port's record but `rx` and `last_raw`. -/
def SameButInput (p : PortId) (s s' : State) : Prop :=
  ∃ rx raw, s'.link p = { s.link p with rx := rx, lastRaw := raw }

theorem SameButInput.refl (p : PortId) (s : State) : SameButInput p s s := ⟨_, _, rfl⟩

theorem SameButInput.trans {p : PortId} {a b c : State} (h : SameButInput p a b) (g : SameButInput p b c) :
    SameButInput p a c := by
  obtain ⟨_, _, h⟩ := h
  obtain ⟨rx, raw, g⟩ := g
  exact ⟨rx, raw, by rw [g, h]⟩

theorem sameButInput_of_link_eq {p : PortId} {s s' : State} (h : s'.link p = s.link p) :
    SameButInput p s s' := ⟨_, _, h⟩

theorem sameButInput_waitStep (p : PortId) (target : Nat) (s : State) :
    SameButInput p s (waitStep target s) := by
  unfold waitStep
  split
  · exact sameButInput_of_link_eq rfl
  · exact ⟨_, (s.link p).lastRaw, by rw [link_applyWait]; rfl⟩

theorem sameButInput_waitLoop (p : PortId) (target n : Nat) (s : State) :
    SameButInput p s (waitLoop target n s) := by
  induction n generalizing s with
  | zero => exact .refl p s
  | succ n ih =>
    unfold waitLoop
    split
    · exact .refl p s
    · exact (sameButInput_waitStep p target s).trans (ih _)

theorem sameButInput_retryPause (p : PortId) (s : State) : SameButInput p s (retryPause s) :=
  sameButInput_waitLoop p _ _ s

/-- What the port's record is after an I/O failure: the Session is gone, nothing is in flight, `tx` stands. -/
structure TornDown (p : PortId) (s s' : State) : Prop where
  session : (s'.link p).session = none
  idle    : (s'.link p).busy = false
  rx      : (s'.link p).rx = []
  tx      : (s'.link p).tx = (s.link p).tx
  held    : p ∉ s'.portsHeld

theorem tornDown_teardown (p : PortId) (s : State) : TornDown p s (teardown p s) where
  session := by simp
  idle := by simp [Link.busy]
  rx := by simp
  tx := by simp
  held := by simp [teardown, mem_dropPort]

theorem TornDown.after {p : PortId} {a b c : State} (h : SameButInput p a b) (g : TornDown p b c) :
    TornDown p a c := by
  obtain ⟨rx, raw, h⟩ := h
  exact ⟨g.session, g.idle, g.rx, by rw [g.tx, h], g.held⟩

/-- What the receive loop can do, for any number of iterations. -/
theorem receiveLoop_spec (p : PortId) (n : Nat) (s : State) :
    (∀ s', receiveLoop p n s = .done s' → Evolves p s s' ∧ SameButInput p s s') ∧
    (∀ s', receiveLoop p n s = .ioFailed s' → Evolves p s s' ∧ TornDown p s s') := by
  induction n generalizing s with
  | zero =>
    refine ⟨fun s' h => ?_, fun s' h => by simp [receiveLoop] at h⟩
    simp only [receiveLoop, RecvResult.done.injEq] at h
    subst h
    exact ⟨evolves_decStop p s, sameButInput_of_link_eq rfl⟩
  | succ n ih =>
    unfold receiveLoop
    by_cases hd : s.dec.phase = .done
    · simp only [hd, if_true]
      refine ⟨fun s' h => ?_, fun s' h => by simp at h⟩
      simp only [RecvResult.done.injEq] at h
      subst h
      exact ⟨.refl p s, .refl p s⟩
    · simp only [hd, if_false]
      rcases rxTake_cases p s with ⟨_, e⟩ | ⟨_, _, e⟩ | ⟨b, rest, _, _, e⟩ <;> simp only [e]
      · refine ⟨fun s' h => by simp at h, fun s' h => ?_⟩
        simp only [RecvResult.ioFailed.injEq] at h
        subst h
        exact ⟨evolves_ioFailed p s, TornDown.after (sameButInput_of_link_eq (s := s) (s' := s.drawIo.2) rfl) (tornDown_teardown p s.drawIo.2)⟩
      · by_cases hdl : (s.drawIo.2.link p).deadline ≤ s.drawIo.2.now
        · rw [if_pos hdl]
          refine ⟨fun s' h => ?_, fun s' h => by simp at h⟩
          simp only [RecvResult.done.injEq] at h
          subst h
          exact ⟨(evolves_drawIo p s).trans (evolves_decStop p _), sameButInput_of_link_eq rfl⟩
        · rw [if_neg hdl]
          have he := (evolves_drawIo p s).trans (evolves_waitStep p (s.drawIo.2.link p).deadline s.drawIo.2)
          have hs : SameButInput p s (waitStep (s.drawIo.2.link p).deadline s.drawIo.2) :=
            (sameButInput_of_link_eq (s := s) (s' := s.drawIo.2) rfl).trans (sameButInput_waitStep p _ _)
          exact ⟨fun s' h => ⟨he.trans ((ih _).1 s' h).1, hs.trans ((ih _).1 s' h).2⟩,
            fun s' h => ⟨he.trans ((ih _).2 s' h).1, TornDown.after hs ((ih _).2 s' h).2⟩⟩
      · have he := (evolves_rxTake_byte e).trans (evolves_decTake p _ b)
        have hs : SameButInput p s ((s.drawIo.2.setLink p
            { s.link p with rx := rest, lastRaw := (s.link p).lastRaw ++ [b] }).decTake b) :=
          ⟨rest, (s.link p).lastRaw ++ [b], by simp⟩
        exact ⟨fun s' h => ⟨he.trans ((ih _).1 s' h).1, hs.trans ((ih _).1 s' h).2⟩,
          fun s' h => ⟨he.trans ((ih _).2 s' h).1, TornDown.after hs ((ih _).2 s' h).2⟩⟩

/-! ## One attempt (R201 to R205) -/

/-- What a finished attempt leaves in the port's record: `tx` has gained one copy of the frame, the attempt is
counted, `disp` is Idle again, the Session and the latch stand. -/
structure Attempted (p : PortId) (s s' : State) : Prop where
  evolves  : Evolves p s s'
  tx       : (s'.link p).tx = (s.link p).tx ++ (s.link p).curFrame
  attempt  : (s'.link p).attempt = (s.link p).attempt + 1
  disp     : (s'.link p).disp = .idle
  session  : (s'.link p).session = (s.link p).session
  curFrame : (s'.link p).curFrame = (s.link p).curFrame
  curCmd   : (s'.link p).curCmd = (s.link p).curCmd
  curTimeout : (s'.link p).curTimeout = (s.link p).curTimeout
  unstable : (s'.link p).unstableAt = (s.link p).unstableAt ∧
    (s'.link p).unstableAtOp = (s.link p).unstableAtOp

/-- What an attempt that an I/O failure ended leaves: the Session torn down, at most one copy of the frame sent. -/
structure AttemptTorn (p : PortId) (s s' : State) : Prop where
  evolves : Evolves p s s'
  session : (s'.link p).session = none
  idle    : (s'.link p).busy = false
  held    : p ∉ s'.portsHeld
  tx      : (s'.link p).tx = (s.link p).tx ∨ (s'.link p).tx = (s.link p).tx ++ (s.link p).curFrame

theorem evolves_countAttempt (p : PortId) (s : State) : Evolves p s (countAttempt p s) :=
  .setLink ⟨[], by simp⟩ rfl (fun _ hl => hl.of_same rfl rfl rfl rfl)

theorem evolves_armDeadline (p : PortId) (s : State) : Evolves p s (armDeadline p s) :=
  .setLink ⟨[], by simp⟩ rfl (fun _ hl => hl.of_same rfl rfl rfl rfl)

theorem failAttempt_eq (p : PortId) (d : Disp) (c : FailClass) (s : State) :
    failAttempt p d c s = s.setLink p { s.link p with lastFail := some c, disp := .idle } := by
  simp [failAttempt]

theorem passAttempt_eq (p : PortId) (s : State) :
    passAttempt p s = s.setLink p { s.link p with disp := .idle } := by
  simp [passAttempt]

theorem evolves_failAttempt (p : PortId) (d : Disp) (c : FailClass) (s : State) :
    Evolves p s (failAttempt p d c s) := by
  rw [failAttempt_eq]
  exact .setLink ⟨[], by simp⟩ rfl (fun _ hl => hl.of_same rfl rfl rfl rfl)

theorem evolves_passAttempt (p : PortId) (s : State) : Evolves p s (passAttempt p s) := by
  rw [passAttempt_eq]
  exact .setLink ⟨[], by simp⟩ rfl (fun _ hl => hl.of_same rfl rfl rfl rfl)

/-- What classification can do (R203, R204): the packet answers the request, or the attempt has failed with a
class. -/
theorem classify_cases (p : PortId) (s : State) :
    (∃ q n, s.dec.outcome = .packet q n ∧ replyFits s.cfg (s.link p).curCmd q = true ∧
      classify p s = .decoded q (passAttempt p s)) ∨
    (∃ d c, classify p s = .failed (failAttempt p d c s)) := by
  unfold classify
  split
  · split
    · exact .inr ⟨_, _, rfl⟩
    · exact .inr ⟨_, _, rfl⟩
  · rename_i q n hq
    split
    · rename_i hf
      exact .inl ⟨q, n, hq, hf, rfl⟩
    · exact .inr ⟨_, _, rfl⟩

/-- What one attempt can do. -/
theorem attempt_spec (p : PortId) (s : State) :
    (∃ q s', attempt p s = .decoded q s' ∧ Attempted p s s') ∨
    (∃ s', attempt p s = .failed s' ∧ Attempted p s s' ∧ (s'.link p).lastFail.isSome = true) ∨
    (∃ s', attempt p s = .ioFailed s' ∧ AttemptTorn p s s') := by
  have e0 := evolves_countAttempt p s
  unfold attempt
  rcases rxFlush_cases p (countAttempt p s) with ⟨_, e⟩ | ⟨_, e⟩ <;> simp only [e]
  · refine .inr (.inr ⟨_, rfl, e0.trans (evolves_ioFailed p _), by simp, by simp [Link.busy], ?_, .inl (by simp)⟩)
    simp [teardown, mem_dropPort]
  · have e1 := e0.trans ((evolves_rxFlush_ok e).trans (evolves_decBegin p _))
    generalize hs1 : ((countAttempt p s).drawIo.2.setLink p
      { (countAttempt p s).link p with rx := [] }).decBegin = s1 at e1 ⊢
    have l1 : s1.link p =
        { s.link p with attempt := (s.link p).attempt + 1, lastRaw := [], rx := [] } := by
      subst hs1
      simp
    rcases txPut_cases p (s1.link p).curFrame s1 with ⟨_, f⟩ | ⟨_, f⟩ <;> simp only [f]
    · refine .inr (.inr ⟨_, rfl, e1.trans (evolves_ioFailed p _), by simp, by simp [Link.busy], ?_,
        .inl (by simp [l1])⟩)
      simp [teardown, mem_dropPort]
    · have e2 := e1.trans ((evolves_txPut_ok f).trans (evolves_armDeadline p _))
      generalize hs2 : armDeadline p (s1.drawIo.2.setLink p
        { s1.link p with tx := (s1.link p).tx ++ (s1.link p).curFrame }) = s2 at e2 ⊢
      have l2 : s2.link p = { s.link p with
          attempt := (s.link p).attempt + 1, lastRaw := [], rx := [],
          tx := (s.link p).tx ++ (s.link p).curFrame,
          deadline := s1.drawIo.2.now + (s.link p).curTimeout, disp := .sent } := by
        subst hs2
        simp [l1]
      obtain ⟨hdone, hfail⟩ := receiveLoop_spec p (receiveFuel p s2) s2
      cases hr : receive p s2 with
      | ioFailed s3 =>
        obtain ⟨e3, t3⟩ := hfail s3 hr
        exact .inr (.inr ⟨s3, rfl, e2.trans e3, t3.session, t3.idle, t3.held, .inr (by rw [t3.tx, l2])⟩)
      | done s3 =>
        obtain ⟨e3, rx, raw, l3⟩ := hdone s3 hr
        rw [l2] at l3
        rcases classify_cases p s3 with ⟨q, n, _, _, hc⟩ | ⟨d, c, hc⟩ <;> simp only [hc]
        · exact .inl ⟨q, _, rfl, (e2.trans e3).trans (evolves_passAttempt p s3), by simp [l3], by simp [l3],
            by simp, by simp [l3], by simp [l3], by simp [l3], by simp [l3], by simp [l3]⟩
        · exact .inr (.inl ⟨_, rfl, ⟨(e2.trans e3).trans (evolves_failAttempt p d c s3), by simp [l3],
            by simp [l3], by simp, by simp [l3], by simp [l3], by simp [l3], by simp [l3], by simp [l3]⟩,
            by simp⟩)

/-! ## The retry loop (R200, R206 to R208) -/

/-- `k` copies of a frame, one after another. -/
def copies (k : Nat) (frame : Bytes) : Bytes := (List.replicate k frame).flatten

theorem copies_succ (k : Nat) (frame : Bytes) : copies (k + 1) frame = frame ++ copies k frame := by
  simp [copies, List.replicate_succ]

/-- What the retry loop leaves: whole copies of the latched frame on `tx`, at most `n + 1`, nothing in flight, and the
Session as it was or torn down. -/
structure Sent (p : PortId) (n : Nat) (s s' : State) : Prop where
  evolves : Evolves p s s'
  idle    : (s'.link p).busy = false
  tx      : ∃ k, k ≤ n + 1 ∧ (s'.link p).tx = (s.link p).tx ++ copies k (s.link p).curFrame
  session : (s'.link p).session = (s.link p).session ∨ (s'.link p).session = none

theorem Sent.goIdle {p : PortId} {n : Nat} {s s' : State} (h : Attempted p s s') :
    Sent p n s (goIdle p s') where
  evolves := h.evolves.trans (evolves_goIdle p s')
  idle := goIdle_busy p s'
  tx := ⟨1, by omega, by
    have : ((Machine.goIdle p s').link p).tx = (s'.link p).tx := by
      unfold Machine.goIdle
      split <;> simp
    rw [this, h.tx]
    simp [copies]⟩
  session := by
    have : ((Machine.goIdle p s').link p).session = (s'.link p).session := by
      unfold Machine.goIdle
      split <;> simp
    exact .inl (this.trans h.session)

theorem AttemptTorn.sent {p : PortId} {n : Nat} {s s' : State} (h : AttemptTorn p s s') : Sent p n s s' where
  evolves := h.evolves
  idle := h.idle
  tx := by
    rcases h.tx with e | e
    · exact ⟨0, by omega, by simp [e, copies]⟩
    · exact ⟨1, by omega, by simp [e, copies]⟩
  session := .inr h.session

theorem evolves_retryPause (p : PortId) (s : State) : Evolves p s (retryPause s) := evolves_waitUntil p _ s

/-- What the retry loop can do. It never refuses. -/
theorem tryAttempts_spec (p : PortId) (n : Nat) (s : State) :
    (∃ q s', tryAttempts p n s = .packet q s' ∧ Sent p n s s') ∨
    (∃ e s', tryAttempts p n s = .error e s' ∧ Sent p n s s') := by
  induction n generalizing s with
  | zero =>
    unfold tryAttempts
    rcases attempt_spec p s with ⟨q, s1, h, a⟩ | ⟨s1, h, a, _⟩ | ⟨s1, h, a⟩ <;> simp only [h]
    · exact .inl ⟨_, _, rfl, .goIdle a⟩
    · exact .inr ⟨_, _, rfl, .goIdle a⟩
    · exact .inr ⟨_, _, rfl, a.sent⟩
  | succ n ih =>
    unfold tryAttempts
    rcases attempt_spec p s with ⟨q, s1, h, a⟩ | ⟨s1, h, a, _⟩ | ⟨s1, h, a⟩ <;> simp only [h]
    · exact .inl ⟨_, _, rfl, .goIdle a⟩
    · obtain ⟨rx, raw, lp⟩ := sameButInput_retryPause p s1
      have extend : ∀ s', Sent p n (retryPause s1) s' → Sent p (n + 1) s s' := fun s' g =>
        { evolves := a.evolves.trans ((evolves_retryPause p s1).trans g.evolves)
          idle := g.idle
          tx := by
            obtain ⟨k, hk, e⟩ := g.tx
            refine ⟨k + 1, by omega, ?_⟩
            rw [e, lp]
            simp only [a.tx, a.curFrame, copies_succ, List.append_assoc]
          session := by simpa only [lp, a.session] using g.session }
      rcases ih (retryPause s1) with ⟨q, s', h', g⟩ | ⟨e, s', h', g⟩
      · exact .inl ⟨q, s', h', extend s' g⟩
      · exact .inr ⟨e, s', h', extend s' g⟩
    · exact .inr ⟨_, _, rfl, a.sent⟩

/-! ## The gate and SEND -/

theorem gateShape_pass {cfg : Config} {row : Row} {command : Byte} {payload : Bytes} {risk r : Risk}
    (h : gateShape cfg row command payload risk = .pass r) :
    r = risk ∧ fits cfg row.request payload = true ∧ payload.length ≤ maxPayload := by
  unfold gateShape at h
  split at h
  · cases h
  · rename_i h1
    split at h
    · cases h
    · rename_i h2
      cases h
      exact ⟨rfl, by simpa using h1, by omega⟩

theorem gateShape_not_error {cfg : Config} {row : Row} {command : Byte} {payload : Bytes} {risk : Risk}
    {e : TypedError} : gateShape cfg row command payload risk ≠ .error e := by
  unfold gateShape
  split
  · simp
  · split <;> simp

theorem gateUnstable_pass {cfg : Config} {l : Link} {now : Nat} {row : Row} {command : Byte} {payload : Bytes}
    {r : Risk} (h : gateUnstable cfg l now row command payload = .pass r) :
    r = .unstable ∧ l.optedIn = true ∧ fits cfg row.request payload = true ∧ payload.length ≤ maxPayload ∧
      (∀ t0, l.lastUnstable cfg command = some t0 → cfg.minInterval ≤ now - t0) := by
  unfold gateUnstable at h
  split at h
  · cases h
  · rename_i h1
    split at h
    · rename_i h2
      obtain ⟨a, b, c⟩ := gateShape_pass h
      exact ⟨a, by simpa using h1, b, c, fun t0 ht => by simp [h2] at ht⟩
    · rename_i t0 h2
      split at h
      · cases h
      · rename_i h3
        obtain ⟨a, b, c⟩ := gateShape_pass h
        refine ⟨a, by simpa using h1, b, c, fun t1 ht => ?_⟩
        rw [h2] at ht
        cases ht
        omega

/-- What a request that passes the gate satisfies (R191 to R197). -/
theorem gate_pass {cfg : Config} {l : Link} {now : Nat} {p : PortId} {command : Byte} {payload : Bytes}
    {allow : Bool} {r : Risk} (h : gate cfg l now p command payload allow = .pass r) :
    l.busy = false ∧ l.isConnected = true ∧ payload.length ≤ maxPayload ∧
      ∃ row, rowOf cfg command = some row ∧ r = effectiveRisk cfg row command payload ∧
        fits cfg row.request payload = true := by
  unfold gate at h
  split at h
  · cases h
  · rename_i hb
    split at h
    · cases h
    · rename_i hc
      split at h
      · cases h
      · rename_i row hrow
        refine ⟨by simpa using hb, by simpa using hc, ?_⟩
        split at h
        · rename_i hr
          split at h
          · cases h
          · obtain ⟨a, b, c⟩ := gateShape_pass h
            exact ⟨c, row, hrow, by rw [a, hr], b⟩
        · rename_i hr
          obtain ⟨a, _, b, c, _⟩ := gateUnstable_pass h
          exact ⟨c, row, hrow, by rw [a, hr], b⟩
        · rename_i hr
          obtain ⟨a, b, c⟩ := gateShape_pass h
          exact ⟨c, row, hrow, by rw [a, hr], b⟩

/-- A request that the gate ends with an error finds no request in flight. -/
theorem gate_error_idle {cfg : Config} {l : Link} {now : Nat} {p : PortId} {command : Byte} {payload : Bytes}
    {allow : Bool} {e : TypedError} (h : gate cfg l now p command payload allow = .error e) :
    l.busy = false := by
  unfold gate at h
  split at h
  · cases h
  · rename_i hb
    simpa using hb

theorem encodeFrame_length (cfg : Config) (command : Byte) (payload : Bytes) :
    (encodeFrame cfg command payload).length = cfg.magic.length + payload.length + 4 := by
  simp [encodeFrame, crcInput, be16]
  omega

theorem Config.wf_magic {cfg : Config} (h : cfg.wf = true) : cfg.magic.length = 4 := by
  simp only [Config.wf, Config.tablesWf, Bool.and_eq_true, decide_eq_true_eq] at h
  exact h.1.1.1.1.1.1.1.1.1

theorem evolves_stampPolicy (p : PortId) (command : Byte) (r : Risk) (s : State) :
    Evolves p s (stampPolicy p command r s) := by
  cases r
  · exact .refl p s
  · unfold stampPolicy Link.stampUnstable
    cases s.cfg.rateScope
    · exact .setLink ⟨[], by simp⟩ rfl (fun _ hl => hl.of_same rfl rfl rfl rfl)
    · exact .setLink ⟨[], by simp⟩ rfl
        (fun _ hl => ⟨hl.session, hl.curPayload, hl.curFrame, rising_putKey _ _ hl.perOp⟩)
  · exact .refl p s

/-- The latch keeps coherence when the payload fits a frame (R26, R199). -/
theorem evolves_latch {p : PortId} {command : Byte} {payload : Bytes} {t : Nat} {s : State}
    (hlen : payload.length ≤ maxPayload) : Evolves p s (latch p command payload t s) where
  cfg := rfl
  requests := rfl
  now := Nat.le_refl _
  tx := ⟨[], by simp⟩
  arrivals := arrivals_none rfl (fun _ hq => link_latch_other _ _ _ _ _ hq)
  heldElse := fun _ _ => Iff.rfl
  coherent := fun h =>
    { cfg := h.cfg
      links := linksWf_putLink p _ h.links
      held := h.held
      live := fun q => by
        by_cases hq : q = p
        · subst hq
          simp [h.live q]
        · simp [link_latch_other _ _ _ _ _ hq, h.live q]
      dec := h.dec
      port := fun q => by
        by_cases hq : q = p
        · subst hq
          have hm := Config.wf_magic h.cfg
          simp only [link_latch_same, latch_cfg]
          refine ⟨(h.port q).session, hlen, ?_, (h.port q).perOp⟩
          simp only [encodeFrame_length, hm]
          simp only [maxPayload] at hlen
          omega
        · simpa [link_latch_other _ _ _ _ _ hq] using h.port q }

theorem stampPolicy_cfg (p : PortId) (command : Byte) (r : Risk) (s : State) :
    (stampPolicy p command r s).cfg = s.cfg := (evolves_stampPolicy p command r s).cfg

/-- What the rate-limit register of an opcode reads after a stamp for `command` (R32): under `PerClass` the time of the
stamp, whatever the opcode; under `PerCommand` for `command` only. -/
theorem lastUnstable_stampUnstable (cfg : Config) (l : Link) (command other : Byte) (now : Nat) :
    (l.stampUnstable cfg command now).lastUnstable cfg other =
      match cfg.rateScope with
      | .perClass => some now
      | .perCommand => if other = command then some now else l.lastUnstable cfg other := by
  unfold Link.lastUnstable Link.stampUnstable
  cases cfg.rateScope
  · rfl
  · by_cases h : other = command
    · subst h
      simpa using assoc_insertKey_same _ _ _ (assoc_eraseKey_same _ _)
    · have hn : other.toNat ≠ command.toNat := fun e => h (BitVec.eq_of_toNat_eq e)
      simp only [if_neg h, assoc_insertKey_other hn, assoc_eraseKey_other hn]

/-- The rate-limit register is all that passing the gate writes. -/
theorem link_stampPolicy_fields (p : PortId) (command : Byte) (r : Risk) (s : State) :
    ((stampPolicy p command r s).link p).tx = (s.link p).tx ∧
    ((stampPolicy p command r s).link p).rx = (s.link p).rx ∧
    ((stampPolicy p command r s).link p).session = (s.link p).session := by
  cases r
  · exact ⟨rfl, rfl, rfl⟩
  · unfold stampPolicy Link.stampUnstable
    cases s.cfg.rateScope <;> simp
  · exact ⟨rfl, rfl, rfl⟩

/-- What SEND leaves when it ends with a packet or an error (R212): whole copies of the request's frame on `tx`,
at most `1 + MAX_RETRIES`, and nothing in flight. -/
structure SendLeaves (p : PortId) (command : Byte) (payload : Bytes) (s s' : State) : Prop where
  evolves : Evolves p s s'
  idle    : (s'.link p).busy = false
  tx      : ∃ k, k ≤ 1 + s.cfg.maxRetries ∧
    (s'.link p).tx = (s.link p).tx ++ copies k (encodeFrame s.cfg command payload)

theorem SendLeaves.of_sent {p : PortId} {command : Byte} {payload : Bytes} {t : Nat} {r : Risk} {s s' : State}
    (hlen : payload.length ≤ maxPayload)
    (h : Sent p s.cfg.maxRetries (latch p command payload t (stampPolicy p command r s)) s') :
    SendLeaves p command payload s s' where
  evolves := (evolves_stampPolicy p command r s).trans ((evolves_latch hlen).trans h.evolves)
  idle := h.idle
  tx := by
    obtain ⟨k, hk, e⟩ := h.tx
    refine ⟨k, by omega, ?_⟩
    rw [e]
    simp [stampPolicy_cfg, (link_stampPolicy_fields p command r s).1]

/-- What SEND can do. -/
theorem sendRequest_spec (p : PortId) (command : Byte) (payload : Bytes) (t : Nat) (allow : Bool) (s : State) :
    (∃ r, gate s.cfg (s.link p) s.now p command payload allow = .refused r ∧
      sendRequest p command payload t allow s = .refused r) ∨
    (∃ e, gate s.cfg (s.link p) s.now p command payload allow = .error e ∧
      sendRequest p command payload t allow s = .error e s ∧ (s.link p).busy = false) ∨
    (∃ r, gate s.cfg (s.link p) s.now p command payload allow = .pass r ∧
      ((∃ q s', sendRequest p command payload t allow s = .packet q s' ∧ SendLeaves p command payload s s') ∨
       (∃ e s', sendRequest p command payload t allow s = .error e s' ∧ SendLeaves p command payload s s'))) := by
  unfold sendRequest
  cases hg : gate s.cfg (s.link p) s.now p command payload allow with
  | refused r => exact .inl ⟨r, rfl, rfl⟩
  | error e => exact .inr (.inl ⟨e, rfl, rfl, gate_error_idle hg⟩)
  | pass r =>
    have hlen := (gate_pass hg).2.2.1
    rcases tryAttempts_spec p s.cfg.maxRetries (latch p command payload t (stampPolicy p command r s)) with
      ⟨q, s', h, g⟩ | ⟨e, s', h, g⟩
    · exact .inr (.inr ⟨r, rfl, .inl ⟨q, s', h, .of_sent hlen g⟩⟩)
    · exact .inr (.inr ⟨r, rfl, .inr ⟨e, s', h, .of_sent hlen g⟩⟩)

theorem SendLeaves.none {p : PortId} {command : Byte} {payload : Bytes} {s : State}
    (h : (s.link p).busy = false) : SendLeaves p command payload s s where
  evolves := .refl p s
  idle := h
  tx := ⟨0, by omega, by simp [copies]⟩

/-- If SEND answers, then it has left the port as `SendLeaves` says. -/
theorem sendRequest_packet {p : PortId} {command : Byte} {payload : Bytes} {t : Nat} {allow : Bool}
    {s s' : State} {q : Packet} (h : sendRequest p command payload t allow s = .packet q s') :
    SendLeaves p command payload s s' := by
  rcases sendRequest_spec p command payload t allow s with
    ⟨r, _, e⟩ | ⟨e', _, e, _⟩ | ⟨r, _, ⟨q', s1, e, g⟩ | ⟨e', s1, e, g⟩⟩ <;> rw [e] at h <;> cases h
  exact g

/-- If SEND ends in an error, then it has left the port as `SendLeaves` says. -/
theorem sendRequest_error {p : PortId} {command : Byte} {payload : Bytes} {t : Nat} {allow : Bool}
    {s s' : State} {e : TypedError} (h : sendRequest p command payload t allow s = .error e s') :
    SendLeaves p command payload s s' := by
  rcases sendRequest_spec p command payload t allow s with
    ⟨r, _, e⟩ | ⟨e', _, e, hi⟩ | ⟨r, _, ⟨q', s1, e, g⟩ | ⟨e', s1, e, g⟩⟩ <;> rw [e] at h <;> cases h
  · exact .none hi
  · exact g

end Sys2Proof.Machine
end

