-- ==== Sys2Proof/Laws/Draws.lean ====
section
/-!
SUPPORT. What a draw of the environment answers and leaves: the head of its list, the tail of its list; an exhausted
list answers by its default (log 7).
-/

namespace Sys2Proof.Machine

theorem nextDraw_snd (d : Bool) (l : List Bool) : (nextDraw d l).2 = l.tail := by cases l <;> rfl

theorem nextDraw_false (l : List Bool) : (nextDraw false l).1 = decide (l.head? = some true) := by
  cases l with
  | nil => rfl
  | cons b l => cases b <;> rfl

theorem nextDraw_true (l : List Bool) : (nextDraw true l).1 = decide (l.head? ≠ some false) := by
  cases l with
  | nil => rfl
  | cons b l => cases b <;> rfl

theorem drawIo_fst (s : State) : s.drawIo.1 = decide (s.env.ioFails.head? = some true) := nextDraw_false _

theorem drawOpen_fst (s : State) : s.drawOpen.1 = decide (s.env.opens.head? ≠ some false) := nextDraw_true _

theorem drawLines_fst (s : State) : s.drawLines.1 = decide (s.env.lines.head? ≠ some false) := nextDraw_true _

theorem drawCancel_fst (s : State) : s.drawCancel.1 = decide (s.env.cancels.head? = some true) :=
  nextDraw_false _

theorem drawIo_snd (s : State) :
    s.drawIo.2 = { s with env := { s.env with ioFails := s.env.ioFails.tail } } := by
  simp only [State.drawIo, nextDraw_snd]

theorem drawOpen_snd (s : State) :
    s.drawOpen.2 = { s with env := { s.env with opens := s.env.opens.tail } } := by
  simp only [State.drawOpen, nextDraw_snd]

theorem drawLines_snd (s : State) :
    s.drawLines.2 = { s with env := { s.env with lines := s.env.lines.tail } } := by
  simp only [State.drawLines, nextDraw_snd]

theorem drawCancel_snd (s : State) :
    s.drawCancel.2 = { s with env := { s.env with cancels := s.env.cancels.tail } } := by
  simp only [State.drawCancel, nextDraw_snd]

/-- When no cancel request is listed, a draw changes nothing. -/
theorem drawCancel_of_nil {s : State} (h : s.env.cancels = []) : s.drawCancel = (false, s) := by
  cases s with
  | mk cfg crcReg dec links portsHeld now requests env ret =>
    cases env with
    | mk waits ioFails opens lines cancels =>
      simp only at h
      subst h
      rfl

end Sys2Proof.Machine
end

