-- ==== Sys2Proof/Laws/Exec.lean ====
section
/-!
SUPPORT. What each kind of operation can do, said once: if it answers a next state, the engine worked on its port
only (`Evolves`), and a port with nothing in flight has nothing in flight afterwards (10_state.md R24).
-/

namespace Sys2Proof.Machine

/-- An operation on port `p` led from `s` to `t`. -/
structure Ran (p : PortId) (s t : State) : Prop where
  evolves : Evolves p s t
  idle    : (s.link p).busy = false → (t.link p).busy = false

theorem Ran.refl (p : PortId) (s : State) : Ran p s s := ⟨.refl p s, id⟩

theorem Ran.trans {p : PortId} {a b c : State} (h : Ran p a b) (g : Ran p b c) : Ran p a c :=
  ⟨h.evolves.trans g.evolves, fun x => g.idle (h.idle x)⟩

theorem ran_returnValue (p : PortId) (v : RetVal) (s : State) : Ran p s (returnValue v s) :=
  ⟨evolves_returnValue p v s, id⟩

theorem ran_raiseError (p : PortId) (r : ErrorReport) (s : State) : Ran p s (raiseError p r s) :=
  ⟨evolves_raiseError p r s, fun _ => raiseError_busy p r s⟩

theorem ran_goIdle (p : PortId) (s : State) : Ran p s (goIdle p s) :=
  ⟨evolves_goIdle p s, fun _ => goIdle_busy p s⟩

theorem SendLeaves.ran {p : PortId} {command : Byte} {payload : Bytes} {s t : State}
    (h : SendLeaves p command payload s t) : Ran p s t := ⟨h.evolves, fun _ => h.idle⟩

/-! ## SEND and the operations made of it -/

theorem execSend_ran {p : PortId} {command : Byte} {payload : Bytes} {timeout : Nat} {allow : Bool}
    {s t : State} (h : execSend p command payload timeout allow s = .next t) : Ran p s t := by
  unfold execSend at h
  split at h
  · cases h
    exact (sendRequest_packet ‹_›).ran.trans (ran_returnValue p _ _)
  · cases h
    exact (sendRequest_error ‹_›).ran.trans (ran_raiseError p _ _)
  · cases h

theorem wireCommand_ran {op : Byte} {p : PortId} {timeout : Nat} {payload : Bytes} {channel : Option Word16}
    {s t : State} (h : wireCommand op p timeout payload channel s = .next t) : Ran p s t := by
  unfold wireCommand at h
  split at h
  · cases h
    exact (sendRequest_packet ‹_›).ran.trans (ran_returnValue p _ _)
  · cases h
    exact (sendRequest_error ‹_›).ran.trans (ran_raiseError p _ _)
  · cases h

theorem readOne_ok {p : PortId} {timeout : Nat} {index : Word16} {s t : State} {report : ReadReport}
    (h : readOne p timeout index s = .ok report t) : Ran p s t ∧ (t.link p).busy = false := by
  unfold readOne at h
  split at h
  · split at h <;> cases h
    exact ⟨(sendRequest_packet ‹_›).ran, (sendRequest_packet ‹_›).idle⟩
  · cases h
  · cases h

theorem readOne_error {p : PortId} {timeout : Nat} {index : Word16} {s t : State} {report : ErrorReport}
    (h : readOne p timeout index s = .error report t) : Ran p s t ∧ (t.link p).busy = false := by
  unfold readOne at h
  split at h
  · split at h <;> cases h
  · cases h
    exact ⟨(sendRequest_error ‹_›).ran, (sendRequest_error ‹_›).idle⟩
  · cases h

theorem writeOne_ok {p : PortId} {timeout : Nat} {allow : Bool} {record : ChannelRecord} {s t : State}
    (h : writeOne p timeout allow record s = .ok t) : Ran p s t ∧ (t.link p).busy = false := by
  unfold writeOne at h
  split at h
  · split at h <;> cases h
    exact ⟨(sendRequest_packet ‹_›).ran, (sendRequest_packet ‹_›).idle⟩
  · cases h
  · cases h

theorem writeOne_error {p : PortId} {timeout : Nat} {allow : Bool} {record : ChannelRecord} {s t : State}
    {report : ErrorReport} (h : writeOne p timeout allow record s = .error report t) :
    Ran p s t ∧ (t.link p).busy = false := by
  unfold writeOne at h
  split at h
  · split at h <;> cases h
    exact ⟨(sendRequest_packet ‹_›).ran, (sendRequest_packet ‹_›).idle⟩
  · cases h
    exact ⟨(sendRequest_error ‹_›).ran, (sendRequest_error ‹_›).idle⟩
  · cases h

theorem execReadChannel_ran {p : PortId} {index : Word16} {timeout : Nat} {s t : State}
    (h : execReadChannel p index timeout s = .next t) : Ran p s t := by
  unfold execReadChannel at h
  split at h
  · cases h
  · split at h
    · cases h
      exact (readOne_ok ‹_›).1.trans (ran_returnValue p _ _)
    · cases h
      exact (readOne_error ‹_›).1.trans (ran_raiseError p _ _)
    · cases h

theorem execWriteChannel_ran {p : PortId} {record : ChannelRecord} {timeout : Nat} {allow : Bool} {s t : State}
    (h : execWriteChannel p record timeout allow s = .next t) : Ran p s t := by
  unfold execWriteChannel at h
  split at h
  · cases h
  · split at h
    · cases h
      exact (writeOne_ok ‹_›).1.trans (ran_returnValue p _ _)
    · cases h
      exact (writeOne_error ‹_›).1.trans (ran_raiseError p _ _)
    · cases h

theorem BulkResult.cons_done {α : Type} {a : α} {b : BulkResult α} {l : List α} {t : State}
    (h : b.cons a = .done l t) : ∃ m, l = a :: m ∧ b = .done m t := by
  cases b with
  | done m u => cases h; exact ⟨m, rfl, rfl⟩
  | refused r => cases h

theorem ran_drawCancel (p : PortId) (s : State) : Ran p s s.drawCancel.2 := ⟨evolves_drawCancel p s, id⟩

theorem readItems_ran {p : PortId} {timeout : Nat} {indices : List Word16} {s t : State} {slots : List ReadSlot}
    (h : readItems p timeout indices s = .done slots t) : Ran p s t := by
  induction indices generalizing s slots with
  | nil => cases h; exact .refl p _
  | cons index rest ih =>
    unfold readItems at h
    split at h
    · cases h
      exact ran_drawCancel p s
    · split at h
      · obtain ⟨m, -, e⟩ := BulkResult.cons_done h
        exact (ran_drawCancel p s).trans ((readOne_ok ‹_›).1.trans (ih e))
      · obtain ⟨m, -, e⟩ := BulkResult.cons_done h
        exact (ran_drawCancel p s).trans ((readOne_error ‹_›).1.trans ((ran_goIdle p _).trans (ih e)))
      · cases h

theorem writeItems_ran {p : PortId} {timeout : Nat} {records : List ChannelRecord} {s t : State}
    {slots : List WriteSlot} (h : writeItems p timeout records s = .done slots t) : Ran p s t := by
  induction records generalizing s slots with
  | nil => cases h; exact .refl p _
  | cons record rest ih =>
    unfold writeItems at h
    split at h
    · cases h
      exact ran_drawCancel p s
    · split at h
      · obtain ⟨m, -, e⟩ := BulkResult.cons_done h
        exact (ran_drawCancel p s).trans ((writeOne_ok ‹_›).1.trans (ih e))
      · obtain ⟨m, -, e⟩ := BulkResult.cons_done h
        exact (ran_drawCancel p s).trans ((writeOne_error ‹_›).1.trans ((ran_goIdle p _).trans (ih e)))
      · cases h

theorem execReadAll_ran {p : PortId} {timeout : Nat} {indices : List Word16} {s t : State}
    (h : execReadAll p timeout indices s = .next t) : Ran p s t := by
  unfold execReadAll at h
  split at h
  · cases h
  · split at h
    · cases h
    · split at h
      · cases h
        exact (readItems_ran ‹_›).trans (ran_returnValue p _ _)
      · cases h

theorem execWriteAll_ran {p : PortId} {timeout : Nat} {records : List ChannelRecord} {s t : State}
    (h : execWriteAll p timeout records s = .next t) : Ran p s t := by
  unfold execWriteAll at h
  split at h
  · cases h
  · split at h
    · cases h
    · split at h
      · cases h
        exact (writeItems_ran ‹_›).trans (ran_returnValue p _ _)
      · cases h

theorem ran_setOptIn (p : PortId) (b : Bool) (s : State) : Ran p s (setOptIn p b s) where
  evolves := .setLink ⟨[], by simp⟩ (by simp) (fun _ hl =>
    { session := fun x hx => by
        simp only [Option.map_eq_some_iff] at hx
        obtain ⟨y, hy, rfl⟩ := hx
        exact hl.session y hy
      curPayload := hl.curPayload
      curFrame := hl.curFrame
      perOp := hl.perOp })
  idle := fun h => by simpa [setOptIn, Link.busy] using h

theorem execSetAllowUnstable_ran {p : PortId} {b : Bool} {s t : State}
    (h : execSetAllowUnstable p b s = .next t) : Ran p s t := by
  unfold execSetAllowUnstable at h
  split at h
  · cases h
  · split at h <;> cases h
    · exact ran_raiseError p _ _
    · exact (ran_setOptIn p b s).trans (ran_returnValue p _ _)

/-! ## The transport -/

theorem ran_ioFailed (p : PortId) (s : State) : Ran p s (teardown p s.drawIo.2) :=
  ⟨evolves_ioFailed p s, fun _ => by simp [Link.busy]⟩

theorem ran_rxFlush_failed {p : PortId} {s t : State} (h : rxFlush p s = .failed t) : Ran p s t := by
  rcases rxFlush_cases p s with ⟨_, e⟩ | ⟨_, e⟩ <;> rw [e] at h <;> cases h
  exact ran_ioFailed p s

theorem ran_rxFlush_ok {p : PortId} {s t : State} (h : rxFlush p s = .ok t) : Ran p s t := by
  refine ⟨evolves_rxFlush_ok h, fun hb => ?_⟩
  rcases rxFlush_cases p s with ⟨_, e⟩ | ⟨_, e⟩ <;> rw [e] at h <;> cases h
  simpa [Link.busy] using hb

theorem ran_txPut_failed {p : PortId} {bytes : Bytes} {s t : State} (h : txPut p bytes s = .failed t) :
    Ran p s t := by
  rcases txPut_cases p bytes s with ⟨_, e⟩ | ⟨_, e⟩ <;> rw [e] at h <;> cases h
  exact ran_ioFailed p s

theorem ran_txPut_ok {p : PortId} {bytes : Bytes} {s t : State} (h : txPut p bytes s = .ok t) : Ran p s t := by
  refine ⟨evolves_txPut_ok h, fun hb => ?_⟩
  rcases txPut_cases p bytes s with ⟨_, e⟩ | ⟨_, e⟩ <;> rw [e] at h <;> cases h
  simpa [Link.busy] using hb

theorem ran_rxTake_failed {p : PortId} {s t : State} (h : rxTake p s = .failed t) : Ran p s t := by
  rcases rxTake_cases p s with ⟨_, e⟩ | ⟨_, _, e⟩ | ⟨b', rest, _, _, e⟩ <;> rw [e] at h <;> cases h
  exact ran_ioFailed p s

theorem ran_rxTake_byte {p : PortId} {b : Byte} {s t : State} (h : rxTake p s = .byte b t) : Ran p s t := by
  refine ⟨evolves_rxTake_byte h, fun hb => ?_⟩
  rcases rxTake_cases p s with ⟨_, e⟩ | ⟨_, _, e⟩ | ⟨b', rest, _, _, e⟩ <;> rw [e] at h <;> cases h
  simpa [Link.busy] using hb

theorem ran_rxTake_empty {p : PortId} {s t : State} (h : rxTake p s = .empty t) : Ran p s t := by
  refine ⟨evolves_rxTake_empty h, fun hb => ?_⟩
  rcases rxTake_cases p s with ⟨_, e⟩ | ⟨_, _, e⟩ | ⟨b', rest, _, _, e⟩ <;> rw [e] at h <;> cases h
  exact hb

theorem execResetInput_ran {p : PortId} {s t : State} (h : execResetInput p s = .next t) : Ran p s t := by
  unfold execResetInput at h
  split at h
  · cases h
  split at h
  · cases h
    exact ran_raiseError p _ _
  · split at h <;> cases h
    · exact (ran_rxFlush_failed ‹_›).trans (ran_raiseError p _ _)
    · exact (ran_rxFlush_ok ‹_›).trans (ran_returnValue p _ _)

theorem execTxPut_ran {p : PortId} {bytes : Bytes} {s t : State} (h : execTxPut p bytes s = .next t) :
    Ran p s t := by
  unfold execTxPut at h
  split at h
  · cases h
  split at h
  · cases h
    exact ran_raiseError p _ _
  · split at h <;> cases h
    · exact (ran_txPut_failed ‹_›).trans (ran_raiseError p _ _)
    · exact (ran_txPut_ok ‹_›).trans (ran_returnValue p _ _)

theorem execRxTake_ran {p : PortId} {s t : State} (h : execRxTake p s = .next t) : Ran p s t := by
  unfold execRxTake at h
  split at h
  · cases h
  split at h
  · cases h
    exact ran_raiseError p _ _
  · split at h <;> cases h
    · exact (ran_rxTake_failed ‹_›).trans (ran_raiseError p _ _)
    · exact (ran_rxTake_byte ‹_›).trans (ran_returnValue p _ _)
    · exact (ran_rxTake_empty ‹_›).trans (ran_returnValue p _ _)

theorem link_closeSession (p q : PortId) (s : State) :
    (closeSession p s).link q = if q = p then { s.link p with session := none, rx := [] } else s.link q := by
  by_cases hq : q = p
  · subst hq
    simp
  · rw [if_neg hq, link_closeSession_other p s hq]

theorem ran_closeSession (p : PortId) (s : State) : Ran p s (closeSession p s) where
  evolves :=
    { cfg := rfl
      requests := rfl
      now := Nat.le_refl _
      tx := ⟨[], by simp⟩
      arrivals := arrivals_none rfl (fun q hq => by simp [link_closeSession, hq])
      heldElse := fun q hq => by simp [closeSession, mem_dropPort, hq]
      coherent := fun h =>
        { cfg := h.cfg
          links := linksWf_putLink p _ h.links
          held := rising_dropPort p h.held
          live := fun q => by
            by_cases hq : q = p
            · subst hq
              rw [link_closeSession, if_pos rfl]
              simp [closeSession, mem_dropPort]
            · rw [link_closeSession, if_neg hq, ← h.live q]
              simp [closeSession, mem_dropPort, hq]
          dec := h.dec
          port := fun q => by
            have hp := h.port q
            rw [link_closeSession]
            split
            · rename_i hq
              subst hq
              exact ⟨fun x hx => by simp at hx, hp.curPayload, hp.curFrame, hp.perOp⟩
            · exact hp } }
  idle := fun h => by simpa [link_closeSession, Link.busy] using h

theorem execDisconnect_ran {p : PortId} {s t : State} (h : execDisconnect p s = .next t) : Ran p s t := by
  unfold execDisconnect at h
  split at h
  · cases h
  · split at h <;> cases h
    · exact ran_returnValue p _ _
    · exact (ran_closeSession p s).trans (ran_returnValue p _ _)

theorem link_openSession (p q : PortId) (s : State) :
    (openSession p s).link q =
      if q = p then { s.link p with session := some (newSession s.cfg p) } else s.link q := by
  by_cases hq : q = p
  · subst hq
    simp
  · rw [if_neg hq, link_openSession_other p s hq]

theorem ran_openSession (p : PortId) (s : State) : Ran p s (openSession p s) where
  evolves :=
    { cfg := rfl
      requests := rfl
      now := Nat.le_refl _
      tx := ⟨[], by simp⟩
      arrivals := arrivals_none rfl (fun q hq => by simp [link_openSession, hq])
      heldElse := fun q hq => by simp [openSession, mem_holdPort, hq]
      coherent := fun h =>
        { cfg := h.cfg
          links := linksWf_putLink p { s.link p with session := some (newSession s.cfg p) } h.links
          held := rising_holdPort p h.held
          live := fun q => by
            by_cases hq : q = p
            · subst hq
              rw [link_openSession, if_pos rfl]
              simp [openSession, mem_holdPort]
            · rw [link_openSession, if_neg hq, ← h.live q]
              simp [openSession, mem_holdPort, hq]
          dec := h.dec
          port := fun q => by
            have hp := h.port q
            rw [link_openSession]
            split
            · rename_i hq
              subst hq
              refine ⟨fun x hx => ?_, hp.curPayload, hp.curFrame, hp.perOp⟩
              simp only [Option.some.injEq] at hx
              subst hx
              exact ⟨rfl, rfl, rfl, rfl, rfl⟩
            · exact hp } }
  idle := fun h => by simpa [link_openSession, Link.busy] using h

theorem ran_readyLink (p : PortId) (s : State) : Ran p s (readyLink p s) where
  evolves := .setLink ⟨[], by simp⟩ rfl (fun _ hl => hl.of_same rfl rfl rfl rfl)
  idle := fun _ => by simp [readyLink, Link.busy]

theorem finishConnect_ran {p : PortId} {s t : State} (h : finishConnect p s = .next t) : Ran p s t := by
  unfold finishConnect at h
  split at h <;> cases h
  · exact (ran_openSession p s).trans ((ran_rxFlush_failed ‹_›).trans (ran_raiseError p _ _))
  · refine (ran_openSession p s).trans ((ran_rxFlush_ok ‹_›).trans ?_)
    refine ⟨?_, fun _ => ?_⟩
    · exact (evolves_waitUntil p _ _).trans
        ((ran_readyLink p _).evolves.trans (evolves_returnValue p _ _))
    · simp [readyLink, Link.busy]

theorem execConnect_ran {p : PortId} {s t : State} (h : execConnect p s = .next t) : Ran p s t := by
  unfold execConnect at h
  split at h
  · cases h
  · split at h
    · cases h
      exact ran_raiseError p _ _
    · split at h
      · cases h
        exact Ran.trans ⟨evolves_drawOpen p s, id⟩ (ran_raiseError p _ _)
      · split at h
        · cases h
          exact Ran.trans ⟨(evolves_drawOpen p s).trans (evolves_drawLines p _), id⟩ (ran_raiseError p _ _)
        · exact Ran.trans ⟨(evolves_drawOpen p s).trans (evolves_drawLines p _), id⟩ (finishConnect_ran h)

/-! ## The operations on no port -/

/-- An operation on no port: the records of the ports and the ports held are kept, no wait is taken, time stands, and
the decoder registers stay safe. -/
structure RanNowhere (s t : State) : Prop where
  cfg       : t.cfg = s.cfg
  requests  : t.requests = s.requests
  now       : t.now = s.now
  links     : t.links = s.links
  portsHeld : t.portsHeld = s.portsHeld
  waits     : t.env.waits = s.env.waits
  dec       : DecSafe s.dec → DecSafe t.dec

theorem RanNowhere.ran {s t : State} (h : RanNowhere s t) (p : PortId) : Ran p s t where
  evolves := .of_fields h.cfg h.requests (by rw [h.now]) h.links h.portsHeld h.waits h.dec
  idle := fun hb => by rw [link_of_links_eq h.links]; exact hb

theorem execCrcValue_ran {form : CrcReadForm} {s t : State} (h : execCrcValue form s = .next t) :
    RanNowhere s t := by
  cases form <;> cases h <;> exact ⟨rfl, rfl, rfl, rfl, rfl, rfl, id⟩

theorem execEncode_ran {command : Byte} {payload : Bytes} {s t : State}
    (h : execEncode command payload s = .next t) : RanNowhere s t := by
  unfold execEncode at h
  split at h <;> cases h
  exact ⟨rfl, rfl, rfl, rfl, rfl, rfl, id⟩

theorem execDecode_ran {bytes : Bytes} {s t : State} (h : execDecode bytes s = .next t) : RanNowhere s t := by
  cases h
  exact ⟨rfl, rfl, rfl, rfl, rfl, rfl, fun _ => decSafe_decEnd (decSafe_decFeed _ _ decSafe_start)⟩

theorem execDecStep_ran {op : DecOp} {s t : State} (h : execDecStep op s = .next t) : RanNowhere s t := by
  cases op <;> cases h
  · exact ⟨rfl, rfl, rfl, rfl, rfl, rfl, fun _ => decSafe_start⟩
  · exact ⟨rfl, rfl, rfl, rfl, rfl, rfl, decSafe_decByte _ _⟩
  · exact ⟨rfl, rfl, rfl, rfl, rfl, rfl, decSafe_decEnd⟩

theorem execDecodeChannel_ran {bytes : Bytes} {s t : State} (h : execDecodeChannel bytes s = .next t) :
    RanNowhere s t := by
  unfold execDecodeChannel at h
  split at h <;> cases h
  exact ⟨rfl, rfl, rfl, rfl, rfl, rfl, id⟩

end Sys2Proof.Machine
end

