-- ==== Sys2Proof/Laws/Waits.lean ====
section
/-!
SUPPORT. What waiting does, said once: the engine takes some of the environment's waits in their order, `now`
advances, every port's `rx` gains the bytes that came for it, and nothing else changes (10_state.md R41, R44).
-/

namespace Sys2Proof.Machine

/-- From `s` to `s'` the engine only waited, and took the first `k` waits of the environment. -/
structure Waited (k : Nat) (s s' : State) : Prop where
  cfg       : s'.cfg = s.cfg
  crcReg    : s'.crcReg = s.crcReg
  dec       : s'.dec = s.dec
  portsHeld : s'.portsHeld = s.portsHeld
  requests  : s'.requests = s.requests
  ret       : s'.ret = s.ret
  env       : s'.env = { s.env with waits := s.env.waits.drop k }
  now       : s.now ≤ s'.now
  link      : ∀ q, s'.link q = { s.link q with rx := (s.link q).rx ++ bytesIn q (s.env.waits.take k) }

theorem Waited.refl (s : State) : Waited 0 s s where
  cfg := rfl
  crcReg := rfl
  dec := rfl
  portsHeld := rfl
  requests := rfl
  ret := rfl
  env := rfl
  now := Nat.le_refl _
  link := fun q => by simp

theorem Waited.trans {j k : Nat} {a b c : State} (h : Waited j a b) (g : Waited k b c) : Waited (j + k) a c where
  cfg := g.cfg.trans h.cfg
  crcReg := g.crcReg.trans h.crcReg
  dec := g.dec.trans h.dec
  portsHeld := g.portsHeld.trans h.portsHeld
  requests := g.requests.trans h.requests
  ret := g.ret.trans h.ret
  env := by rw [g.env, h.env, List.drop_drop]
  now := Nat.le_trans h.now g.now
  link := fun q => by
    rw [g.link, h.link, h.env]
    simp only [List.append_assoc, ← bytesIn_append, ← List.take_add]

/-- One wait: the next of the environment's, or, when none is listed, until `target`. -/
theorem waited_waitStep (target : Nat) (s : State) :
    (s.env.waits = [] ∧ waitStep target s = { s with now := max s.now target }) ∨
    (∃ w ws, s.env.waits = w :: ws ∧ Waited 1 s (waitStep target s) ∧
      (waitStep target s).now = s.now + w.dt) := by
  unfold waitStep
  cases hw : s.env.waits with
  | nil => exact .inl ⟨rfl, rfl⟩
  | cons w ws =>
    obtain ⟨h1, h2, h3, h4, h5, h6, h7, h8⟩ := applyWait_fields w { s with env := { s.env with waits := ws } }
    refine .inr ⟨w, ws, rfl, ⟨h1, h2, h3, h4, h6, h8, ?_, ?_, fun q => ?_⟩, h5⟩
    · simp only [h7, hw, List.drop_one, List.tail_cons]
    · exact Nat.le_trans (Nat.le_add_right _ _) (Nat.le_of_eq h5.symm)
    · rw [link_applyWait, hw]
      simp only [bytesIn, List.take_succ_cons, List.take_zero, List.flatMap_cons, List.flatMap_nil,
        List.append_nil]
      rfl

theorem waited_setNow {s : State} {t : Nat} (h : s.now ≤ t) : Waited 0 s { s with now := t } where
  cfg := rfl
  crcReg := rfl
  dec := rfl
  portsHeld := rfl
  requests := rfl
  ret := rfl
  env := rfl
  now := h
  link := fun q => by
    rw [List.take_zero, bytesIn_nil, List.append_nil]
    rfl

theorem waitLoop_spec (target n : Nat) (s : State) (h : s.env.waits.length < n) :
    ∃ k, Waited k s (waitLoop target n s) ∧ target ≤ (waitLoop target n s).now := by
  induction n generalizing s with
  | zero => omega
  | succ n ih =>
    unfold waitLoop
    by_cases ht : target ≤ s.now
    · rw [if_pos ht]
      exact ⟨0, .refl s, ht⟩
    · rw [if_neg ht]
      rcases waited_waitStep target s with ⟨_, e⟩ | ⟨w, ws, hw, g, _⟩
      · have he : waitLoop target n { s with now := max s.now target } = { s with now := max s.now target } := by
          cases n with
          | zero => rfl
          | succ n =>
            rw [waitLoop, if_pos]
            exact Nat.le_max_right _ _
        rw [e, he]
        exact ⟨0, waited_setNow (Nat.le_max_left _ _), Nat.le_max_right _ _⟩
      · have hl : (waitStep target s).env.waits.length < n := by
          rw [g.env, hw]
          rw [hw] at h
          simpa using h
        obtain ⟨k, g', hn⟩ := ih _ hl
        exact ⟨1 + k, g.trans g', hn⟩

/-- Waiting for `target` ends at `target` or later. -/
theorem waitUntil_spec (target : Nat) (s : State) :
    ∃ k, Waited k s (waitUntil target s) ∧ target ≤ (waitUntil target s).now :=
  waitLoop_spec target _ s (Nat.lt_succ_self _)

end Sys2Proof.Machine
end

