-- ==== Sys2Proof/Laws/Inputs.lean ====
section
/-!
SUPPORT. What SEND takes of its inputs, said once: waits of the environment in their order, bytes of its port's `rx`
from the front, I/O draws, and no other draw; and that of the rate-limit registers only the gate writes
(43_dispatcher.md R196, R201, R202, R212).
-/

namespace Sys2Proof.Machine

/-- From `s` to `s'` the engine took inputs for port `p`, whose unread bytes were `b`. -/
structure Drains (p : PortId) (b : Bytes) (s s' : State) : Prop where
  waits    : ∃ n, s'.env.waits = s.env.waits.drop n ∧
    (s'.link p).rx <:+ b ++ bytesIn p (s.env.waits.take n)
  cancels  : s'.env.cancels = s.env.cancels
  unstable : (s'.link p).unstableAt = (s.link p).unstableAt ∧
    (s'.link p).unstableAtOp = (s.link p).unstableAtOp

/-- No wait was taken, and the unread bytes are a rest of what they were. -/
theorem Drains.still {p : PortId} {b : Bytes} {s s' : State} (hw : s'.env.waits = s.env.waits)
    (hr : (s'.link p).rx <:+ b) (hc : s'.env.cancels = s.env.cancels)
    (hu : (s'.link p).unstableAt = (s.link p).unstableAt ∧
      (s'.link p).unstableAtOp = (s.link p).unstableAtOp) : Drains p b s s' where
  waits := ⟨0, by simp [hw], by simpa using hr⟩
  cancels := hc
  unstable := hu

theorem Drains.refl (p : PortId) (s : State) : Drains p (s.link p).rx s s :=
  .still rfl (List.suffix_refl _) rfl ⟨rfl, rfl⟩

theorem Drains.trans {p : PortId} {b : Bytes} {s t u : State} (h : Drains p b s t)
    (g : Drains p (t.link p).rx t u) : Drains p b s u where
  waits := by
    obtain ⟨n, hn, hr⟩ := h.waits
    obtain ⟨m, gm, gr⟩ := g.waits
    refine ⟨n + m, by rw [gm, hn, List.drop_drop], gr.trans ?_⟩
    rw [hn, List.take_add, bytesIn_append, ← List.append_assoc]
    obtain ⟨x, hx⟩ := hr
    exact ⟨x, by rw [← hx, List.append_assoc]⟩
  cancels := g.cancels.trans h.cancels
  unstable := ⟨g.unstable.1.trans h.unstable.1, g.unstable.2.trans h.unstable.2⟩

theorem drains_waitStep (p : PortId) (target : Nat) (s : State) :
    Drains p (s.link p).rx s (waitStep target s) := by
  rcases waited_waitStep target s with ⟨_, e⟩ | ⟨w, ws, _, g, _⟩
  · rw [e]
    exact .still rfl (List.suffix_refl _) rfl ⟨rfl, rfl⟩
  · exact ⟨⟨1, by rw [g.env], by rw [g.link]⟩, by rw [g.env], by rw [g.link]; exact ⟨rfl, rfl⟩⟩

theorem drains_retryPause (p : PortId) (s : State) : Drains p (s.link p).rx s (retryPause s) := by
  obtain ⟨k, g, _⟩ := waitUntil_spec (s.now + s.cfg.retryDelay) s
  exact ⟨⟨k, by rw [retryPause, g.env], by rw [retryPause, g.link]⟩, by rw [retryPause, g.env],
    by rw [retryPause, g.link]; exact ⟨rfl, rfl⟩⟩

theorem drains_torn (p : PortId) (s t : State) (hw : t.env.waits = s.env.waits)
    (hc : t.env.cancels = s.env.cancels) (hu : (t.link p).unstableAt = (s.link p).unstableAt ∧
      (t.link p).unstableAtOp = (s.link p).unstableAtOp) (b : Bytes) : Drains p b s (teardown p t) :=
  .still hw (by simp) hc (by simpa using hu)

theorem receiveLoop_drains (p : PortId) (n : Nat) (s : State) :
    (∀ s', receiveLoop p n s = .done s' → Drains p (s.link p).rx s s') ∧
    (∀ s', receiveLoop p n s = .ioFailed s' → Drains p (s.link p).rx s s') := by
  induction n generalizing s with
  | zero =>
    refine ⟨fun s' h => ?_, fun s' h => by simp [receiveLoop] at h⟩
    simp only [receiveLoop, RecvResult.done.injEq] at h
    subst h
    exact .still rfl (List.suffix_refl _) rfl ⟨rfl, rfl⟩
  | succ n ih =>
    unfold receiveLoop
    by_cases hd : s.dec.phase = .done
    · simp only [hd, if_true]
      refine ⟨fun s' h => ?_, fun s' h => by simp at h⟩
      simp only [RecvResult.done.injEq] at h
      subst h
      exact .refl p s
    · simp only [hd, if_false]
      rcases rxTake_cases p s with ⟨_, e⟩ | ⟨_, _, e⟩ | ⟨b, rest, _, hr, e⟩ <;> simp only [e]
      · refine ⟨fun s' h => by simp at h, fun s' h => ?_⟩
        simp only [RecvResult.ioFailed.injEq] at h
        subst h
        exact drains_torn p s s.drawIo.2 rfl rfl ⟨rfl, rfl⟩ _
      · have h0 : Drains p (s.link p).rx s s.drawIo.2 := .still rfl (List.suffix_refl _) rfl ⟨rfl, rfl⟩
        by_cases hdl : (s.drawIo.2.link p).deadline ≤ s.drawIo.2.now
        · rw [if_pos hdl]
          refine ⟨fun s' h => ?_, fun s' h => by simp at h⟩
          simp only [RecvResult.done.injEq] at h
          subst h
          exact .still rfl (List.suffix_refl _) rfl ⟨rfl, rfl⟩
        · rw [if_neg hdl]
          have h1 := h0.trans (drains_waitStep p (s.drawIo.2.link p).deadline s.drawIo.2)
          exact ⟨fun s' h => h1.trans ((ih _).1 s' h), fun s' h => h1.trans ((ih _).2 s' h)⟩
      · have h1 : Drains p (s.link p).rx s ((s.drawIo.2.setLink p
            { s.link p with rx := rest, lastRaw := (s.link p).lastRaw ++ [b] }).decTake b) :=
          .still rfl (by simp [hr]) rfl (by simp)
        exact ⟨fun s' h => h1.trans ((ih _).1 s' h), fun s' h => h1.trans ((ih _).2 s' h)⟩

theorem drains_classify {p : PortId} {s : State} :
    (∀ q s', classify p s = .decoded q s' → Drains p (s.link p).rx s s') ∧
    (∀ s', classify p s = .failed s' → Drains p (s.link p).rx s s') ∧ ∀ s', classify p s ≠ .ioFailed s' := by
  rcases classify_cases p s with ⟨q, n, _, _, hc⟩ | ⟨d, c, hc⟩ <;> simp only [hc]
  · refine ⟨fun q' s' h => ?_, fun s' h => by simp at h, fun s' h => by simp at h⟩
    simp only [AttemptResult.decoded.injEq] at h
    rw [← h.2, passAttempt_eq]
    exact .still rfl (by simp) rfl (by simp)
  · refine ⟨fun q' s' h => by simp at h, fun s' h => ?_, fun s' h => by simp at h⟩
    simp only [AttemptResult.failed.injEq] at h
    rw [← h, failAttempt_eq]
    exact .still rfl (by simp) rfl (by simp)

/-- An attempt begins by discarding the unread bytes: what it leaves unread arrived during it. -/
theorem attempt_drains (p : PortId) (s : State) :
    match attempt p s with
    | .decoded _ s' => Drains p [] s s'
    | .failed s' => Drains p [] s s'
    | .ioFailed s' => Drains p [] s s' := by
  unfold attempt
  rcases rxFlush_cases p (countAttempt p s) with ⟨_, e⟩ | ⟨_, e⟩ <;> simp only [e]
  · exact drains_torn p s (countAttempt p s).drawIo.2 rfl rfl (by simp) _
  · generalize hs1 : ((countAttempt p s).drawIo.2.setLink p
      { (countAttempt p s).link p with rx := [] }).decBegin = s1
    have h1 : Drains p [] s s1 := by
      subst hs1
      exact .still rfl (by simp) rfl (by simp)
    rcases txPut_cases p (s1.link p).curFrame s1 with ⟨_, f⟩ | ⟨_, f⟩ <;> simp only [f]
    · exact h1.trans (drains_torn p s1 s1.drawIo.2 rfl rfl ⟨rfl, rfl⟩ _)
    · generalize hs2 : armDeadline p (s1.drawIo.2.setLink p
        { s1.link p with tx := (s1.link p).tx ++ (s1.link p).curFrame }) = s2
      have h2 : Drains p [] s s2 := by
        refine h1.trans ?_
        subst hs2
        exact .still rfl (by simp) rfl (by simp)
      obtain ⟨hdone, hfail⟩ := receiveLoop_drains p (receiveFuel p s2) s2
      cases hr : receive p s2 with
      | ioFailed s3 => exact h2.trans (hfail s3 hr)
      | done s3 =>
        have h3 := h2.trans (hdone s3 hr)
        obtain ⟨c1, c2, c3⟩ := drains_classify (p := p) (s := s3)
        simp only []
        cases hc : classify p s3 <;> simp only []
        · exact h3.trans (c1 _ _ hc)
        · exact h3.trans (c2 _ hc)
        · exact absurd hc (c3 _)

theorem drains_goIdle (p : PortId) (s : State) : Drains p (s.link p).rx s (goIdle p s) := by
  unfold goIdle
  split
  · exact .still rfl (by simp) rfl (by simp)
  · exact .refl p s

/-- Before the first attempt's flush nothing is taken; after it the unread bytes are the call's own. -/
theorem tryAttempts_drains (p : PortId) (n : Nat) (s : State) :
    (∀ q s', tryAttempts p n s = .packet q s' → Drains p [] s s') ∧
    (∀ e s', tryAttempts p n s = .error e s' → Drains p [] s s') := by
  induction n generalizing s with
  | zero =>
    have ha := attempt_drains p s
    unfold tryAttempts
    cases h : attempt p s <;> rw [h] at ha <;> simp only []
    · refine ⟨fun q s' e => ?_, fun e s' e => by simp at e⟩
      simp only [Reply.packet.injEq] at e
      rw [← e.2]
      exact ha.trans (drains_goIdle p _)
    · refine ⟨fun q s' e => by simp at e, fun e s' e => ?_⟩
      simp only [Reply.error.injEq] at e
      rw [← e.2]
      exact ha.trans (drains_goIdle p _)
    · refine ⟨fun q s' e => by simp at e, fun e s' e => ?_⟩
      simp only [Reply.error.injEq] at e
      rw [← e.2]
      exact ha
  | succ n ih =>
    have ha := attempt_drains p s
    unfold tryAttempts
    cases h : attempt p s <;> rw [h] at ha <;> simp only []
    · refine ⟨fun q s' e => ?_, fun e s' e => by simp at e⟩
      simp only [Reply.packet.injEq] at e
      rw [← e.2]
      exact ha.trans (drains_goIdle p _)
    · rename_i s1
      have hb := ha.trans (drains_retryPause p s1)
      have widen : ∀ s', Drains p [] (retryPause s1) s' → Drains p [] s s' := fun s' g => by
        refine hb.trans ⟨?_, g.cancels, g.unstable⟩
        obtain ⟨m, hm, hr⟩ := g.waits
        exact ⟨m, hm, hr.trans (by simp)⟩
      exact ⟨fun q s' e => widen s' ((ih _).1 q s' e), fun e s' h => widen s' ((ih _).2 e s' h)⟩
    · refine ⟨fun q s' e => by simp at e, fun e s' e => ?_⟩
      simp only [Reply.error.injEq] at e
      rw [← e.2]
      exact ha

end Sys2Proof.Machine
end

