-- ==== Sys2Proof/Laws/PerInstr.lean ====
section
/-!
SUPPORT. The statement made for every operation, one lemma for each constructor: which operations have bits on the
wire, and the bounds of their frame (30_encoding.md R90, R91, R101).
-/

namespace Sys2Proof.Laws.EncodedFrame

open Sys2Proof

/-- The encoder gives an operation either no bits, or a frame of 8 to 260 bytes that begins with the magic; and a
frame for every well-formed operation it gives one at all. -/
def Statement (i : Instr) : Prop :=
  ∀ cfg : Config, cfg.wf = true →
    (∀ bytes, encode cfg i = some bytes → 8 ≤ bytes.length ∧ bytes.length ≤ 260 ∧ bytes.take 4 = cfg.magic) ∧
    ((∃ cfg', (encode cfg' i).isSome = true) → i.wf cfg = true → (encode cfg i).isSome = true)

theorem of_command {i : Instr} {op : Config → Byte} {payload : Bytes}
    (he : ∀ cfg, encode cfg i = encodeCommand cfg (op cfg) payload)
    (hw : ∀ cfg : Config, cfg.wf = true → i.wf cfg = true → payload.length ≤ 252) : Statement i := by
  refine fun cfg hc => ⟨fun bytes h => ?_, fun _ hi => ?_⟩
  · rw [he] at h
    obtain ⟨h1, h2, h3⟩ := encodeCommand_length (magic_length hc) h
    exact ⟨by omega, by omega, h3⟩
  · rw [he, encodeCommand, if_pos (payloadWf_iff.2 (hw cfg hc hi))]
    rfl

theorem of_none {i : Instr} (he : ∀ cfg, encode cfg i = none) : Statement i := by
  refine fun cfg _ => ⟨fun bytes h => ?_, fun ⟨cfg', h⟩ _ => ?_⟩
  · rw [he] at h
    cases h
  · rw [he] at h
    cases h

theorem payload_of_wf {t : Nat} {payload : Bytes} (h : (timeoutWf t && payloadWf payload) = true) :
    payload.length ≤ 252 := by
  rw [Bool.and_eq_true] at h
  exact payloadWf_iff.1 h.2

theorem ptt (p : PortId) (t : Nat) (payload : Bytes) : Statement (.ptt p t payload) :=
  of_command (fun _ => rfl) (fun _ _ h => payload_of_wf h)

theorem modeSet (p : PortId) (t : Nat) (payload : Bytes) : Statement (.modeSet p t payload) :=
  of_command (fun _ => rfl) (fun _ _ h => payload_of_wf h)

theorem statusSync (p : PortId) (t : Nat) (payload : Bytes) : Statement (.statusSync p t payload) :=
  of_command (fun _ => rfl) (fun _ _ h => payload_of_wf h)

theorem equipId (p : PortId) (t : Nat) (payload : Bytes) : Statement (.equipId p t payload) :=
  of_command (fun _ => rfl) (fun _ _ h => payload_of_wf h)

theorem powerSet (p : PortId) (t : Nat) (payload : Bytes) : Statement (.powerSet p t payload) :=
  of_command (fun _ => rfl) (fun _ _ h => payload_of_wf h)

theorem rxoffSet (p : PortId) (t : Nat) (payload : Bytes) : Statement (.rxoffSet p t payload) :=
  of_command (fun _ => rfl) (fun _ _ h => payload_of_wf h)

theorem meterSync (p : PortId) (t : Nat) (payload : Bytes) : Statement (.meterSync p t payload) :=
  of_command (fun _ => rfl) (fun _ _ h => payload_of_wf h)

theorem paramSync (p : PortId) (t : Nat) (payload : Bytes) : Statement (.paramSync p t payload) :=
  of_command (fun _ => rfl) (fun _ _ h => payload_of_wf h)

theorem spectrum (p : PortId) (t : Nat) (payload : Bytes) : Statement (.spectrum p t payload) :=
  of_command (fun _ => rfl) (fun _ _ h => payload_of_wf h)

theorem chWrite (p : PortId) (t : Nat) (payload : Bytes) : Statement (.chWrite p t payload) :=
  of_command (fun _ => rfl) (fun cfg hc h => by
    rw [Instr.wf, Bool.and_eq_true] at h
    rw [recordBytesWf_iff.1 h.2]
    exact recordLen_le hc)

theorem chRead (p : PortId) (t : Nat) (index : Word16) : Statement (.chRead p t index) :=
  of_command (fun _ => rfl) (fun _ _ _ => by simp [Sys2Proof.Machine.be16])

theorem crcInit : Statement (.crcInit) := of_none (fun _ => rfl)

theorem crcByte (b : Byte) : Statement (.crcByte b) := of_none (fun _ => rfl)

theorem crcBit (d : Bool) : Statement (.crcBit d) := of_none (fun _ => rfl)

theorem crc16 (bytes : Bytes) : Statement (.crc16 bytes) := of_none (fun _ => rfl)

theorem crcValue (form : CrcReadForm) : Statement (.crcValue form) := of_none (fun _ => rfl)

theorem crcCheck (bytes : Bytes) (received : Word16) : Statement (.crcCheck bytes received) := of_none (fun _ => rfl)

theorem encode (command : Byte) (payload : Bytes) : Statement (.encode command payload) := of_none (fun _ => rfl)

theorem decode (bytes : Bytes) : Statement (.decode bytes) := of_none (fun _ => rfl)

theorem decStep (op : DecOp) : Statement (.decStep op) := of_none (fun _ => rfl)

theorem connect (p : PortId) : Statement (.connect p) := of_none (fun _ => rfl)

theorem disconnect (p : PortId) : Statement (.disconnect p) := of_none (fun _ => rfl)

theorem resetInput (p : PortId) : Statement (.resetInput p) := of_none (fun _ => rfl)

theorem txPut (p : PortId) (bytes : Bytes) : Statement (.txPut p bytes) := of_none (fun _ => rfl)

theorem rxTake (p : PortId) : Statement (.rxTake p) := of_none (fun _ => rfl)

theorem send (p : PortId) (command : Byte) (payload : Bytes) (t : Nat) (allowBlocked : Bool) : Statement (.send p command payload t allowBlocked) :=
  of_none (fun _ => rfl)

theorem encodeChannel (record : ChannelRecord) : Statement (.encodeChannel record) := of_none (fun _ => rfl)

theorem encodeChannelStrict (record : ChannelRecord) : Statement (.encodeChannelStrict record) :=
  of_none (fun _ => rfl)

theorem decodeChannel (bytes : Bytes) : Statement (.decodeChannel bytes) := of_none (fun _ => rfl)

theorem freqToIndex (freqTenthsHz : Nat) : Statement (.freqToIndex freqTenthsHz) := of_none (fun _ => rfl)

theorem indexToFreq (index : Nat) : Statement (.indexToFreq index) := of_none (fun _ => rfl)

theorem readChannel (p : PortId) (index : Word16) (t : Nat) : Statement (.readChannel p index t) :=
  of_none (fun _ => rfl)

theorem writeChannel (p : PortId) (record : ChannelRecord) (t : Nat) (allowBlocked : Bool) : Statement (.writeChannel p record t allowBlocked) :=
  of_none (fun _ => rfl)

theorem queryStatus (p : PortId) (t : Nat) : Statement (.queryStatus p t) := of_none (fun _ => rfl)

theorem setAllowUnstable (p : PortId) (b : Bool) : Statement (.setAllowUnstable p b) := of_none (fun _ => rfl)

theorem queryMeters (p : PortId) (t : Nat) : Statement (.queryMeters p t) := of_none (fun _ => rfl)

theorem queryParams (p : PortId) (t : Nat) : Statement (.queryParams p t) := of_none (fun _ => rfl)

theorem readAll (p : PortId) (t : Nat) (indices : List Word16) : Statement (.readAll p t indices) :=
  of_none (fun _ => rfl)

theorem writeAll (p : PortId) (t : Nat) (records : List ChannelRecord) : Statement (.writeAll p t records) :=
  of_none (fun _ => rfl)

end Sys2Proof.Laws.EncodedFrame
end

