-- ==== Sys2Proof/Laws/Receive.lean ====
section
/-!
SUPPORT. The receive loop and the decoder (43_dispatcher.md R202): what the loop leaves in the decoder registers and
in `last_raw`, and how it takes bytes that wait in `rx`.
-/

namespace Sys2Proof.Machine

/-- `s` after the bytes `a` were taken from port `p`, with `b` left in its `rx`. -/
def took (p : PortId) (a b : Bytes) (s : State) : State :=
  { s.setLink p { s.link p with rx := b, lastRaw := (s.link p).lastRaw ++ a } with
    dec := (decFeed s.cfg s.dec s.crcReg a).1, crcReg := (decFeed s.cfg s.dec s.crcReg a).2 }

@[simp] theorem took_link (p : PortId) (a b : Bytes) (s : State) :
    (took p a b s).link p = { s.link p with rx := b, lastRaw := (s.link p).lastRaw ++ a } :=
  link_setLink_same s p _

theorem took_link_other {p q : PortId} (h : q ≠ p) (a b : Bytes) (s : State) :
    (took p a b s).link q = s.link q := link_setLink_other h s _

@[simp] theorem took_cfg (p : PortId) (a b : Bytes) (s : State) : (took p a b s).cfg = s.cfg := rfl
@[simp] theorem took_dec (p : PortId) (a b : Bytes) (s : State) :
    (took p a b s).dec = (decFeed s.cfg s.dec s.crcReg a).1 := rfl
@[simp] theorem took_crcReg (p : PortId) (a b : Bytes) (s : State) :
    (took p a b s).crcReg = (decFeed s.cfg s.dec s.crcReg a).2 := rfl
@[simp] theorem took_env (p : PortId) (a b : Bytes) (s : State) : (took p a b s).env = s.env := rfl
@[simp] theorem took_now (p : PortId) (a b : Bytes) (s : State) : (took p a b s).now = s.now := rfl
@[simp] theorem took_portsHeld (p : PortId) (a b : Bytes) (s : State) :
    (took p a b s).portsHeld = s.portsHeld := rfl
@[simp] theorem took_requests (p : PortId) (a b : Bytes) (s : State) : (took p a b s).requests = s.requests := rfl

/-- The loop takes the bytes `a` that wait in `rx`, one an iteration, when no I/O failure is listed and the decoder
does not finish inside them. -/
theorem receiveLoop_takes (p : PortId) (n : Nat) (a : Bytes) (x : Byte) (b : Bytes) (s : State)
    (hio : s.env.ioFails = []) (hrx : (s.link p).rx = x :: a ++ b)
    (hph : ∀ k ≤ a.length, (decFeed s.cfg s.dec s.crcReg ((x :: a).take k)).1.phase ≠ .done) :
    receiveLoop p (n + (x :: a).length) s = receiveLoop p n (took p (x :: a) b s) := by
  induction a generalizing x s with
  | nil =>
    have h0 : s.dec.phase ≠ .done := by simpa [decFeed] using hph 0 (Nat.le_refl _)
    have hrx' : (s.link p).rx = x :: b := by simpa using hrx
    rw [List.length_singleton, receiveLoop, if_neg h0]
    simp only [rxTake, drawIo_of_nil hio, hrx', Bool.false_eq_true, if_false]
    congr 1
  | cons y a ih =>
    have h0 : s.dec.phase ≠ .done := by simpa [decFeed] using hph 0 (Nat.zero_le _)
    have hrx' : (s.link p).rx = x :: (y :: a ++ b) := by simpa using hrx
    rw [List.length_cons, ← Nat.add_assoc, receiveLoop, if_neg h0]
    simp only [rxTake, drawIo_of_nil hio, hrx', Bool.false_eq_true, if_false]
    rw [ih y]
    · congr 1
      simp only [took, State.decTake, State.setLink, State.link, linkAt_putLink_same, putLink_putLink, decFeed,
        List.append_assoc, List.cons_append, List.nil_append]
    · exact hio
    · simp
    · intro k hk
      exact hph (k + 1) (by simpa using hk)

/-- What the loop leaves when it ends: the bytes taken were appended to `last_raw` and fed to the decoder, which was
not done before the last of them; and it is done, or DEC.END was applied. -/
theorem receiveLoop_fed (p : PortId) (n : Nat) (s s' : State) (h : receiveLoop p n s = .done s') :
    ∃ fed, (s'.link p).lastRaw = (s.link p).lastRaw ++ fed ∧
      (∀ k < fed.length, (decFeed s.cfg s.dec s.crcReg (fed.take k)).1.phase ≠ .done) ∧
      ((s'.dec = (decFeed s.cfg s.dec s.crcReg fed).1 ∧ s'.dec.phase = .done) ∨
        s'.dec = decEnd (decFeed s.cfg s.dec s.crcReg fed).1) := by
  induction n generalizing s with
  | zero =>
    cases h
    exact ⟨[], by simp, by simp, .inr rfl⟩
  | succ n ih =>
    unfold receiveLoop at h
    by_cases hd : s.dec.phase = .done
    · simp only [hd, if_true] at h
      cases h
      exact ⟨[], by simp, by simp, .inl ⟨rfl, hd⟩⟩
    · simp only [hd, if_false] at h
      rcases rxTake_cases p s with ⟨_, e⟩ | ⟨_, _, e⟩ | ⟨b, rest, _, _, e⟩ <;> simp only [e] at h
      · cases h
      · split at h
        · cases h
          exact ⟨[], by simp, by simp, .inr rfl⟩
        · obtain ⟨fed, h1, h2, h3⟩ := ih _ h
          have hraw : ((waitStep (s.drawIo.2.link p).deadline s.drawIo.2).link p).lastRaw = (s.link p).lastRaw ∧
              (waitStep (s.drawIo.2.link p).deadline s.drawIo.2).cfg = s.cfg ∧
              (waitStep (s.drawIo.2.link p).deadline s.drawIo.2).dec = s.dec ∧
              (waitStep (s.drawIo.2.link p).deadline s.drawIo.2).crcReg = s.crcReg := by
            rcases waited_waitStep (s.drawIo.2.link p).deadline s.drawIo.2 with ⟨_, e⟩ | ⟨_, _, _, w, _⟩
            · rw [e]
              exact ⟨rfl, rfl, rfl, rfl⟩
            · exact ⟨by rw [w.link]; rfl, w.cfg, w.dec, w.crcReg⟩
          obtain ⟨e1, e2, e3, e4⟩ := hraw
          rw [e1] at h1
          rw [e2, e3, e4] at h2 h3
          exact ⟨fed, h1, h2, h3⟩
      · obtain ⟨fed, h1, h2, h3⟩ := ih _ h
        refine ⟨b :: fed, by simpa using h1, ?_, h3⟩
        intro k hk
        cases k with
        | zero => simpa [decFeed] using hd
        | succ k => exact h2 k (by simpa using hk)


/-- An attempt up to the receive loop, when no I/O failure is listed (R201). -/
def transmitted (p : PortId) (s : State) : State :=
  { s.setLink p { s.link p with
      attempt := (s.link p).attempt + 1, lastRaw := [], rx := [], tx := (s.link p).tx ++ (s.link p).curFrame,
      deadline := s.now + (s.link p).curTimeout, disp := .sent } with dec := Dec.start }

theorem attempt_transmitted {p : PortId} {s : State} (hio : s.env.ioFails = []) :
    attempt p s = match receive p (transmitted p s) with
      | .ioFailed s3 => .ioFailed s3
      | .done s3 => classify p s3 := by
  have h1 : (countAttempt p s).drawIo = (false, countAttempt p s) := drawIo_of_nil hio
  have e : armDeadline p (((countAttempt p s).setLink p { (countAttempt p s).link p with rx := [] }).decBegin.setLink p
      { ((countAttempt p s).setLink p { (countAttempt p s).link p with rx := [] }).decBegin.link p with
        tx := (((countAttempt p s).setLink p { (countAttempt p s).link p with rx := [] }).decBegin.link p).tx ++
          (((countAttempt p s).setLink p { (countAttempt p s).link p with rx := [] }).decBegin.link p).curFrame }) =
      transmitted p s := by
    simp only [armDeadline, countAttempt, transmitted, State.decBegin, State.setLink, State.link,
      linkAt_putLink_same, putLink_putLink]
  have h2 : ((countAttempt p s).setLink p { (countAttempt p s).link p with rx := [] }).decBegin.drawIo =
      (false, ((countAttempt p s).setLink p { (countAttempt p s).link p with rx := [] }).decBegin) :=
    drawIo_of_nil hio
  simp only [attempt, rxFlush, h1, txPut, h2, Bool.false_eq_true, if_false, e] <;> rfl

end Sys2Proof.Machine
end

