-- ==== Sys2Proof/Laws/Returned.lean ====
section
/-!
SUPPORT. No operation reads the value the last one returned: every part of SEND and of the bulk operations runs alike
whatever `ret` holds, so that a batch is its items one after another (46_host_operations.md R297, R298).
-/

namespace Sys2Proof.Machine

theorem applyWait_ret (w : Wait) (v : RetVal) (s : State) :
    applyWait w (returnValue v s) = returnValue v (applyWait w s) := by
  have arrivals : ∀ (es : List (PortId × Byte)) (s : State),
      es.foldl arriveByte (returnValue v s) = returnValue v (es.foldl arriveByte s) := by
    intro es
    induction es with
    | nil => exact fun s => rfl
    | cons e es ih =>
      intro s
      simp only [List.foldl_cons]
      rw [← ih]
      rfl
  exact arrivals w.arrive { s with now := s.now + w.dt }

theorem waitStep_ret (t : Nat) (v : RetVal) (s : State) :
    waitStep t (returnValue v s) = returnValue v (waitStep t s) := by
  unfold waitStep
  simp only [returnValue_env]
  cases s.env.waits with
  | nil => rfl
  | cons w ws => exact applyWait_ret w v { s with env := { s.env with waits := ws } }

theorem waitLoop_ret (t : Nat) (v : RetVal) (n : Nat) (s : State) :
    waitLoop t n (returnValue v s) = returnValue v (waitLoop t n s) := by
  induction n generalizing s with
  | zero => rfl
  | succ n ih =>
    unfold waitLoop
    show (if t ≤ s.now then _ else _) = _
    split
    · rfl
    · rw [waitStep_ret, ih]

def RecvResult.withRet (v : RetVal) : RecvResult → RecvResult
  | .done s => .done (returnValue v s)
  | .ioFailed s => .ioFailed (returnValue v s)

def AttemptResult.withRet (v : RetVal) : AttemptResult → AttemptResult
  | .decoded q s => .decoded q (returnValue v s)
  | .failed s => .failed (returnValue v s)
  | .ioFailed s => .ioFailed (returnValue v s)

def Reply.withRet (v : RetVal) : Reply → Reply
  | .packet q s => .packet q (returnValue v s)
  | .error e s => .error e (returnValue v s)
  | .refused r => .refused r

def IoResult.withRet (v : RetVal) : IoResult → IoResult
  | .ok s => .ok (returnValue v s)
  | .failed s => .failed (returnValue v s)

def TakeResult.withRet (v : RetVal) : TakeResult → TakeResult
  | .byte b s => .byte b (returnValue v s)
  | .empty s => .empty (returnValue v s)
  | .failed s => .failed (returnValue v s)

theorem drawIo_returnValue (v : RetVal) (s : State) :
    (returnValue v s).drawIo = (s.drawIo.1, returnValue v s.drawIo.2) := rfl

theorem drawCancel_returnValue (v : RetVal) (s : State) :
    (returnValue v s).drawCancel = (s.drawCancel.1, returnValue v s.drawCancel.2) := rfl

theorem rxFlush_ret (p : PortId) (v : RetVal) (s : State) :
    rxFlush p (returnValue v s) = (rxFlush p s).withRet v := by
  unfold rxFlush
  rw [drawIo_returnValue]
  cases s.drawIo.1 <;> rfl

theorem txPut_ret (p : PortId) (bytes : Bytes) (v : RetVal) (s : State) :
    txPut p bytes (returnValue v s) = (txPut p bytes s).withRet v := by
  unfold txPut
  rw [drawIo_returnValue]
  cases s.drawIo.1 <;> rfl

theorem rxTake_ret (p : PortId) (v : RetVal) (s : State) :
    rxTake p (returnValue v s) = (rxTake p s).withRet v := by
  unfold rxTake
  rw [drawIo_returnValue]
  cases s.drawIo.1
  · simp only [link_returnValue]
    cases (s.drawIo.2.link p).rx <;> rfl
  · rfl

theorem receiveLoop_ret (p : PortId) (v : RetVal) (n : Nat) (s : State) :
    receiveLoop p n (returnValue v s) = (receiveLoop p n s).withRet v := by
  induction n generalizing s with
  | zero => rfl
  | succ n ih =>
    unfold receiveLoop
    rw [returnValue_dec, rxTake_ret]
    split
    · rfl
    · cases rxTake p s with
      | failed s1 => rfl
      | byte b s1 => exact ih (s1.decTake b)
      | empty s1 =>
        simp only [TakeResult.withRet, link_returnValue, returnValue_now, waitStep_ret, ih]
        split <;> rfl

theorem classify_ret (p : PortId) (v : RetVal) (s : State) :
    classify p (returnValue v s) = (classify p s).withRet v := by
  unfold classify
  simp only [returnValue_dec, link_returnValue, returnValue_cfg]
  cases s.dec.outcome with
  | error c => simp only []; split <;> (rename_i hh; simp only [hh, if_true, if_false]; rfl)
  | packet q n => simp only []; split <;> (rename_i hh; simp only [hh, if_true, if_false]; rfl)

theorem attempt_ret (p : PortId) (v : RetVal) (s : State) :
    attempt p (returnValue v s) = (attempt p s).withRet v := by
  unfold attempt
  rw [show countAttempt p (returnValue v s) = returnValue v (countAttempt p s) from rfl, rxFlush_ret]
  cases rxFlush p (countAttempt p s) with
  | failed s1 => rfl
  | ok s1 =>
    simp only [IoResult.withRet]
    rw [show (returnValue v s1).decBegin = returnValue v s1.decBegin from rfl, link_returnValue, txPut_ret]
    cases txPut p (s1.decBegin.link p).curFrame s1.decBegin with
    | failed s2 => rfl
    | ok s2 =>
      simp only [IoResult.withRet]
      rw [show armDeadline p (returnValue v s2) = returnValue v (armDeadline p s2) from rfl,
        show receive p (returnValue v (armDeadline p s2)) = (receive p (armDeadline p s2)).withRet v from
          receiveLoop_ret p v _ _]
      cases receive p (armDeadline p s2) with
      | done s3 => exact classify_ret p v s3
      | ioFailed s3 => rfl

theorem goIdle_ret (p : PortId) (v : RetVal) (s : State) :
    goIdle p (returnValue v s) = returnValue v (goIdle p s) := by
  unfold goIdle
  show (if (s.link p).busy then _ else _) = _
  split <;> rfl

theorem tryAttempts_ret (p : PortId) (v : RetVal) (n : Nat) (s : State) :
    tryAttempts p n (returnValue v s) = (tryAttempts p n s).withRet v := by
  induction n generalizing s with
  | zero =>
    unfold tryAttempts; rw [attempt_ret]
    cases attempt p s with
    | decoded q s1 => simp only [AttemptResult.withRet, Reply.withRet, goIdle_ret]
    | failed s1 => simp only [AttemptResult.withRet, Reply.withRet, goIdle_ret]; rfl
    | ioFailed s1 => rfl
  | succ n ih =>
    unfold tryAttempts; rw [attempt_ret]
    cases attempt p s with
    | decoded q s1 => simp only [AttemptResult.withRet, Reply.withRet, goIdle_ret]
    | failed s1 => 
      simp only [AttemptResult.withRet]
      rw [← ih]; congr 1
      exact waitLoop_ret _ _ _ _
    | ioFailed s1 => rfl

theorem sendRequest_ret (p : PortId) (c : Byte) (pl : Bytes) (t : Nat) (a : Bool) (v : RetVal) (s : State) :
    sendRequest p c pl t a (returnValue v s) = (sendRequest p c pl t a s).withRet v := by
  unfold sendRequest
  simp only [returnValue_cfg, link_returnValue, returnValue_now]
  cases gate s.cfg (s.link p) s.now p c pl a with
  | refused r => rfl
  | error e => rfl
  | pass r => 
    simp only []
    rw [show latch p c pl t (stampPolicy p c r (returnValue v s)) =
      returnValue v (latch p c pl t (stampPolicy p c r s)) by cases r <;> rfl]
    exact tryAttempts_ret p v _ _

def ReadResult.withRet (v : RetVal) : ReadResult → ReadResult
  | .ok q s => .ok q (returnValue v s)
  | .error e s => .error e (returnValue v s)
  | .refused r => .refused r

def WriteResult.withRet (v : RetVal) : WriteResult → WriteResult
  | .ok s => .ok (returnValue v s)
  | .error e s => .error e (returnValue v s)
  | .refused r => .refused r

def BulkResult.withRet {α : Type} (v : RetVal) : BulkResult α → BulkResult α
  | .done q s => .done q (returnValue v s)
  | .refused r => .refused r

theorem readOne_ret (p : PortId) (t : Nat) (i : Word16) (v : RetVal) (s : State) :
    readOne p t i (returnValue v s) = (readOne p t i s).withRet v := by
  unfold readOne
  simp only [returnValue_cfg, sendRequest_ret]
  cases sendRequest p s.cfg.opChRead (be16 i) t false s with
  | packet q s1 => 
    simp only [Reply.withRet]
    split <;> (rename_i hh; simp only [hh, if_true, if_false]; rfl)
  | error e s1 => rfl
  | refused r => rfl

theorem writeOne_ret (p : PortId) (t : Nat) (a : Bool) (r : ChannelRecord) (v : RetVal) (s : State) :
    writeOne p t a r (returnValue v s) = (writeOne p t a r s).withRet v := by
  unfold writeOne
  simp only [returnValue_cfg, sendRequest_ret]
  cases sendRequest p s.cfg.opChWrite (encodeRecord s.cfg r) t a s with
  | packet q s1 => 
    simp only [Reply.withRet]
    split <;> simp_all [WriteResult.withRet]
  | error e s1 => rfl
  | refused r => rfl

theorem cons_withRet {α : Type} (a : α) (v : RetVal) (b : BulkResult α) :
    (b.withRet v).cons a = (b.cons a).withRet v := by
  cases b <;> rfl

theorem readItems_ret (p : PortId) (t : Nat) (v : RetVal) (is : List Word16) (s : State) :
    readItems p t is (returnValue v s) = (readItems p t is s).withRet v := by
  induction is generalizing s with
  | nil => rfl
  | cons i is ih =>
    unfold readItems
    rw [drawCancel_returnValue]
    simp only []
    split
    · rfl
    · rw [readOne_ret]
      cases readOne p t i s.drawCancel.2 with
      | ok r s1 => simp only [ReadResult.withRet]; rw [ih, cons_withRet]
      | error e s1 => simp only [ReadResult.withRet]; rw [goIdle_ret, ih, cons_withRet]
      | refused r => rfl

theorem writeItems_ret (p : PortId) (t : Nat) (v : RetVal) (is : List ChannelRecord) (s : State) :
    writeItems p t is (returnValue v s) = (writeItems p t is s).withRet v := by
  induction is generalizing s with
  | nil => rfl
  | cons i is ih =>
    unfold writeItems
    rw [drawCancel_returnValue]
    simp only []
    split
    · rfl
    · rw [writeOne_ret]
      cases writeOne p t false i s.drawCancel.2 with
      | ok s1 => simp only [WriteResult.withRet]; rw [ih, cons_withRet]
      | error e s1 => simp only [WriteResult.withRet]; rw [goIdle_ret, ih, cons_withRet]
      | refused r => rfl

end Sys2Proof.Machine
end

