-- ==== Sys2Proof/Laws/Statements.lean ====
section
/-!
SUPPORT. The names that the statements share, against the model's own: each says the same thing spelled out from the
spec, and one lemma here says so.
-/

namespace Sys2Proof.Statements

open Sys2Proof Sys2Proof.Machine

theorem frameOf_eq (cfg : Config) (command : Byte) (payload : Bytes) :
    frameOf cfg command payload = encodeFrame cfg command payload := by
  simp [frameOf, encodeFrame, crcInput, lengthByte, frameCrc, be16, hi8, lo8]

theorem arriving_eq (p : PortId) (es : List (PortId × Byte)) : arriving p es = bytesFor p es := by
  induction es with
  | nil => rfl
  | cons e es ih =>
    simp only [arriving, bytesFor] at ih ⊢
    by_cases h : e.1 = p <;> simp [h, ih]

theorem arrivingIn_eq (p : PortId) (ws : List Wait) : arrivingIn p ws = bytesIn p ws := by
  induction ws with
  | nil => rfl
  | cons w ws ih => rw [bytesIn_cons, ← ih, ← arriving_eq]; simp [arrivingIn]

theorem fits_iff {cfg : Config} {shape : Shape} {payload : Bytes} :
    fits cfg shape payload = true ↔ Fits cfg shape payload := by
  cases shape <;> simp only [fits, Fits, decide_eq_true_eq] <;> rfl

theorem fits_false_iff {cfg : Config} {shape : Shape} {payload : Bytes} :
    fits cfg shape payload = false ↔ ¬ Fits cfg shape payload := by
  rw [← fits_iff, Bool.not_eq_true]

theorem bitOf_eq (bytes : Bytes) (k : Nat) : bitOf bytes k = bitAt bytes k := by
  have : k % 8 < 8 := by omega
  simp only [bitOf, bitAt, byteAt, BitVec.getMsbD, BitVec.testBit_toNat, this, decide_true, Bool.true_and,
    show 8 - 1 - k % 8 = 7 - k % 8 by omega]

/-- A field holds exactly one value, the one that the model reads. -/
theorem holds_iff {tail : Bytes} {ps : List Nat} {v : Nat} : Holds tail ps v ↔ fieldValue tail ps = v := by
  simp only [Holds, bitOf_eq]
  constructor
  · rintro ⟨hv, h⟩
    refine Nat.eq_of_testBit_eq fun i => ?_
    by_cases hi : i < ps.length
    · have := testBit_fieldValue tail (show ps.length - 1 - i < ps.length by omega)
      rw [h _ (by omega)] at this
      rwa [show ps.length - 1 - (ps.length - 1 - i) = i by omega] at this
    · have w : 2 ^ ps.length ≤ 2 ^ i := Nat.pow_le_pow_right (by omega) (by omega)
      have := fieldValue_lt tail ps
      rw [Nat.testBit_lt_two_pow (by omega), Nat.testBit_lt_two_pow (by omega)]
  · rintro rfl
    exact ⟨fieldValue_lt tail ps, fun j hj => (testBit_fieldValue tail hj).symm⟩

/-- The timeslot field of a record payload is not 0 exactly when one of its bits is 1. -/
theorem any_bitOf_iff {tail : Bytes} {ps : List Nat} : ps.any (bitOf tail) = true ↔ fieldValue tail ps ≠ 0 := by
  induction ps with
  | nil => simp
  | cons p ps ih =>
    rw [List.any_cons, Bool.or_eq_true, ih, bitOf_eq, fieldValue_cons]
    have := Nat.two_pow_pos ps.length
    cases bitAt tail p
    · simp
    · simp only [true_or, Bool.toNat_true, ne_eq, true_iff]
      omega

theorem isDigital_kindOf {l : TailLayout} {t : Bytes} :
    isDigital (kindOf l t) = true ↔ l.timeslot.any (bitOf t) = true := by
  rw [any_bitOf_iff, kindOf]
  split
  · rename_i h
    exact ⟨nofun, fun g => absurd h g⟩
  · rename_i h
    exact ⟨fun _ => h, fun _ => rfl⟩

theorem effectiveRisk_eq (cfg : Config) (row : Row) (command : Byte) (payload : Bytes) :
    effectiveRisk cfg row command payload = riskOf cfg row command payload := by
  have h : digitalWrite cfg row command payload = true ↔ row.request = .record ∧ command = cfg.opChWrite ∧
      payload.length = 26 + cfg.tail.len ∧ cfg.tail.timeslot.any (bitOf (payload.drop 26)) = true := by
    simp only [digitalWrite, Bool.and_eq_true, decide_eq_true_eq, isDigital_kindOf, and_assoc]
    rfl
  simp only [effectiveRisk, riskOf, h]

theorem reportedRisk_eq (cfg : Config) (command : Byte) (payload : Bytes) :
    reportedRisk cfg command payload = classOf cfg command payload := by
  unfold reportedRisk classOf
  cases rowOf cfg command <;> simp [effectiveRisk_eq]

theorem writeIndex_eq (cfg : Config) (command : Byte) (payload : Bytes) :
    writeIndex cfg command payload = indexOf cfg command payload := by
  unfold writeIndex indexOf
  have e : u16At payload 0 =
      BitVec.ofNat 16 (256 * (payload.getD 0 0#8).toNat + (payload.getD 1 0#8).toNat) := by
    apply BitVec.eq_of_toNat_eq
    simp only [u16At, unbe16, byteAt, BitVec.toNat_append, BitVec.toNat_ofNat, Nat.zero_add]
    have h0 := (payload.getD 0 0#8).isLt
    have h1 := (payload.getD 1 0#8).isLt
    rw [Nat.mod_eq_of_lt (by omega), ← Nat.shiftLeft_add_eq_or_of_lt (by omega), Nat.shiftLeft_eq]
    omega
  rw [e]

theorem modeValid_iff {cfg : Config} {m : Byte} : modeValid cfg m = true ↔ ∃ name, (m, name) ∈ cfg.modes := by
  simp [modeValid]

theorem toneValid_iff {cfg : Config} {x : Tone} : toneValid cfg x = true ↔ ValidTone cfg x := by
  cases x <;> simp [toneValid, ValidTone]

theorem kindValid_iff {k : ChannelKind} : kindValid k = true ↔ ∀ g i rc tc ts, k = .digital g i rc tc ts →
    rc.toNat ≤ 15 ∧ tc.toNat ≤ 15 ∧ (ts = 1#8 ∨ ts = 2#8) := by
  cases k with
  | analog => simp [kindValid]
  | digital g i rc tc ts =>
    simp only [kindValid, Bool.and_eq_true, Bool.or_eq_true, decide_eq_true_eq, and_assoc]
    constructor
    · intro h _ _ _ _ _ e
      cases e
      exact h
    · exact fun h => h g i rc tc ts rfl

theorem validRecord_iff {cfg : Config} {r : ChannelRecord} : validRecord cfg r = true ↔ ValidRecord cfg r := by
  simp only [validRecord, Bool.and_eq_true, decide_eq_true_eq, modeValid_iff, toneValid_iff, kindValid_iff,
    Bool.not_eq_true', List.contains_eq_mem, decide_eq_false_iff_not]
  constructor
  · rintro ⟨⟨⟨⟨⟨⟨⟨h1, h2⟩, h3⟩, h4⟩, h5⟩, h6⟩, h7⟩, h8⟩
    exact ⟨h1, h2, h3, h4, h5, h6, h7, h8⟩
  · rintro ⟨h1, h2, h3, h4, h5, h6, h7, h8⟩
    exact ⟨⟨⟨⟨⟨⟨⟨h1, h2⟩, h3⟩, h4⟩, h5⟩, h6⟩, h7⟩, h8⟩

end Sys2Proof.Statements
end

