-- ==== Sys2Proof/Tests/Slice0.lean ====
section
/-!
SUPPORT. The implementer's own tests. Expected values are the spec's (95_test_vectors.md; the section is named at each
group) or computed by hand from its rules. First the decoding of instruction words, then one step of each operation,
then a witness for the hypotheses of each statement of Certificates/Slice0/Obligations.lean.
-/

set_option Elab.async false

namespace Sys2Proof.Tests

open Sys2Proof Sys2Proof.Machine Sys2Proof.Statements

/-! ## Helpers -/

/-- Bytes from their values. -/
def hx (values : List Nat) : Bytes := values.map (BitVec.ofNat 8)

/-- The magic of `CFG_REF` before the rest of a frame. -/
def framed (values : List Nat) : Bytes := hx ([0xA5, 0xA5, 0xA5, 0xA5] ++ values)

/-- `n` zero bytes, as values. -/
def zeros (n : Nat) : List Nat := List.replicate n 0

/-- Port 1 has a live Session, at time 10000 (section 7.1). -/
def live : State :=
  { State.reset.setLink 1 { Link.powerOn with session := some (newSession cfgRef 1) } with
    portsHeld := [1], now := 10000 }

/-- `live` with the opt-in to Unstable commands. -/
def opted : State := live.setLink 1 { live.link 1 with session := some { newSession cfgRef 1 with allowUnstable := true } }

/-- The bytes arrive on port 1 at the first wait, 50 ms later. -/
def arrival (bytes : Bytes) : Wait := { dt := 50, arrive := bytes.map (fun b => (1, b)) }

/-- The device delivers each of the byte sequences, one at each wait. -/
def answering (s : State) (replies : List Bytes) : State :=
  { s with env := { s.env with waits := replies.map arrival } }

/-- `s` with I/O failures listed. -/
def failing (s : State) (fails : List Bool) : State := { s with env := { s.env with ioFails := fails } }

/-- The value an operation returned, and what is then on `tx` of port 1. -/
def sent : Host.Outcome State Fault Refusal → Option (RetVal × Bytes)
  | .next t => some (t.ret, (t.link 1).tx)
  | .fault _ => none
  | .refused _ => none

/-- Why an operation was refused. -/
def refusal : Host.Outcome State Fault Refusal → Option Refusal
  | .next _ => none
  | .fault _ => none
  | .refused r => some r

/-- A test on the next state. -/
def after (o : Host.Outcome State Fault Refusal) (check : State → Bool) : Bool :=
  match o with
  | .next t => check t
  | .fault _ => false
  | .refused _ => false

/-- The typed error an operation returned. -/
def errorOf : RetVal → Option TypedError
  | .error report => some report.error
  | _ => none

/-- The 37 bytes of record A (section 5). -/
def bytesA : List Nat :=
  [0x00, 0x00, 0x06, 0x06, 0x08, 0xBB, 0xB7, 0xC0, 0x08, 0xBB, 0xB7, 0xC0, 0x0D, 0x0D, 0x54, 0x45, 0x53, 0x54] ++ zeros 19

/-- Record A (section 5): index 0, narrow FM, 146 520 000 Hz, 100.0 Hz tones, "TEST". -/
def recordA : ChannelRecord where
  index := 0#16
  rxFreq := 146520000#32
  txFreq := 146520000#32
  rxMode := 6#8
  txMode := 6#8
  rxTone := .freq 1000
  txTone := .freq 1000
  name := hx [0x54, 0x45, 0x53, 0x54]
  kind := .analog

/-- The write frame of record A (section 3). -/
def frameA : Bytes := framed ([0x28, 0x40] ++ bytesA ++ [0xB7, 0x17])

/-- Record C (section 5), Digital. -/
def recordC : ChannelRecord where
  index := 42#16
  rxFreq := 438500000#32
  txFreq := 431000000#32
  rxMode := 9#8
  txMode := 9#8
  rxTone := .noTone
  txTone := .noTone
  name := hx [0x44, 0x4D, 0x52, 0x2D, 0x54, 0x47]
  kind := .digital 12345#32 3106789#32 1#8 1#8 2#8

/-- The 37 bytes of record C. -/
def bytesC : List Nat :=
  [0x00, 0x2A, 0x09, 0x09, 0x1A, 0x22, 0xFA, 0xA0, 0x19, 0xB0, 0x89, 0xC0, 0x00, 0x00, 0x44, 0x4D, 0x52, 0x2D, 0x54,
    0x47] ++ zeros 6 ++ [0x00, 0x00, 0x30, 0x39, 0x00, 0x2F, 0x67, 0xE5, 0x01, 0x01, 0x02]

/-- The 37 bytes of record E, with its reserved and out-of-range tones. -/
def bytesE : List Nat :=
  [0x00, 0x03, 0x06, 0x06, 0x08, 0xA4, 0x86, 0x40, 0x08, 0xAD, 0xAE, 0x00, 0x19, 0x38, 0x52, 0x53, 0x56] ++ zeros 20

/-- The reply of program P1 to the read of channel 42 (section 8). -/
def replyP1 : Bytes :=
  framed ([0x28, 0x41, 0x00, 0x2A, 0x06, 0x06, 0x19, 0xD6, 0xAF, 0x60, 0x19, 0xD6, 0xAF, 0x60, 0x09, 0x00, 0x52, 0x45,
    0x50, 0x45, 0x41, 0x54, 0x45, 0x52, 0x2D, 0x31, 0x58] ++ zeros 12 ++ [0x13, 0x77])

/-- The record that the reply of program P1 holds. -/
def recordP1 : ChannelRecord where
  index := 42#16
  rxFreq := 433500000#32
  txFreq := 433500000#32
  rxMode := 6#8
  txMode := 6#8
  rxTone := .freq 885
  txTone := .noTone
  name := hx [0x52, 0x45, 0x50, 0x45, 0x41, 0x54, 0x45, 0x52, 0x2D, 0x31, 0x58]
  kind := .analog

/-- The read request for channel 42 (section 3). -/
def read42 : Bytes := framed [0x05, 0x41, 0x00, 0x2A, 0x97, 0x30]

/-- The payload `00 01 … 1D` of a parameter sync reply. -/
def params : List Nat := List.range 30

/-! ## Well-formedness: each check refuses an ill-formed term -/

theorem test_wf_accepts : (Instr.ptt 1 1000 (hx [1])).wf cfgRef = true ∧ (Instr.chWrite 1 1 (hx bytesA)).wf cfgRef = true ∧
    (Instr.readChannel 1 999#16 1).wf cfgRef = true ∧ (Instr.writeChannel 1 recordA 1 false).wf cfgRef = true := by
  decide +kernel

theorem test_wf_timeout : (Instr.ptt 1 0 []).wf cfgRef = false ∧ (Instr.queryStatus 1 0).wf cfgRef = false ∧
    (Instr.readAll 1 0 []).wf cfgRef = false := by decide +kernel

theorem test_wf_payload : (Instr.spectrum 1 1000 (hx (zeros 253))).wf cfgRef = false ∧
    (Instr.encode 0x39#8 (hx (zeros 253))).wf cfgRef = false ∧
    (Instr.encode 0x39#8 (hx (zeros 252))).wf cfgRef = true := by decide +kernel

theorem test_wf_record_bytes : (Instr.chWrite 1 1000 (hx (zeros 36))).wf cfgRef = false ∧
    (Instr.decodeChannel (hx (zeros 38))).wf cfgRef = false := by decide +kernel

theorem test_wf_index : (Instr.readChannel 1 1000#16 1000).wf cfgRef = false ∧
    (Instr.writeChannel 1 { recordA with index := 1000#16 } 1000 false).wf cfgRef = false ∧
    (Instr.readAll 1 1000 [5#16, 1000#16]).wf cfgRef = false ∧
    (Instr.writeAll 1 1000 [recordA, { recordA with index := 1000#16 }]).wf cfgRef = false := by decide +kernel

theorem test_cfg_accepts : cfgRef.wf = true := by decide +kernel

/-- R7: a magic of 3 bytes, a repeated opcode, a repeated tone index, a repeated frequency, a reserved tone index, a
missing mode, equal mode values; and the frequency 0, to which R266 gives no index. -/
theorem test_cfg_tables :
    { cfgRef with magic := hx [1, 2, 3] }.wf = false ∧
    { cfgRef with optable := optableRef ++ optableRef.take 1 }.wf = false ∧
    { cfgRef with tones := (1, 5) :: tonesT }.wf = false ∧
    { cfgRef with tones := [(1, 670), (2, 670)] }.wf = false ∧
    { cfgRef with tones := [(25, 5)] }.wf = false ∧
    { cfgRef with modeNfm := 77#8 }.wf = false ∧
    { cfgRef with modeNfm := 255#8 }.wf = false ∧
    { cfgRef with tones := [(1, 0)] }.wf = false ∧ { cfgRef with tones := [(1, 1)] }.wf = true := by decide +kernel

/-- Log 13: overlapping tail fields, a field outside the tail, a colour code of 3 bits and a timeslot of 9, a record longer
than a frame, two commands with one opcode, another width of the CRC. -/
theorem test_cfg_fixed :
    { cfgRef with tail := { tailRef with radio := wholeBytes 3 4 } }.wf = false ∧
    { cfgRef with tail := { tailRef with timeslot := wholeBytes 11 1 } }.wf = false ∧
    { cfgRef with tail := { tailRef with rxColor := [64, 65, 66] } }.wf = false ∧
    { cfgRef with tail := { tailRef with len := 13, timeslot := List.range' 80 9 } }.wf = false ∧
    { cfgRef with tail := { cfgRef.tail with len := 227 } }.wf = false ∧
    { cfgRef with opChRead := 0x40#8 }.wf = false ∧
    { cfgRef with crcWidth := 8 }.wf = false := by decide +kernel

/-! ## Decoding: the frames of section 3 written out -/

theorem test_decode_ptt : decode cfgRef 1 1000 (framed [0x04, 0x07, 0x00, 0x89, 0xCB]) = .instr (.ptt 1 1000 [0#8]) [] := by
  decide +kernel

theorem test_decode_modeSet :
    decode cfgRef 1 1000 (framed [0x05, 0x0A, 0x06, 0x06, 0x35, 0x24]) = .instr (.modeSet 1 1000 (hx [6, 6])) [] := by
  decide +kernel

theorem test_decode_statusSync :
    decode cfgRef 1 1000 (framed [0x03, 0x0B, 0xF9, 0x37]) = .instr (.statusSync 1 1000 []) [] := by decide +kernel

theorem test_decode_equipId :
    decode cfgRef 1 1000 (framed [0x03, 0x27, 0x1C, 0xD9]) = .instr (.equipId 1 1000 []) [] := by decide +kernel

theorem test_decode_powerSet :
    decode cfgRef 1 1000 (framed [0x04, 0x28, 0x01, 0x8F, 0x32]) = .instr (.powerSet 1 1000 [1#8]) [] := by decide +kernel

theorem test_decode_rxoffSet :
    decode cfgRef 1 1000 (framed [0x05, 0x29, 0x00, 0x00, 0x20, 0xD2]) = .instr (.rxoffSet 1 1000 (hx [0, 0])) [] := by
  decide +kernel

theorem test_decode_meterSync :
    decode cfgRef 1 1000 (framed [0x03, 0x2A, 0xCD, 0x74]) = .instr (.meterSync 1 1000 []) [] := by decide +kernel

theorem test_decode_paramSync :
    decode cfgRef 1 1000 (framed [0x03, 0x2B, 0xDD, 0x55]) = .instr (.paramSync 1 1000 []) [] := by decide +kernel

theorem test_decode_spectrum :
    decode cfgRef 1 1000 (framed [0x03, 0x39, 0xEF, 0x26]) = .instr (.spectrum 1 1000 []) [] := by decide +kernel

theorem test_decode_chWrite : decode cfgRef 1 1000 frameA = .instr (.chWrite 1 1000 (hx bytesA)) [] := by decide +kernel

theorem test_decode_chRead : decode cfgRef 1 1000 read42 = .instr (.chRead 1 1000 42#16) [] := by decide +kernel

/-- A frame that is none (section 4.1), a command without a row, a read request with the shape of another. -/
theorem test_decode_rejects :
    decode cfgRef 1 1000 (framed [0x05, 0x41, 0x00, 0x2A, 0x30, 0x97]) = .rejected (.framing .crc) ∧
    decode cfgRef 1 1000 (encodeFrame cfgRef 0x55#8 []) = .rejected (.unassignedOpcode 0x55#8 []) ∧
    decode cfgRef 1 1000 (encodeFrame cfgRef 0x41#8 [0#8]) = .rejected (.operandShape 0x41#8 [0#8]) := by decide +kernel

/-- The words of opcode_table.json, 8 bits each: the command byte. -/
theorem test_table_words :
    decodeTableWord 8 0x07 = some (.ptt 0 1000 []) ∧ decodeTableWord 8 0x0A = some (.modeSet 0 1000 []) ∧
    decodeTableWord 8 0x39 = some (.spectrum 0 1000 []) ∧
    decodeTableWord 8 0x40 = some (.chWrite 0 1000 (hx (zeros 37))) ∧
    decodeTableWord 8 0x41 = some (.chRead 0 1000 0#16) ∧ decodeTableWord 8 0x55 = none := by decide +kernel

/-- A step fetches the word; on port 0 of a machine just reset there is no Session (R178). -/
theorem test_withFetchWord : after (step (State.reset.withFetchWord 8 0x0B)) (fun t =>
    decide (errorOf t.ret = some (.connection 0 .notConnected)) && t.requests.isEmpty) = true := by decide +kernel

/-- Bytes without a good frame have the effect of DECODE (section 4.1); a frame whose opcode has no row is answered by
SEND's gate (R104), and one of the wrong shape too (R197). -/
theorem test_step_rejects :
    sent (step { live with requests := [.frame 1 1000 (framed [0x05, 0x41, 0x00, 0x2A, 0x30, 0x97])] }) =
      some (.decoded (.error .crc), []) ∧
    sent (step { live with requests := [.frame 1 1000 (encodeFrame cfgRef 0x55#8 [])] }) =
      some (.error { error := .unsupported 0x55#8 .noTableEntry none, opcode := some 0x55#8, channel := none,
                     risk := none }, []) ∧
    refusal (step { live with requests := [.frame 1 1000 (encodeFrame cfgRef 0x41#8 [0#8])] }) =
      some (.requestShape 0x41#8) := by decide +kernel

/-! ## The CRC generator (section 2) -/

theorem test_crcInit : after (exec .crcInit { live with crcReg := 0x1234#16 }) (fun t => t.crcReg == 0xFFFF#16) = true := by
  decide +kernel

theorem test_crcByte : after (exec (.crcByte 0x31#8) { live with crcReg := 0xFFFF#16 }) (fun t => t.crcReg == 0xC782#16) =
    true := by decide +kernel

/-- Bit 15 of the register is 1: data 1 gives feedback 0, data 0 gives feedback 1. -/
theorem test_crcBit :
    after (exec (.crcBit true) { live with crcReg := 0xFFFF#16 }) (fun t => t.crcReg == 0xFFFE#16) = true ∧
    after (exec (.crcBit false) { live with crcReg := 0xFFFF#16 }) (fun t => t.crcReg == 0xEFDF#16) = true := by
  decide +kernel

theorem test_crc16 : sent (exec (.crc16 (hx [0x31, 0x32, 0x33, 0x34, 0x35, 0x36, 0x37, 0x38, 0x39])) live) =
    some (.word 0x29B1#16, []) := by decide +kernel

/-- The second configuration of section 2.1. -/
theorem test_crc16_8005 : sent (exec (.crc16 (hx [0x03, 0x0B])) { live with cfg := { cfgRef with poly := 0x8005#16 } }) =
    some (.word 0x0A34#16, []) := by decide +kernel

theorem test_crcValue : sent (exec (.crcValue .value) { live with crcReg := 0x29B1#16 }) = some (.word 0x29B1#16, []) ∧
    sent (exec (.crcValue .append) { live with crcReg := 0x29B1#16 }) = some (.bytes (hx [0x29, 0xB1]), []) := by
  decide +kernel

theorem test_crcCheck : sent (exec (.crcCheck (hx [0x03, 0x0B]) 0xF937#16) live) = some (.bool true, []) ∧
    sent (exec (.crcCheck (hx [0x03, 0x0B]) 0x37F9#16) live) = some (.bool false, []) := by decide +kernel

/-! ## The frame codec (sections 3 and 4) -/

theorem test_encode : sent (exec (.encode 0x41#8 (hx [0x00, 0x2A])) live) = some (.bytes read42, []) := by decide +kernel

theorem test_encode_bounds :
    refusal (exec (.encode 0x39#8 (hx (zeros 252))) live) = none ∧
    refusal (exec (.encode 0x39#8 (hx (zeros 253))) live) = some (.payloadTooLong 253) := by decide +kernel

/-- A magic inside a payload is data; with its own first byte corrupted the embedded frame is found. -/
theorem test_decode_embedded :
    sent (exec (.decode (framed [0x0B, 0x39, 0xA5, 0xA5, 0xA5, 0xA5, 0x03, 0x0B, 0xF9, 0x37, 0x71, 0x46])) live) =
      some (.decoded (.packet ⟨cfgRef.magic, 11#8, 0x39#8, framed [0x03, 0x0B, 0xF9, 0x37], 0x7146#16⟩ 16), []) ∧
    sent (exec (.decode (hx [0x00, 0xA5, 0xA5, 0xA5, 0x0B, 0x39, 0xA5, 0xA5, 0xA5, 0xA5, 0x03, 0x0B, 0xF9, 0x37, 0x71,
      0x46])) live) = some (.decoded (.packet ⟨cfgRef.magic, 3#8, 0x0B#8, [], 0xF937#16⟩ 14), []) := by decide +kernel

theorem test_decode_errors :
    sent (exec (.decode (framed [])) live) = some (.decoded (.error .truncated), []) ∧
    sent (exec (.decode (framed [0x02, 0x41, 0x97])) live) = some (.decoded (.error .lengthInvalid), []) ∧
    sent (exec (.decode (framed [0x04, 0x41, 0x00, 0x2A, 0x97, 0x30])) live) = some (.decoded (.error .crc), []) ∧
    sent (exec (.decode (framed [0xA5, 0x05, 0x41, 0x00, 0x2A, 0x97, 0x30])) live) =
      some (.decoded (.error .truncated), []) := by decide +kernel

/-- The decoder registers after the first `n` bytes of section 4.2. -/
def fed (n : Nat) : State :=
  let d := decFeed cfgRef Dec.start 0#16 ((hx [0x00, 0xFF, 0xA5, 0xA5, 0xA5, 0xA5, 0x03, 0x0B, 0xF9, 0x37, 0xEE]).take n)
  { live with dec := d.1, crcReg := d.2 }

/-- The rows of section 4.2 for the length byte, the command byte, the last CRC byte and the byte after the frame. -/
theorem test_decStep_byte :
    after (exec (.decStep (.byte 0x03#8)) (fed 6)) (fun t => decide (t.dec.phase = .body) && t.dec.cnt == 3#8 &&
      t.crcReg == 0xD193#16) = true ∧
    after (exec (.decStep (.byte 0x0B#8)) (fed 7)) (fun t => decide (t.dec.phase = .body) && t.dec.cnt == 2#8 &&
      t.crcReg == 0xF937#16) = true ∧
    after (exec (.decStep (.byte 0x37#8)) (fed 9)) (fun t => decide (t.dec.phase = .done) && t.dec.skipped == 2 &&
      decide (t.dec.result = some (.packet ⟨cfgRef.magic, 3#8, 0x0B#8, [], 0xF937#16⟩ 10))) = true ∧
    after (exec (.decStep (.byte 0xEE#8)) (fed 10)) (fun t => decide (t.dec = (fed 10).dec)) = true := by decide +kernel

theorem test_decStep_end :
    after (exec (.decStep .finish) (fed 6)) (fun t => decide (t.dec.result = some (.error .truncated))) = true ∧
    after (exec (.decStep .finish) (fed 5)) (fun t => decide (t.dec.result = some (.error .magic))) = true ∧
    after (exec (.decStep .start) (fed 9)) (fun t => decide (t.dec = State.reset.dec)) = true := by decide +kernel

/-! ## The transport (sections 8 and 9) -/

/-- P1 step 1, with bytes that arrive during the stabilization wait (P6 step 1). -/
theorem test_connect :
    after (exec (.connect 1) (answering State.reset [hx [1, 2], hx [3], []])) (fun t => (t.link 1).isConnected &&
      decide ((t.link 1).dtrLevel = .high) && decide ((t.link 1).rx = hx [1, 2, 3]) && decide (t.portsHeld = [1]) &&
      decide (t.now = 100) && (t.link 1).tx.isEmpty) = true := by decide +kernel

theorem test_connect_fails :
    after (exec (.connect 1) live) (fun t => decide (errorOf t.ret = some (.connection 1 .portUnavailable)) &&
      (t.link 1).isConnected) = true ∧
    after (exec (.connect 2) { live with env := { live.env with lines := [false] } }) (fun t =>
      decide (errorOf t.ret = some (.connection 2 .handshakeFailed)) && decide (t.portsHeld = [1])) = true := by
  decide +kernel

theorem test_disconnect :
    after (exec (.disconnect 1) live) (fun t => !(t.link 1).isConnected && decide ((t.link 1).dtrLevel = .low) &&
      t.portsHeld.isEmpty) = true ∧
    sent (exec (.disconnect 1) State.reset) = some (.unit, []) := by decide +kernel

theorem test_resetInput :
    after (exec (.resetInput 1) (live.setLink 1 { live.link 1 with rx := hx [9, 9] })) (fun t => (t.link 1).rx.isEmpty) =
      true := by decide +kernel

theorem test_txPut : sent (exec (.txPut 1 (hx [7, 8])) (live.setLink 1 { live.link 1 with tx := hx [1] })) =
    some (.unit, hx [1, 7, 8]) := by decide +kernel

theorem test_rxTake :
    after (exec (.rxTake 1) (live.setLink 1 { live.link 1 with rx := hx [9, 8], lastRaw := hx [1] })) (fun t =>
      decide (t.ret = .taken (some 9#8)) && decide ((t.link 1).rx = hx [8]) &&
      decide ((t.link 1).lastRaw = hx [1, 9])) = true ∧
    sent (exec (.rxTake 1) live) = some (.taken none, []) := by decide +kernel

/-! ## SEND (section 7) -/

/-- Section 7.2: the request echoed back is of the wrong shape, every attempt; four copies are sent. -/
theorem test_send_shape :
    after (exec (.send 1 0x41#8 (hx [0x00, 0x2A]) 1000 false) (answering live [read42, read42, read42, read42])) (fun t =>
      decide (errorOf t.ret = some (.protocol 0x41#8 .shape 4 read42)) &&
      decide ((t.link 1).tx = read42 ++ read42 ++ read42 ++ read42)) = true := by decide +kernel

/-- Section 7.2: the good reply followed by `EE EE` on the second attempt, after nothing on the first. -/
theorem test_send_retry :
    after (exec (.send 1 0x41#8 (hx [0x00, 0x2A]) 1000 false)
      { live with env := { live.env with waits := [{ dt := 1000, arrive := [] }, arrival (replyP1 ++ hx [0xEE, 0xEE])] } })
      (fun t => decide ((t.link 1).tx = read42 ++ read42) && decide ((t.link 1).rx = hx [0xEE, 0xEE]) &&
        decide (t.now = 11050) && decide ((t.link 1).lastRaw = replyP1) && t.crcReg == 0x1377#16) = true := by
  decide +kernel

/-! ## The wire commands: the request on `tx`, the reply's payload returned (section 3) -/

theorem test_ptt : sent (exec (.ptt 1 1000 [1#8]) (answering live [framed [0x04, 0x07, 0x00, 0x89, 0xCB]])) =
    some (.bytes [0#8], framed [0x04, 0x07, 0x01, 0x99, 0xEA]) := by decide +kernel

theorem test_modeSet :
    sent (exec (.modeSet 1 1000 (hx [6, 6])) (answering live [framed [0x05, 0x0A, 0x06, 0x06, 0x35, 0x24]])) =
      some (.bytes (hx [6, 6]), framed [0x05, 0x0A, 0x06, 0x06, 0x35, 0x24]) := by decide +kernel

theorem test_statusSync : sent (exec (.statusSync 1 1000 []) (answering live [framed [0x03, 0x0B, 0xF9, 0x37]])) =
    some (.bytes [], framed [0x03, 0x0B, 0xF9, 0x37]) := by decide +kernel

theorem test_equipId : sent (exec (.equipId 1 1000 []) (answering live [framed [0x03, 0x27, 0x1C, 0xD9]])) =
    some (.bytes [], framed [0x03, 0x27, 0x1C, 0xD9]) := by decide +kernel

theorem test_powerSet : sent (exec (.powerSet 1 1000 [1#8]) (answering live [framed [0x04, 0x28, 0x01, 0x8F, 0x32]])) =
    some (.bytes [1#8], framed [0x04, 0x28, 0x01, 0x8F, 0x32]) := by decide +kernel

theorem test_rxoffSet :
    sent (exec (.rxoffSet 1 1000 (hx [0, 0])) (answering live [framed [0x05, 0x29, 0x00, 0x00, 0x20, 0xD2]])) =
      some (.bytes (hx [0, 0]), framed [0x05, 0x29, 0x00, 0x00, 0x20, 0xD2]) := by decide +kernel

theorem test_meterSync :
    sent (exec (.meterSync 1 1000 []) (answering opted [framed [0x05, 0x2A, 0x12, 0x34, 0x6A, 0x44]])) =
      some (.bytes (hx [0x12, 0x34]), framed [0x03, 0x2A, 0xCD, 0x74]) := by decide +kernel

theorem test_paramSync :
    sent (exec (.paramSync 1 1000 []) (answering opted [framed ([0x21, 0x2B] ++ params ++ [0x5A, 0x16])])) =
      some (.bytes (hx params), framed [0x03, 0x2B, 0xDD, 0x55]) := by decide +kernel

/-- R32: a meter sync passes at 10000 and is answered at 10050; a parameter sync then has to wait 4950 ms more under
`PerClass`, and goes to the wire under `PerCommand`. -/
theorem test_rateScope : [RateScope.perClass, .perCommand].map (fun scope =>
    after (exec (.meterSync 1 10 [])
        { answering opted [framed [0x05, 0x2A, 0x12, 0x34, 0x6A, 0x44]] with cfg := { cfgRef with rateScope := scope } })
      (fun t => after (exec (.paramSync 1 10 []) t) (fun u => decide (errorOf u.ret = some (.rateLimited 0x2B#8 4950)) &&
        decide ((u.link 1).tx = (t.link 1).tx)))) = [true, false] := by decide +kernel

theorem test_spectrum : sent (exec (.spectrum 1 1000 []) (answering live [framed [0x03, 0x39, 0xEF, 0x26]])) =
    some (.bytes [], framed [0x03, 0x39, 0xEF, 0x26]) := by decide +kernel

theorem test_chWrite : sent (exec (.chWrite 1 1000 (hx bytesA)) (answering live [frameA])) =
    some (.bytes (hx bytesA), frameA) := by decide +kernel

theorem test_chRead : after (exec (.chRead 1 1000 42#16) (answering live [replyP1])) (fun t =>
    decide ((t.link 1).tx = read42) && decide (t.ret = .bytes ((replyP1.drop 6).take 37))) = true := by decide +kernel

/-! ## The record codec (sections 5 and 6) -/

theorem test_encodeChannel : sent (exec (.encodeChannel recordA) live) = some (.bytes (hx bytesA), []) ∧
    sent (exec (.encodeChannel recordC) live) = some (.bytes (hx bytesC), []) := by decide +kernel

theorem test_encodeChannelStrict :
    sent (exec (.encodeChannelStrict recordA) live) = some (.strict (.bytes (hx bytesA)), []) ∧
    sent (exec (.encodeChannelStrict { recordA with rxTone := .unknown 25#8, txTone := .unknown 56#8 }) live) =
      some (.strict (.unrepresentable .rxTone (.unknown 25#8)), []) := by decide +kernel

theorem test_decodeChannel : sent (exec (.decodeChannel (hx bytesC)) live) = some (.record recordC, []) ∧
    sent (exec (.decodeChannel (hx bytesE)) live) = some (.record
      { index := 3#16, rxFreq := 145000000#32, txFreq := 145600000#32, rxMode := 6#8, txMode := 6#8,
        rxTone := .unknown 25#8, txTone := .unknown 56#8, name := hx [0x52, 0x53, 0x56], kind := .analog }, []) := by
  decide +kernel

/-- The name vectors of section 5. -/
theorem test_names :
    nameField (hx (List.range' 65 12)) = hx (List.range' 65 11 ++ [0]) ∧
    nameOf (hx (List.range' 65 12)) = hx (List.range' 65 12) ∧
    nameOf (hx [0x54, 0x45, 0x53, 0x54, 0x00, 0x58, 0x58, 0, 0, 0, 0, 0]) = hx [0x54, 0x45, 0x53, 0x54] ∧
    nameField (hx [0x41, 0x00, 0x42]) = hx ([0x41, 0x00, 0x42] ++ zeros 9) := by decide +kernel

/-- A layout that is not R275's: the radio identifier first, the group identifier least significant byte first, the
colour codes in the two halves of a byte, the timeslot in the last two bits of another. -/
def packed : Config := { cfgRef with tail :=
  { len := 10, radio := wholeBytes 0 4,
    group := wholeBytes 7 1 ++ wholeBytes 6 1 ++ wholeBytes 5 1 ++ wholeBytes 4 1,
    rxColor := List.range' 64 4, txColor := List.range' 68 4, timeslot := [78, 79] } }

/-- Group 12345, radio 3106789, colour codes 1 and 15, timeslot 2, laid out by hand; a write of it is Blocked; bits that
no field covers are not read. -/
theorem test_packedTail : packed.wf = true ∧
    tailBytes packed.tail (.digital 12345#32 3106789#32 1#8 15#8 2#8) =
      hx [0x00, 0x2F, 0x67, 0xE5, 0x39, 0x30, 0x00, 0x00, 0x1F, 0x02] ∧
    kindOf packed.tail (hx [0x00, 0x2F, 0x67, 0xE5, 0x39, 0x30, 0x00, 0x00, 0x1F, 0x0A]) =
      .digital 12345#32 3106789#32 1#8 15#8 2#8 ∧
    kindOf packed.tail (hx [0x00, 0x2F, 0x67, 0xE5, 0x39, 0x30, 0x00, 0x00, 0x1F, 0xFC]) = .analog ∧
    effectiveRisk packed ⟨"channel write", .record, .record, .stable⟩ 0x40#8
      (encodeRecord packed { recordC with kind := .digital 12345#32 3106789#32 1#8 15#8 2#8 }) = .blocked := by
  decide +kernel

theorem test_freqToIndex : sent (exec (.freqToIndex 1514) live) = some (.toneIndex (some 26), []) ∧
    sent (exec (.freqToIndex 1001) live) = some (.toneIndex none, []) ∧
    sent (exec (.freqToIndex 0) live) = some (.toneIndex none, []) := by decide +kernel

theorem test_indexToFreq : sent (exec (.indexToFreq 55) live) = some (.toneFreq (some 2541), []) ∧
    sent (exec (.indexToFreq 25) live) = some (.toneFreq none, []) := by decide +kernel

/-! ## The host operations (section 8) -/

/-- P1 step 2. -/
theorem test_readChannel : sent (exec (.readChannel 1 42#16 1000) (answering live [replyP1])) =
    some (.read { record := recordP1, valid := true, indexMatches := true }, read42) := by decide +kernel

/-- Section 9: index 1000 is refused; P6 step 4: another channel's record is reported. -/
theorem test_readChannel_index : refusal (exec (.readChannel 1 1000#16 1000) live) = some (.indexOutOfRange 1000#16) ∧
    after (exec (.readChannel 1 6#16 1000) (answering live [replyP1])) (fun t =>
      decide (t.ret = .read { record := recordP1, valid := true, indexMatches := false })) = true := by decide +kernel

/-- P2 step 2: an echo whose name lost its last letter. -/
theorem test_writeChannel_echo :
    after (exec (.writeChannel 1 recordA 1000 false)
      (answering live [framed ([0x28, 0x40] ++ bytesA.take 17 ++ zeros 20 ++ [0xB7, 0xE5])])) (fun t =>
        decide (errorOf t.ret = some (.echoMismatch 0#16 (hx bytesA) (hx (bytesA.take 17 ++ zeros 20)))) &&
        decide ((t.link 1).tx = frameA)) = true := by decide +kernel

/-- P4 step 1. -/
theorem test_writeChannel_blocked : sent (exec (.writeChannel 1 recordC 1000 false) live) =
    some (.error { error := .unsupported 0x40#8 .blocked (some 42#16), opcode := some 0x40#8, channel := some 42#16,
                   risk := some .blocked }, []) := by decide +kernel

theorem test_queryStatus : sent (exec (.queryStatus 1 1000) (answering live [framed [0x03, 0x0B, 0xF9, 0x37]])) =
    some (.bytes [], framed [0x03, 0x0B, 0xF9, 0x37]) := by decide +kernel

theorem test_setAllowUnstable : after (exec (.setAllowUnstable 1 true) live) (fun t => decide (t = { opted with ret := .unit })) =
    true := by decide +kernel

/-- P3 step 3, and step 4 in section 7.1's numbers: `last_unstable = 6000` at 10000. -/
theorem test_queryMeters :
    after (exec (.queryMeters 1 1000) (answering opted [framed [0x05, 0x2A, 0x12, 0x34, 0x6A, 0x44]])) (fun t =>
      decide (t.ret = .bytes (hx [0x12, 0x34])) && decide ((t.link 1).unstableAt = some 10000)) = true ∧
    sent (exec (.queryMeters 1 1000) (opted.setLink 1 { opted.link 1 with unstableAt := some 6000 })) =
      some (.error { error := .rateLimited 0x2A#8 1000, opcode := some 0x2A#8, channel := none,
                     risk := some .unstable }, []) := by decide +kernel

/-- Section 7.1: exactly `MIN_INTERVAL` after the previous one is admitted, one less is not. -/
theorem test_queryParams :
    after (exec (.queryParams 1 1000) (answering (opted.setLink 1 { opted.link 1 with unstableAt := some 5000 })
      [framed ([0x21, 0x2B] ++ params ++ [0x5A, 0x16])])) (fun t => decide (t.ret = .bytes (hx params))) = true ∧
    after (exec (.queryParams 1 1000) (opted.setLink 1 { opted.link 1 with unstableAt := some 5001 })) (fun t =>
      decide (errorOf t.ret = some (.rateLimited 0x2B#8 1))) = true := by decide +kernel

/-- Section 9: item 1 suffers an I/O failure; the items after it find no Session. -/
theorem test_readAll :
    after (exec (.readAll 1 1000 [42#16, 5#16, 6#16])
      (failing (answering live [replyP1]) (List.replicate 48 false ++ [true]))) (fun t =>
        match t.ret with
        | .readAll [.ok a, .err b, .err c] => a.indexMatches && decide (b.error = .connection 1 .portUnavailable) &&
            decide (c.error = .connection 1 .notConnected) && decide ((t.link 1).tx = read42)
        | _ => false) = true := by decide +kernel

/-- P4 step 2, its first two items: the Digital record is blocked, the other is written. -/
theorem test_writeAll :
    after (exec (.writeAll 1 1000 [recordC, recordA]) (answering live [frameA])) (fun t =>
      match t.ret with
      | .writeAll [.err e, .ok] => decide (e.error = .unsupported 0x40#8 .blocked (some 42#16)) &&
          decide ((t.link 1).tx = frameA)
      | _ => false) = true := by decide +kernel

/-! ## Witnesses: the hypotheses of each statement hold together of something -/

/-- `CFG_REF`'s rows of the two channel commands and of meter sync. -/
def rowRead : Row := ⟨"channel read", .fixed 2, .record, .stable⟩

/-- Likewise. -/
def rowWrite : Row := ⟨"channel write", .record, .record, .stable⟩

/-- Likewise. -/
def rowMeter : Row := ⟨"meter sync", .any, .fixed 2, .unstable⟩

/-- The parameter sync row. -/
def rowParams : Row := ⟨"parameter sync", .any, .fixed 30, .unstable⟩

/-- Likewise. -/
def rowStatus : Row := ⟨"status sync", .any, .any, .stable⟩

/-- A bound on each element of a list, from its test. -/
theorem each_le {α : Type} {f : α → Nat} {n : Nat} {xs : List α} (h : xs.all (fun x => decide (f x ≤ n)) = true) :
    ∀ x ∈ xs, f x ≤ n := fun x hx => of_decide_eq_true (List.all_eq_true.mp h x hx)

/-- Two frames of one configuration, their lengths at the bounds 252 and 253 of a payload. -/
theorem witness_EncodeBuildsTheFrame : (zeros 252).length ≤ 252 ∧ 252 < (zeros 253).length := by decide +kernel

theorem witness_CrcSixteenIsInitThenBytes : live.cfg.poly = State.reset.cfg.poly ∧ live.cfg.crcInit = State.reset.cfg.crcInit :=
  ⟨rfl, rfl⟩

theorem witness_CrcResidueIsZero : ∃ t u, live.cfg.poly.getLsbD 0 = true ∧
    exec (.crc16 (hx [0x03, 0x0B])) live = .next t ∧
    exec (.crc16 (hx [0x03, 0x0B] ++ [(0xF937#16).extractLsb' 8 8, (0xF937#16).extractLsb' 0 8])) live = .next u ∧
    u.crcReg = 0#16 := ⟨_, _, by decide, rfl, rfl, by decide +kernel⟩

/-- A burst at each end of its range: `j = 0` and `j = 8`. -/
theorem witness_CrcDetectsBursts : live.cfg.poly.getLsbD 0 = true ∧ (0x8001#16) ≠ 0#16 ∧
    (0x008001#24 = 0#24 ^^^ ((0x8001#16).zeroExtend 24 <<< 0)) ∧
    (0x800100#24 = 0#24 ^^^ ((0x8001#16).zeroExtend 24 <<< 8)) ∧ ∃ t u,
    exec (.crc16 ([] ++ [(0#24).extractLsb' 16 8, (0#24).extractLsb' 8 8, (0#24).extractLsb' 0 8] ++ [])) live = .next t ∧
    exec (.crc16 ([] ++ [(0x800100#24).extractLsb' 16 8, (0x800100#24).extractLsb' 8 8, (0x800100#24).extractLsb' 0 8] ++
      [])) live = .next u := ⟨by decide, by decide, by decide, by decide, _, _, rfl, rfl⟩

theorem witness_EncodedFramesDetermineTheirParts : ∃ t v, live.cfg.wf = true ∧ live.cfg = State.reset.cfg ∧
    exec (.encode 0x0B#8 []) live = .next t ∧ t.ret = .bytes (framed [0x03, 0x0B, 0xF9, 0x37]) ∧
    exec (.encode 0x41#8 (hx [0x00, 0x2A])) State.reset = .next v ∧ v.ret = .bytes read42 :=
  ⟨_, _, by decide +kernel, rfl, rfl, by decide +kernel, rfl, by decide +kernel⟩

theorem witness_DecodeFollowsTheScan : live.cfg.magic.length = 4 := by decide

theorem witness_DecodedPacketsReencode : ∃ t q n, live.cfg.magic.length = 4 ∧ exec (.decode read42) live = .next t ∧
    t.ret = .decoded (.packet q n) :=
  ⟨_, ⟨cfgRef.magic, 5#8, 0x41#8, hx [0x00, 0x2A], 0x9730#16⟩, 10, by decide, rfl, by decide +kernel⟩

theorem witness_DecodeInvertsEncode : live.cfg.magic.length = 4 ∧ (hx [0x00, 0x2A]).length ≤ 252 ∧
    FirstMagic live.cfg (hx [0x00, 0xFF] ++ live.cfg.magic) (hx [0x00, 0xFF]).length := by
  refine ⟨by decide, by decide, by decide, by decide, ?_⟩
  intro i hi
  have h : i = 0 ∨ i = 1 := by
    have : (hx [0x00, 0xFF]).length = 2 := by decide
    omega
  rcases h with rfl | rfl <;> decide

/-- Each clause at its bounds: the first and the last covered byte, a length of 2, a length one above the true one, the
first magic byte. -/
theorem witness_CorruptedFramesAreRejected : live.cfg.magic.length = 4 ∧ live.cfg.poly.getLsbD 0 = true ∧
    (frameOf live.cfg 0x41#8 (hx [0x00, 0x2A]))[5]? ≠ some 0x40#8 ∧
    (frameOf live.cfg 0x41#8 (hx [0x00, 0x2A]))[9]? ≠ some 0x31#8 ∧
    (frameOf live.cfg 0x41#8 (hx [0x00, 0x2A]))[4]? ≠ some 2#8 ∧ (2#8).toNat < 3 ∧
    (frameOf live.cfg 0x41#8 (hx [0x00, 0x2A]))[4]? ≠ some 6#8 ∧ (hx [0x00, 0x2A]).length + 3 < (6#8).toNat ∧
    (frameOf live.cfg 0x41#8 (hx [0x00, 0x2A]))[0]? ≠ some 0#8 ∧
    (∀ i, ((((frameOf live.cfg 0x41#8 (hx [0x00, 0x2A])).set 0 0#8).drop i).take 4) ≠ live.cfg.magic) ∧
    ∃ t r, exec (.decode ((frameOf live.cfg 0x41#8 (hx [0x00, 0x2A])).set 5 0x40#8)) live = .next t ∧ t.ret = .decoded r := by
  refine ⟨by decide, by decide, by decide +kernel, by decide +kernel, by decide +kernel, by decide, by decide +kernel,
    by decide, by decide +kernel, ?_, _, _, rfl, rfl⟩
  have small : ∀ i < 10, ((((frameOf live.cfg 0x41#8 (hx [0x00, 0x2A])).set 0 0#8).drop i).take 4) ≠ live.cfg.magic := by
    decide +kernel
  intro i
  by_cases h : i < 10
  · exact small i h
  · rw [List.drop_of_length_le]
    · decide
    · have : ((frameOf live.cfg 0x41#8 (hx [0x00, 0x2A])).set 0 0#8).length = 10 := by decide +kernel
      omega

/-- A state in each phase; in LEN the bytes 2 and 3 fall under different clauses; in BODY one with more to come and one
at its last byte. -/
theorem witness_DecoderStepsByPhase : (fed 0).dec.phase = .hunt ∧ (fed 6).dec.phase = .len ∧ (2#8).toNat < 3 ∧
    3 ≤ (3#8).toNat ∧ (fed 7).dec.phase = .body ∧ (fed 7).dec.cnt - 1#8 ≠ 0#8 ∧ (fed 9).dec.phase = .body ∧
    (fed 9).dec.cnt - 1#8 = 0#8 ∧ (fed 10).dec.phase = .done := by decide +kernel

/-- A packet, a CRC error and an invalid length. -/
theorem witness_StreamingDecoderAgrees : ∃ t q n, live.cfg.magic.length = 4 ∧ exec (.decode read42) live = .next t ∧
    t.ret = .decoded (.packet q n) ∧ 10 ≤ read42.length ∧
    decodeFrame live.cfg (framed [0x03, 0x0B, 0xF9, 0x38]) = .error .crc ∧
    FirstMagic live.cfg (framed [0x03, 0x0B, 0xF9, 0x38]) 0 ∧ (framed [0x03, 0x0B, 0xF9, 0x38])[0 + 4]? = some 3#8 ∧
    decodeFrame live.cfg (framed [0x02, 0x41]) = .error .lengthInvalid ∧ FirstMagic live.cfg (framed [0x02, 0x41]) 0 ∧
    (framed [0x02, 0x41])[0 + 4]? = some 2#8 :=
  ⟨_, ⟨cfgRef.magic, 5#8, 0x41#8, hx [0x00, 0x2A], 0x9730#16⟩, 10, by decide, rfl, by decide +kernel, by decide +kernel,
    by decide +kernel, ⟨by decide, by decide, nofun⟩, by decide, by decide +kernel, ⟨by decide, by decide, nofun⟩, by decide⟩

theorem witness_ConnectOpensTheSession : (State.reset.link 1).busy = false ∧ 1 ∉ State.reset.portsHeld ∧
    State.reset.env.opens.head? ≠ some false ∧ State.reset.env.lines.head? ≠ some false ∧
    State.reset.env.ioFails.head? ≠ some true := by decide +kernel

/-- `live` with the next draws of CONNECT listed. -/
def drawing (opens lines : List Bool) : State := { live with env := { live.env with opens := opens, lines := lines } }

theorem witness_ConnectFailuresLeaveNoSession : (live.link 1).busy = false ∧ 1 ∈ live.portsHeld ∧
    ((drawing [false] []).link 2).busy = false ∧ 2 ∉ (drawing [false] []).portsHeld ∧
    (drawing [false] []).env.opens.head? = some false ∧ (drawing [true] [false]).env.opens.head? ≠ some false ∧
    (drawing [true] [false]).env.lines.head? = some false ∧ 2 ∉ (drawing [true] [false]).portsHeld := by decide +kernel

theorem witness_DisconnectClosesTheSession : (live.link 1).busy = false ∧ (live.link 1).session ≠ none ∧
    (live.link 2).busy = false ∧ (live.link 2).session = none := by decide +kernel

/-- For RESET_INPUT, TX_PUT and RX_TAKE. -/
theorem witness_ResetInputDiscardsUnreadBytes : (live.link 1).busy = false ∧ (live.link 1).isConnected = true ∧
    live.env.ioFails.head? ≠ some true := by
  decide +kernel

theorem witness_TxPutAppendsTheBytes : (opted.link 1).busy = false ∧ (opted.link 1).isConnected = true ∧
    opted.env.ioFails.head? ≠ some true := by
  decide +kernel

theorem witness_RxTakeTakesTheOldestByte : ((withInput 1 [7#8] live).link 1).busy = false ∧
    ((withInput 1 [7#8] live).link 1).isConnected = true ∧
    (withInput 1 [7#8] live).env.ioFails.head? ≠ some true ∧ (live.link 1).rx = [] ∧
    ((withInput 1 [7#8] live).link 1).rx = [7#8] := by decide +kernel

/-- The first request passes the gate of a state that differs from `live` in its inputs only. -/
theorem passes_read (waits : List Wait) (fails : List Bool) (rx : Bytes) :
    Passes (withInput 1 rx { live with env := { live.env with waits := waits, ioFails := fails } }) 1 rowRead 0x41#8
      (hx [0x00, 0x2A]) false where
  idle := by rfl
  connected := by rfl
  table := by show rowOf cfgRef 0x41#8 = some rowRead; decide +kernel
  admitted := by
    have h : riskOf cfgRef rowRead 0x41#8 (hx [0x00, 0x2A]) = .stable := by decide +kernel
    show Admitted _ 1 rowRead 0x41#8 (hx [0x00, 0x2A]) false
    unfold Admitted
    rw [show (withInput 1 rx { live with env := { live.env with waits := waits, ioFails := fails } }).cfg = cfgRef from rfl, h]
    trivial
  request := by rfl
  length := by decide

/-- `live`, its inputs written. -/
def inputs (waits : List Wait) (fails : List Bool) (rx : Bytes) : State :=
  withInput 1 rx { live with env := { live.env with waits := waits, ioFails := fails } }

/-- `inputs` with the first wait silent to the deadline exactly. -/
def silentOnce (fails : List Bool) : State := inputs [{ dt := 1000, arrive := [] }] fails []

/-- Each clause: a live Session, CONNECT on a free port, and SEND at each draw of its first attempt and the first two of
its second; the last clause with the failure in the last place that was drawn. -/
theorem witness_IoFailureTearsTheSessionDown :
    ((failing live [true]).link 1).busy = false ∧ ((failing live [true]).link 1).isConnected = true ∧ (failing live [true]).env.ioFails.head? = some true ∧
    ((failing State.reset [true]).link 1).busy = false ∧ 1 ∉ (failing State.reset [true]).portsHeld ∧
    (failing State.reset [true]).env.opens.head? ≠ some false ∧ (failing State.reset [true]).env.lines.head? ≠ some false ∧
    (failing State.reset [true]).env.ioFails.head? = some true ∧
    (∀ fails, Passes (inputs [] fails []) 1 rowRead 0x41#8 (hx [0x00, 0x2A]) false) ∧
    (inputs [] [true] []).env.ioFails.head? = some true ∧
    (inputs [] [false, true] []).env.ioFails.take 2 = [false, true] ∧
    (inputs [] [false, false, true] []).env.ioFails.take 3 = [false, false, true] ∧
    (∀ fails, Passes (silentOnce fails) 1 rowRead 0x41#8 (hx [0x00, 0x2A]) false) ∧
    1 ≤ (silentOnce []).cfg.maxRetries ∧ (silentOnce []).cfg.retryDelay = 0 ∧
    (silentOnce []).env.waits = { dt := 1000, arrive := [] } :: [] ∧
    (silentOnce [false, false, false, false, true]).env.ioFails.take 5 = [false, false, false, false, true] ∧
    (silentOnce [false, false, false, false, false, true]).env.ioFails.take 6 =
      [false, false, false, false, false, true] ∧
    ∃ t, exec (.send 1 0x41#8 (hx [0x00, 0x2A]) 1000 false) (inputs [] [false, true] []) = .next t ∧
      t.env.ioFails = (inputs [] [false, true] []).env.ioFails.drop 2 ∧
      true ∈ (inputs [] [false, true] []).env.ioFails.take 2 := by
  refine ⟨by decide +kernel, by decide +kernel, rfl, by decide +kernel, by decide +kernel, by decide +kernel,
    by decide +kernel, rfl, fun _ => passes_read _ _ _, rfl, rfl, rfl, fun _ => passes_read _ _ _, by decide, rfl, rfl, rfl, rfl, ?_⟩
  have h : after (exec (.send 1 0x41#8 (hx [0x00, 0x2A]) 1000 false) (inputs [] [false, true] []))
      (fun t => decide (t.env.ioFails = [])) = true := by decide +kernel
  cases e : exec (.send 1 0x41#8 (hx [0x00, 0x2A]) 1000 false) (inputs [] [false, true] []) with
  | next t =>
    rw [e] at h
    exact ⟨t, rfl, of_decide_eq_true h, by decide +kernel⟩
  | fault f => cases f
  | refused r =>
    rw [e] at h
    cases h

/-- An operation of each kind, the bulk operations among them, on port 2, which has no Session. -/
theorem witness_WithoutASessionNothingIsSent : (live.link 2).busy = false ∧ (live.link 2).isConnected = false ∧
    sessionPort (.ptt 2 1000 []) = some 2 ∧ indicesOk live.cfg (.ptt 2 1000 []) ∧
    sessionPort (.readAll 2 1000 [999#16]) = some 2 ∧ indicesOk live.cfg (.readAll 2 1000 [999#16]) ∧
    sessionPort (.writeAll 2 1000 [recordA]) = some 2 ∧ indicesOk live.cfg (.writeAll 2 1000 [recordA]) := by
  refine ⟨by decide +kernel, by decide +kernel, rfl, trivial, rfl, each_le ?_, rfl, each_le ?_⟩ <;> decide +kernel

/-- `live` in the middle of a request. -/
def inFlight : State := live.setLink 1 { live.link 1 with disp := .sent, attempt := 1 }

/-- A configuration with a row that asks for more bytes than a frame carries. -/
def cfgWide : Config := { cfgRef with optable := (0x60#8, ⟨"wide", .fixed 300, .any, .stable⟩) :: optableRef }

/-- Every branch of the gate, at the bounds of the interval and of the payload. -/
theorem witness_GateChecksInOrder : (inFlight.link 1).busy = true ∧ (live.link 1).busy = false ∧
    (live.link 1).isConnected = true ∧ (live.link 2).busy = false ∧ (live.link 2).isConnected = false ∧
    rowOf live.cfg 0x55#8 = none ∧ rowOf live.cfg 0x41#8 = some rowRead ∧
    riskOf live.cfg rowRead 0x41#8 [0#8] = .stable ∧ ¬ Fits live.cfg rowRead.request [0#8] ∧
    Fits cfgWide (.fixed 300) (hx (zeros 300)) ∧ 252 < (hx (zeros 300)).length ∧
    riskOf live.cfg rowWrite 0x40#8 (hx bytesC) = .blocked ∧ riskOf live.cfg rowWrite 0x40#8 (hx bytesA) = .stable ∧
    riskOf live.cfg rowMeter 0x2A#8 [] = .unstable ∧ (live.link 1).optedIn = false ∧ (opted.link 1).optedIn = true ∧
    (opted.link 1).lastUnstable opted.cfg 0x2A#8 = none ∧ 10000 - 5001 < cfgRef.minInterval ∧
    ¬ 10000 - 5000 < cfgRef.minInterval := by
  have short : ¬ Fits live.cfg rowRead.request [0#8] := by show ¬ [0#8].length = 2; decide
  have wide : Fits cfgWide (.fixed 300) (hx (zeros 300)) := by show (hx (zeros 300)).length = 300; decide +kernel
  simp only [short, wide]
  decide +kernel

/-- R361: the transport operations are operations on the Session too. -/
theorem test_busy_transport : refusal (exec (.resetInput 1) inFlight) = some (.busy 1) ∧
    refusal (exec (.txPut 1 [7#8]) inFlight) = some (.busy 1) ∧
    refusal (exec (.rxTake 1) inFlight) = some (.busy 1) := by decide +kernel

/-- With an index in range and with one above it. -/
theorem witness_BusyPortsRefuseOperations : (inFlight.link 1).busy = true ∧ portOf (.send 1 0x41#8 [] 1000 false) = some 1 ∧
    indicesOk inFlight.cfg (.send 1 0x41#8 [] 1000 false) ∧ portOf (.readAll 1 1000 [999#16]) = some 1 ∧
    indicesOk inFlight.cfg (.readAll 1 1000 [999#16]) ∧ portOf (.rxTake 1) = some 1 ∧
    portOf (.readChannel 1 1000#16 1000) = some 1 ∧ inFlight.cfg.maxChannel < (1000#16).toNat :=
  ⟨by decide +kernel, rfl, trivial, rfl, each_le (by decide +kernel), rfl, rfl, by decide⟩

theorem witness_BlockedDigitalWriteSendsNothing : live.cfg.wf = true ∧ (live.link 1).busy = false ∧
    (live.link 1).isConnected = true ∧ rowOf live.cfg live.cfg.opChWrite = some rowWrite ∧ rowWrite.request = .record ∧
    recordC.index.toNat ≤ live.cfg.maxChannel ∧
    recordC.kind = .digital 12345#32 3106789#32 1#8 1#8 2#8 ∧ (2#8) ≠ 0#8 := by decide +kernel

/-- `opted` with the last Unstable request at a time. -/
def lastAt (t : Nat) : State := opted.setLink 1 { opted.link 1 with unstableAt := some t }

/-- The three clauses; the interval at its bound on both sides; another Unstable opcode after an unanswered request that
took 4 ms, under each scope. -/
theorem witness_UnstableRequestsAreRateLimited : (live.link 1).busy = false ∧ (live.link 1).isConnected = true ∧
    rowOf live.cfg 0x2A#8 = some rowMeter ∧ riskOf live.cfg rowMeter 0x2A#8 [] = .unstable ∧
    (live.link 1).optedIn = false ∧ ((lastAt 5001).link 1).optedIn = true ∧
    ((lastAt 5001).link 1).lastUnstable (lastAt 5001).cfg 0x2A#8 = some 5001 ∧
    (lastAt 5001).now - 5001 < (lastAt 5001).cfg.minInterval ∧
    ((lastAt 5000).link 1).lastUnstable (lastAt 5000).cfg 0x2A#8 = some 5000 ∧
    (lastAt 5000).cfg.minInterval ≤ (lastAt 5000).now - 5000 ∧ Fits live.cfg rowMeter.request [] ∧
    (lastAt 5000).cfg.rateScope = .perClass ∧ rowOf live.cfg 0x2B#8 = some rowParams ∧
    riskOf live.cfg rowParams 0x2B#8 [] = .unstable ∧
    after (exec (.send 1 0x2A#8 [] 1 false) (lastAt 5000)) (fun u => (u.link 1).isConnected &&
      decide (u.now - (lastAt 5000).now < (lastAt 5000).cfg.minInterval)) = true ∧
    { cfgRef with rateScope := .perCommand }.rateScope = .perCommand ∧ (0x2B#8) ≠ 0x2A#8 := by
  have fit : Fits live.cfg rowMeter.request [] := by show [].length ≤ 252; decide
  simp only [fit]
  decide +kernel

/-- The payload of the reply of P1. -/
def payloadP1 : Bytes := (replyP1.drop 6).take 37

/-- The request for channel 42 answered at the first wait, with two bytes after the reply. -/
theorem answered_read (later : List Wait) :
    Answered (inputs (arrival (replyP1 ++ hx [0xEE, 0xEE]) :: later) [] []) 1 rowRead 0x41#8 1000 payloadP1
      (hx [0xEE, 0xEE]) (arrival (replyP1 ++ hx [0xEE, 0xEE])) later where
  magic := by show cfgRef.magic.length = 4; decide
  timeout := by decide
  response := by show payloadP1.length = 26 + cfgRef.tail.len; decide +kernel
  length := by decide +kernel
  noFailure := rfl
  waits := rfl
  arrives := by
    show arriving 1 (arrival (replyP1 ++ hx [0xEE, 0xEE])).arrive = frameOf cfgRef 0x41#8 payloadP1 ++ hx [0xEE, 0xEE]
    decide +kernel

/-- The answered state. -/
def answered : State := inputs [arrival (replyP1 ++ hx [0xEE, 0xEE])] [] []

theorem witness_SendReturnsTheReply : Passes answered 1 rowRead 0x41#8 (hx [0x00, 0x2A]) false ∧
    Answered answered 1 rowRead 0x41#8 1000 payloadP1 (hx [0xEE, 0xEE]) (arrival (replyP1 ++ hx [0xEE, 0xEE])) [] :=
  ⟨passes_read _ _ _, answered_read _⟩

theorem witness_ReturnedPacketsWereReceived : answered.cfg.magic.length = 4 ∧
    after (exec (.send 1 0x41#8 (hx [0x00, 0x2A]) 1000 false) answered) (fun t =>
      match t.ret with
      | .packet _ => true
      | _ => false) = true := by decide +kernel

/-- A failure of each class: nothing received, and the last attempt's bytes of each kind. -/
theorem witness_ExhaustionRaisesProtocolError :
    after (exec (.send 1 0x41#8 (hx [0x00, 0x2A]) 1000 false) (inputs [] [] [])) (fun t =>
      decide (errorOf t.ret = some (.protocol 0x41#8 .timeout 4 []))) = true ∧
    ([(hx [1, 2], FailClass.magic), (framed [0x05], .truncated), (framed [0x02], .lengthInvalid),
      (framed [0x03, 0x41, 0, 0], .crc), (read42, .shape)].all (fun e =>
        after (exec (.send 1 0x41#8 (hx [0x00, 0x2A]) 40 false) (answering live [e.1, e.1, e.1, e.1])) (fun t =>
          decide (errorOf t.ret = some (.protocol 0x41#8 e.2 4 e.1))))) = true := by decide +kernel

theorem witness_SilentDeviceTimesOut : Passes (inputs [] [] [0xEE#8]) 1 rowRead 0x41#8 (hx [0x00, 0x2A]) false ∧
    (inputs [] [] [0xEE#8]).env.waits = [] ∧ (inputs [] [] [0xEE#8]).env.ioFails = [] := ⟨passes_read _ _ _, rfl, rfl⟩

/-- The first wait is silent to the deadline exactly. -/
def secondAnswered : State := inputs [{ dt := 1000, arrive := [] }, arrival (replyP1 ++ hx [0xEE, 0xEE])] [] []

theorem witness_SecondAttemptSucceeds : Passes secondAnswered 1 rowRead 0x41#8 (hx [0x00, 0x2A]) false ∧
    1 ≤ secondAnswered.cfg.maxRetries ∧ secondAnswered.cfg.retryDelay = 0 ∧ 1000 ≤ 1000 ∧
    secondAnswered.env.waits = { dt := 1000, arrive := [] } :: arrival (replyP1 ++ hx [0xEE, 0xEE]) :: [] ∧
    Answered { secondAnswered with env := { secondAnswered.env with waits := [arrival (replyP1 ++ hx [0xEE, 0xEE])] } } 1
      rowRead 0x41#8 1000 payloadP1 (hx [0xEE, 0xEE]) (arrival (replyP1 ++ hx [0xEE, 0xEE])) [] :=
  ⟨passes_read _ _ _, by decide, rfl, by decide, rfl, answered_read []⟩

theorem witness_SendLeavesWholeFrames : Passes answered 1 rowRead 0x41#8 (hx [0x00, 0x2A]) false ∧
    after (exec (.send 1 0x41#8 (hx [0x00, 0x2A]) 1000 false) answered) (fun _ => true) = true :=
  ⟨passes_read _ _ _, by decide +kernel⟩

theorem witness_StaleBytesDoNotMatter :
    Passes (inputs [arrival replyP1] [] (hx [1, 2, 3])) 1 rowRead 0x41#8 (hx [0x00, 0x2A]) false := passes_read _ _ _

theorem witness_WireCommandsAreSend : wireRequest answered.cfg (.chRead 1 1000 42#16) = some (1, 1000, 0x41#8, hx [0x00, 0x2A]) := by
  decide +kernel

/-- Status sync answered with an empty payload, for the wire command and for the query. -/
theorem witness_WireCommandsReturnTheReply :
    wireRequest cfgRef (.statusSync 1 1000 []) = some (1, 1000, 0x0B#8, []) ∧
    queryRequest cfgRef (.queryStatus 1 1000) = some (1, 1000, 0x0B#8, []) ∧
    Passes (inputs [arrival (framed [0x03, 0x0B, 0xF9, 0x37])] [] []) 1 rowStatus 0x0B#8 [] false ∧
    Answered (inputs [arrival (framed [0x03, 0x0B, 0xF9, 0x37])] [] []) 1 rowStatus 0x0B#8 1000 [] []
      (arrival (framed [0x03, 0x0B, 0xF9, 0x37])) [] := by
  have fit : Fits cfgRef .any [] := by show [].length ≤ 252; decide
  refine ⟨rfl, rfl, ⟨rfl, rfl, by decide +kernel, ?_, fit, by decide⟩,
    ⟨by decide, by decide, fit, by decide, rfl, rfl, by decide +kernel⟩⟩
  have h : riskOf cfgRef rowStatus 0x0B#8 [] = .stable := by decide +kernel
  unfold Admitted
  rw [show (inputs [arrival (framed [0x03, 0x0B, 0xF9, 0x37])] [] []).cfg = cfgRef from rfl, h]
  trivial

/-- The refused index is one above the last. -/
theorem witness_ReadChannelReportsTheRecord : (live.link 1).busy = false ∧ (live.link 1).isConnected = true ∧
    live.cfg.maxChannel < (1000#16).toNat ∧ (42#16).toNat ≤ answered.cfg.maxChannel ∧
    Passes answered 1 rowRead answered.cfg.opChRead [(42#16).extractLsb' 8 8, (42#16).extractLsb' 0 8] false ∧
    Answered answered 1 rowRead answered.cfg.opChRead 1000 payloadP1 (hx [0xEE, 0xEE])
      (arrival (replyP1 ++ hx [0xEE, 0xEE])) [] ∧ payloadP1.length = answered.cfg.recordLen :=
  ⟨by decide +kernel, by decide +kernel, by decide, by decide, passes_read _ _ _, answered_read [], by decide +kernel⟩

/-- The write of record A with a given reply. -/
def echoed (reply : Bytes) : State := inputs [arrival reply] [] []

theorem passes_write (reply : Bytes) : Passes (echoed reply) 1 rowWrite 0x40#8 (encodeRecord cfgRef recordA) false where
  idle := by rfl
  connected := by rfl
  table := by show rowOf cfgRef 0x40#8 = some rowWrite; decide +kernel
  admitted := by
    have h : riskOf cfgRef rowWrite 0x40#8 (encodeRecord cfgRef recordA) = .stable := by decide +kernel
    unfold Admitted
    rw [show (echoed reply).cfg = cfgRef from rfl, h]
    trivial
  request := by
    show (encodeRecord cfgRef recordA).length = 26 + cfgRef.tail.len
    decide +kernel
  length := by decide +kernel

/-- The reply of P2 step 2. -/
def wrongEcho : List Nat := bytesA.take 17 ++ zeros 20

/-- A refused index, an equal echo and a different one. -/
theorem witness_WriteChannelComparesTheEcho : (live.link 1).busy = false ∧ (live.link 1).isConnected = true ∧
    live.cfg.maxChannel < { recordA with index := 1000#16 }.index.toNat ∧ recordA.index.toNat ≤ cfgRef.maxChannel ∧
    exec (.encodeChannel recordA) (echoed frameA) =
      .next (returning (.bytes (encodeRecord cfgRef recordA)) (echoed frameA)) ∧
    Passes (echoed frameA) 1 rowWrite 0x40#8 (encodeRecord cfgRef recordA) false ∧
    Answered (echoed frameA) 1 rowWrite 0x40#8 1000 (hx bytesA) [] (arrival frameA) [] ∧
    hx bytesA = encodeRecord cfgRef recordA ∧
    Answered (echoed (framed ([0x28, 0x40] ++ wrongEcho ++ [0xB7, 0xE5]))) 1 rowWrite 0x40#8 1000 (hx wrongEcho) []
      (arrival (framed ([0x28, 0x40] ++ wrongEcho ++ [0xB7, 0xE5]))) [] ∧
    hx wrongEcho ≠ encodeRecord cfgRef recordA :=
  ⟨by decide +kernel, by decide +kernel, by decide, by decide, rfl, passes_write _,
    ⟨by decide, by decide, by show (hx bytesA).length = 26 + cfgRef.tail.len; decide +kernel, by decide +kernel, rfl, rfl,
      by decide +kernel⟩, by decide +kernel,
    ⟨by decide, by decide, by show (hx wrongEcho).length = 26 + cfgRef.tail.len; decide +kernel, by decide +kernel, rfl,
      rfl, by decide +kernel⟩, by decide +kernel⟩

theorem witness_OptInIsWritten : (live.link 1).busy = false ∧ (live.link 1).session = some (newSession cfgRef 1) ∧
    (newSession cfgRef 1).connected = true := by decide +kernel

/-- `live` with cancel requests listed. -/
def cancelling (cancels : List Bool) : State := { live with env := { live.env with cancels := cancels } }

/-- Both clauses; in the second the item and the rest of the batch answer. -/
theorem witness_ReadAllVisitsItemsInOrder : (live.link 1).busy = false ∧
    (∀ j ∈ [999#16, 0#16], j.toNat ≤ live.cfg.maxChannel) ∧ (cancelling [true]).env.cancels.head? = some true ∧
    live.env.cancels.head? ≠ some true ∧
    after (exec (.readChannel 2 999#16 1000) { live with env := { live.env with cancels := live.env.cancels.tail } })
      (fun t => (readSlotOf t.ret).isSome && after (exec (.readAll 2 1000 []) t) (fun u => decide (u.ret = .readAll []))) =
        true := ⟨by decide +kernel, each_le (by decide +kernel), by decide +kernel⟩

theorem witness_WriteAllVisitsItemsInOrder : (live.link 1).busy = false ∧
    (∀ x ∈ [recordA, recordC], x.index.toNat ≤ live.cfg.maxChannel) ∧ (cancelling [true]).env.cancels.head? = some true ∧
    live.env.cancels.head? ≠ some true ∧
    after (exec (.writeChannel 2 recordA 1000 false) { live with env := { live.env with cancels := live.env.cancels.tail } })
      (fun t => (writeSlotOf t.ret).isSome && after (exec (.writeAll 2 1000 []) t) (fun u => decide (u.ret = .writeAll []))) =
        true := ⟨by decide +kernel, each_le (by decide +kernel), by decide +kernel⟩

theorem readRowShapes_ref : ReadRowShapes live.cfg := ⟨rowRead, by decide +kernel, rfl, rfl⟩

/-- The last index and the one above it. -/
theorem witness_BulkOperationsFillEverySlot : (live.link 1).busy = false ∧ live.env.cancels = [] ∧ ReadRowShapes live.cfg ∧
    (∀ j ∈ [0#16, 999#16], j.toNat ≤ live.cfg.maxChannel) ∧ WriteRowShapes live.cfg ∧
    (∀ r ∈ [recordA, recordC], r.index.toNat ≤ live.cfg.maxChannel) ∧ (live.link 1).isConnected = true ∧
    live.cfg.maxChannel < (1000#16).toNat ∧ live.cfg.maxChannel < { recordA with index := 1000#16 }.index.toNat :=
  ⟨by decide +kernel, rfl, readRowShapes_ref, each_le (by decide +kernel),
    ⟨rowWrite, by decide +kernel, rfl, rfl, by decide +kernel⟩, each_le (by decide +kernel), by decide +kernel,
    by decide, by decide⟩

/-- The first and the last item. -/
theorem witness_CancelStopsBetweenItems : ((cancelling [true]).link 1).busy = false ∧ ReadRowShapes (cancelling [true]).cfg ∧
    (∀ j ∈ [0#16, 999#16], j.toNat ≤ live.cfg.maxChannel) ∧ 0 < [0#16, 999#16].length ∧
    (cancelling [true]).env.cancels = List.replicate 0 false ++ true :: [] ∧ 1 < [0#16, 999#16].length ∧
    (cancelling [false, true]).env.cancels = List.replicate 1 false ++ true :: [] :=
  ⟨by decide +kernel, readRowShapes_ref, each_le (by decide +kernel), by decide, rfl, by decide, rfl⟩

/-- An Analog record with both ends of its tail, and a Digital one, under the layout of R275 and under the packed one. -/
theorem witness_EncodeChannelLayout : live.cfg.wf = true ∧ recordA.kind = .analog ∧ 26 ≤ 26 ∧
    36 < (encodeRecord cfgRef recordA).length ∧ recordC.kind = .digital 12345#32 3106789#32 1#8 1#8 2#8 ∧
    live.cfg.tail = tailRef ∧ packed.wf = true ∧ (2#8).toNat < 2 ^ packed.tail.timeslot.length ∧
    (15#8).toNat < 2 ^ packed.tail.rxColor.length ∧ 77 ∉ packed.tail.positions ∧ recordA.rxTone = .freq 1000 ∧ (13, 1000) ∈ live.cfg.tones := by decide +kernel

theorem witness_StrictEncoderReportsTones : live.cfg.wf = true ∧ NoEntry live.cfg (.freq 1001) ∧
    NoEntry live.cfg (.unknown 25#8) ∧ ¬ NoEntry live.cfg (.freq 1000) ∧ ¬ NoEntry live.cfg .noTone := by
  refine ⟨by decide +kernel, .inl ⟨1001, rfl, by decide +kernel⟩, .inr ⟨25#8, rfl⟩, ?_, ?_⟩
  · rintro (⟨f, h, hf⟩ | ⟨i, h⟩)
    · cases h
      exact hf (13, 1000) (by decide +kernel) rfl
    · cases h
  · rintro (⟨f, h, -⟩ | ⟨i, h⟩) <;> cases h

/-- Lengths on both sides, a timeslot byte of 0 and of 2; tone bytes assigned, 0 and reserved. -/
theorem witness_DecodeChannelReadsTheFields : live.cfg.wf = true ∧ (hx (zeros 36)).length ≠ 26 + live.cfg.tail.len ∧
    (hx bytesC).length = 26 + live.cfg.tail.len ∧ (hx (zeros 38)).length ≠ 26 + live.cfg.tail.len ∧
    live.cfg.tail = tailRef ∧ (hx bytesA).getD 36 0#8 = 0#8 ∧ (hx bytesC).getD 36 0#8 = 2#8 ∧
    (∀ k ∈ live.cfg.tail.timeslot, bitOf ((hx bytesA).drop 26) k = false) ∧ 86 ∈ live.cfg.tail.timeslot ∧
    bitOf ((hx bytesC).drop 26) 86 = true ∧ (hx bytesA).getD 12 0#8 = 13#8 ∧
    (13, 1000) ∈ live.cfg.tones ∧ (hx bytesC).getD 12 0#8 = 0#8 ∧ (hx bytesE).getD 12 0#8 = 25#8 ∧
    ∀ e ∈ live.cfg.tones, e.1 ≠ (25#8).toNat := by decide +kernel

/-- Record A is valid (R277). -/
theorem recordA_valid : ValidRecord cfgRef recordA where
  index := by decide
  rxMode := ⟨_, List.mem_of_elem_eq_true (by decide : cfgRef.modes.elem (6#8, cfgRef.modes.lookup 6#8 |>.getD "") = true)⟩
  txMode := ⟨_, List.mem_of_elem_eq_true (by decide : cfgRef.modes.elem (6#8, cfgRef.modes.lookup 6#8 |>.getD "") = true)⟩
  rxTone := .inr ⟨13, 1000, rfl, by decide +kernel⟩
  txTone := .inr ⟨13, 1000, rfl, by decide +kernel⟩
  length := by decide
  noNul := by decide
  kind := nofun

/-- Each clause: a valid record; a name of 12 bytes and one with a NUL; a frequency without an entry; an unknown tone; a
Digital record with timeslot 0. -/
theorem witness_ValidRecordsRoundTrip : live.cfg.wf = true ∧ ValidRecord live.cfg recordA ∧
    11 < (hx (List.range' 65 12)).length ∧ 0#8 ∈ hx [0x41, 0x00, 0x42] ∧ (∀ e ∈ live.cfg.tones, e.2 ≠ 1001) ∧
    (∃ t u v bytes result d, exec (.encodeChannel recordC) live = .next t ∧ t.ret = .bytes bytes ∧
      exec (.encodeChannelStrict recordC) live = .next u ∧ u.ret = .strict result ∧
      exec (.decodeChannel bytes) live = .next v ∧ v.ret = .record d) ∧
    { recordC with kind := .digital 12345#32 3106789#32 1#8 1#8 0#8 }.kind =
      .digital 12345#32 3106789#32 1#8 1#8 0#8 := by
  refine ⟨by decide +kernel, recordA_valid, by decide, by decide, by decide +kernel,
    ⟨_, _, returning (.record recordC) live, _, _, recordC, rfl, rfl, rfl, rfl, ?_, ?_⟩, rfl⟩
  · have hl : (encodeRecord live.cfg recordC).length = live.cfg.recordLen := by decide +kernel
    have hd : decodeRecord live.cfg (encodeRecord live.cfg recordC) = recordC := by decide +kernel
    show execDecodeChannel (encodeRecord live.cfg recordC) live = _
    rw [execDecodeChannel, if_pos hl, hd]
    rfl
  · rfl

theorem witness_ToneTableIsBijective : live.cfg.wf = true ∧ (13, 1000) ∈ live.cfg.tones := by decide +kernel

/-- The first and the last reserved index, the first index above 55, the last byte, 0, and an assigned index; in both
fields. -/
theorem witness_ReservedTonesAreUnknown : live.cfg.wf = true ∧ (hx bytesE).length = live.cfg.recordLen ∧
    (hx bytesE)[12]? = some 25#8 ∧ (25#8).toNat ∈ [25, 45, 47, 51, 53] ∧ (53#8).toNat ∈ [25, 45, 47, 51, 53] ∧
    55 < (56#8).toNat ∧ 55 < (255#8).toNat ∧ (hx bytesC)[12]? = some 0#8 ∧
    (hx bytesE)[13]? = some 56#8 ∧ (hx bytesA)[13]? = some 13#8 ∧ ((13#8).toNat, 1000) ∈ live.cfg.tones := by
  decide +kernel

theorem witness_NamesAreTruncated : ∃ t u bytes d, exec (.encodeChannel recordC) live = .next t ∧ t.ret = .bytes bytes ∧
    exec (.decodeChannel bytes) live = .next u ∧ u.ret = .record d := by
  obtain ⟨-, -, -, -, -, ⟨t, _, v, bytes, _, d, h1, h2, _, _, h5, h6⟩, -⟩ := witness_ValidRecordsRoundTrip
  exact ⟨t, v, bytes, d, h1, h2, h5, h6⟩

/-- A frame that is a wire command, one rejected for each reason, an operation, and an idle request at the head of the
queue; an empty queue, with and without a wait listed; a configuration that is not well-formed. -/
theorem witness_StepRunsTheDecodedInstruction : live.cfg.wf = true ∧
    { live with requests := [.frame 1 1000 read42] }.requests = .frame 1 1000 read42 :: [] ∧
    decode { live with requests := [.frame 1 1000 read42] }.cfg 1 1000 read42 = .instr (.chRead 1 1000 42#16) [] ∧
    decode live.cfg 1 1000 (framed [0x03, 0x0B, 0xF9, 0x38]) = .rejected (.framing .crc) ∧
    decode live.cfg 1 1000 (encodeFrame cfgRef 0x55#8 []) = .rejected (.unassignedOpcode 0x55#8 []) ∧
    decode live.cfg 1 1000 (encodeFrame cfgRef 0x41#8 [0#8]) = .rejected (.operandShape 0x41#8 [0#8]) ∧
    { live with requests := [.op .crcInit] }.requests = .op .crcInit :: [] ∧
    { live with requests := [.idle] }.requests.head? = some .idle ∧ live.requests = [] ∧ live.env.waits = [] ∧
    (answering live [[7#8]]).env.waits = arrival [7#8] :: [] ∧ (answering live [[7#8]]).requests = [] ∧
    { live with cfg := { cfgRef with magic := [] } }.cfg.wf = false := by decide +kernel

theorem witness_InstructionDecodingInvertsEncoding : cfgRef.wf = true ∧ (Instr.chRead 1 1000 42#16).wf cfgRef = true ∧
    wireRequest cfgRef (.chRead 1 1000 42#16) = some (1, 1000, 0x41#8, hx [0x00, 0x2A]) ∧
    (Instr.spectrum 1 1 (hx (zeros 252))).wf cfgRef = true := by decide +kernel

/-- The power-on state with an operation in the queue, at a later time. -/
def queued : State := { State.reset with now := 5, requests := [.op .crcInit] }

theorem witness_StepKeepsTheInvariant : queued.Inv ∧ ∃ t, step queued = .next t := by
  have hs : ∃ t, step queued = .next t := by
    have hw : queued.cfg.wf = true := by decide +kernel
    rw [step, if_pos hw]
    exact ⟨_, rfl⟩
  refine ⟨⟨⟨by decide +kernel, rfl, rfl, fun p => ?_, ⟨by decide, rfl, rfl⟩, fun p => ?_⟩, fun p => rfl⟩, hs⟩
  · simp [queued, State.reset, State.link, linkAt, assoc, Link.powerOn]
  · exact ⟨nofun, Nat.zero_le _, Nat.zero_le _, rfl⟩

/-- For an operation on a port and for one on none. -/
theorem witness_TransmitLogOnlyGrows : ∃ t, exec (.txPut 1 [7#8]) live = .next t := ⟨_, rfl⟩

theorem witness_OtherPortsAreLeftAlone : ∃ t u, exec (.txPut 1 [7#8]) live = .next t ∧ portOf (.txPut 1 [7#8]) ≠ some 2 ∧
    exec .crcInit live = .next u ∧ portOf .crcInit = none := ⟨_, _, rfl, by decide, rfl, rfl⟩

end Sys2Proof.Tests
end

/-!
What a step does, said once for each head of the host's queue, and O53 from it (00_scope.md R7, 30_encoding.md R104,
46_host_operations.md section 1, 60_exceptions.md R321).
-/

namespace Sys2Proof.Machine

/-! ## Fetch -/

theorem popRequest_nil {s : State} (h : s.requests = []) : s.popRequest = s := by
  rw [State.popRequest, h, List.tail_nil, ← h]

theorem popRequest_cons {s : State} {r : Request} {rest : List Request} (h : s.requests = r :: rest) :
    s.popRequest = { s with requests := rest } := by rw [State.popRequest, h, List.tail_cons]

theorem fetch_op {s : State} {i : Instr} {rest : List Request} (h : s.requests = .op i :: rest) :
    fetch s = .run i { s with requests := rest } := by rw [fetch, h, popRequest_cons h]

theorem fetch_frame_instr {s : State} {p : PortId} {t : Nat} {bytes more : Bytes} {i : Instr} {rest : List Request}
    (h : s.requests = .frame p t bytes :: rest) (hd : decode s.cfg p t bytes = .instr i more) :
    fetch s = .run i { s with requests := rest } := by
  rw [fetch, h, popRequest_cons h]
  simp only [hd]

theorem fetch_frame_rejected {s : State} {p : PortId} {t : Nat} {bytes : Bytes} {e : DecodeError}
    {rest : List Request} (h : s.requests = .frame p t bytes :: rest) (hd : decode s.cfg p t bytes = .rejected e) :
    fetch s = .run (rejectedOp p t bytes e) { s with requests := rest } := by
  rw [fetch, h, popRequest_cons h]
  simp only [hd]

/-- Removing the head of an empty queue changes nothing, so both ways to issue nothing are one case. -/
theorem fetch_idle {s : State} (h : s.requests = [] ∨ s.requests.head? = some .idle) :
    fetch s = .idle s.popRequest := by
  rcases h with hnil | hidle
  · rw [fetch, hnil, popRequest_nil hnil]
  · obtain ⟨rest, hcons⟩ := List.head?_eq_some_iff.mp hidle
    rw [fetch, hcons]

/-! ## Step -/

theorem step_run {s s1 : State} {i : Instr} (hwf : s.cfg.wf = true) (h : fetch s = .run i s1) :
    step s = exec i s1 := by rw [step, if_pos hwf, h]

theorem step_idle {s s1 : State} (hwf : s.cfg.wf = true) (h : fetch s = .idle s1) :
    step s = .next (idleStep s1) := by rw [step, if_pos hwf, h]

theorem step_illFormed {s : State} (hwf : s.cfg.wf = false) : step s = .refused .illFormedConfig := by
  rw [step, hwf, if_neg Bool.false_ne_true]

/-! ## The step of the environment -/

theorem idleStep_nil {s : State} (h : s.env.waits = []) : idleStep s = s := by rw [idleStep, h]

theorem idleStep_cons {s : State} {w : Wait} {later : List Wait} (h : s.env.waits = w :: later) :
    idleStep s = applyWait w { s with env := { s.env with waits := later } } := by rw [idleStep, h]

/-- A wait changes the time and the ports' records only; `link_applyWait` says how the records change. -/
theorem applyWait_eq (w : Wait) (s : State) :
    applyWait w s = { s with now := s.now + w.dt, links := (applyWait w s).links } := by
  obtain ⟨hcfg, hcrc, hdec, hheld, hnow, hreq, henv, hret⟩ := applyWait_fields w s
  rw [← hcfg, ← hcrc, ← hdec, ← hheld, ← hnow, ← hreq, ← henv, ← hret]

end Sys2Proof.Machine

namespace Sys2Proof.Statements

open Sys2Proof Sys2Proof.Machine

/-- Settles O53, by the head of the queue: what `fetch` finds there decides between `exec` and the step of the
environment. -/
theorem stepRunsTheDecodedInstruction : Obligations.StepRunsTheDecodedInstruction := by
  refine ⟨fun s i rest hwf => ⟨?frameInstr, ?frameRejected, ?op⟩, fun s hwf hq => ⟨?noWait, ?wait⟩,
    fun s hwf => step_illFormed hwf⟩
  case frameInstr => exact fun p t bytes more h hd => step_run hwf (fetch_frame_instr h hd)
  case op => exact fun h => step_run hwf (fetch_op h)
  case frameRejected =>
    intro p t bytes payload command cls h
    have rejected {e : DecodeError} (hd : decode s.cfg p t bytes = .rejected e) :
        step s = exec (rejectedOp p t bytes e) { s with requests := rest } :=
      step_run hwf (fetch_frame_rejected h hd)
    exact ⟨rejected, fun hd => hd.elim rejected rejected⟩
  case noWait =>
    intro hw
    rw [step_idle hwf (fetch_idle hq), idleStep_nil (s := s.popRequest) hw, State.popRequest]
  case wait =>
    intro w later hw
    rw [step_idle hwf (fetch_idle hq), idleStep_cons (s := s.popRequest) hw]
    exact ⟨_, rfl, fun q => by rw [link_applyWait, arriving_eq]; rfl, applyWait_eq w _⟩

end Sys2Proof.Statements

/-!
SEND from its gate to its end, said once: what the gate answers a request, what SEND makes of that answer, and which
registers a request that passed leaves (43_dispatcher.md R191 to R198, R212). O29 follows from it.
-/

namespace Sys2Proof.Machine

/-! ## The gate -/

/-- A payload that fits the request shape and a frame is admitted (R197). -/
theorem gateShape_of_fits {cfg : Config} {row : Row} {command : Byte} {payload : Bytes} (risk : Risk)
    (hfits : fits cfg row.request payload = true) (hlen : payload.length ≤ maxPayload) :
    gateShape cfg row command payload risk = .pass risk := by
  rw [gateShape, hfits, Bool.not_true, if_neg Bool.false_ne_true, if_neg (Nat.not_lt.mpr hlen)]

theorem gateUnstable_notOptedIn {cfg : Config} {l : Link} (now : Nat) (row : Row) (command : Byte) (payload : Bytes)
    (h : l.optedIn = false) : gateUnstable cfg l now row command payload =
      .error (.unsupported command .notOptedIn (writeIndex cfg command payload)) := by
  rw [gateUnstable, h, Bool.not_false, if_pos rfl]

/-- Inside the interval the shape of the payload is not looked at (R196 before R197). -/
theorem gateUnstable_rateLimited {cfg : Config} {l : Link} {now t0 : Nat} (row : Row) {command : Byte}
    (payload : Bytes) (hopt : l.optedIn = true) (hlast : l.lastUnstable cfg command = some t0)
    (hin : now - t0 < cfg.minInterval) : gateUnstable cfg l now row command payload =
      .error (.rateLimited command (cfg.minInterval - (now - t0))) := by
  simp only [gateUnstable, hopt, hlast, Bool.not_true, Bool.false_eq_true, if_false, if_pos hin]

theorem gateUnstable_of_elapsed {cfg : Config} {l : Link} {now : Nat} (row : Row) {command : Byte} (payload : Bytes)
    (hopt : l.optedIn = true)
    (hlast : ∀ t0, l.lastUnstable cfg command = some t0 → cfg.minInterval ≤ now - t0) :
    gateUnstable cfg l now row command payload = gateShape cfg row command payload .unstable := by
  simp only [gateUnstable, hopt, Bool.not_true, Bool.false_eq_true, if_false]
  cases h : l.lastUnstable cfg command with
  | none => rfl
  | some t0 => exact if_neg (Nat.not_lt.mpr (hlast t0 h))

theorem stampPolicy_now (p : PortId) (command : Byte) (r : Risk) (s : State) :
    (stampPolicy p command r s).now = s.now := by cases r <;> rfl

theorem stampPolicy_env (p : PortId) (command : Byte) (r : Risk) (s : State) :
    (stampPolicy p command r s).env = s.env := by cases r <;> rfl

/-! ## SEND -/

theorem exec_send (p : PortId) (command : Byte) (payload : Bytes) (t : Nat) (allow : Bool) (s : State) :
    exec (.send p command payload t allow) s = execSend p command payload t allow s := rfl

/-- A request that passes the gate returns a value or an error after the retry loop, which began with the stamp and
the latch. -/
theorem exec_send_of_pass {p : PortId} {command : Byte} {payload : Bytes} {t : Nat} {allow : Bool} {s : State}
    {r : Risk} (hg : gate s.cfg (s.link p) s.now p command payload allow = .pass r) :
    ∃ v s', exec (.send p command payload t allow) s = .next (returnValue v s') ∧
      Sent p s.cfg.maxRetries (latch p command payload t (stampPolicy p command r s)) s' ∧
      Drains p [] (latch p command payload t (stampPolicy p command r s)) s' := by
  obtain ⟨packetDrains, errorDrains⟩ := tryAttempts_drains p s.cfg.maxRetries
    (latch p command payload t (stampPolicy p command r s))
  rcases tryAttempts_spec p s.cfg.maxRetries (latch p command payload t (stampPolicy p command r s)) with
    ⟨q, s', h, sent⟩ | ⟨e, s', h, sent⟩
  · exact ⟨.packet q, s', by simp only [exec_send, execSend, sendRequest, hg, h], sent, packetDrains q s' h⟩
  · refine ⟨.error (sendReport s.cfg command payload none e), s', ?_, sent, errorDrains e s' h⟩
    simp only [exec_send, execSend, sendRequest, hg, h, raiseError_of_idle sent.idle, returnValue]

/-! ## The rate-limit registers -/

/-- The gate reads no other field than the registers of R32. -/
theorem lastUnstable_congr {l m : Link} (h : l.unstableAt = m.unstableAt ∧ l.unstableAtOp = m.unstableAtOp)
    (cfg : Config) (command : Byte) : l.lastUnstable cfg command = m.lastUnstable cfg command := by
  obtain ⟨hclass, hop⟩ := h
  rw [Link.lastUnstable, Link.lastUnstable, hclass, hop]

theorem optedIn_congr {l m : Link} (h : l.session = m.session) : l.optedIn = m.optedIn := by
  rw [Link.optedIn, Link.optedIn, h]

theorem isConnected_of_absent {l : Link} (h : l.session = none) : l.isConnected = false := by
  rw [Link.isConnected, h]

/-- What SEND of an Unstable request that passes the gate leaves of what the gate reads: nothing in flight, the Session
as it was or torn down, and the registers with the stamp of the gate's time (R196, R212). -/
structure Stamped (p : PortId) (command : Byte) (s u : State) : Prop where
  cfg     : u.cfg = s.cfg
  idle    : (u.link p).busy = false
  session : (u.link p).session = (s.link p).session ∨ (u.link p).session = none
  last    : ∀ other, (u.link p).lastUnstable s.cfg other =
    ((s.link p).stampUnstable s.cfg command s.now).lastUnstable s.cfg other

theorem exec_send_stamps {p : PortId} {command : Byte} {payload : Bytes} {t : Nat} {allow : Bool} {s : State}
    (hg : gate s.cfg (s.link p) s.now p command payload allow = .pass .unstable) :
    ∃ u, exec (.send p command payload t allow) s = .next u ∧ Stamped p command s u := by
  obtain ⟨v, s', hexec, sent, drains⟩ := exec_send_of_pass hg
  refine ⟨returnValue v s', hexec, ?_, sent.idle, ?_, fun other => ?_⟩
  · rw [returnValue_cfg, sent.evolves.cfg, latch_cfg, stampPolicy_cfg]
  · have kept := (link_stampPolicy_fields p command .unstable s).2.2
    simpa only [link_returnValue, link_latch_same, kept] using sent.session
  · have stamped : (stampPolicy p command .unstable s).link p = (s.link p).stampUnstable s.cfg command s.now :=
      link_setLink_same s p _
    rw [link_returnValue, lastUnstable_congr drains.unstable, link_latch_same, stamped]
    rfl

/-- While the Session lives, the opt-in of the request that passed still stands. -/
theorem Stamped.optedIn {p : PortId} {command : Byte} {s u : State} (h : Stamped p command s u)
    (hopt : (s.link p).optedIn = true) (hlive : (u.link p).isConnected = true) : (u.link p).optedIn = true := by
  rcases h.session with same | gone
  · rw [optedIn_congr same, hopt]
  · rw [isConnected_of_absent gone] at hlive
    cases hlive

end Sys2Proof.Machine

namespace Sys2Proof.Statements

open Sys2Proof Sys2Proof.Machine

theorem classOf_of_row {cfg : Config} {command : Byte} {row : Row} (h : rowOf cfg command = some row)
    (payload : Bytes) : classOf cfg command payload = some (riskOf cfg row command payload) := by
  rw [classOf, h]

/-- An error of the gate is reported with the effective class, and changes nothing (R198, log 12). -/
theorem exec_send_of_gate_error {p : PortId} {command : Byte} {payload : Bytes} {t : Nat} {allow : Bool} {s : State}
    {e : TypedError} (hg : gate s.cfg (s.link p) s.now p command payload allow = .error e) :
    exec (.send p command payload t allow) s =
      .next (erring e (some command) none (classOf s.cfg command payload) s) := by
  simp only [exec_send, execSend, sendRequest, hg, raiseError_of_idle (gate_error_idle hg), sendReport,
    reportedRisk_eq, erring]

/-- On a live idle Session the gate is the check of the effective class (R194, R195). -/
theorem gate_of_row {cfg : Config} {l : Link} {row : Row} {command : Byte} (now : Nat) (p : PortId) (payload : Bytes)
    (allow : Bool) (hidle : l.busy = false) (hlive : l.isConnected = true) (hrow : rowOf cfg command = some row) :
    gate cfg l now p command payload allow =
      match riskOf cfg row command payload with
      | .blocked =>
        if !allow then .error (.unsupported command .blocked (writeIndex cfg command payload))
        else gateShape cfg row command payload .blocked
      | .unstable => gateUnstable cfg l now row command payload
      | .stable => gateShape cfg row command payload .stable := by
  simp only [gate, hidle, hlive, hrow, effectiveRisk_eq, Bool.not_true, Bool.false_eq_true, if_false] <;> rfl

theorem gate_of_unstable {cfg : Config} {l : Link} {row : Row} {command : Byte} {payload : Bytes} (now : Nat)
    (p : PortId) (allow : Bool) (hidle : l.busy = false) (hlive : l.isConnected = true)
    (hrow : rowOf cfg command = some row) (hrisk : riskOf cfg row command payload = .unstable) :
    gate cfg l now p command payload allow = gateUnstable cfg l now row command payload := by
  rw [gate_of_row now p payload allow hidle hlive hrow, hrisk]

/-- `Passes` is what the gate admits. -/
theorem gate_of_passes {s : State} {p : PortId} {row : Row} {command : Byte} {payload : Bytes} {allow : Bool}
    (h : Passes s p row command payload allow) :
    gate s.cfg (s.link p) s.now p command payload allow = .pass (riskOf s.cfg row command payload) := by
  have shape (r : Risk) : gateShape s.cfg row command payload r = .pass r :=
    gateShape_of_fits r (fits_iff.mpr h.request) h.length
  have admitted := h.admitted
  rw [gate_of_row s.now p payload allow h.idle h.connected h.table]
  unfold Admitted at admitted
  cases hr : riskOf s.cfg row command payload <;> simp only [hr] at admitted ⊢
  case stable => exact shape _
  case blocked => rw [admitted, Bool.not_true, if_neg Bool.false_ne_true, shape]
  case unstable =>
    obtain ⟨hopt, hlast⟩ := admitted
    rw [gateUnstable_of_elapsed row payload hopt hlast, shape]

/-- An Unstable request inside the interval: RateLimitedError with the time that remains. -/
theorem exec_send_rateLimited {p : PortId} {command : Byte} {payload : Bytes} {s : State} {row : Row} {t0 : Nat}
    (t : Nat) (allow : Bool) (hidle : (s.link p).busy = false) (hlive : (s.link p).isConnected = true)
    (hrow : rowOf s.cfg command = some row) (hrisk : riskOf s.cfg row command payload = .unstable)
    (hopt : (s.link p).optedIn = true) (hlast : (s.link p).lastUnstable s.cfg command = some t0)
    (hin : s.now - t0 < s.cfg.minInterval) :
    exec (.send p command payload t allow) s = .next
      (erring (.rateLimited command (s.cfg.minInterval - (s.now - t0))) (some command) none (some .unstable) s) := by
  rw [exec_send_of_gate_error ((gate_of_unstable s.now p allow hidle hlive hrow hrisk).trans
    (gateUnstable_rateLimited row payload hopt hlast hin)), classOf_of_row hrow, hrisk]

/-- Settles O29. The gate decides the two errors; when it passes, the registers keep its stamp to the end of SEND, and
a further request reads them there. -/
theorem unstableRequestsAreRateLimited : Obligations.UnstableRequestsAreRateLimited := by
  intro p command payload t allow s row hidle hlive hrow hrisk
  refine ⟨?notOptedIn, ?inside, ?admitted⟩
  case notOptedIn =>
    intro hopt
    rw [exec_send_of_gate_error ((gate_of_unstable s.now p allow hidle hlive hrow hrisk).trans
      (gateUnstable_notOptedIn _ row command payload hopt)), classOf_of_row hrow, hrisk, writeIndex_eq]
  case inside =>
    exact fun t0 hopt hlast hin => exec_send_rateLimited t allow hidle hlive hrow hrisk hopt hlast hin
  case admitted =>
    intro hopt hfits hlen hlast
    have hg : gate s.cfg (s.link p) s.now p command payload allow = .pass .unstable := by
      rw [gate_of_unstable s.now p allow hidle hlive hrow hrisk, gateUnstable_of_elapsed row payload hopt hlast,
        gateShape_of_fits .unstable (fits_iff.mpr hfits) hlen]
    obtain ⟨u, hexec, stamped⟩ := exec_send_stamps (t := t) hg
    have last (other : Byte) := (stamped.last other).trans (lastUnstable_stampUnstable ..)
    refine ⟨u, hexec, ?own, fun hscope => ?perClass, fun hscope other hne => ?perCommand⟩
    case own =>
      rw [last]
      cases s.cfg.rateScope
      · rfl
      · exact if_pos rfl
    case perClass =>
      simp only [hscope] at last
      refine ⟨last, fun other row' payload' t' allow' hrow' hrisk' hlive' hin => ?_⟩
      rw [← stamped.cfg] at last hrow' hrisk' hin ⊢
      exact exec_send_rateLimited t' allow' stamped.idle hlive' hrow' hrisk' (stamped.optedIn hopt hlive')
        (last other) hin
    case perCommand =>
      rw [last, hscope]
      exact if_neg hne

end Sys2Proof.Statements

/-!
A silent environment (log 7): nothing arrives, no I/O step fails, and each wait ends at the awaited time. What the
receive loop, an attempt, the pause and the retry loop do under it, and O33 from them (43_dispatcher.md R200 to R209).
-/

namespace Sys2Proof.Machine

/-- The environment lists no wait and no I/O failure. -/
structure Silent (s : State) : Prop where
  waits   : s.env.waits = []
  ioFails : s.env.ioFails = []

theorem Silent.of_env {s t : State} (h : Silent s) (he : t.env = s.env) : Silent t := ⟨he ▸ h.waits, he ▸ h.ioFails⟩

/-- With nothing listed a wait only advances `now`, to the awaited time. -/
theorem waitStep_silent {s : State} (h : Silent s) (target : Nat) :
    waitStep target s = { s with now := max s.now target } := by rw [waitStep, h.waits]

/-- R206: the pause lasts exactly `RETRY_DELAY` (log 15). -/
theorem retryPause_silent {s : State} (h : Silent s) :
    retryPause s = { s with now := s.now + s.cfg.retryDelay } := by
  rw [retryPause, waitUntil, h.waits, List.length_nil, waitLoop]
  split
  · next hnow =>
    have hzero : s.now + s.cfg.retryDelay = s.now := Nat.le_antisymm hnow (Nat.le_add_right _ _)
    rw [hzero]
  · rw [waitLoop, waitStep_silent h, Nat.max_eq_right (Nat.le_add_right _ _)]

/-! ## The receive loop (R202) -/

/-- An empty `rx` at or after the deadline ends the loop. -/
theorem receiveLoop_deadline {p : PortId} {s : State} (n : Nat) (h : Silent s) (hdec : s.dec.phase ≠ .done)
    (hrx : (s.link p).rx = []) (hdl : (s.link p).deadline ≤ s.now) :
    receiveLoop p (n + 1) s = .done s.decStop := by
  simp only [receiveLoop, if_neg hdec, rxTake, drawIo_of_nil h.ioFails, hrx, Bool.false_eq_true, if_false, if_pos hdl]

/-- An empty `rx` before the deadline makes the engine wait for it. -/
theorem receiveLoop_wait {p : PortId} {s : State} (n : Nat) (h : Silent s) (hdec : s.dec.phase ≠ .done)
    (hrx : (s.link p).rx = []) (hdl : ¬ (s.link p).deadline ≤ s.now) :
    receiveLoop p (n + 1) s = receiveLoop p n (waitStep (s.link p).deadline s) := by
  simp only [receiveLoop, if_neg hdec, rxTake, drawIo_of_nil h.ioFails, hrx, Bool.false_eq_true, if_false, if_neg hdl]

/-- `s` after a receive loop in which nothing arrived: `now` at the deadline, or where it was, and DEC.END applied. -/
def atDeadline (p : PortId) (s : State) : State :=
  { s with now := max s.now (s.link p).deadline, dec := decEnd s.dec }

@[simp] theorem link_atDeadline (p q : PortId) (s : State) : (atDeadline p s).link q = s.link q := rfl

theorem receive_silent {p : PortId} {s : State} (h : Silent s) (hdec : s.dec.phase ≠ .done)
    (hrx : (s.link p).rx = []) :
    receive p s = .done (atDeadline p s) := by
  have fuel : receiveFuel p s = 2 := by simp [receiveFuel, hrx, h.waits]
  rw [receive, fuel]
  by_cases hdl : (s.link p).deadline ≤ s.now
  · rw [receiveLoop_deadline 1 h hdec hrx hdl, atDeadline, Nat.max_eq_left hdl, State.decStop]
  · rw [receiveLoop_wait 1 h hdec hrx hdl, waitStep_silent h]
    exact receiveLoop_deadline 0 (h.of_env rfl) hdec hrx (Nat.le_max_right _ _)

/-! ## The attempts (R201 to R207) -/

/-- What an attempt that nobody answers leaves: one more copy of the frame on `tx`, nothing received, and `now` at the
deadline. -/
structure Unanswered (p : PortId) (s s' : State) : Prop where
  link : s'.link p = { s.link p with
    attempt := (s.link p).attempt + 1, lastRaw := [], rx := [], tx := (s.link p).tx ++ (s.link p).curFrame,
    deadline := s.now + (s.link p).curTimeout, disp := .idle, lastFail := some .timeout }
  now  : s'.now = s.now + (s.link p).curTimeout
  cfg  : s'.cfg = s.cfg
  env  : s'.env = s.env

/-- With no byte received the failure is `Timeout`, whatever the decoder says (R203). -/
theorem classify_timeout {p : PortId} {s : State} {cls : FramingClass} (hdec : s.dec.outcome = .error cls)
    (hraw : (s.link p).lastRaw = []) : classify p s = .failed (failAttempt p .timedOut .timeout s) := by
  simp only [classify, hdec, if_pos hraw]

@[simp] theorem link_transmitted (p : PortId) (s : State) : (transmitted p s).link p = { s.link p with
    attempt := (s.link p).attempt + 1, lastRaw := [], rx := [], tx := (s.link p).tx ++ (s.link p).curFrame,
    deadline := s.now + (s.link p).curTimeout, disp := .sent } := link_setLink_same s p _

theorem attempt_silent {p : PortId} {s : State} (h : Silent s) :
    ∃ s', attempt p s = .failed s' ∧ Unanswered p s s' := by
  have hrecv := receive_silent (p := p) (s := transmitted p s) (h.of_env rfl) nofun (by simp)
  have hclass : classify p (atDeadline p (transmitted p s)) =
      .failed (failAttempt p .timedOut .timeout (atDeadline p (transmitted p s))) :=
    classify_timeout (cls := .magic) rfl (by simp)
  refine ⟨failAttempt p .timedOut .timeout (atDeadline p (transmitted p s)),
    by simp only [attempt_transmitted h.ioFails, hrecv, hclass], ?link, ?now, rfl, rfl⟩
  case link => rw [link_failAttempt_same, link_atDeadline, link_transmitted]
  case now =>
    rw [failAttempt_now, atDeadline, link_transmitted]
    exact Nat.max_eq_right (Nat.le_add_right _ _)

theorem Unanswered.silent {p : PortId} {s s' : State} (g : Unanswered p s s') (h : Silent s) : Silent s' :=
  h.of_env g.env

/-- What the retry loop leaves when every attempt times out. -/
structure TimedOut (p : PortId) (n : Nat) (s s' : State) : Prop where
  now  : s'.now = s.now + (n + 1) * (s.link p).curTimeout + n * s.cfg.retryDelay
  rx   : (s'.link p).rx = []
  tx   : (s'.link p).tx = (s.link p).tx ++ copies (n + 1) (s.link p).curFrame
  idle : (s'.link p).busy = false

/-- `goIdle` touches neither the streams nor time. -/
theorem goIdle_streams (p : PortId) (s : State) : ((goIdle p s).link p).rx = (s.link p).rx ∧
    ((goIdle p s).link p).tx = (s.link p).tx ∧ (goIdle p s).now = s.now := by
  unfold goIdle
  split <;> simp

/-- The last admitted attempt: its error, and the state in which no request is in flight. -/
theorem Unanswered.timedOut {p : PortId} {s s' : State} (g : Unanswered p s s') : TimedOut p 0 s (goIdle p s') := by
  obtain ⟨hrx, htx, hnow⟩ := goIdle_streams p s'
  refine ⟨?_, ?_, ?_, goIdle_busy p s'⟩
  · rw [hnow, g.now]
    omega
  · rw [hrx, g.link]
  · rw [htx, g.link]
    simp [copies]

theorem Unanswered.protocolError {p : PortId} {s s' : State} (g : Unanswered p s s') :
    protocolError (s'.link p) = .protocol (s.link p).curCmd .timeout ((s.link p).attempt + 1) [] := by
  rw [Machine.protocolError, g.link]
  rfl

/-- One attempt before the others: its timeout, the pause after it, and its copy of the frame are added. -/
theorem TimedOut.cons {p : PortId} {n : Nat} {s s1 s' : State} (g : Unanswered p s s1)
    (h : TimedOut p n { s1 with now := s1.now + s1.cfg.retryDelay } s') : TimedOut p (n + 1) s s' := by
  obtain ⟨hnow, hrx, htx, hidle⟩ := h
  have hlink : ({ s1 with now := s1.now + s1.cfg.retryDelay } : State).link p = s1.link p := rfl
  rw [hlink, g.link] at hnow htx
  refine ⟨?_, hrx, ?_, hidle⟩
  · simp only [g.now, g.cfg] at hnow
    rw [hnow]
    ring
  · rw [htx, copies_succ (n + 1), List.append_assoc]

/-- `1 + n` attempts that nobody answers: each sends the frame and times out (R206, R207). -/
theorem tryAttempts_silent {p : PortId} (n : Nat) {s : State} (h : Silent s) :
    ∃ s', tryAttempts p n s =
        .error (.protocol (s.link p).curCmd .timeout ((s.link p).attempt + n + 1) []) s' ∧ TimedOut p n s s' := by
  induction n generalizing s with
  | zero =>
    obtain ⟨s1, hfail, g⟩ := attempt_silent (p := p) h
    exact ⟨goIdle p s1, by simp only [tryAttempts, hfail, g.protocolError, Nat.add_zero], g.timedOut⟩
  | succ n ih =>
    obtain ⟨s1, hfail, g⟩ := attempt_silent (p := p) h
    obtain ⟨s', hrest, timedOut⟩ := ih ((g.silent h).of_env (t := { s1 with now := s1.now + s1.cfg.retryDelay }) rfl)
    refine ⟨s', ?_, timedOut.cons g⟩
    have hlink : ({ s1 with now := s1.now + s1.cfg.retryDelay } : State).link p = s1.link p := rfl
    simp only [tryAttempts, hfail, retryPause_silent (g.silent h), hrest, hlink, g.link]
    rw [Nat.add_right_comm (s.link p).attempt 1 n, Nat.add_assoc (s.link p).attempt n 1]

end Sys2Proof.Machine

namespace Sys2Proof.Statements

open Sys2Proof Sys2Proof.Machine

/-- Settles O33: the gate passes, and from the latch on every admitted attempt times out. -/
theorem silentDeviceTimesOut : Obligations.SilentDeviceTimesOut := by
  intro p command payload timeout allow s row hpass hwaits hio
  have hg := gate_of_passes hpass
  generalize hr : riskOf s.cfg row command payload = risk at hg ⊢
  have hsilent : Silent (latch p command payload timeout (stampPolicy p command risk s)) :=
    Silent.of_env ⟨hwaits, hio⟩ (stampPolicy_env p command risk s)
  obtain ⟨s', htry, hnow, hrx, htx, hidle⟩ := tryAttempts_silent (p := p) s.cfg.maxRetries hsilent
  simp only [link_latch_same, latch_now, latch_cfg, stampPolicy_cfg, stampPolicy_now,
    (link_stampPolicy_fields p command risk s).1, Nat.zero_add, Nat.add_comm s.cfg.maxRetries 1] at htry hnow htx
  refine ⟨{ s' with ret := .error (sendReport s.cfg command payload none
    (.protocol command .timeout (1 + s.cfg.maxRetries) [])) }, ?_, ?_, hnow, hrx, ?_⟩
  · simp only [exec_send, execSend, sendRequest, hg, htry, raiseError_of_idle hidle]
  · rw [sendReport, reportedRisk_eq, classOf_of_row hpass.table, hr]
  · rw [frameOf_eq]
    exact htx

end Sys2Proof.Statements

/-!
The operation TX_PUT, and O22 (42_transport.md R175).
-/

namespace Sys2Proof.Machine

/-- Without an I/O failure TxPut takes one draw and appends the bytes (R175). -/
theorem txPut_of_no_failure {s : State} (h : s.env.ioFails.head? ≠ some true) (p : PortId) (bytes : Bytes) :
    txPut p bytes s = .ok (s.drawIo.2.setLink p { s.link p with tx := (s.link p).tx ++ bytes }) := by
  rcases txPut_cases p bytes s with ⟨hdraw, -⟩ | ⟨-, hok⟩
  · rw [drawIo_fst, decide_eq_true_eq] at hdraw
    exact absurd hdraw h
  · exact hok

theorem exec_txPut_of_no_failure {p : PortId} {s : State} (bytes : Bytes) (hidle : (s.link p).busy = false)
    (hlive : (s.link p).isConnected = true) (hio : s.env.ioFails.head? ≠ some true) :
    exec (.txPut p bytes) s = .next (returnValue .unit
      (s.drawIo.2.setLink p { s.link p with tx := (s.link p).tx ++ bytes })) := by
  simp only [exec, execTxPut, hidle, hlive, txPut_of_no_failure hio, Bool.not_true, Bool.false_eq_true, if_false]

end Sys2Proof.Machine

namespace Sys2Proof.Statements

open Sys2Proof Sys2Proof.Machine

/-- Settles O22: the write of one record, after one draw. -/
theorem txPutAppendsTheBytes : Obligations.TxPutAppendsTheBytes := by
  intro p bytes s hidle hlive hio
  refine ⟨_, exec_txPut_of_no_failure bytes hidle hlive hio, rfl, link_setLink_same ..,
    fun q hq => link_setLink_other hq .., ?_⟩
  rw [drawIo_snd]
  rfl

end Sys2Proof.Statements

/-!
DECODE read backwards: what the bytes are when it returns a packet, and O13 (30_encoding.md R90 to R93, R108).
-/

namespace Sys2Proof.Machine

theorem exec_decode (bytes : Bytes) (s : State) : exec (.decode bytes) s = execDecode bytes s := rfl

/-- DECODE returns what the function of R146 says. -/
theorem exec_decode_ret {bytes : Bytes} {s t : State} (h : exec (.decode bytes) s = .next t) :
    t.ret = .decoded (decodeFrame s.cfg bytes) := by
  rw [exec_decode, execDecode] at h
  cases h
  rfl

theorem be16_unbe16 (hi lo : Byte) : be16 (unbe16 hi lo) = [hi, lo] := by
  have high : (hi ++ lo).extractLsb' 8 8 = hi := BitVec.extractLsb'_append_eq_left
  have low : (hi ++ lo).extractLsb' 0 8 = lo := BitVec.extractLsb'_append_eq_right
  rw [be16, hi8, lo8, unbe16, high, low]

/-- The magic stands where the hunt finds it (R147). -/
theorem eq_of_findMagic {magic bytes : Bytes} {p : Nat} (h : findMagic magic bytes = some p) :
    p + 4 ≤ bytes.length ∧ bytes = bytes.take p ++ (magic ++ bytes.drop (p + 4)) := by
  obtain ⟨⟨hle, hmagic⟩, -⟩ := findMagic_some.mp h
  refine ⟨hle, ?_⟩
  rw [← hmagic, ← List.drop_drop, List.take_append_drop, List.take_append_drop]

/-- A body of at least three bytes is a command, a payload and a CRC field (R90). -/
theorem exists_parts_of_body {body : Bytes} (h : 3 ≤ body.length) : ∃ command payload received,
    body = command :: payload ++ be16 received ∧ payload.length + 3 = body.length := by
  obtain ⟨command, rest, rfl⟩ := List.exists_cons_of_length_pos (show 0 < body.length by omega)
  rw [List.length_cons] at h
  obtain ⟨hi, lo, hlast⟩ := List.length_eq_two.mp
    (show (rest.drop (rest.length - 2)).length = 2 by rw [List.length_drop]; omega)
  refine ⟨command, rest.take (rest.length - 2), unbe16 hi lo, ?_, ?_⟩
  · rw [be16_unbe16, ← hlast, List.cons_append, List.take_append_drop]
  · rw [List.length_take, List.length_cons]
    omega

/-- `decodeBody` on the parts of a body (R146). -/
theorem decodeBody_parts (cfg : Config) (p : Nat) {len command : Byte} {payload : Bytes} (received : Word16)
    (hlen : len.toNat = payload.length + 3) :
    decodeBody cfg p len (command :: payload ++ be16 received) =
      if crc16 cfg (len :: command :: payload) = received then
        .packet ⟨cfg.magic, len, command, payload, received⟩ (p + 5 + len.toNat)
      else .error .crc := by
  have hread : unbe16 (byteAt (command :: payload ++ be16 received) (len.toNat - 2))
      (byteAt (command :: payload ++ be16 received) (len.toNat - 1)) = received := by
    simp [byteAt, be16, hlen, List.getD_eq_getElem?_getD]
  have hpayload : ((command :: payload ++ be16 received).drop 1).take (len.toNat - 3) = payload := by
    simp [hlen]
  rw [decodeBody, hread, hpayload]
  rfl

/-- A packet comes from a length byte of at least 3 and a body of that length, behind the magic (R148, R149). -/
theorem decodeAfterMagic_eq_packet {cfg : Config} {p n : Nat} {bytes : Bytes} {q : Packet}
    (h : decodeAfterMagic cfg p bytes = .packet q n) : ∃ len body after,
    bytes = len :: body ++ after ∧ 3 ≤ len.toNat ∧ body.length = len.toNat ∧
      decodeBody cfg p len body = .packet q n := by
  cases bytes with
  | nil => cases h
  | cons len rest =>
    rw [decodeAfterMagic] at h
    split at h
    · cases h
    · next hmin =>
      split at h
      · cases h
      · next hfit =>
        refine ⟨len, rest.take len.toNat, rest.drop len.toNat, ?_, Nat.not_lt.mp hmin, ?_, h⟩
        · rw [List.cons_append, List.take_append_drop]
        · exact List.length_take_of_le (Nat.not_lt.mp hfit)

/-- The length byte of a frame is the only one that announces its payload (R91). -/
theorem eq_lengthByte {len : Byte} {payload : Bytes} (h : len.toNat = payload.length + 3) :
    len = lengthByte payload := by
  rw [lengthByte, ← h, BitVec.ofNat_toNat, BitVec.setWidth_eq]

/-- The bytes that DECODE returns a packet for hold the frame of its command and payload, and the packet is that
frame's fields. -/
theorem decodeFrame_eq_packet {cfg : Config} {bytes : Bytes} {q : Packet} {n : Nat}
    (h : decodeFrame cfg bytes = .packet q n) : ∃ before after,
    bytes = before ++ encodeFrame cfg q.command q.payload ++ after ∧
    n = (before ++ encodeFrame cfg q.command q.payload).length ∧
    q.header = cfg.magic ∧ q.length.toNat = q.payload.length + 3 ∧
    q.crc = crc16 cfg (q.length :: q.command :: q.payload) := by
  rw [decodeFrame] at h
  split at h
  case h_1 => cases h
  case h_2 p hfind =>
    obtain ⟨hle, hbytes⟩ := eq_of_findMagic hfind
    obtain ⟨len, body, after, hrest, hmin, hbody, h⟩ := decodeAfterMagic_eq_packet h
    obtain ⟨command, payload, received, rfl, hpayload⟩ := exists_parts_of_body (hbody ▸ hmin)
    have hlen : len.toNat = payload.length + 3 := by rw [← hbody, hpayload]
    rw [decodeBody_parts cfg p received hlen] at h
    split at h
    case isFalse => cases h
    case isTrue hcrc =>
      cases h
      have hframe : encodeFrame cfg command payload = cfg.magic ++ (len :: (command :: payload ++ be16 received)) := by
        rw [encodeFrame, frameCrc, crcInput, ← eq_lengthByte hlen, hcrc, List.append_assoc]
        rfl
      have hmagic : cfg.magic.length = 4 := by
        have := congrArg List.length hbytes
        simp only [List.length_append, List.length_take, List.length_drop] at this
        omega
      refine ⟨bytes.take p, after, ?_, ?_, rfl, hlen, hcrc.symm⟩
      · rw [hframe, List.append_assoc, List.append_assoc, ← hrest]
        exact hbytes
      · rw [hframe, List.length_append, List.length_take, List.length_append, List.length_cons, hbody, hmagic]
        omega

end Sys2Proof.Machine

namespace Sys2Proof.Statements

open Sys2Proof Sys2Proof.Machine

/-- Settles O13: DECODE's packet is read from a frame that stands in the bytes. -/
theorem decodedPacketsReencode : Obligations.DecodedPacketsReencode := by
  intro bytes s t q n _ hexec hret
  rw [exec_decode_ret hexec] at hret
  obtain ⟨before, after, hbytes, hn, hheader, hlength, hcrc⟩ :=
    decodeFrame_eq_packet (RetVal.decoded.inj hret)
  refine ⟨hheader, hlength, hcrc, ?_, before, ?_⟩
  · rw [hbytes, hn, List.length_append (bs := after)]
    exact Nat.le_add_right ..
  · rw [frameOf_eq, hbytes, hn, List.take_left]

end Sys2Proof.Statements

/-!
The bytes of an encoded record, field by field, and O46 (30_encoding.md R99, R100, 45_channel_codec.md R261, R269, R271,
R274, R275).
-/

namespace Sys2Proof.Machine

theorem exec_encodeChannel (r : ChannelRecord) (s : State) :
    exec (.encodeChannel r) s = .next (returnValue (.bytes (encodeRecord s.cfg r)) s) := rfl

/-- The fourteen bytes before the name field, and what follows them (R99). -/
theorem encodeRecord_eq_cons (cfg : Config) (r : ChannelRecord) : encodeRecord cfg r =
    hi8 r.index :: lo8 r.index :: r.rxMode :: r.txMode :: (be32 r.rxFreq ++ (be32 r.txFreq ++
      toneByte cfg r.rxTone :: toneByte cfg r.txTone :: (nameField r.name ++ tailBytes cfg.tail r.kind))) := by
  simp [encodeRecord, be16]

/-- `nameField` with the length of the padding written out (R271). -/
theorem nameField_eq (name : Bytes) :
    nameField name = name.take 11 ++ List.replicate (12 - min name.length 11) 0#8 := by
  rw [nameField, List.length_take, Nat.min_comm]

/-! ## The tail -/

/-- Past the end of a sequence every bit reads as 0. -/
theorem bitAt_of_length_le {bytes : Bytes} {k : Nat} (h : 8 * bytes.length ≤ k) : bitAt bytes k = false := by
  have hbyte : byteAt bytes (k / 8) = 0#8 := by
    rw [byteAt, List.getD_eq_default _ _ (by omega)]
  rw [bitAt, hbyte, BitVec.getMsbD_zero]

/-- A bit that no field of the layout covers is 0 (R274, R275). -/
theorem bitAt_tailBytes_of_not_mem {l : TailLayout} {k : Nat} (h : k ∉ l.positions) (g i : Word32)
    (rc tc ts : Byte) : bitAt (tailBytes l (.digital g i rc tc ts)) k = false := by
  by_cases hin : k < 8 * l.len
  · simp only [TailLayout.positions, List.mem_append, not_or] at h
    obtain ⟨⟨⟨⟨hgroup, hradio⟩, hrx⟩, htx⟩, htimeslot⟩ := h
    rw [tailBytes, bitAt_packBits _ hin, tailBit, fieldBit_of_not_mem _ hgroup, fieldBit_of_not_mem _ hradio,
      fieldBit_of_not_mem _ hrx, fieldBit_of_not_mem _ htx, fieldBit_of_not_mem _ htimeslot]
    rfl
  · exact bitAt_of_length_le (by rw [tailBytes_length]; exact Nat.not_lt.mp hin)

end Sys2Proof.Machine

namespace Sys2Proof.Statements

open Sys2Proof Sys2Proof.Machine

/-- `toneByte` encodes a tone as R269 says: 0 without an entry, else the index. -/
theorem toneByte_says {cfg : Config} (h : cfg.wf = true) (x : Tone) : ToneByteSays cfg x (toneByte cfg x) := by
  refine ⟨?noTone, ?noEntry, ?entry⟩
  case noTone =>
    rintro rfl
    rfl
  case noEntry =>
    rintro (⟨f, rfl, hmissing⟩ | ⟨i, rfl⟩)
    · simp only [toneByte, (frequencyToIndex_eq_none h).mpr hmissing]
    · rfl
  case entry =>
    rintro i f rfl hmem
    obtain ⟨-, hle, -⟩ := (wf_tones h).2.2.1 _ hmem
    simp only [toneByte, (frequencyToIndex_eq_some h).mpr hmem, BitVec.toNat_ofNat]
    omega

theorem fourBytes_eq (v : Word32) : fourBytes v = be32 v := rfl

/-- All bits of a field are 0 exactly when its value is. -/
theorem forall_bitOf_eq_false_iff {tail : Bytes} {ps : List Nat} :
    (∀ k ∈ ps, bitOf tail k = false) ↔ fieldValue tail ps = 0 := by
  rw [← not_iff_not, ← ne_eq, ← any_bitOf_iff, List.any_eq_true]
  simp

/-- What a Digital tail holds under a legal layout (R275, log 36). -/
theorem digitalTail_holds {l : TailLayout} (h : l.wf = true) (g i : Word32) (rc tc ts : Byte) :
    let tail := tailBytes l (.digital g i rc tc ts)
    Holds tail l.group g.toNat ∧ Holds tail l.radio i.toNat ∧
    (rc.toNat < 2 ^ l.rxColor.length → Holds tail l.rxColor rc.toNat) ∧
    (tc.toNat < 2 ^ l.txColor.length → Holds tail l.txColor tc.toNat) ∧
    (ts.toNat < 2 ^ l.timeslot.length → Holds tail l.timeslot ts.toNat) ∧
    (ts = 0#8 ↔ ∀ k ∈ l.timeslot, bitOf tail k = false) ∧
    ∀ k, k ∉ l.positions → bitOf tail k = false := by
  obtain ⟨hgroup, hradio, hrx, htx, htimeslot⟩ := fieldValue_tailBytes h g i rc tc ts
  have hwidth : 1 ≤ l.timeslot.length := Nat.le_of_succ_le (tail_facts h).timeslot.1
  refine ⟨holds_iff.mpr hgroup, holds_iff.mpr hradio, fun hfits => ?_, fun hfits => ?_, fun hfits => ?_, ?_,
    fun k hk => ?_⟩
  · rw [holds_iff, hrx, colorValue_of_lt hfits]
  · rw [holds_iff, htx, colorValue_of_lt hfits]
  · rw [holds_iff, htimeslot, timeslotValue_of_lt hfits]
  · rw [forall_bitOf_eq_false_iff, htimeslot, (timeslotValue_lt hwidth ts).2]
  · rw [bitOf_eq, bitAt_tailBytes_of_not_mem hk]

/-- The tail of an Analog record is zero at every offset (R274). -/
theorem encodeRecord_analog {cfg : Config} {r : ChannelRecord} (h : r.kind = .analog) {k : Nat} (hlow : 26 ≤ k)
    (hhigh : k < (encodeRecord cfg r).length) : (encodeRecord cfg r)[k]? = some 0#8 := by
  have hin : k - 26 < cfg.tail.len := by
    rw [encodeRecord_length, Config.recordLen] at hhigh
    omega
  have hshift : (encodeRecord cfg r)[k]? = ((encodeRecord cfg r).drop 26)[k - 26]? := by
    rw [List.getElem?_drop, Nat.add_sub_cancel' hlow]
  rw [hshift, encodeRecord_drop_tail, h, tailBytes, List.getElem?_replicate_of_lt hin]

/-- Settles O46: the fields before the name stand in `encodeRecord_eq_cons`, the others have a law each. -/
theorem encodeChannelLayout : Obligations.EncodeChannelLayout := by
  intro r s
  have hfields := encodeRecord_eq_cons s.cfg r
  have hrxTone : (encodeRecord s.cfg r)[12]? = some (toneByte s.cfg r.rxTone) := by rw [hfields]; rfl
  have htxTone : (encodeRecord s.cfg r)[13]? = some (toneByte s.cfg r.txTone) := by rw [hfields]; rfl
  refine ⟨encodeRecord s.cfg r, exec_encodeChannel r s, encodeRecord_length .., ?index, ?rxMode, ?txMode, ?rxFreq,
    ?txFreq, hrxTone, htxTone, fun hwf => ⟨_, _, hrxTone, htxTone, toneByte_says hwf _, toneByte_says hwf _⟩, ?name,
    encodeRecord_drop_tail .., fun hk k => encodeRecord_analog hk, fun g i rc tc ts hk => ?digital⟩
  case index => rw [hfields]; rfl
  case rxMode => rw [hfields]; rfl
  case txMode => rw [hfields]; rfl
  case rxFreq => rw [hfields]; rfl
  case txFreq => rw [hfields]; rfl
  case name => rw [encodeRecord_name, nameField_eq]
  case digital =>
    rw [encodeRecord_drop_tail, hk]
    refine ⟨fun href => ?_, fun hwf => digitalTail_holds (wf_tail hwf) g i rc tc ts⟩
    rw [href, tailBytes_tailRef, fourBytes_eq, fourBytes_eq]

end Sys2Proof.Statements

/-!
The CRC register fed bit by bit (40_crc.md R122, R123): a byte is eight bits, sixteen bits are XORed into the register
before sixteen shifts, and a sequence is its bits. What the CRC operations do, and O1 to O9 from both.
-/

namespace Sys2Proof.Machine

/-- The bits of a word, most significant first: the order in which the CRC takes them (R123). -/
def bitsHighFirst {w : Nat} (v : BitVec w) : List Bool := (List.range w).map v.getMsbD

theorem bitsHighFirst_append {m n : Nat} (x : BitVec m) (y : BitVec n) :
    bitsHighFirst (x ++ y) = bitsHighFirst x ++ bitsHighFirst y := by
  rw [bitsHighFirst, List.range_add, List.map_append, List.map_map]
  congr 1
  · refine List.map_congr_left fun k hk => ?_
    rw [BitVec.getMsbD_append, if_neg (Nat.not_le.mpr (List.mem_range.mp hk))]
  · refine List.map_congr_left fun k _ => ?_
    rw [Function.comp_apply, BitVec.getMsbD_append, if_pos (Nat.le_add_right m k), Nat.add_sub_cancel_left]

/-! ## Bits into the register -/

theorem crcBitStep_eq (poly c : Word16) (d : Bool) :
    crcBitStep poly c d = (c <<< 1) ^^^ (if (c.msb ^^ d) = true then poly else 0#16) := by
  rw [crcBitStep, BitVec.msb_eq_getLsbD_last, Bool.bne_eq_xor]
  split
  · rfl
  · rw [BitVec.xor_zero]

theorem crcBitStep_false (poly c : Word16) : crcBitStep poly c false = crcShift poly c := by
  rw [crcBitStep_eq, crcShift_eq, Bool.xor_false]

/-- A word XORed in before a shift is its top bit in the feedback, and the rest of it a place further up. -/
theorem crcShift_xor_eq_crcBitStep (poly c v : Word16) :
    crcShift poly (c ^^^ v) = crcBitStep poly c v.msb ^^^ (v <<< 1) := by
  rw [crcShift_eq, crcBitStep_eq, BitVec.msb_xor, BitVec.shiftLeft_xor_distrib]
  ac_rfl

theorem foldl_crcBitStep_replicate_false (poly c : Word16) (n : Nat) :
    (List.replicate n false).foldl (crcBitStep poly) c = crcShifts poly n c := by
  induction n generalizing c with
  | zero => rfl
  | succ n ih => rw [List.replicate_succ, List.foldl_cons, crcBitStep_false, ih, crcShifts]

/-- `n` bits one after another do what XORing them into the top of the register before `n` shifts does. -/
theorem foldl_crcBitStep_of_top_bits (poly : Word16) (n : Nat) (c v : Word16) (hv : v <<< n = 0#16) :
    ((List.range n).map v.getMsbD).foldl (crcBitStep poly) c = crcShifts poly n (c ^^^ v) := by
  induction n generalizing c v with
  | zero =>
    rw [BitVec.shiftLeft_zero] at hv
    rw [hv, BitVec.xor_zero]
    rfl
  | succ n ih =>
    have htail : (List.range n).map (v.getMsbD ∘ Nat.succ) = (List.range n).map (v <<< 1).getMsbD :=
      List.map_congr_left fun k _ => (BitVec.getMsbD_shiftLeft v 1).symm
    rw [List.range_succ_eq_map, List.map_cons, List.map_map, htail, List.foldl_cons,
      ih _ _ (by rw [← BitVec.shiftLeft_add, Nat.add_comm, hv]), ← BitVec.msb_eq_getMsbD_zero,
      ← crcShift_xor_eq_crcBitStep, crcShifts]

theorem foldl_crcBitStep_word (poly c v : Word16) :
    (bitsHighFirst v).foldl (crcBitStep poly) c = crcShifts poly 16 (c ^^^ v) :=
  foldl_crcBitStep_of_top_bits poly 16 c v (BitVec.shiftLeft_eq_zero (Nat.le_refl 16))

/-- R123: CRC.BYTE is the eight bits of the byte. -/
theorem crcByteStep_eq_foldl (poly c : Word16) (b : Byte) :
    crcByteStep poly c b = (bitsHighFirst b).foldl (crcBitStep poly) c := by
  have hbits : bitsHighFirst b = (List.range 8).map (b.zeroExtend 16 <<< 8).getMsbD := by
    refine List.map_congr_left fun k _ => ?_
    have hzext : (b.zeroExtend 16).getMsbD (k + 8) = _ := BitVec.getMsbD_setWidth
    rw [BitVec.getMsbD_shiftLeft, hzext]
    simp
  have hlow : (b.zeroExtend 16 <<< 8) <<< 8 = 0#16 := by
    rw [← BitVec.shiftLeft_add, BitVec.shiftLeft_eq_zero (Nat.le_refl 16)]
  rw [hbits, foldl_crcBitStep_of_top_bits poly 8 c _ hlow, crcByteStep]

/-- The CRC takes a sequence as the bits of its bytes. -/
theorem crcFold_eq_foldl_bits (poly c : Word16) (s : Bytes) :
    crcFold poly c s = (s.flatMap bitsHighFirst).foldl (crcBitStep poly) c := by
  rw [crcFold, List.foldl_flatMap]
  congr 1
  funext c b
  exact crcByteStep_eq_foldl poly c b

theorem crcShifts_eq_iterate (poly : Word16) (n : Nat) (c : Word16) :
    crcShifts poly n c = (crcShift poly)^[n] c := by
  induction n generalizing c with
  | zero => rfl
  | succ n ih => rw [crcShifts, ih, Function.iterate_succ_apply]

/-! ## A CRC field (R130) -/

/-- The two bytes of a CRC field are XORed into the register before sixteen shifts. -/
theorem crcFold_be16 (poly c r : Word16) : crcFold poly c (be16 r) = crcShifts poly 16 (c ^^^ r) := by
  have hbits : (be16 r).flatMap bitsHighFirst = bitsHighFirst (hi8 r ++ lo8 r) := by
    rw [bitsHighFirst_append, be16, List.flatMap_cons, List.flatMap_singleton]
  have hword : hi8 r ++ lo8 r = r := unbe16_hi8_lo8 r
  rw [crcFold_eq_foldl_bits, hbits, hword, foldl_crcBitStep_word]

theorem crc16_append_be16 (cfg : Config) (s : Bytes) (r : Word16) :
    crc16 cfg (s ++ be16 r) = crcShifts cfg.poly 16 (crc16 cfg s ^^^ r) := by
  rw [crc16_append, crcFold_be16]

/-! ## Bursts (R131) -/

/-- The three bytes of a 24-bit word, most significant first. -/
def be24 (x : BitVec 24) : Bytes := [x.extractLsb' 16 8, x.extractLsb' 8 8, x.extractLsb' 0 8]

theorem flatMap_bits_be24 (x : BitVec 24) : (be24 x).flatMap bitsHighFirst = bitsHighFirst x := by
  have hword : x.extractLsb' 16 8 ++ (x.extractLsb' 8 8 ++ x.extractLsb' 0 8) = x := by
    have hlow : x.extractLsb' 8 8 ++ x.extractLsb' 0 8 = x.extractLsb' 0 16 :=
      BitVec.extractLsb'_append_extractLsb'_eq_extractLsb' rfl
    rw [hlow]
    exact BitVec.extractLsb'_append_extractLsb'
  conv_rhs => rw [← hword]
  rw [bitsHighFirst_append, bitsHighFirst_append]
  simp only [be24, List.flatMap_cons, List.flatMap_nil, List.append_nil]

/-- The CRC of a difference is the difference of the CRCs: the generator is linear over GF(2). -/
theorem crcFold_be24_xor (poly c : Word16) (x d : BitVec 24) :
    crcFold poly c (be24 (x ^^^ d)) = crcFold poly c (be24 x) ^^^ crcFold poly 0#16 (be24 d) := by
  simp only [be24, crcFold_cons, crcFold_nil, BitVec.extractLsb'_xor, ← crcByteStep_xor, BitVec.xor_zero]

/-- A burst inside three bytes: zeros, its sixteen bits, zeros. -/
theorem bitsHighFirst_burst (e : Word16) {j : Nat} (hj : j ≤ 8) :
    bitsHighFirst (e.zeroExtend 24 <<< j) =
      List.replicate (8 - j) false ++ (bitsHighFirst e ++ List.replicate j false) := by
  refine List.ext_getElem (by simp [bitsHighFirst]; omega) fun k hk _ => ?_
  simp only [bitsHighFirst, List.length_map, List.length_range] at hk
  simp only [bitsHighFirst, List.getElem_map, List.getElem_range, BitVec.getMsbD_shiftLeft,
    BitVec.truncate_eq_setWidth, BitVec.getMsbD_setWidth, List.getElem_append, List.length_replicate,
    List.getElem_replicate, List.length_map, List.length_range]
  split
  · rw [decide_eq_false (by omega), Bool.false_and]
  · rw [decide_eq_true (by omega), Bool.true_and, show k + j + 16 - 24 = k - (8 - j) by omega]
    split
    · rfl
    · rw [BitVec.getMsbD_of_ge _ _ (by omega)]

/-- The register after a burst alone: the leading zeros leave it 0, the trailing ones shift it. -/
theorem crcFold_burst (poly e : Word16) {j : Nat} (hj : j ≤ 8) :
    crcFold poly 0#16 (be24 (e.zeroExtend 24 <<< j)) = crcShifts poly j (crcShifts poly 16 e) := by
  rw [crcFold_eq_foldl_bits, flatMap_bits_be24, bitsHighFirst_burst e hj, List.foldl_append, List.foldl_append,
    foldl_crcBitStep_replicate_false, foldl_crcBitStep_replicate_false, crcShifts_zero, foldl_crcBitStep_word,
    BitVec.zero_xor]

/-- With a constant term of 1 a burst of at most sixteen bits is not lost in the register. -/
theorem crcFold_burst_ne_zero {poly e : Word16} (hp : poly.getLsbD 0 = true) {j : Nat} (hj : j ≤ 8)
    (he : e ≠ 0#16) : crcFold poly 0#16 (be24 (e.zeroExtend 24 <<< j)) ≠ 0#16 := by
  rw [crcFold_burst poly e hj]
  exact fun h => he (crcShifts_eq_zero hp (crcShifts_eq_zero hp h))

/-! ## The operations -/

theorem exec_crcInit (s : State) :
    exec .crcInit s = .next (returnValue .unit { s with crcReg := s.cfg.crcInit }) := rfl

theorem exec_crcByte (b : Byte) (s : State) :
    exec (.crcByte b) s = .next (returnValue .unit { s with crcReg := crcByteStep s.cfg.poly s.crcReg b }) := rfl

theorem exec_crcBit (d : Bool) (s : State) :
    exec (.crcBit d) s = .next (returnValue .unit { s with crcReg := crcBitStep s.cfg.poly s.crcReg d }) := rfl

theorem exec_crc16 (bytes : Bytes) (s : State) : exec (.crc16 bytes) s =
    .next (returnValue (.word (crc16 s.cfg bytes)) { s with crcReg := crc16 s.cfg bytes }) := rfl

theorem exec_crcValue (s : State) : exec (.crcValue .value) s = .next (returnValue (.word s.crcReg) s) := rfl

theorem exec_crcAppend (s : State) : exec (.crcValue .append) s = .next (returnValue (.bytes (be16 s.crcReg)) s) := rfl

theorem exec_crcCheck (bytes : Bytes) (received : Word16) (s : State) : exec (.crcCheck bytes received) s =
    .next (returnValue (.bool (decide (crc16 s.cfg bytes = received))) { s with crcReg := crc16 s.cfg bytes }) := rfl

theorem crcReg_of_exec_crc16 {bytes : Bytes} {s t : State} (h : exec (.crc16 bytes) s = .next t) :
    t.crcReg = crc16 s.cfg bytes := by
  rw [exec_crc16] at h
  cases h
  rfl

end Sys2Proof.Machine

namespace Sys2Proof.Statements

open Sys2Proof Sys2Proof.Machine

theorem shiftOnce_eq (poly : Word16) : shiftOnce poly = crcShift poly := funext fun c => (crcShift_eq poly c).symm

/-- A list of operations that each feed the register one datum folds it over the data. -/
theorem runAll_map_feeding {α : Type} {op : α → Instr} {feed : Word16 → Word16 → α → Word16}
    (hop : ∀ a s, exec (op a) s = .next (returnValue .unit { s with crcReg := feed s.cfg.poly s.crcReg a }))
    (data : List α) (s : State) :
    runAll (data.map op) s = .next { s with
      crcReg := data.foldl (feed s.cfg.poly) s.crcReg, ret := if data = [] then s.ret else .unit } := by
  induction data generalizing s with
  | nil => rfl
  | cons a data ih =>
    rw [List.map_cons, runAll, hop]
    simp only [ih, returnValue, List.foldl_cons, ite_self, reduceCtorEq, if_false]

theorem runAll_crcBytes (bytes : Bytes) (s : State) :
    runAll (bytes.map .crcByte) s = .next { s with
      crcReg := crcFold s.cfg.poly s.crcReg bytes, ret := if bytes = [] then s.ret else .unit } :=
  runAll_map_feeding exec_crcByte bytes s

/-- The bits that the statement of R123 feeds are those of the byte. -/
theorem map_range_getLsbD (b : Byte) : (List.range 8).map (fun k => b.getLsbD (7 - k)) = bitsHighFirst b := by
  refine List.map_congr_left fun k hk => ?_
  rw [BitVec.getMsbD_eq_getLsbD, decide_eq_true (List.mem_range.mp hk), Bool.true_and]

/-- Settles O1, by the meaning of CRC.INIT and the value in `cfgRef`. -/
theorem crcInitLoadsTheSeed : Obligations.CrcInitLoadsTheSeed := ⟨exec_crcInit, rfl⟩

/-- Settles O2: the model's eight shifts are the iterate of the statement's. -/
theorem crcByteMakesEightShifts : Obligations.CrcByteMakesEightShifts := by
  intro b s
  rw [exec_crcByte, crcByteStep, crcShifts_eq_iterate, shiftOnce_eq]
  rfl

/-- Settles O3: a byte fed bit by bit (`crcByteStep_eq_foldl`). -/
theorem crcByteIsEightCrcBits : Obligations.CrcByteIsEightCrcBits := by
  refine ⟨fun d s => ?bit, fun b s => ?byte⟩
  case bit =>
    rw [exec_crcBit, crcBitStep, BitVec.msb_eq_getLsbD_last, Bool.bne_eq_xor]
    rfl
  case byte =>
    have hmap : (List.range 8).map (fun k => Instr.crcBit (b.getLsbD (7 - k))) = (bitsHighFirst b).map .crcBit := by
      rw [← map_range_getLsbD, List.map_map]
      rfl
    rw [hmap, runAll_map_feeding exec_crcBit, ← crcByteStep_eq_foldl, exec_crcByte]
    rfl

/-- Settles O4: the value is `crc16`, which reads of the configuration the polynomial and the seed. -/
theorem crcSixteenIsInitThenBytes : Obligations.CrcSixteenIsInitThenBytes := by
  intro bytes s
  refine ⟨crc16 s.cfg bytes, fun t hpoly hseed => ?_⟩
  have hvalue : crc16 t.cfg bytes = crc16 s.cfg bytes := by rw [crc16, crc16, hpoly, hseed]
  rw [← hvalue]
  refine ⟨?_, exec_crc16 bytes t⟩
  rw [runAll, exec_crcInit]
  simp only [runAll_crcBytes, returnValue, ite_self]
  rfl

/-- Settles O5, by the meaning of the two read forms. -/
theorem crcValueReadsTheRegister : Obligations.CrcValueReadsTheRegister :=
  fun s => ⟨exec_crcValue s, exec_crcAppend s⟩

/-- Settles O6: CRC.CHECK compares the value that CRC16 returns. -/
theorem crcCheckMatchesOnEqualityOnly : Obligations.CrcCheckMatchesOnEqualityOnly :=
  fun bytes received s =>
    ⟨_, _, crc16 s.cfg bytes, exec_crc16 bytes s, rfl, exec_crcCheck bytes received s, rfl, rfl⟩

/-- Settles O7: the CRC of `a ‖ b` is the fold over `b` from that of `a`. -/
theorem crcIsIncremental : Obligations.CrcIsIncremental := by
  intro a b s
  refine ⟨_, _, _, exec_crc16 a s, runAll_crcBytes b _, exec_crc16 (a ++ b) s, ?_, ?_⟩
  · exact (crc16_append s.cfg a b).symm
  · exact congrArg RetVal.word (crc16_append s.cfg a b)

/-- Settles O8: the register after a CRC field is sixteen shifts of its difference from the field, and for an odd
polynomial only 0 shifts to 0. -/
theorem crcResidueIsZero : Obligations.CrcResidueIsZero := by
  refine ⟨fun bytes s t ht => ⟨_, exec_crc16 .., ?own⟩, fun bytes r s t u hp ht hu hzero => ?only⟩
  case own =>
    rw [crcReg_of_exec_crc16 ht]
    calc crc16 s.cfg (bytes ++ be16 (crc16 s.cfg bytes))
        = crcShifts s.cfg.poly 16 (crc16 s.cfg bytes ^^^ crc16 s.cfg bytes) := crc16_append_be16 ..
      _ = 0#16 := by rw [BitVec.xor_self, crcShifts_zero]
  case only =>
    have hshifts : crcShifts s.cfg.poly 16 (crc16 s.cfg bytes ^^^ r) = 0#16 := by
      rw [← crc16_append_be16, ← hzero]
      exact (crcReg_of_exec_crc16 hu).symm
    rw [crcReg_of_exec_crc16 ht]
    exact BitVec.xor_eq_zero_iff.mp (crcShifts_eq_zero hp hshifts)

/-- Settles O9: equal CRCs would mean that the burst alone leaves 0, since the bytes after it take different registers
to different ones. -/
theorem crcDetectsBursts : Obligations.CrcDetectsBursts := by
  rintro s t u before after x y e j hp hj he rfl ht hu heq
  rw [crcReg_of_exec_crc16 ht, crcReg_of_exec_crc16 hu] at heq
  simp only [crc16_append] at heq
  have hburst : crcFold s.cfg.poly (crc16 s.cfg before) (be24 x) ^^^
      crcFold s.cfg.poly 0#16 (be24 (e.zeroExtend 24 <<< j)) =
      crcFold s.cfg.poly (crc16 s.cfg before) (be24 x) ^^^ 0#16 := by
    rw [← crcFold_be24_xor, BitVec.xor_zero]
    exact (crcFold_injective hp after heq).symm
  exact crcFold_burst_ne_zero hp hj he ((BitVec.xor_right_inj _).mp hburst)

end Sys2Proof.Statements

/-!
An answered attempt: the decoder over a whole frame (41_frame_codec.md R152), the receive loop when a reply arrives at
the first wait, and what SEND then returns and changes. O30 follows from it (43_dispatcher.md R199 to R208, R212).
-/

namespace Sys2Proof.Machine

open Sys2Proof.Statements (replyPacket)

/-! ## The decoder over a frame -/

/-- A decoder that is not done after more bytes was not done before them. -/
theorem decFeed_phase_of_append {cfg : Config} {d : Dec} {crc : Word16} {a b : Bytes}
    (h : (decFeed cfg d crc (a ++ b)).1.phase ≠ .done) : (decFeed cfg d crc a).1.phase ≠ .done := by
  intro hdone
  rw [decFeed_append, decFeed_done cfg hdone] at h
  exact h hdone

theorem findMagic_append (magic : Bytes) (hm : magic.length = 4) (s : Bytes) :
    findMagic magic (magic ++ s) = some 0 := by
  refine findMagic_some.mpr ⟨⟨?_, ?_⟩, nofun⟩
  · rw [List.length_append, hm]
    omega
  · rw [List.drop_zero, ← hm, List.take_left]

/-- The magic and a length byte bring the decoder to BODY. -/
theorem decFeed_header {cfg : Config} (hm : cfg.magic.length = 4) (crc : Word16) {len : Byte} (hlen : 3 ≤ len.toNat)
    (body : Bytes) : decFeed cfg Dec.start crc (cfg.magic ++ len :: body) =
      decFeed cfg (bodyDec cfg 0 len []) (crcByteStep cfg.poly cfg.crcInit len) body := by
  have hmagic := decFeed_magic hm crc (findMagic_append cfg.magic hm [])
  rw [List.append_nil, List.take_of_length_le (by omega)] at hmagic
  have hcount : BitVec.ofNat 8 len.toNat = len := by rw [BitVec.ofNat_toNat, BitVec.setWidth_eq]
  simp only [decFeed_append, hmagic, decFeed, decByte, if_neg (Nat.not_lt.mpr hlen), bodyDec, List.length_nil,
    Nat.sub_zero, hcount]
  rfl

theorem encodeFrame_eq (cfg : Config) (command : Byte) (payload : Bytes) : encodeFrame cfg command payload =
    cfg.magic ++ lengthByte payload :: (command :: payload ++ be16 (frameCrc cfg command payload)) := by
  rw [encodeFrame, crcInput, List.append_assoc]
  rfl

/-- The decoder registers after a frame: DONE, with the packet. -/
def frameDec (cfg : Config) (command : Byte) (payload : Bytes) : Dec where
  phase := .done
  win := cfg.magic
  len := lengthByte payload
  cnt := 0#8
  body := command :: payload ++ be16 (frameCrc cfg command payload)
  skipped := 0
  result := some (.packet (replyPacket cfg command payload) (payload.length + 8))

theorem decFeed_encodeFrame {cfg : Config} (hm : cfg.magic.length = 4) (crc : Word16) (command : Byte)
    {payload : Bytes} (hlen : payload.length ≤ 252) :
    decFeed cfg Dec.start crc (encodeFrame cfg command payload) =
      (frameDec cfg command payload, frameCrc cfg command payload) := by
  have hbyte := lengthByte_toNat hlen
  have hdecoded : decodeBody cfg 0 (lengthByte payload) (command :: payload ++ be16 (frameCrc cfg command payload)) =
      .packet (replyPacket cfg command payload) (payload.length + 8) := by
    have hcrc : crc16 cfg (lengthByte payload :: command :: payload) = frameCrc cfg command payload := rfl
    rw [decodeBody_parts cfg 0 _ hbyte, if_pos hcrc, hbyte,
      show 0 + 5 + (payload.length + 3) = payload.length + 8 by omega]
    rfl
  have hcovered : (command :: payload ++ be16 (frameCrc cfg command payload)).take (payload.length + 1) =
      command :: payload := List.take_left' rfl
  rw [encodeFrame_eq, decFeed_header hm crc (by omega), decFeed_last 0 _ _ (by omega) (by simp [hbyte]), hdecoded,
    hbyte, show payload.length + 3 - 2 = payload.length + 1 by omega, hcovered]
  rfl

/-- The decoder is done at the last byte of a frame and not before. -/
theorem decFeed_take_encodeFrame_phase {cfg : Config} (hm : cfg.magic.length = 4) (crc : Word16) (command : Byte)
    {payload : Bytes} (hlen : payload.length ≤ 252) {k : Nat} (hk : k < (encodeFrame cfg command payload).length) :
    (decFeed cfg Dec.start crc ((encodeFrame cfg command payload).take k)).1.phase ≠ .done := by
  have hbyte := lengthByte_toNat hlen
  generalize hinit : cfg.magic ++ lengthByte payload ::
    (command :: payload ++ [hi8 (frameCrc cfg command payload)]) = init
  have hframe : encodeFrame cfg command payload = init ++ [lo8 (frameCrc cfg command payload)] := by
    rw [encodeFrame_eq, ← hinit, be16]
    simp
  rw [hframe, List.length_append, List.length_singleton] at hk
  rw [hframe, List.take_append_of_le_length (by omega)]
  apply decFeed_phase_of_append (b := init.drop k)
  rw [List.take_append_drop, ← hinit, decFeed_header hm crc (by omega), decFeed_body _ _ _ (by simp [hbyte])]
  exact nofun

/-! ## The receive loop when a reply arrives -/

theorem bytesFor_length_le (q : PortId) (es : List (PortId × Byte)) : (bytesFor q es).length ≤ es.length := by
  induction es with
  | nil => exact Nat.le_refl 0
  | cons e es ih =>
    rw [bytesFor]
    split <;> simp only [List.length_cons] <;> omega

/-- A frame that waits in `rx` is taken whole, and ends the loop. -/
theorem receiveLoop_frame {p : PortId} {s : State} {command : Byte} {payload extra : Bytes} {n : Nat}
    (hm : s.cfg.magic.length = 4) (hlen : payload.length ≤ 252) (hio : s.env.ioFails = []) (hdec : s.dec = Dec.start)
    (hrx : (s.link p).rx = encodeFrame s.cfg command payload ++ extra)
    (hn : (encodeFrame s.cfg command payload).length < n) :
    receiveLoop p n s = .done (took p (encodeFrame s.cfg command payload) extra s) := by
  have hfed := decFeed_encodeFrame hm s.crcReg command hlen
  have hnotDone {k : Nat} := decFeed_take_encodeFrame_phase hm s.crcReg command hlen (k := k)
  generalize encodeFrame s.cfg command payload = frame at *
  obtain ⟨m, rfl⟩ := Nat.exists_eq_add_of_lt hn
  cases frame with
  | nil => cases congrArg (fun r => r.1.phase) hfed
  | cons x rest =>
    have hbefore : ∀ k ≤ rest.length, (decFeed s.cfg s.dec s.crcReg ((x :: rest).take k)).1.phase ≠ .done :=
      fun k hk => hdec ▸ hnotDone (Nat.lt_succ_of_le hk)
    rw [show (x :: rest).length + m + 1 = m + 1 + (x :: rest).length by omega,
      receiveLoop_takes p (m + 1) rest x extra s hio hrx hbefore, receiveLoop, if_pos]
    rw [took_dec, hdec, hfed]
    rfl

/-- What the environment holds for an attempt that is answered at the first wait: no I/O failure, and a wait that
brings the frame of a reply to the request in flight and then `extra`. -/
structure ReplyArrives (p : PortId) (s : State) (reply extra : Bytes) (w : Wait) (later : List Wait) : Prop where
  magic   : s.cfg.magic.length = 4
  length  : reply.length ≤ 252
  timeout : 0 < (s.link p).curTimeout
  ioFails : s.env.ioFails = []
  waits   : s.env.waits = w :: later
  arrives : bytesFor p w.arrive = encodeFrame s.cfg (s.link p).curCmd reply ++ extra

/-- The first look at the empty `rx`, the bytes of the frame and the look after them are within the loop's bound. -/
theorem ReplyArrives.lt_receiveFuel {p : PortId} {s : State} {reply extra : Bytes} {w : Wait} {later : List Wait}
    (h : ReplyArrives p s reply extra w later) :
    (encodeFrame s.cfg (s.link p).curCmd reply).length + 1 < receiveFuel p s := by
  have hle := bytesFor_length_le p w.arrive
  rw [h.arrives, List.length_append] at hle
  simp only [receiveFuel, h.waits, List.map_cons, List.sum_cons, List.length_cons]
  omega

/-- The next wait of the environment's list. -/
theorem waited_waitStep_of_cons {s : State} {w : Wait} {later : List Wait} (h : s.env.waits = w :: later)
    (target : Nat) : Waited 1 s (waitStep target s) ∧ (waitStep target s).now = s.now + w.dt := by
  rcases waited_waitStep target s with ⟨hnil, -⟩ | ⟨w', later', hcons, waited, hnow⟩
  · rw [h] at hnil
    cases hnil
  · obtain ⟨rfl, -⟩ := List.cons.inj (h.symm.trans hcons)
    exact ⟨waited, hnow⟩

/-- What taking the reply of a request on port `p` changes, but for the record of `p` itself: the effects of one wait,
and the decoder and `crc_reg` left as after the reply's frame. -/
structure ReplyTaken (p : PortId) (s s' : State) (command : Byte) (reply : Bytes) (w : Wait) (later : List Wait) :
    Prop where
  others    : ∀ q, q ≠ p → s'.link q = { s.link q with rx := (s.link q).rx ++ bytesFor q w.arrive }
  now       : s'.now = s.now + w.dt
  env       : s'.env = { s.env with waits := later }
  crcReg    : s'.crcReg = frameCrc s.cfg command reply
  dec       : s'.dec = frameDec s.cfg command reply
  cfg       : s'.cfg = s.cfg
  portsHeld : s'.portsHeld = s.portsHeld
  requests  : s'.requests = s.requests

theorem ReplyTaken.setLink {p : PortId} {s s' : State} {command : Byte} {reply : Bytes} {w : Wait} {later : List Wait}
    (h : ReplyTaken p s s' command reply w later) (l : Link) : ReplyTaken p s (s'.setLink p l) command reply w later :=
  ⟨fun q hq => (link_setLink_other hq s' l).trans (h.others q hq), h.now, h.env, h.crcReg, h.dec, h.cfg, h.portsHeld,
    h.requests⟩

/-- Sent and with nothing buffered, the engine waits once and takes the frame (R202). -/
theorem receive_reply {p : PortId} {s : State} {reply extra : Bytes} {w : Wait} {later : List Wait}
    (h : ReplyArrives p s reply extra w later) (hdec : s.dec = Dec.start) (hrx : (s.link p).rx = [])
    (hdl : s.now < (s.link p).deadline) :
    ∃ s', receive p s = .done s' ∧ ReplyTaken p s s' (s.link p).curCmd reply w later ∧
      s'.link p = { s.link p with
        rx := extra, lastRaw := (s.link p).lastRaw ++ encodeFrame s.cfg (s.link p).curCmd reply } := by
  obtain ⟨n, hfuel⟩ := Nat.exists_eq_add_of_lt h.lt_receiveFuel
  obtain ⟨waited, hnow⟩ := waited_waitStep_of_cons h.waits (s.link p).deadline
  rw [receive, hfuel, receiveLoop, if_neg (by rw [hdec]; nofun)]
  simp only [rxTake, drawIo_of_nil h.ioFails, hrx, Bool.false_eq_true, if_false, if_neg (Nat.not_le.mpr hdl)]
  generalize waitStep (s.link p).deadline s = s1 at waited hnow
  have hlink (q : PortId) : s1.link q = { s.link q with rx := (s.link q).rx ++ bytesFor q w.arrive } := by
    rw [waited.link, h.waits, List.take_succ_cons, List.take_zero, bytesIn_cons, bytesIn_nil, List.append_nil]
  have henv : s1.env = { s.env with waits := later } := by rw [waited.env, h.waits, List.drop_succ_cons, List.drop_zero]
  have hfed : decFeed s1.cfg s1.dec s1.crcReg (encodeFrame s.cfg (s.link p).curCmd reply) =
      (frameDec s.cfg (s.link p).curCmd reply, frameCrc s.cfg (s.link p).curCmd reply) := by
    rw [waited.cfg, waited.dec, hdec, decFeed_encodeFrame h.magic _ _ h.length]
  have hloop := receiveLoop_frame (p := p) (s := s1) (command := (s.link p).curCmd) (extra := extra)
    (n := (encodeFrame s.cfg (s.link p).curCmd reply).length + 1 + n)
    (by rw [waited.cfg, h.magic]) h.length (by rw [henv, h.ioFails]) (waited.dec.trans hdec)
    (by rw [hlink, hrx, waited.cfg, h.arrives, List.nil_append]) (by rw [waited.cfg]; omega)
  rw [waited.cfg] at hloop
  refine ⟨_, hloop, ⟨fun q hq => ?_, hnow, henv, ?_, ?_, waited.cfg, waited.portsHeld, waited.requests⟩, ?_⟩
  · rw [took_link_other hq, hlink]
  · rw [took_crcReg, hfed]
  · rw [took_dec, hfed]
  · rw [took_link, hlink]

/-! ## The attempt and the retry loop -/

theorem link_transmitted_other {p q : PortId} (h : q ≠ p) (s : State) : (transmitted p s).link q = s.link q :=
  link_setLink_other h s _

theorem ReplyArrives.transmitted {p : PortId} {s : State} {reply extra : Bytes} {w : Wait} {later : List Wait}
    (h : ReplyArrives p s reply extra w later) : ReplyArrives p (transmitted p s) reply extra w later where
  magic := h.magic
  length := h.length
  timeout := by rw [link_transmitted]; exact h.timeout
  ioFails := h.ioFails
  waits := h.waits
  arrives := by rw [link_transmitted]; exact h.arrives

theorem ReplyTaken.of_transmitted {p : PortId} {s s' : State} {command : Byte} {reply : Bytes} {w : Wait}
    {later : List Wait} (h : ReplyTaken p (transmitted p s) s' command reply w later) :
    ReplyTaken p s s' command reply w later :=
  ⟨fun q hq => link_transmitted_other hq s ▸ h.others q hq, h.now, h.env, h.crcReg, h.dec, h.cfg, h.portsHeld,
    h.requests⟩

/-- The decoder's packet of a fitting reply is accepted (R204). -/
theorem classify_of_frameDec {p : PortId} {s : State} {command : Byte} {reply : Bytes} {row : Row}
    (hdec : s.dec = frameDec s.cfg command reply) (hcmd : (s.link p).curCmd = command)
    (hrow : rowOf s.cfg command = some row) (hfits : fits s.cfg row.response reply = true) :
    classify p s = .decoded (replyPacket s.cfg command reply) (passAttempt p s) := by
  have houtcome : s.dec.outcome = .packet (replyPacket s.cfg command reply) (reply.length + 8) := by
    rw [hdec]
    rfl
  have haccepted : replyFits s.cfg (s.link p).curCmd (replyPacket s.cfg command reply) = true := by
    simp only [replyFits, hcmd, hrow, replyPacket, hfits, decide_true, Bool.and_self]
  rw [classify, houtcome]
  exact if_pos haccepted

/-- An answered attempt ends with the reply's packet (R201 to R205). -/
theorem attempt_reply {p : PortId} {s : State} {reply extra : Bytes} {w : Wait} {later : List Wait} {row : Row}
    (h : ReplyArrives p s reply extra w later) (hrow : rowOf s.cfg (s.link p).curCmd = some row)
    (hfits : fits s.cfg row.response reply = true) :
    ∃ s', attempt p s = .decoded (replyPacket s.cfg (s.link p).curCmd reply) s' ∧
      ReplyTaken p s s' (s.link p).curCmd reply w later ∧
      s'.link p = { s.link p with
        attempt := (s.link p).attempt + 1, rx := extra, tx := (s.link p).tx ++ (s.link p).curFrame,
        deadline := s.now + (s.link p).curTimeout, disp := .idle,
        lastRaw := encodeFrame s.cfg (s.link p).curCmd reply } := by
  obtain ⟨s3, hrecv, htaken, hlink⟩ := receive_reply h.transmitted rfl (by rw [link_transmitted])
    (by rw [link_transmitted]; exact Nat.lt_add_of_pos_right h.timeout)
  rw [link_transmitted] at htaken hlink
  have hcfg : s3.cfg = s.cfg := htaken.cfg
  have hclass := classify_of_frameDec (p := p) (s := s3) (hcfg ▸ htaken.dec) (by rw [hlink]) (hcfg ▸ hrow)
    (hcfg ▸ hfits)
  refine ⟨passAttempt p s3, ?_, ?_, ?_⟩
  · rw [attempt_transmitted h.ioFails, hrecv, ← hcfg]
    exact hclass
  · rw [passAttempt_eq]
    exact htaken.of_transmitted.setLink _
  · rw [link_passAttempt_same, hlink, List.nil_append]
    rfl

/-- However many attempts are admitted, the first ends the loop, with nothing in flight (R208, R212). -/
theorem tryAttempts_reply {p : PortId} {s : State} {reply extra : Bytes} {w : Wait} {later : List Wait} {row : Row}
    (n : Nat) (h : ReplyArrives p s reply extra w later) (hrow : rowOf s.cfg (s.link p).curCmd = some row)
    (hfits : fits s.cfg row.response reply = true) :
    ∃ s', tryAttempts p n s = .packet (replyPacket s.cfg (s.link p).curCmd reply) s' ∧
      ReplyTaken p s s' (s.link p).curCmd reply w later ∧
      s'.link p = { s.link p with
        attempt := 0, rx := extra, tx := (s.link p).tx ++ (s.link p).curFrame,
        deadline := s.now + (s.link p).curTimeout, disp := .idle,
        lastRaw := encodeFrame s.cfg (s.link p).curCmd reply } := by
  obtain ⟨s1, hattempt, htaken, hlink⟩ := attempt_reply h hrow hfits
  have hbusy : (s1.link p).busy = true := by simp [hlink, Link.busy]
  have hidle : goIdle p s1 = s1.setLink p { s1.link p with disp := .idle, attempt := 0 } := if_pos hbusy
  refine ⟨goIdle p s1, ?_, ?_, ?_⟩
  · cases n <;> simp only [tryAttempts, hattempt]
  · rw [hidle]
    exact htaken.setLink _
  · rw [hidle, link_setLink_same, hlink]

end Sys2Proof.Machine

namespace Sys2Proof.Statements

open Sys2Proof Sys2Proof.Machine

/-! ## SEND -/

theorem link_stampPolicy (s : State) (p : PortId) (row : Row) (command : Byte) (payload : Bytes) :
    (stampPolicy p command (riskOf s.cfg row command payload) s).link p = stampedLink s p row command payload := by
  unfold stampedLink
  cases riskOf s.cfg row command payload
  case unstable => exact link_setLink_same s p _
  case stable => rfl
  case blocked => rfl

theorem link_stampPolicy_other {p q : PortId} (h : q ≠ p) (command : Byte) (r : Risk) (s : State) :
    (stampPolicy p command r s).link q = s.link q := by
  cases r
  case unstable => exact link_setLink_other h s _
  case stable => rfl
  case blocked => rfl

theorem stampPolicy_portsHeld (p : PortId) (command : Byte) (r : Risk) (s : State) :
    (stampPolicy p command r s).portsHeld = s.portsHeld := by cases r <;> rfl

theorem stampPolicy_requests (p : PortId) (command : Byte) (r : Risk) (s : State) :
    (stampPolicy p command r s).requests = s.requests := by cases r <;> rfl

/-- The state in which the attempts of an answered request begin. -/
theorem Answered.replyArrives {p : PortId} {command : Byte} {timeout : Nat} {s : State} {row : Row}
    {reply extra : Bytes} {w : Wait} {later : List Wait} (h : Answered s p row command timeout reply extra w later)
    (payload : Bytes) (r : Risk) :
    ReplyArrives p (latch p command payload timeout (stampPolicy p command r s)) reply extra w later where
  magic := by rw [latch_cfg, stampPolicy_cfg, h.magic]
  length := h.length
  timeout := by rw [link_latch_same]; exact h.timeout
  ioFails := by rw [latch_env, stampPolicy_env, h.noFailure]
  waits := by rw [latch_env, stampPolicy_env, h.waits]
  arrives := by rw [link_latch_same, latch_cfg, stampPolicy_cfg, ← arriving_eq, ← frameOf_eq, h.arrives]

/-- An answered request on which the gate, the latch and the attempts have run (R199 to R208). -/
theorem sendRequest_of_answered {p : PortId} {command : Byte} {payload : Bytes} {timeout : Nat} {allow : Bool}
    {s : State} {row : Row} {reply extra : Bytes} {w : Wait} {later : List Wait}
    (hpass : Passes s p row command payload allow) (h : Answered s p row command timeout reply extra w later) :
    ∃ t, sendRequest p command payload timeout allow s = .packet (replyPacket s.cfg command reply) t ∧
      Exchanged s t p row command payload timeout reply extra w later := by
  have hstamped := link_stampPolicy s p row command payload
  obtain ⟨htx, -⟩ := link_stampPolicy_fields p command (riskOf s.cfg row command payload) s
  have hg := gate_of_passes hpass
  have hready := h.replyArrives payload (riskOf s.cfg row command payload)
  obtain ⟨t, htry, htaken, hlink⟩ := tryAttempts_reply (row := row) s.cfg.maxRetries hready
    (by rw [link_latch_same, latch_cfg, stampPolicy_cfg]; exact hpass.table)
    (by rw [latch_cfg, stampPolicy_cfg]; exact fits_iff.mpr h.response)
  simp only [link_latch_same, latch_cfg, stampPolicy_cfg] at htry htaken
  obtain ⟨hothers, hnow, henv, hcrc, hdec, hcfg, hheld, hrequests⟩ := htaken
  simp only [latch_cfg, latch_now, latch_env, latch_portsHeld, latch_requests, stampPolicy_cfg, stampPolicy_now,
    stampPolicy_env, stampPolicy_portsHeld, stampPolicy_requests, link_latch_same]
    at hnow henv hcrc hdec hcfg hheld hrequests hlink
  refine ⟨t, by simp only [sendRequest, hg, htry], ?link, fun q hq => ?others, hnow, henv, hcrc, hdec, hcfg, hheld,
    hrequests⟩
  case link => rw [hlink, htx, hstamped, frameOf_eq, frameOf_eq]
  case others => rw [hothers q hq, link_latch_other p _ _ _ _ hq, link_stampPolicy_other hq, arriving_eq]

theorem Exchanged.returnValue {s t : State} {p : PortId} {row : Row} {command : Byte} {payload : Bytes}
    {timeout : Nat} {reply extra : Bytes} {w : Wait} {later : List Wait}
    (h : Exchanged s t p row command payload timeout reply extra w later) (v : RetVal) :
    Exchanged s (Machine.returnValue v t) p row command payload timeout reply extra w later :=
  ⟨h.link, h.others, h.now, h.env, h.crcReg, h.dec, h.cfg, h.portsHeld, h.requests⟩

/-- Settles O30: SEND returns the packet with which the attempts ended. -/
theorem sendReturnsTheReply : Obligations.SendReturnsTheReply := by
  intro p command payload timeout allow s row reply extra w later hpass hanswered
  obtain ⟨t, hsend, hexchanged⟩ := sendRequest_of_answered hpass hanswered
  exact ⟨returnValue (.packet (replyPacket s.cfg command reply)) t, by rw [exec_send, execSend, hsend], rfl,
    hexchanged.returnValue _⟩

end Sys2Proof.Statements

/-!
DECODE in the order of its checks: the hunt on a part of the bytes, what each check leaves, and O12 (41_frame_codec.md
R146 to R151).
-/

namespace Sys2Proof.Machine

/-! ## The hunt on a part of the bytes -/

theorem matchesAt_take (magic s : Bytes) (k i : Nat) :
    matchesAt magic (s.take k) i ↔ matchesAt magic s i ∧ i + 4 ≤ k := by
  have hwindow (h : i + 4 ≤ k) : ((s.take k).drop i).take 4 = (s.drop i).take 4 := by
    rw [List.drop_take, List.take_take, Nat.min_eq_left (by omega)]
  rw [matchesAt, matchesAt, List.length_take, Nat.le_min]
  constructor
  · rintro ⟨⟨hk, hs⟩, hmagic⟩
    exact ⟨⟨hs, hwindow hk ▸ hmagic⟩, hk⟩
  · rintro ⟨⟨hs, hmagic⟩, hk⟩
    exact ⟨⟨hk, hs⟩, (hwindow hk).trans hmagic⟩

/-- Whether the leftmost magic stands at `p` is decided by the bytes up to its end (R147). -/
theorem findMagic_take_of_le {magic s : Bytes} {p k : Nat} (h : p + 4 ≤ k) :
    findMagic magic (s.take k) = some p ↔ findMagic magic s = some p := by
  simp only [findMagic_some, matchesAt_take, h, and_true, not_and]
  exact and_congr_right fun _ => forall₂_congr fun i hi =>
    ⟨fun hno hm => hno hm (by omega), fun hno hm => absurd hm hno⟩

theorem findMagic_take_of_lt {magic s : Bytes} {p k : Nat} (hp : findMagic magic s = some p) (h : k < p + 4) :
    findMagic magic (s.take k) = none := by
  obtain ⟨-, hfirst⟩ := findMagic_some.mp hp
  refine findMagic_none.mpr fun i hi => ?_
  obtain ⟨hmatch, hk⟩ := (matchesAt_take ..).mp hi
  exact hfirst i (by omega) hmatch

/-! ## DECODE, check by check -/

theorem decodeFrame_of_noMagic {cfg : Config} {bytes : Bytes} (h : findMagic cfg.magic bytes = none) :
    decodeFrame cfg bytes = .error .magic := by rw [decodeFrame, h]

theorem decodeFrame_of_magic {cfg : Config} {bytes : Bytes} {p : Nat} (h : findMagic cfg.magic bytes = some p) :
    decodeFrame cfg bytes = decodeAfterMagic cfg p (bytes.drop (p + 4)) := by rw [decodeFrame, h]

theorem decodeAfterMagic_of_short (cfg : Config) (p : Nat) {len : Byte} (h : len.toNat < 3) (rest : Bytes) :
    decodeAfterMagic cfg p (len :: rest) = .error .lengthInvalid := if_pos h

theorem decodeAfterMagic_of_truncated (cfg : Config) (p : Nat) {len : Byte} {rest : Bytes} (hlen : 3 ≤ len.toNat)
    (h : rest.length < len.toNat) : decodeAfterMagic cfg p (len :: rest) = .error .truncated := by
  rw [decodeAfterMagic, if_neg (Nat.not_lt.mpr hlen), if_pos h]

theorem decodeAfterMagic_of_complete (cfg : Config) (p : Nat) {len : Byte} {rest : Bytes} (hlen : 3 ≤ len.toNat)
    (h : len.toNat ≤ rest.length) :
    decodeAfterMagic cfg p (len :: rest) = decodeBody cfg p len (rest.take len.toNat) := by
  rw [decodeAfterMagic, if_neg (Nat.not_lt.mpr hlen), if_neg (Nat.not_lt.mpr h)]

theorem unbe16_eq_ofNat (hi lo : Byte) : unbe16 hi lo = BitVec.ofNat 16 (256 * hi.toNat + lo.toNat) := by
  have hhi := hi.isLt
  have hlo := lo.isLt
  apply BitVec.eq_of_toNat_eq
  rw [unbe16, BitVec.toNat_append, BitVec.toNat_ofNat, ← Nat.shiftLeft_add_eq_or_of_lt hlo, Nat.shiftLeft_eq]
  omega

theorem byteAt_take_drop {bytes : Bytes} {i n k : Nat} (h : k < n) :
    byteAt ((bytes.drop i).take n) k = bytes.getD (i + k) 0#8 := by
  rw [byteAt, List.getD_eq_getElem?_getD, List.getD_eq_getElem?_getD, List.getElem?_take_of_lt h, List.getElem?_drop]

end Sys2Proof.Machine

namespace Sys2Proof.Statements

open Sys2Proof Sys2Proof.Machine

/-- The position of R147 is the one that the model's hunt finds. -/
theorem firstMagic_iff {cfg : Config} {bytes : Bytes} {i : Nat} :
    FirstMagic cfg bytes i ↔ findMagic cfg.magic bytes = some i := by
  rw [findMagic_some, FirstMagic, ← and_assoc, matchesAt]
  refine and_congr_right fun ⟨hlen, _⟩ => forall₂_congr fun j hj => not_congr ?_
  exact ⟨fun hmagic => ⟨by omega, hmagic⟩, fun hmatch => hmatch.2⟩

/-- The body at its place in the bytes gives the packet of the statements. -/
theorem decodeBody_eq (cfg : Config) {bytes : Bytes} (i : Nat) {len : Byte} (hlen : 3 ≤ len.toNat) :
    decodeBody cfg i len ((bytes.drop (i + 5)).take len.toNat) =
      if crc16 cfg (len :: (packetAt cfg bytes i len).command :: (packetAt cfg bytes i len).payload) =
          (packetAt cfg bytes i len).crc then .packet (packetAt cfg bytes i len) (i + 5 + len.toNat)
      else .error .crc := by
  have hcommand : byteAt ((bytes.drop (i + 5)).take len.toNat) 0 = (packetAt cfg bytes i len).command :=
    byteAt_take_drop (by omega)
  have hpayload : (((bytes.drop (i + 5)).take len.toNat).drop 1).take (len.toNat - 3) =
      (packetAt cfg bytes i len).payload := by
    rw [List.drop_take, List.drop_drop, List.take_take, Nat.min_eq_left (by omega)]
    rfl
  have hcrc : unbe16 (byteAt ((bytes.drop (i + 5)).take len.toNat) (len.toNat - 2))
      (byteAt ((bytes.drop (i + 5)).take len.toNat) (len.toNat - 1)) = (packetAt cfg bytes i len).crc := by
    rw [byteAt_take_drop (by omega), byteAt_take_drop (by omega), unbe16_eq_ofNat,
      show i + 5 + (len.toNat - 2) = i + 3 + len.toNat by omega,
      show i + 5 + (len.toNat - 1) = i + 4 + len.toNat by omega]
    rfl
  rw [decodeBody, hcommand, hpayload, hcrc]
  rfl

/-- The function of the model satisfies the relation of the statements. -/
theorem decodeSays_decodeFrame (cfg : Config) (bytes : Bytes) : DecodeSays cfg bytes (decodeFrame cfg bytes) := by
  refine ⟨fun hno => ?noMagic, fun i hi => ?magic⟩
  case noMagic =>
    refine decodeFrame_of_noMagic (Option.eq_none_iff_forall_ne_some.mpr fun i hi => ?_)
    exact hno i (firstMagic_iff.mpr hi)
  case magic =>
    rw [decodeFrame_of_magic (firstMagic_iff.mp hi)]
    refine ⟨fun hend => ?noLength, fun len hlen => ?length⟩
    case noLength =>
      rw [List.drop_of_length_le (by omega), decodeAfterMagic]
    case length =>
      obtain ⟨hlt, hbyte⟩ := List.getElem?_eq_some_iff.mp hlen
      rw [List.drop_eq_getElem_cons hlt, hbyte]
      refine ⟨fun hshort => decodeAfterMagic_of_short cfg i hshort _, fun hmin hend => ?truncated,
        fun hmin hend => ?complete⟩
      case truncated =>
        exact decodeAfterMagic_of_truncated cfg i hmin (by rw [List.length_drop]; omega)
      case complete =>
        rw [decodeAfterMagic_of_complete cfg i hmin (by rw [List.length_drop]; omega), decodeBody_eq cfg i hmin]
        exact ⟨fun hne => if_neg hne, fun heq => if_pos heq⟩

/-- Settles O12: DECODE returns the function of the model, and keeps every register but its scratch. -/
theorem decodeFollowsTheScan : Obligations.DecodeFollowsTheScan :=
  fun bytes s _ => ⟨_, decodeFrame s.cfg bytes, exec_decode bytes s, rfl, decodeSays_decodeFrame s.cfg bytes, rfl⟩

end Sys2Proof.Statements

/-!
The operation ENCODE and its frame, field by field: O10 and O11 (41_frame_codec.md R141 to R143); and a frame read back
by DECODE, O14 (R155).
-/

namespace Sys2Proof.Machine

/-! ## The operation -/

theorem exec_encode (command : Byte) (payload : Bytes) (s : State) :
    exec (.encode command payload) s = execEncode command payload s := rfl

theorem exec_encode_of_le {command : Byte} {payload : Bytes} (h : payload.length ≤ 252) (s : State) :
    exec (.encode command payload) s = .next (returnValue (.bytes (encodeFrame s.cfg command payload))
      { s with crcReg := frameCrc s.cfg command payload }) := by
  rw [exec_encode]
  exact if_pos h

theorem exec_encode_of_lt {command : Byte} {payload : Bytes} (h : 252 < payload.length) (s : State) :
    exec (.encode command payload) s = .refused (.payloadTooLong payload.length) := by
  rw [exec_encode]
  exact if_neg (Nat.not_le.mpr h)

/-- The bytes that ENCODE returns are the frame. -/
theorem eq_encodeFrame_of_exec {command : Byte} {payload f : Bytes} {s t : State}
    (h : exec (.encode command payload) s = .next t) (hret : t.ret = .bytes f) :
    f = encodeFrame s.cfg command payload := by
  rcases Nat.lt_or_ge 252 payload.length with hlong | hfits
  · rw [exec_encode_of_lt hlong] at h
    cases h
  · rw [exec_encode_of_le hfits] at h
    cases h
    exact (RetVal.bytes.inj hret).symm

/-! ## The fields of a frame -/

theorem encodeFrame_take {cfg : Config} (hm : cfg.magic.length = 4) (command : Byte) (payload : Bytes) :
    (encodeFrame cfg command payload).take 4 = cfg.magic := by
  rw [encodeFrame_eq, ← hm, List.take_left]

theorem encodeFrame_drop {cfg : Config} (hm : cfg.magic.length = 4) (command : Byte) (payload : Bytes) :
    (encodeFrame cfg command payload).drop 4 =
      lengthByte payload :: (command :: payload ++ be16 (frameCrc cfg command payload)) := by
  rw [encodeFrame_eq, ← hm, List.drop_left]

/-- Command and payload stand in the frame, between fields of fixed lengths. -/
theorem encodeFrame_inj {cfg : Config} {c d : Byte} {a b : Bytes} :
    encodeFrame cfg c a = encodeFrame cfg d b ↔ c = d ∧ a = b := by
  constructor
  · intro h
    rw [encodeFrame_eq, encodeFrame_eq] at h
    obtain ⟨-, hbody⟩ := List.cons.inj (List.append_cancel_left h)
    obtain ⟨hcovered, -⟩ := List.append_inj' hbody (by rw [be16_length, be16_length])
    exact List.cons.inj hcovered
  · rintro ⟨rfl, rfl⟩
    rfl

/-! ## The frame under DECODE -/

theorem decodeAfterMagic_encoded (cfg : Config) (p : Nat) (command : Byte) {payload : Bytes}
    (h : payload.length ≤ 252) (after : Bytes) :
    decodeAfterMagic cfg p (lengthByte payload :: (command :: payload ++ be16 (frameCrc cfg command payload) ++ after)) =
      .packet ⟨cfg.magic, lengthByte payload, command, payload, frameCrc cfg command payload⟩
        (p + payload.length + 8) := by
  have hbyte := lengthByte_toNat h
  have hbody : (command :: payload ++ be16 (frameCrc cfg command payload)).length = (lengthByte payload).toNat := by
    rw [hbyte, List.length_append, List.length_cons, be16_length]
  have hcrc : crc16 cfg (lengthByte payload :: command :: payload) = frameCrc cfg command payload := rfl
  rw [decodeAfterMagic_of_complete cfg p (by omega) (by rw [List.length_append, hbody]; omega), List.take_left' hbody,
    decodeBody_parts cfg p _ hbyte, if_pos hcrc, hbyte,
    show p + 5 + (payload.length + 3) = p + payload.length + 8 by omega]

/-- DECODE behind bytes that the hunt passes over: those after the magic are not hunted through. -/
theorem decodeFrame_append_magic {cfg : Config} {before : Bytes} (hm : cfg.magic.length = 4)
    (h : findMagic cfg.magic (before ++ cfg.magic) = some before.length) (rest : Bytes) :
    decodeFrame cfg (before ++ cfg.magic ++ rest) = decodeAfterMagic cfg before.length rest := by
  have hend : (before ++ cfg.magic).length = before.length + 4 := by rw [List.length_append, hm]
  have hfind : findMagic cfg.magic (before ++ cfg.magic ++ rest) = some before.length :=
    (findMagic_take_of_le hend.ge).mp (by rwa [List.take_left])
  rw [decodeFrame_of_magic hfind, ← hend, List.drop_left]

end Sys2Proof.Machine

namespace Sys2Proof.Statements

open Sys2Proof Sys2Proof.Machine

/-- Settles O14: the hunt stops at the frame's magic, and the checks behind it read the frame's fields. -/
theorem decodeInvertsEncode : Obligations.DecodeInvertsEncode := by
  intro before payload after command s hm hlen hfirst
  refine ⟨_, exec_decode .., congrArg RetVal.decoded ?_⟩
  have hbytes : before ++ frameOf s.cfg command payload ++ after = before ++ s.cfg.magic ++
      lengthByte payload :: (command :: payload ++ be16 (frameCrc s.cfg command payload) ++ after) := by
    rw [frameOf_eq, encodeFrame_eq]
    simp only [List.append_assoc, List.cons_append]
  rw [hbytes, decodeFrame_append_magic hm (firstMagic_iff.mp hfirst), decodeAfterMagic_encoded _ _ _ hlen]
  rfl

/-- Settles O11: each field is read off the frame, and the parts are compared by `encodeFrame_inj`. -/
theorem encodedFramesDetermineTheirParts : Obligations.EncodedFramesDetermineTheirParts := by
  intro c d a b f g s t u v hwf hcfg hf hfret hg hgret
  have hm := Config.wf_magic hwf
  obtain rfl := eq_encodeFrame_of_exec hf hfret
  obtain rfl := eq_encodeFrame_of_exec hg hgret
  have hfield (i : Nat) : (encodeFrame s.cfg c a)[4 + i]? =
      (lengthByte a :: (c :: a ++ be16 (frameCrc s.cfg c a)))[i]? := by
    rw [← encodeFrame_drop hm, List.getElem?_drop]
  refine ⟨?length, encodeFrame_take hm c a, hfield 0, hfield 1, ?parts⟩
  case length =>
    rw [encodeFrame_length, hm]
    omega
  case parts =>
    rw [← hcfg]
    exact encodeFrame_inj

/-- Settles O10, by the two outcomes of ENCODE. -/
theorem encodeBuildsTheFrame : Obligations.EncodeBuildsTheFrame := by
  refine fun command payload s => ⟨fun hfits => ?_, fun hlong => exec_encode_of_lt hlong s⟩
  rw [exec_encode_of_le hfits, frameOf_eq]
  rfl

end Sys2Proof.Statements

/-!
The streaming decoder: its steps phase by phase, O16, and its agreement with DECODE, O17 (41_frame_codec.md R152).
-/

namespace Sys2Proof.Machine

/-! ## One byte, phase by phase -/

theorem decByte_of_hunt {d : Dec} (h : d.phase = .hunt) (cfg : Config) (crc : Word16) (b : Byte) :
    decByte cfg d crc b =
      (if (lastFour (d.win ++ [b])).length = 4 ∧ lastFour (d.win ++ [b]) = cfg.magic then
          { d with win := lastFour (d.win ++ [b]), phase := .len }
        else if (lastFour (d.win ++ [b])).length = 4 then
          { d with win := lastFour (d.win ++ [b]), skipped := d.skipped + 1 }
        else { d with win := lastFour (d.win ++ [b]) }, crc) := by
  simp only [decByte, h, apply_ite (fun x : Dec => (x, crc))]

theorem decByte_of_len_short {d : Dec} (h : d.phase = .len) (cfg : Config) (crc : Word16) {b : Byte}
    (hb : b.toNat < 3) :
    decByte cfg d crc b = ({ d with len := b, result := some (.error .lengthInvalid), phase := .done }, crc) := by
  simp only [decByte, h, if_pos hb]

theorem decByte_of_len {d : Dec} (h : d.phase = .len) (cfg : Config) (crc : Word16) {b : Byte} (hb : 3 ≤ b.toNat) :
    decByte cfg d crc b =
      ({ d with len := b, cnt := b, phase := .body }, crcByteStep cfg.poly cfg.crcInit b) := by
  simp only [decByte, h, if_neg (Nat.not_lt.mpr hb)]

/-- `crc_reg` after a byte of the body, of which `cnt` are still to come: the two bytes of the CRC field are not
covered. -/
def bodyCrc (cfg : Config) (crc : Word16) (cnt b : Byte) : Word16 :=
  if 2 ≤ cnt.toNat then crcByteStep cfg.poly crc b else crc

theorem decByte_of_body {d : Dec} (h : d.phase = .body) (cfg : Config) (crc : Word16) (b : Byte)
    (hcnt : d.cnt - 1#8 ≠ 0#8) :
    decByte cfg d crc b =
      ({ d with body := d.body ++ [b], cnt := d.cnt - 1#8 }, bodyCrc cfg crc (d.cnt - 1#8) b) := by
  simp only [decByte, h, if_neg hcnt, bodyCrc]

theorem decByte_of_body_last {d : Dec} (h : d.phase = .body) (cfg : Config) (crc : Word16) (b : Byte)
    (hcnt : d.cnt - 1#8 = 0#8) :
    decByte cfg d crc b =
      ({ d with
          body := d.body ++ [b], cnt := d.cnt - 1#8, phase := .done,
          result := some (bodyResult cfg d (d.body ++ [b]) (bodyCrc cfg crc (d.cnt - 1#8) b)) },
        bodyCrc cfg crc (d.cnt - 1#8) b) := by
  simp only [decByte, h, if_pos hcnt, bodyCrc]

theorem decByte_of_body_snd {d : Dec} (h : d.phase = .body) (cfg : Config) (crc : Word16) (b : Byte) :
    (decByte cfg d crc b).2 = bodyCrc cfg crc (d.cnt - 1#8) b := by
  by_cases hcnt : d.cnt - 1#8 = 0#8
  · rw [decByte_of_body_last h cfg crc b hcnt]
  · rw [decByte_of_body h cfg crc b hcnt]

theorem decByte_of_done {d : Dec} (h : d.phase = .done) (cfg : Config) (crc : Word16) (b : Byte) :
    decByte cfg d crc b = (d, crc) := by
  simp only [decByte, h]

theorem decEnd_of_done {d : Dec} (h : d.phase = .done) : decEnd d = d := by
  simp only [decEnd, h]

@[simp] theorem decTake_dec (s : State) (b : Byte) : (s.decTake b).dec = (decByte s.cfg s.dec s.crcReg b).1 := rfl

@[simp] theorem decTake_crcReg (s : State) (b : Byte) :
    (s.decTake b).crcReg = (decByte s.cfg s.dec s.crcReg b).2 := rfl

@[simp] theorem decStop_dec (s : State) : s.decStop.dec = decEnd s.dec := rfl

theorem exec_decStart (s : State) :
    exec (.decStep .start) s = .next (returnValue (.decStep false none) { s with dec := Dec.start }) := rfl

theorem exec_decByte (b : Byte) (s : State) : exec (.decStep (.byte b)) s =
    .next (returnValue (.decStep (decide (s.dec.phase ≠ .done)) (s.decTake b).dec.result) (s.decTake b)) := rfl

theorem exec_decFinish (s : State) :
    exec (.decStep .finish) s = .next (returnValue (.decStep false s.decStop.dec.result) s.decStop) := rfl

/-! ## Behind the magic -/

/-- The decoder with the magic complete at position `p`. -/
def lenDec (cfg : Config) (p : Nat) : Dec := { Dec.start with win := cfg.magic, skipped := p, phase := .len }

theorem decFeed_of_noMagic {cfg : Config} (hm : cfg.magic.length = 4) (crc : Word16) {bytes : Bytes}
    (h : findMagic cfg.magic bytes = none) : decFeed cfg Dec.start crc bytes = (huntingDec bytes, crc) :=
  decFeed_hunting hm crc bytes (findMagic_none.mp h)

theorem decFeed_of_magic {cfg : Config} (hm : cfg.magic.length = 4) (crc : Word16) {bytes : Bytes} {p : Nat}
    (h : findMagic cfg.magic bytes = some p) :
    decFeed cfg Dec.start crc bytes = decFeed cfg (lenDec cfg p) crc (bytes.drop (p + 4)) := by
  conv_lhs => rw [← List.take_append_drop (p + 4) bytes, decFeed_append, decFeed_magic hm crc h]
  rfl

theorem decFeed_lenDec_of_short (cfg : Config) (p : Nat) (crc : Word16) {len : Byte} (hlen : len.toNat < 3)
    (rest : Bytes) : decFeed cfg (lenDec cfg p) crc (len :: rest) =
      ({ lenDec cfg p with len := len, result := some (.error .lengthInvalid), phase := .done }, crc) := by
  rw [decFeed, decByte_of_len_short rfl cfg crc hlen]
  exact decFeed_done cfg rfl crc rest

theorem decFeed_lenDec_of_min (cfg : Config) (p : Nat) (crc : Word16) {len : Byte} (hlen : 3 ≤ len.toNat)
    (rest : Bytes) : decFeed cfg (lenDec cfg p) crc (len :: rest) =
      decFeed cfg (bodyDec cfg p len []) (crcByteStep cfg.poly cfg.crcInit len) rest := by
  have hcount : BitVec.ofNat 8 (len.toNat - ([] : Bytes).length) = len := by
    rw [List.length_nil, Nat.sub_zero, BitVec.ofNat_toNat, BitVec.setWidth_eq]
  rw [decFeed, decByte_of_len rfl cfg crc hlen, bodyDec, hcount]
  rfl

theorem decFeed_lenDec_of_truncated (cfg : Config) (p : Nat) (crc : Word16) {len : Byte} (hlen : 3 ≤ len.toNat)
    {rest : Bytes} (h : rest.length < len.toNat) :
    (decFeed cfg (lenDec cfg p) crc (len :: rest)).1 = bodyDec cfg p len rest := by
  rw [decFeed_lenDec_of_min cfg p crc hlen, decFeed_body p len rest h]

theorem decFeed_lenDec_of_complete (cfg : Config) (p : Nat) (crc : Word16) {len : Byte} (hlen : 3 ≤ len.toNat)
    {rest : Bytes} (h : len.toNat ≤ rest.length) :
    (decFeed cfg (lenDec cfg p) crc (len :: rest)).1 =
      { lenDec cfg p with
        phase := .done, len := len, body := rest.take len.toNat, cnt := 0#8,
        result := some (decodeBody cfg p len (rest.take len.toNat)) } := by
  rw [decFeed_lenDec_of_min cfg p crc hlen, ← List.take_append_drop len.toNat rest, decFeed_append,
    decFeed_last p len _ hlen (List.length_take_of_le h), List.take_append_drop, decFeed_done cfg rfl]
  rfl

/-- Behind the magic, DEC.END leaves the result of DECODE's checks. -/
theorem decEnd_decFeed_lenDec (cfg : Config) (p : Nat) (crc : Word16) (rest : Bytes) :
    (decEnd (decFeed cfg (lenDec cfg p) crc rest).1).result = some (decodeAfterMagic cfg p rest) := by
  cases rest with
  | nil => rfl
  | cons len rest =>
    rcases Nat.lt_or_ge len.toNat 3 with hshort | hmin
    · rw [decFeed_lenDec_of_short cfg p crc hshort, decodeAfterMagic_of_short cfg p hshort]
      rfl
    · rcases Nat.lt_or_ge rest.length len.toNat with hend | hfit
      · rw [decFeed_lenDec_of_truncated cfg p crc hmin hend, decodeAfterMagic_of_truncated cfg p hmin hend]
        rfl
      · rw [decFeed_lenDec_of_complete cfg p crc hmin hfit, decodeAfterMagic_of_complete cfg p hmin hfit]
        rfl

theorem decFeed_lenDec_done_iff (cfg : Config) (p : Nat) (crc : Word16) (len : Byte) (rest : Bytes) :
    (decFeed cfg (lenDec cfg p) crc (len :: rest)).1.phase = .done ↔ len.toNat < 3 ∨ len.toNat ≤ rest.length := by
  rcases Nat.lt_or_ge len.toNat 3 with hshort | hmin
  · rw [decFeed_lenDec_of_short cfg p crc hshort]
    exact iff_of_true rfl (.inl hshort)
  · rcases Nat.lt_or_ge rest.length len.toNat with hend | hfit
    · rw [decFeed_lenDec_of_truncated cfg p crc hmin hend]
      exact iff_of_false nofun (by omega)
    · rw [decFeed_lenDec_of_complete cfg p crc hmin hfit]
      exact iff_of_true rfl (.inr hfit)

/-! ## Agreement with DECODE -/

/-- DEC.START, DEC.BYTE for each byte and DEC.END leave the result of DECODE. -/
theorem decEnd_decFeed_result {cfg : Config} (hm : cfg.magic.length = 4) (crc : Word16) (bytes : Bytes) :
    (decEnd (decFeed cfg Dec.start crc bytes).1).result = some (decodeFrame cfg bytes) := by
  cases hfind : findMagic cfg.magic bytes with
  | none =>
    rw [decFeed_of_noMagic hm crc hfind, decodeFrame_of_noMagic hfind]
    rfl
  | some p => rw [decFeed_of_magic hm crc hfind, decodeFrame_of_magic hfind, decEnd_decFeed_lenDec]

/-- The decoder is DONE from the length byte on when that is below 3, else from the byte on that completes the body. -/
theorem decFeed_take_done_iff {cfg : Config} (hm : cfg.magic.length = 4) (crc : Word16) {bytes : Bytes} {p : Nat}
    {len : Byte} (hfind : findMagic cfg.magic bytes = some p) (hlen : bytes[p + 4]? = some len) {k : Nat}
    (hk : k ≤ bytes.length) :
    (decFeed cfg Dec.start crc (bytes.take k)).1.phase = .done ↔
      p + 5 ≤ k ∧ (len.toNat < 3 ∨ p + 5 + len.toNat ≤ k) := by
  rcases Nat.lt_or_ge k (p + 4) with hhunt | hmagic
  · rw [decFeed_of_noMagic hm crc (findMagic_take_of_lt hfind hhunt)]
    exact iff_of_false nofun (by omega)
  · obtain ⟨m, rfl⟩ := Nat.exists_eq_add_of_le hmagic
    obtain ⟨hlt, hbyte⟩ := List.getElem?_eq_some_iff.mp hlen
    rw [decFeed_of_magic hm crc ((findMagic_take_of_le hmagic).mpr hfind), List.drop_take, Nat.add_sub_cancel_left,
      List.drop_eq_getElem_cons hlt, hbyte]
    cases m with
    | zero => exact iff_of_false nofun (by omega)
    | succ m =>
      rw [List.take_succ_cons, decFeed_lenDec_done_iff, List.length_take_of_le (by rw [List.length_drop]; omega)]
      omega

theorem decodeBody_cases (cfg : Config) (p : Nat) (len : Byte) (body : Bytes) :
    (∃ q, decodeBody cfg p len body = .packet q (p + 5 + len.toNat)) ∨ decodeBody cfg p len body = .error .crc := by
  rw [decodeBody]
  split
  · exact .inl ⟨_, rfl⟩
  · exact .inr rfl

/-- What DECODE can return when a length byte follows the magic (R148 to R150). -/
theorem decodeFrame_cases {cfg : Config} {bytes : Bytes} {p : Nat} {len : Byte}
    (hfind : findMagic cfg.magic bytes = some p) (hlen : bytes[p + 4]? = some len) :
    (len.toNat < 3 ∧ decodeFrame cfg bytes = .error .lengthInvalid) ∨
    (3 ≤ len.toNat ∧ bytes.length < p + 5 + len.toNat ∧ decodeFrame cfg bytes = .error .truncated) ∨
    (3 ≤ len.toNat ∧ p + 5 + len.toNat ≤ bytes.length ∧
      ((∃ q, decodeFrame cfg bytes = .packet q (p + 5 + len.toNat)) ∨ decodeFrame cfg bytes = .error .crc)) := by
  obtain ⟨hlt, hbyte⟩ := List.getElem?_eq_some_iff.mp hlen
  have hrest : (bytes.drop (p + 5)).length = bytes.length - (p + 5) := List.length_drop
  rw [decodeFrame_of_magic hfind, List.drop_eq_getElem_cons hlt, hbyte]
  rcases Nat.lt_or_ge len.toNat 3 with hshort | hmin
  · exact .inl ⟨hshort, decodeAfterMagic_of_short cfg p hshort _⟩
  · rcases Nat.lt_or_ge (bytes.drop (p + 5)).length len.toNat with hend | hfit
    · exact .inr (.inl ⟨hmin, by omega, decodeAfterMagic_of_truncated cfg p hmin hend⟩)
    · rw [decodeAfterMagic_of_complete cfg p hmin hfit]
      exact .inr (.inr ⟨hmin, by omega, decodeBody_cases ..⟩)

/-- A packet was read from a length byte behind the magic. -/
theorem exists_lengthByte_of_packet {cfg : Config} {bytes : Bytes} {q : Packet} {n : Nat}
    (h : decodeFrame cfg bytes = .packet q n) : ∃ p len, findMagic cfg.magic bytes = some p ∧
      bytes[p + 4]? = some len ∧ 3 ≤ len.toNat ∧ n = p + 5 + len.toNat ∧ n ≤ bytes.length := by
  cases hfind : findMagic cfg.magic bytes with
  | none =>
    rw [decodeFrame_of_noMagic hfind] at h
    cases h
  | some p =>
    cases hlen : bytes[p + 4]? with
    | none =>
      rw [decodeFrame_of_magic hfind, List.drop_of_length_le (List.getElem?_eq_none_iff.mp hlen)] at h
      cases h
    | some len =>
      refine ⟨p, len, rfl, hlen, ?_⟩
      rcases decodeFrame_cases hfind hlen with ⟨-, hr⟩ | ⟨-, -, hr⟩ | ⟨hmin, hfit, ⟨q', hr⟩ | hr⟩ <;>
        rw [hr] at h <;> cases h
      exact ⟨hmin, rfl, hfit⟩

/-- The decoder of a packet is DONE exactly from its last consumed byte on. -/
theorem decFeed_take_done_iff_of_packet {cfg : Config} (hm : cfg.magic.length = 4) (crc : Word16) {bytes : Bytes}
    {q : Packet} {n k : Nat} (h : decodeFrame cfg bytes = .packet q n) (hk : k ≤ bytes.length) :
    (decFeed cfg Dec.start crc (bytes.take k)).1.phase = .done ↔ n ≤ k := by
  obtain ⟨p, len, hfind, hlen, hmin, rfl, -⟩ := exists_lengthByte_of_packet h
  rw [decFeed_take_done_iff hm crc hfind hlen hk]
  omega

end Sys2Proof.Machine

namespace Sys2Proof.Statements

open Sys2Proof Sys2Proof.Machine

/-- Settles O16, by the equation of each phase. -/
theorem decoderStepsByPhase : Obligations.DecoderStepsByPhase := by
  refine fun s => ⟨exec_decStart s, fun b => ⟨_, exec_decByte b s, rfl, ?byte⟩, _, exec_decFinish s, rfl, ?finish⟩
  case byte =>
    rw [returnValue_dec, returnValue_crcReg, decTake_dec, decTake_crcReg]
    cases hphase : s.dec.phase with
    | hunt =>
      rw [decByte_of_hunt hphase]
      exact ⟨rfl, rfl⟩
    | len =>
      refine ⟨fun hshort => ?_, fun hmin => ?_⟩
      · rw [decByte_of_len_short hphase _ _ hshort]
        exact ⟨rfl, rfl⟩
      · rw [decByte_of_len hphase _ _ hmin]
        exact ⟨rfl, rfl⟩
    | body =>
      refine ⟨decByte_of_body_snd hphase .., fun hmore => ?_, fun hlast => ?_⟩
      · rw [decByte_of_body hphase _ _ _ hmore]
      · rw [decByte_of_body_last hphase _ _ _ hlast]
        rfl
    | done =>
      rw [decByte_of_done hphase]
      exact ⟨rfl, rfl⟩
  case finish =>
    rw [returnValue_dec, decStop_dec]
    generalize s.dec = d
    obtain ⟨phase, _, _, _, _, _, _⟩ := d
    cases phase <;> rfl

/-- DEC.BYTE for each byte, as operations. -/
theorem runAll_decBytes (bytes : Bytes) (rest : List Instr) (s : State) :
    ∃ u, runAll (bytes.map (fun b => .decStep (.byte b)) ++ rest) s = runAll rest u ∧
      u.dec = (decFeed s.cfg s.dec s.crcReg bytes).1 := by
  induction bytes generalizing s with
  | nil => exact ⟨s, rfl, rfl⟩
  | cons b bytes ih =>
    obtain ⟨u, hrun, hdec⟩ := ih
      (returnValue (.decStep (decide (s.dec.phase ≠ .done)) (s.decTake b).dec.result) (s.decTake b))
    exact ⟨u, hrun, hdec⟩

theorem runAll_decStart (bytes : Bytes) (rest : List Instr) (s : State) :
    ∃ u, runAll (.decStep .start :: (bytes.map (fun b => .decStep (.byte b)) ++ rest)) s = runAll rest u ∧
      u.dec = (decFeed s.cfg Dec.start s.crcReg bytes).1 :=
  runAll_decBytes bytes rest (returnValue (.decStep false none) { s with dec := Dec.start })

/-- Settles O17: the result by `decEnd_decFeed_result`, the byte at which DONE is reached by `decFeed_take_done_iff`. -/
theorem streamingDecoderAgrees : Obligations.StreamingDecoderAgrees := by
  intro bytes s t r hm hexec hret
  obtain rfl : decodeFrame s.cfg bytes = r := RetVal.decoded.inj ((exec_decode_ret hexec).symm.trans hret)
  refine ⟨?result, fun k hk => ?done⟩
  case result =>
    obtain ⟨u, hrun, hdec⟩ := runAll_decStart bytes [.decStep .finish] s
    refine ⟨returnValue (.decStep false u.decStop.dec.result) u.decStop, hrun, ?_⟩
    rw [← decEnd_decFeed_result hm s.crcReg bytes, ← hdec]
    rfl
  case done =>
    obtain ⟨u, hrun, hdec⟩ := runAll_decStart (bytes.take k) [] s
    rw [List.append_nil] at hrun
    refine ⟨u, hrun, fun q n hpacket => ?packet, fun i len hfirst hlen => ?error⟩
    case packet =>
      rw [hdec]
      exact decFeed_take_done_iff_of_packet hm _ hpacket hk
    case error =>
      have hfind := firstMagic_iff.mp hfirst
      rw [hdec, decFeed_take_done_iff hm _ hfind hlen hk]
      rcases decodeFrame_cases hfind hlen with ⟨hshort, hr⟩ | ⟨-, -, hr⟩ | ⟨hmin, -, ⟨q, hr⟩ | hr⟩ <;> rw [hr]
      · exact ⟨fun _ => by omega, nofun⟩
      · exact ⟨nofun, nofun⟩
      · exact ⟨nofun, nofun⟩
      · exact ⟨nofun, fun _ => by omega⟩

end Sys2Proof.Statements

/-!
The packets that SEND returns: what the receive loop leaves is DECODE's result on the bytes it took, through the
attempts and the retry loop, and O31 (43_dispatcher.md R202 to R208).
-/

namespace Sys2Proof.Machine

/-! ## What was received -/

/-- The result in the decoder is DECODE's on the bytes of `last_raw`, and a packet took all of them. -/
structure Received (p : PortId) (s : State) : Prop where
  outcome  : s.dec.outcome = decodeFrame s.cfg (s.link p).lastRaw
  consumed : ∀ q n, s.dec.outcome = .packet q n → n = (s.link p).lastRaw.length

/-- A decoder that was not DONE before the last byte left none behind its packet. -/
theorem eq_length_of_packet {cfg : Config} (hm : cfg.magic.length = 4) (crc : Word16) {bytes : Bytes} {q : Packet}
    {n : Nat} (h : decodeFrame cfg bytes = .packet q n)
    (hbefore : ∀ k < bytes.length, (decFeed cfg Dec.start crc (bytes.take k)).1.phase ≠ .done) : n = bytes.length := by
  obtain ⟨-, -, -, -, -, -, hle⟩ := exists_lengthByte_of_packet h
  rcases Nat.lt_or_eq_of_le hle with hlt | heq
  · exact absurd ((decFeed_take_done_iff_of_packet hm crc h hle).mpr (Nat.le_refl n)) (hbefore n hlt)
  · exact heq

/-- The receive loop that ends without an I/O failure has taken what DECODE would take (R202). -/
theorem receive_received {p : PortId} {s s' : State} (hm : s.cfg.magic.length = 4) (hdec : s.dec = Dec.start)
    (hraw : (s.link p).lastRaw = []) (h : receive p s = .done s') : Received p s' := by
  obtain ⟨evolves, -⟩ := (receiveLoop_spec p _ s).1 s' h
  obtain ⟨fed, hfed, hbefore, hend⟩ := receiveLoop_fed p _ s s' h
  rw [hraw, List.nil_append] at hfed
  rw [hdec] at hbefore hend
  have hstopped : s'.dec = decEnd (decFeed s.cfg Dec.start s.crcReg fed).1 := by
    rcases hend with ⟨hdone, hphase⟩ | hstopped
    · rw [← hdone, decEnd_of_done hphase]
    · exact hstopped
  have houtcome : s'.dec.outcome = decodeFrame s.cfg fed := by
    rw [Dec.outcome, hstopped, decEnd_decFeed_result hm]
    rfl
  refine ⟨?_, fun q n hpacket => ?_⟩
  · rw [houtcome, evolves.cfg, hfed]
  · rw [hfed]
    exact eq_length_of_packet hm _ (houtcome.symm.trans hpacket) hbefore

/-- An attempt ends with an I/O failure, or by classifying what was received for the request in flight (R201 to
R204). -/
theorem attempt_cases {s : State} (hm : s.cfg.magic.length = 4) (p : PortId) :
    (∃ s', attempt p s = .ioFailed s') ∨
    ∃ s', attempt p s = classify p s' ∧ Received p s' ∧ s'.cfg = s.cfg ∧ (s'.link p).curCmd = (s.link p).curCmd := by
  unfold attempt
  rcases rxFlush_cases p (countAttempt p s) with ⟨-, hflush⟩ | ⟨-, hflush⟩ <;> simp only [hflush]
  · exact .inl ⟨_, rfl⟩
  · generalize hs1 : ((countAttempt p s).drawIo.2.setLink p { (countAttempt p s).link p with rx := [] }).decBegin = s1
    rcases txPut_cases p (s1.link p).curFrame s1 with ⟨-, hput⟩ | ⟨-, hput⟩ <;> simp only [hput]
    · exact .inl ⟨_, rfl⟩
    · generalize hs2 : armDeadline p (s1.drawIo.2.setLink p
        { s1.link p with tx := (s1.link p).tx ++ (s1.link p).curFrame }) = s2
      have hcfg : s2.cfg = s.cfg := by simp [← hs2, ← hs1]
      have hdec : s2.dec = Dec.start := by simp [← hs2, ← hs1, State.decBegin]
      have hraw : (s2.link p).lastRaw = [] := by simp [← hs2, ← hs1]
      have hcmd : (s2.link p).curCmd = (s.link p).curCmd := by simp [← hs2, ← hs1]
      cases hrecv : receive p s2 with
      | ioFailed s3 => exact .inl ⟨s3, rfl⟩
      | done s3 =>
        obtain ⟨evolves, rx, raw, hlink⟩ := (receiveLoop_spec p _ s2).1 s3 hrecv
        refine .inr ⟨s3, rfl, receive_received (hcfg ▸ hm) hdec hraw hrecv, evolves.cfg.trans hcfg, ?_⟩
        rw [hlink, ← hcmd]

/-! ## From the attempt to SEND -/

/-- DECODE reads `q` from `raw` and consumes all of it, and `q` answers `command` (R204). -/
structure AnsweredBy (cfg : Config) (command : Byte) (q : Packet) (raw : Bytes) : Prop where
  fits    : replyFits cfg command q = true
  decoded : decodeFrame cfg raw = .packet q raw.length

theorem attempt_decoded {p : PortId} {s s' : State} {q : Packet} (hm : s.cfg.magic.length = 4)
    (h : attempt p s = .decoded q s') : AnsweredBy s.cfg (s.link p).curCmd q (s'.link p).lastRaw := by
  rcases attempt_cases hm p with ⟨s3, hfail⟩ | ⟨s3, hclass, received, hcfg, hcmd⟩
  · rw [hfail] at h
    cases h
  · rw [hclass] at h
    rcases classify_cases p s3 with ⟨q', n, hpacket, hfits, hdecoded⟩ | ⟨d, c, hfailed⟩
    · rw [hdecoded] at h
      cases h
      have hraw : ((passAttempt p s3).link p).lastRaw = (s3.link p).lastRaw := by rw [link_passAttempt_same]
      rw [hraw, ← hcfg, ← hcmd]
      refine ⟨hfits, ?_⟩
      rw [← received.outcome, hpacket, received.consumed q n hpacket]
    · rw [hfailed] at h
      cases h

theorem goIdle_lastRaw (p : PortId) (s : State) : ((goIdle p s).link p).lastRaw = (s.link p).lastRaw := by
  unfold goIdle
  split
  · rw [link_setLink_same]
  · rfl

theorem attempt_decoded_idle {p : PortId} {s s' : State} {q : Packet} (hm : s.cfg.magic.length = 4)
    (h : attempt p s = .decoded q s') : AnsweredBy s.cfg (s.link p).curCmd q ((goIdle p s').link p).lastRaw := by
  rw [goIdle_lastRaw]
  exact attempt_decoded hm h

/-- A packet with which the retry loop ends is that of one attempt, and no attempt changes the request (R208). -/
theorem tryAttempts_packet {p : PortId} {n : Nat} {s s' : State} {q : Packet} (hm : s.cfg.magic.length = 4)
    (h : tryAttempts p n s = .packet q s') : AnsweredBy s.cfg (s.link p).curCmd q (s'.link p).lastRaw := by
  induction n generalizing s with
  | zero =>
    rw [tryAttempts] at h
    rcases attempt_spec p s with ⟨q1, s1, ha, -⟩ | ⟨s1, ha, -⟩ | ⟨s1, ha, -⟩ <;> rw [ha] at h <;> cases h
    exact attempt_decoded_idle hm ha
  | succ n ih =>
    rw [tryAttempts] at h
    rcases attempt_spec p s with ⟨q1, s1, ha, -⟩ | ⟨s1, ha, attempted, -⟩ | ⟨s1, ha, -⟩ <;> rw [ha] at h
    · cases h
      exact attempt_decoded_idle hm ha
    · have hcfg : (retryPause s1).cfg = s.cfg := (evolves_retryPause p s1).cfg.trans attempted.evolves.cfg
      have hcmd : ((retryPause s1).link p).curCmd = (s.link p).curCmd := by
        obtain ⟨rx, raw, hlink⟩ := sameButInput_retryPause p s1
        rw [hlink, ← attempted.curCmd]
      rw [← hcfg, ← hcmd]
      exact ih (hcfg ▸ hm) h
    · cases h

theorem sendRequest_answered {p : PortId} {command : Byte} {payload : Bytes} {timeout : Nat} {allow : Bool}
    {s s' : State} {q : Packet} (hm : s.cfg.magic.length = 4)
    (h : sendRequest p command payload timeout allow s = .packet q s') :
    AnsweredBy s.cfg command q (s'.link p).lastRaw := by
  rw [sendRequest] at h
  split at h
  · cases h
  · cases h
  · have answered := tryAttempts_packet (by rwa [latch_cfg, stampPolicy_cfg]) h
    rwa [link_latch_same, latch_cfg, stampPolicy_cfg] at answered

/-- A packet that SEND returns is the one the request ended with. -/
theorem sendRequest_of_exec {p : PortId} {command : Byte} {payload : Bytes} {timeout : Nat} {allow : Bool}
    {s t : State} {q : Packet} (h : exec (.send p command payload timeout allow) s = .next t)
    (hret : t.ret = .packet q) :
    ∃ s', sendRequest p command payload timeout allow s = .packet q s' ∧ t = returnValue (.packet q) s' := by
  rw [exec_send, execSend] at h
  split at h
  case h_1 q' s' hsend =>
    cases h
    cases hret
    exact ⟨s', hsend, rfl⟩
  case h_2 =>
    cases h
    cases hret
  case h_3 => cases h

end Sys2Proof.Machine

namespace Sys2Proof.Statements

open Sys2Proof Sys2Proof.Machine

/-- The check of R204, in the statements' terms. -/
theorem replyFits_iff {cfg : Config} {command : Byte} {q : Packet} : replyFits cfg command q = true ↔
    q.command = command ∧ ∃ row, rowOf cfg command = some row ∧ Fits cfg row.response q.payload := by
  rw [replyFits, Bool.and_eq_true, decide_eq_true_eq]
  refine and_congr_right fun _ => ?_
  cases rowOf cfg command with
  | none => simp
  | some row => simp [fits_iff]

/-- Settles O31: the packet passed the check of R204, and was DECODE's result on `last_raw`. -/
theorem returnedPacketsWereReceived : Obligations.ReturnedPacketsWereReceived := by
  intro p command payload timeout allow s t q hm hexec hret
  obtain ⟨s', hsend, rfl⟩ := sendRequest_of_exec hexec hret
  obtain ⟨hfits, hdecoded⟩ := sendRequest_answered hm hsend
  obtain ⟨hcommand, hrow⟩ := replyFits_iff.mp hfits
  refine ⟨hcommand, hrow, ?_⟩
  rw [link_returnValue, ← hdecoded]
  exact decodeSays_decodeFrame ..

end Sys2Proof.Statements

/-!
The operation DISCONNECT, and O20 (42_transport.md R173).
-/

namespace Sys2Proof.Machine

/-- The lines are low on an absent Session (R28, R46). -/
theorem dtrLevel_of_absent {l : Link} (h : l.session = none) : l.dtrLevel = .low := by
  rw [Link.dtrLevel, h]

theorem rtsLevel_of_absent {l : Link} (h : l.session = none) : l.rtsLevel = .low := by
  rw [Link.rtsLevel, h]

theorem session_closeSession (p : PortId) (s : State) : ((closeSession p s).link p).session = none := by
  rw [link_closeSession_same]

/-- Closing a Session leaves the dispatcher registers of its port. -/
theorem busy_closeSession (p : PortId) (s : State) : ((closeSession p s).link p).busy = (s.link p).busy := by
  rw [link_closeSession_same]
  rfl

theorem mem_portsHeld_closeSession {p q : PortId} {s : State} :
    q ∈ (closeSession p s).portsHeld ↔ q ∈ s.portsHeld ∧ q ≠ p := mem_dropPort

/-- On an absent Session DISCONNECT does nothing and raises nothing (R173). -/
theorem exec_disconnect_of_absent {p : PortId} {s : State} (hidle : (s.link p).busy = false)
    (habsent : (s.link p).session = none) : exec (.disconnect p) s = .next (returnValue .unit s) := by
  simp only [exec, execDisconnect, hidle, Bool.false_eq_true, if_false, if_pos habsent]

theorem exec_disconnect_of_present {p : PortId} {s : State} (hidle : (s.link p).busy = false)
    (hpresent : (s.link p).session ≠ none) :
    exec (.disconnect p) s = .next (returnValue .unit (closeSession p s)) := by
  simp only [exec, execDisconnect, hidle, Bool.false_eq_true, if_false, if_neg hpresent]

/-- A second DISCONNECT finds the Session absent and the value already returned. -/
theorem exec_disconnect_closed {p : PortId} {s : State} (hidle : (s.link p).busy = false) :
    exec (.disconnect p) (returnValue .unit (closeSession p s)) = .next (returnValue .unit (closeSession p s)) :=
  exec_disconnect_of_absent ((busy_closeSession p s).trans hidle) (session_closeSession p s)

end Sys2Proof.Machine

namespace Sys2Proof.Statements

open Sys2Proof Sys2Proof.Machine

/-- Settles O20: DISCONNECT closes a present Session, and what it leaves is a state it does not change. -/
theorem disconnectClosesTheSession : Obligations.DisconnectClosesTheSession := by
  intro p s hidle
  refine ⟨exec_disconnect_of_absent hidle, fun hpresent => ?_⟩
  have hclosed := session_closeSession p s
  exact ⟨_, exec_disconnect_of_present hidle hpresent, link_closeSession_same p s,
    dtrLevel_of_absent hclosed, rtsLevel_of_absent hclosed, isConnected_of_absent hclosed,
    fun q hq => link_closeSession_other p s hq, fun _ => mem_portsHeld_closeSession, rfl,
    exec_disconnect_closed hidle⟩

end Sys2Proof.Statements

/-!
A port with a request in flight, and O27: which operations make a request of SEND, and that every operation on the port
is refused (43_dispatcher.md R191, 70_reset_and_hazards.md R361).
-/

namespace Sys2Proof.Machine

/-! ## What is made of SEND -/

theorem gate_of_busy {cfg : Config} {l : Link} {p : PortId} (now : Nat) (command : Byte) (payload : Bytes)
    (allow : Bool) (hbusy : l.busy = true) : gate cfg l now p command payload allow = .refused (.busy p) :=
  if_pos hbusy

theorem sendRequest_of_gate_refused {p : PortId} {command : Byte} {payload : Bytes} {allow : Bool} {s : State}
    {r : Refusal} (timeout : Nat) (hg : gate s.cfg (s.link p) s.now p command payload allow = .refused r) :
    sendRequest p command payload timeout allow s = .refused r := by rw [sendRequest, hg]

/-- A refusal by the gate is the outcome of SEND. -/
theorem exec_send_of_gate_refused {p : PortId} {command : Byte} {payload : Bytes} {allow : Bool} {s : State}
    {r : Refusal} (timeout : Nat) (hg : gate s.cfg (s.link p) s.now p command payload allow = .refused r) :
    exec (.send p command payload timeout allow) s = .refused r := by
  rw [exec_send, execSend, sendRequest_of_gate_refused timeout hg]

section
variable {p : PortId} {s : State}

theorem sendRequest_of_busy (command : Byte) (payload : Bytes) (timeout : Nat) (allow : Bool)
    (hbusy : (s.link p).busy = true) : sendRequest p command payload timeout allow s = .refused (.busy p) :=
  sendRequest_of_gate_refused timeout (gate_of_busy s.now command payload allow hbusy)

theorem wireCommand_of_busy (op : Byte) (timeout : Nat) (payload : Bytes) (channel : Option Word16)
    (hbusy : (s.link p).busy = true) : wireCommand op p timeout payload channel s = .refused (.busy p) := by
  rw [wireCommand, sendRequest_of_busy op payload timeout false hbusy]

theorem readOne_of_busy (timeout : Nat) (index : Word16) (hbusy : (s.link p).busy = true) :
    readOne p timeout index s = .refused (.busy p) := by
  rw [readOne, sendRequest_of_busy _ _ timeout false hbusy]

theorem writeOne_of_busy (timeout : Nat) (allow : Bool) (record : ChannelRecord) (hbusy : (s.link p).busy = true) :
    writeOne p timeout allow record s = .refused (.busy p) := by
  rw [writeOne, sendRequest_of_busy _ _ timeout allow hbusy]

/-! ## The channel reads and writes, which check the index first (log 22) -/

theorem indexTooLarge_iff {cfg : Config} {index : Word16} :
    indexTooLarge cfg index = true ↔ cfg.maxChannel < index.toNat := decide_eq_true_iff

theorem exec_readChannel_of_index_too_large {index : Word16} (timeout : Nat)
    (hindex : s.cfg.maxChannel < index.toNat) :
    exec (.readChannel p index timeout) s = .refused (.indexOutOfRange index) :=
  if_pos (indexTooLarge_iff.mpr hindex)

theorem exec_writeChannel_of_index_too_large {record : ChannelRecord} (timeout : Nat) (allow : Bool)
    (hindex : s.cfg.maxChannel < record.index.toNat) :
    exec (.writeChannel p record timeout allow) s = .refused (.indexOutOfRange record.index) :=
  if_pos (indexTooLarge_iff.mpr hindex)

theorem exec_readChannel_of_busy {index : Word16} (timeout : Nat) (hindex : index.toNat ≤ s.cfg.maxChannel)
    (hbusy : (s.link p).busy = true) : exec (.readChannel p index timeout) s = .refused (.busy p) := by
  simp only [exec, execReadChannel, indexTooLarge_iff, Nat.not_lt.mpr hindex, if_false,
    readOne_of_busy timeout index hbusy]

theorem exec_writeChannel_of_busy {record : ChannelRecord} (timeout : Nat) (allow : Bool)
    (hindex : record.index.toNat ≤ s.cfg.maxChannel) (hbusy : (s.link p).busy = true) :
    exec (.writeChannel p record timeout allow) s = .refused (.busy p) := by
  simp only [exec, execWriteChannel, indexTooLarge_iff, Nat.not_lt.mpr hindex, if_false,
    writeOne_of_busy timeout allow record hbusy]

end

end Sys2Proof.Machine

namespace Sys2Proof.Statements

open Sys2Proof Sys2Proof.Machine

/-- A wire command hands SEND the request that `wireRequest` names. -/
theorem exec_of_wireRequest {i : Instr} {s : State} {p : PortId} {timeout : Nat} {op : Byte} {payload : Bytes}
    (h : wireRequest s.cfg i = some (p, timeout, op, payload)) :
    ∃ channel, exec i s = wireCommand op p timeout payload channel s := by
  cases i <;> cases h <;> exact ⟨_, rfl⟩

/-- A query of the host is a wire command with the empty payload (R295, R296). -/
theorem exec_of_queryRequest {i : Instr} {s : State} {p : PortId} {timeout : Nat} {op : Byte} {payload : Bytes}
    (h : queryRequest s.cfg i = some (p, timeout, op, payload)) :
    exec i s = wireCommand op p timeout payload none s := by
  cases i <;> cases h <;> rfl

/-- What an operation on a port answers while a request is in flight there: only a channel read or write that names an
index out of range is refused for another reason. -/
theorem exec_of_busy {i : Instr} {p : PortId} {s : State} (hbusy : (s.link p).busy = true)
    (hport : portOf i = some p) :
    exec i s = .refused (.busy p) ∨
      ∃ index : Word16, s.cfg.maxChannel < index.toNat ∧ ¬ indicesOk s.cfg i ∧
        exec i s = .refused (.indexOutOfRange index) := by
  have wire {timeout : Nat} {op : Byte} {payload : Bytes}
      (h : wireRequest s.cfg i = some (p, timeout, op, payload)) : exec i s = .refused (.busy p) := by
    obtain ⟨channel, e⟩ := exec_of_wireRequest h
    rw [e, wireCommand_of_busy op timeout payload channel hbusy]
  have query {timeout : Nat} {op : Byte} {payload : Bytes}
      (h : queryRequest s.cfg i = some (p, timeout, op, payload)) : exec i s = .refused (.busy p) := by
    rw [exec_of_queryRequest h, wireCommand_of_busy op timeout payload none hbusy]
  cases i <;> cases hport
  case ptt | modeSet | statusSync | equipId | powerSet | rxoffSet | meterSync | paramSync | spectrum | chWrite |
      chRead => exact .inl (wire rfl)
  case queryStatus | queryMeters | queryParams => exact .inl (query rfl)
  case send command payload timeout allow =>
    exact .inl (exec_send_of_gate_refused timeout (gate_of_busy s.now command payload allow hbusy))
  case connect | disconnect | resetInput | txPut | rxTake | setAllowUnstable | readAll | writeAll =>
    exact .inl (if_pos hbusy)
  case readChannel index timeout =>
    rcases Nat.lt_or_ge s.cfg.maxChannel index.toNat with above | within
    · exact .inr ⟨index, above, Nat.not_le.mpr above, exec_readChannel_of_index_too_large timeout above⟩
    · exact .inl (exec_readChannel_of_busy timeout within hbusy)
  case writeChannel record timeout allow =>
    rcases Nat.lt_or_ge s.cfg.maxChannel record.index.toNat with above | within
    · exact .inr ⟨record.index, above, Nat.not_le.mpr above,
        exec_writeChannel_of_index_too_large timeout allow above⟩
    · exact .inl (exec_writeChannel_of_busy timeout allow within hbusy)

/-- Settles O27, by the two refusals of `exec_of_busy`. -/
theorem busyPortsRefuseOperations : Obligations.BusyPortsRefuseOperations := by
  intro i p s hbusy hport
  rcases exec_of_busy hbusy hport with busy | ⟨index, above, hnot, refused⟩
  · exact ⟨fun _ => busy, .inl busy⟩
  · exact ⟨fun hindices => absurd hindices hnot, .inr ⟨index, above, refused⟩⟩

end Sys2Proof.Statements

/-!
The gate of SEND check by check, and O26 (43_dispatcher.md R191 to R198).
-/

namespace Sys2Proof.Machine

theorem gate_of_absent {cfg : Config} {l : Link} {p : PortId} (now : Nat) (command : Byte) (payload : Bytes)
    (allow : Bool) (hidle : l.busy = false) (habsent : l.isConnected = false) :
    gate cfg l now p command payload allow = .error (.connection p .notConnected) := by
  simp only [gate, hidle, habsent, Bool.not_false, Bool.false_eq_true, if_false, if_true]

theorem gate_of_no_row {cfg : Config} {l : Link} {command : Byte} (now : Nat) (p : PortId) (payload : Bytes)
    (allow : Bool) (hidle : l.busy = false) (hlive : l.isConnected = true) (hrow : rowOf cfg command = none) :
    gate cfg l now p command payload allow =
      .error (.unsupported command .noTableEntry (writeIndex cfg command payload)) := by
  simp only [gate, hidle, hlive, hrow, Bool.not_true, Bool.false_eq_true, if_false]

theorem gateShape_of_misfit {cfg : Config} {row : Row} {payload : Bytes} (command : Byte) (risk : Risk)
    (h : fits cfg row.request payload = false) :
    gateShape cfg row command payload risk = .refused (.requestShape command) := by
  rw [gateShape, h, Bool.not_false, if_pos rfl]

theorem gateShape_of_too_long {cfg : Config} {row : Row} {payload : Bytes} (command : Byte) (risk : Risk)
    (h : fits cfg row.request payload = true) (hlong : maxPayload < payload.length) :
    gateShape cfg row command payload risk = .refused (.payloadTooLong payload.length) := by
  rw [gateShape, h, Bool.not_true, if_neg Bool.false_ne_true, if_pos hlong]

end Sys2Proof.Machine

namespace Sys2Proof.Statements

open Sys2Proof Sys2Proof.Machine

/-- Where the gate comes to its last check, SEND refuses a payload that does not fit the row's shape or a frame
(R197). -/
theorem exec_send_of_gate_shape {p : PortId} {command : Byte} {payload : Bytes} {allow : Bool} {s : State}
    {row : Row} {risk : Risk} (timeout : Nat)
    (hg : gate s.cfg (s.link p) s.now p command payload allow = gateShape s.cfg row command payload risk) :
    (¬ Fits s.cfg row.request payload →
      exec (.send p command payload timeout allow) s = .refused (.requestShape command)) ∧
    (Fits s.cfg row.request payload → 252 < payload.length →
      exec (.send p command payload timeout allow) s = .refused (.payloadTooLong payload.length)) :=
  ⟨fun hmisfit => exec_send_of_gate_refused timeout
      (hg.trans (gateShape_of_misfit command risk (fits_false_iff.mpr hmisfit))),
    fun hfits hlong => exec_send_of_gate_refused timeout
      (hg.trans (gateShape_of_too_long command risk (fits_iff.mpr hfits) hlong))⟩

/-- Settles O26, check by check: each is a case of `gate`, and an error or a refusal of the gate is the outcome of
SEND. -/
theorem gateChecksInOrder : Obligations.GateChecksInOrder := by
  intro p command payload timeout allow s error index refused shape
  refine ⟨fun hbusy => exec_send_of_gate_refused timeout (gate_of_busy s.now command payload allow hbusy),
    fun hidle habsent => exec_send_of_gate_error (gate_of_absent s.now command payload allow hidle habsent),
    fun hidle hlive => ?_⟩
  have hindex : writeIndex s.cfg command payload = index := writeIndex_eq s.cfg command payload
  cases hrow : rowOf s.cfg command with
  | none =>
    have noRow := gate_of_no_row s.now p payload allow hidle hlive hrow
    rw [hindex] at noRow
    exact exec_send_of_gate_error noRow
  | some row =>
    have hgate := gate_of_row s.now p payload allow hidle hlive hrow
    cases hrisk : riskOf s.cfg row command payload <;> simp only [hrisk, hindex] at hgate ⊢
    case stable => exact exec_send_of_gate_shape timeout hgate
    case blocked =>
      cases allow
      case true => exact exec_send_of_gate_shape timeout hgate
      case false => exact exec_send_of_gate_error hgate
    case unstable =>
      cases hopt : (s.link p).optedIn with
      | false =>
        rw [gateUnstable_notOptedIn s.now row command payload hopt, hindex] at hgate
        exact exec_send_of_gate_error hgate
      | true =>
        cases hlast : (s.link p).lastUnstable s.cfg command with
        | none =>
          rw [gateUnstable_of_elapsed row payload hopt (by simp [hlast])] at hgate
          exact exec_send_of_gate_shape timeout hgate
        | some t0 =>
          by_cases hin : s.now - t0 < s.cfg.minInterval
          · rw [gateUnstable_rateLimited row payload hopt hlast hin] at hgate
            simpa only [if_true, hin] using exec_send_of_gate_error hgate
          · rw [gateUnstable_of_elapsed row payload hopt (by simpa [hlast] using hin)] at hgate
            simpa only [if_true, hin, if_false] using exec_send_of_gate_shape timeout hgate

end Sys2Proof.Statements

/-!
The tone table and the name field read back, and O50 and O52 (45_channel_codec.md R266 to R272): the operations of the
record codec are equations, and what comes back after encoding and decoding is said piece by piece.
-/

namespace Sys2Proof.Machine

/-! ## The operations -/

theorem exec_encodeChannelStrict (r : ChannelRecord) (s : State) :
    exec (.encodeChannelStrict r) s = .next (returnValue (.strict (encodeRecordStrict s.cfg r)) s) := rfl

theorem exec_decodeChannel_of_length {bytes : Bytes} {s : State} (h : bytes.length = s.cfg.recordLen) :
    exec (.decodeChannel bytes) s = .next (returnValue (.record (decodeRecord s.cfg bytes)) s) := if_pos h

theorem exec_decodeChannel_of_length_ne {bytes : Bytes} {s : State} (h : bytes.length ≠ s.cfg.recordLen) :
    exec (.decodeChannel bytes) s = .refused (.recordLength bytes.length) := if_neg h

theorem exec_freqToIndex (f : Nat) (s : State) :
    exec (.freqToIndex f) s = .next (returnValue (.toneIndex (frequencyToIndex s.cfg f)) s) := rfl

theorem exec_indexToFreq (i : Nat) (s : State) :
    exec (.indexToFreq i) s = .next (returnValue (.toneFreq (indexToFrequency s.cfg i)) s) := rfl

/-- The bytes that ENCODE_CHANNEL returns are the encoding. -/
theorem eq_encodeRecord_of_exec {r : ChannelRecord} {bytes : Bytes} {s t : State}
    (h : exec (.encodeChannel r) s = .next t) (hret : t.ret = .bytes bytes) : bytes = encodeRecord s.cfg r := by
  rw [exec_encodeChannel] at h
  cases h
  exact (RetVal.bytes.inj hret).symm

/-- DECODE_CHANNEL of an encoding is not refused, and returns its decoding. -/
theorem eq_decodeRecord_of_exec {r d : ChannelRecord} {s u : State}
    (h : exec (.decodeChannel (encodeRecord s.cfg r)) s = .next u) (hret : u.ret = .record d) :
    d = decodeRecord s.cfg (encodeRecord s.cfg r) := by
  rw [exec_decodeChannel_of_length (encodeRecord_length s.cfg r)] at h
  cases h
  exact (RetVal.record.inj hret).symm

/-! ## The name field (R271, R272) -/

/-- A name comes back whole exactly when it has at most 11 bytes and no NUL. -/
theorem nameOf_nameField_eq_self_iff {name : Bytes} :
    nameOf (nameField name) = name ↔ name.length ≤ 11 ∧ 0#8 ∉ name := by
  rw [nameOf_nameField]
  constructor
  · intro h
    have hshort : name.length ≤ 11 := by
      rw [← h]
      exact (List.takeWhile_sublist _).length_le.trans (List.length_take_le ..)
    refine ⟨hshort, fun hmem => ?_⟩
    rw [← h] at hmem
    simpa using List.mem_takeWhile_imp hmem
  · rintro ⟨hshort, hnul⟩
    rw [List.take_of_length_le hshort, List.takeWhile_eq_self_iff]
    intro b hb
    exact bne_iff_ne.mpr fun h => hnul (h ▸ hb)

/-- The padding of a name field is at least one NUL, the last byte. -/
theorem nameField_last (name : Bytes) : (nameField name)[11]? = some 0#8 := by
  have hlen : (name.take 11).length ≤ 11 := List.length_take_le ..
  rw [nameField, List.getElem?_append_right hlen, List.getElem?_replicate_of_lt (by omega)]

/-- The last byte of the name field stands at offset 25 of a record (R99). -/
theorem encodeRecord_nameField_last (cfg : Config) (r : ChannelRecord) : (encodeRecord cfg r)[25]? = some 0#8 := by
  rw [← nameField_last r.name, ← encodeRecord_name cfg r, List.getElem?_take_of_lt (by decide), List.getElem?_drop]

end Sys2Proof.Machine

namespace Sys2Proof.Statements

open Sys2Proof Sys2Proof.Machine

/-- Settles O50: under a well-formed table both lookups find exactly its entries, so each is the other read
backwards. -/
theorem toneTableIsBijective : Obligations.ToneTableIsBijective := by
  refine ⟨fun s => exec_freqToIndex 0 s, fun i f s hwf => ?_⟩
  have hfreq := indexToFrequency_eq_some hwf (i := i) (f := f)
  have hindex := frequencyToIndex_eq_some hwf (i := i) (f := f)
  exact ⟨_, _, exec_indexToFreq i s, exec_freqToIndex f s, hfreq, hindex, hfreq.trans hindex.symm⟩

/-- Settles O52, by what is read back of the name field. -/
theorem namesAreTruncated : Obligations.NamesAreTruncated := by
  intro r d s t u bytes henc hbytes hdec hrecord
  obtain rfl := eq_encodeRecord_of_exec henc hbytes
  obtain rfl := eq_decodeRecord_of_exec hdec hrecord
  rw [decodeRecord_encodeRecord, nameOf_nameField]
  refine ⟨rfl, ?_, encodeRecord_nameField_last s.cfg r⟩
  exact (List.takeWhile_sublist _).length_le.trans (List.length_take_le ..)

end Sys2Proof.Statements

/-!
What survives an encoding and its decoding, field by field, and O49 (45_channel_codec.md R277, R278).
-/

namespace Sys2Proof.Machine

theorem toneOf_zero (cfg : Config) : toneOf cfg 0#8 = .noTone := if_pos rfl

/-- The strict encoder agrees with the lenient one where it represents both tones (R269). -/
theorem encodeRecordStrict_of_representable {cfg : Config} {r : ChannelRecord}
    (hrx : toneRepresentable cfg r.rxTone = true) (htx : toneRepresentable cfg r.txTone = true) :
    encodeRecordStrict cfg r = .bytes (encodeRecord cfg r) := by
  rw [encodeRecordStrict, hrx, htx, Bool.not_true, if_neg Bool.false_ne_true, if_neg Bool.false_ne_true]

/-- A Digital kind with timeslot 0 has no mark in the tail (R276). -/
theorem kindOf_tailBytes_timeslot_zero {l : TailLayout} (h : l.wf = true) (g i : Word32) (rc tc : Byte) :
    kindOf l (tailBytes l (.digital g i rc tc 0#8)) = .analog := by
  rw [kindOf_tailBytes h]
  exact if_pos rfl

end Sys2Proof.Machine

namespace Sys2Proof.Statements

open Sys2Proof Sys2Proof.Machine

/-- A tone without an entry is encoded as 0 (R269), which is no tone. -/
theorem toneOf_toneByte_of_noEntry {cfg : Config} (h : cfg.wf = true) {x : Tone} (hx : NoEntry cfg x) :
    toneOf cfg (toneByte cfg x) = .noTone := by
  obtain ⟨-, hzero, -⟩ := toneByte_says h x
  rw [hzero hx, toneOf_zero]

/-- A valid tone is represented, and comes back. -/
theorem toneOf_toneByte_of_valid {cfg : Config} (h : cfg.wf = true) {x : Tone} (hx : ValidTone cfg x) :
    toneOf cfg (toneByte cfg x) = x ∧ toneRepresentable cfg x = true := by
  rcases hx with rfl | ⟨i, f, rfl, hmem⟩
  · exact ⟨toneOf_zero cfg, rfl⟩
  · have hrep : toneRepresentable cfg (.freq f) = true := by
      rw [toneRepresentable, (frequencyToIndex_eq_some h).mpr hmem, Option.isSome_some]
    rcases toneByte_cases h (.freq f) with ⟨-, -, hnone | hnot⟩ | ⟨_, _, -, -, -, hback, -⟩
    · cases hnone
    · rw [hrep] at hnot
      cases hnot
    · exact ⟨hback, hrep⟩

/-- R278: every field of a valid record comes back. -/
theorem decodeRecord_encodeRecord_of_valid {cfg : Config} {r : ChannelRecord} (h : cfg.wf = true)
    (hr : ValidRecord cfg r) : decodeRecord cfg (encodeRecord cfg r) = r := by
  obtain ⟨hrx, -⟩ := toneOf_toneByte_of_valid h hr.rxTone
  obtain ⟨htx, -⟩ := toneOf_toneByte_of_valid h hr.txTone
  have hname := nameOf_nameField_eq_self_iff.mpr ⟨hr.length, hr.noNul⟩
  have hkind := kindOf_tailBytes_valid (wf_tail h) (kindValid_iff.mpr hr.kind)
  rw [decodeRecord_encodeRecord, hrx, htx, hname, hkind]

/-- R278: the encoders agree on a valid record. -/
theorem encodeRecordStrict_of_valid {cfg : Config} {r : ChannelRecord} (h : cfg.wf = true)
    (hr : ValidRecord cfg r) : encodeRecordStrict cfg r = .bytes (encodeRecord cfg r) :=
  encodeRecordStrict_of_representable (toneOf_toneByte_of_valid h hr.rxTone).2
    (toneOf_toneByte_of_valid h hr.txTone).2

/-- Settles O49: the valid record field by field, and each listed failure by the law of its own field. -/
theorem validRecordsRoundTrip : Obligations.ValidRecordsRoundTrip := by
  intro r s t u v bytes result d hwf henc hbytes hstrict hresult hdec hrecord
  obtain rfl := eq_encodeRecord_of_exec henc hbytes
  obtain rfl := eq_decodeRecord_of_exec hdec hrecord
  rw [exec_encodeChannelStrict] at hstrict
  cases hstrict
  obtain rfl := RetVal.strict.inj hresult
  refine ⟨fun hvalid => ⟨decodeRecord_encodeRecord_of_valid hwf hvalid, encodeRecordStrict_of_valid hwf hvalid⟩, ?_⟩
  rw [decodeRecord_encodeRecord]
  have noTone {x y : Tone} (hy : NoEntry s.cfg y) (hx : x = y) : toneOf s.cfg (toneByte s.cfg x) = .noTone :=
    hx ▸ toneOf_toneByte_of_noEntry hwf hy
  refine ⟨?name, fun f hmissing => ?frequency, fun i => ?unknown, fun g i rc tc hkind => ?timeslot⟩
  case name =>
    intro hbad hsame
    obtain ⟨hshort, hnul⟩ := nameOf_nameField_eq_self_iff.mp hsame
    exact hbad.elim (Nat.not_lt.mpr hshort) hnul
  case frequency => exact ⟨noTone (.inl ⟨f, rfl, hmissing⟩), noTone (.inl ⟨f, rfl, hmissing⟩)⟩
  case unknown => exact ⟨noTone (.inr ⟨i, rfl⟩), noTone (.inr ⟨i, rfl⟩)⟩
  case timeslot => rw [hkind, kindOf_tailBytes_timeslot_zero (wf_tail hwf)]

end Sys2Proof.Statements

/-!
The fields that DECODE_CHANNEL reads, and O48 (30_encoding.md R99, 45_channel_codec.md R262, R267, R272, R276).
-/

namespace Sys2Proof.Machine

/-- Bytes appended on the right are the low ones. -/
theorem toNat_append_byte {w : Nat} (x : BitVec w) (b : Byte) : (x ++ b).toNat = 256 * x.toNat + b.toNat := by
  rw [BitVec.toNat_append, ← Nat.shiftLeft_add_eq_or_of_lt b.isLt, Nat.shiftLeft_eq, Nat.mul_comm]

theorem u16At_toNat (s : Bytes) (i : Nat) :
    (u16At s i).toNat = 256 * (byteAt s i).toNat + (byteAt s (i + 1)).toNat := toNat_append_byte ..

theorem u32At_toNat (s : Bytes) (i : Nat) :
    (u32At s i).toNat = 65536 * (u16At s i).toNat + (u16At s (i + 2)).toNat := by
  rw [u32At, unbe32, toNat_append_byte, toNat_append_byte, toNat_append_byte, u16At_toNat, u16At_toNat,
    show i + 2 + 1 = i + 3 from rfl]
  omega

theorem byteAt_drop (s : Bytes) (o i : Nat) : byteAt (s.drop o) i = byteAt s (o + i) := by
  rw [byteAt, byteAt, List.getD_eq_getElem?_getD, List.getD_eq_getElem?_getD, List.getElem?_drop]

theorem u32At_drop (s : Bytes) (o i : Nat) : u32At (s.drop o) i = u32At s (o + i) := by
  simp only [u32At, byteAt_drop, Nat.add_assoc]

/-- A field fits a word that is as wide. -/
theorem toNat_ofNat_fieldValue (t : Bytes) {ps : List Nat} {w : Nat} (h : ps.length ≤ w) :
    (BitVec.ofNat w (fieldValue t ps)).toNat = fieldValue t ps := by
  rw [BitVec.toNat_ofNat]
  exact Nat.mod_eq_of_lt ((fieldValue_lt t ps).trans_le (Nat.pow_le_pow_right (by decide) h))

theorem kindOf_of_timeslot_zero {l : TailLayout} {t : Bytes} (h : fieldValue t l.timeslot = 0) :
    kindOf l t = .analog := if_pos h

theorem kindOf_of_timeslot_ne_zero {l : TailLayout} {t : Bytes} (h : fieldValue t l.timeslot ≠ 0) :
    kindOf l t = .digital (BitVec.ofNat 32 (fieldValue t l.group)) (BitVec.ofNat 32 (fieldValue t l.radio))
      (BitVec.ofNat 8 (fieldValue t l.rxColor)) (BitVec.ofNat 8 (fieldValue t l.txColor))
      (BitVec.ofNat 8 (fieldValue t l.timeslot)) := if_neg h

end Sys2Proof.Machine

namespace Sys2Proof.Statements

open Sys2Proof Sys2Proof.Machine

/-- `toneOf` decodes a byte as R267 says: no assigned index is 0, and each has one frequency. -/
theorem toneOf_says {cfg : Config} (h : cfg.wf = true) (b : Byte) : ToneSays cfg b (toneOf cfg b) := by
  refine ⟨?zero, fun f hmem => ?assigned, fun hne hmissing => ?unassigned⟩
  case zero =>
    rintro rfl
    exact toneOf_zero cfg
  case assigned =>
    obtain ⟨-, -, hassignable, -⟩ := wf_tones h
    have hpos : 1 ≤ b.toNat := (hassignable _ hmem).1
    have hne : b ≠ 0#8 := by
      rintro rfl
      exact absurd hpos (by decide)
    rw [toneOf, if_neg hne, (indexToFrequency_eq_some h).mpr hmem]
  case unassigned =>
    rw [toneOf, if_neg hne, indexToFrequency, assoc_eq_none.mpr hmissing]

/-- A tail with a bit of the timeslot set is Digital, with the value that each field holds (R275, R276). -/
theorem kindOf_holds {l : TailLayout} {t : Bytes} (h : l.wf = true) {k : Nat} (hk : k ∈ l.timeslot)
    (hbit : bitOf t k = true) : ∃ g i rc tc ts, kindOf l t = .digital g i rc tc ts ∧ Holds t l.group g.toNat ∧
      Holds t l.radio i.toNat ∧ Holds t l.rxColor rc.toNat ∧ Holds t l.txColor tc.toNat ∧
      Holds t l.timeslot ts.toNat := by
  obtain ⟨-, -, hgroup, hradio, ⟨-, hrx⟩, ⟨-, htx⟩, ⟨-, hts⟩, -⟩ := tail_facts h
  have hne : fieldValue t l.timeslot ≠ 0 := any_bitOf_iff.mp (List.any_eq_true.mpr ⟨k, hk, hbit⟩)
  have holds {ps : List Nat} {w : Nat} (hw : ps.length ≤ w) : Holds t ps (BitVec.ofNat w (fieldValue t ps)).toNat :=
    holds_iff.mpr (toNat_ofNat_fieldValue t hw).symm
  exact ⟨_, _, _, _, _, kindOf_of_timeslot_ne_zero hne, holds hgroup.le, holds hradio.le, holds hrx, holds htx,
    holds hts⟩

/-- Settles O48: each field of `decodeRecord` is read by its own law, and the kind once under any layout and once under
that of R275. -/
theorem decodeChannelReadsTheFields : Obligations.DecodeChannelReadsTheFields := by
  intro bytes s u8 u16
  refine ⟨exec_decodeChannel_of_length_ne, fun hlen => ?_⟩
  have word (o : Nat) : (u32At bytes o).toNat = 65536 * u16 o + u16 (o + 2) := by
    rw [u32At_toNat, u16At_toNat, u16At_toNat]
    rfl
  refine ⟨decodeRecord s.cfg bytes, exec_decodeChannel_of_length hlen, u16At_toNat bytes 0, rfl, rfl, word 4, word 8,
    rfl, rfl, rfl, fun hwf => ⟨toneOf_says hwf _, toneOf_says hwf _⟩, rfl, ⟨?analog, ?digital⟩, fun href => ?reference⟩
  case analog => exact fun hzero => kindOf_of_timeslot_zero (forall_bitOf_eq_false_iff.mp hzero)
  case digital => exact fun hwf k hk hbit => kindOf_holds (wf_tail hwf) hk hbit
  case reference =>
    have hkind : (decodeRecord s.cfg bytes).kind = if u8 36 = 0#8 then .analog
        else .digital (u32At bytes 26) (u32At bytes 30) (u8 34) (u8 35) (u8 36) := by
      rw [decodeRecord, href, kindOf_tailRef, u32At_drop, u32At_drop, byteAt_drop, byteAt_drop, byteAt_drop]
      rfl
    rw [hkind]
    exact ⟨fun hzero => if_pos hzero, fun hne => ⟨_, _, if_neg hne, word 26, word 30⟩⟩

end Sys2Proof.Statements

/-!
READ_CHANNEL of an answered request, and O39 (46_host_operations.md R291, R292).
-/

namespace Sys2Proof.Statements

open Sys2Proof Sys2Proof.Machine

/-- One channel read whose request is answered with a record: the decoded record with its two reports, after one
exchange (R292). -/
theorem readOne_of_answered {p : PortId} {index : Word16} {timeout : Nat} {s : State} {row : Row}
    {reply extra : Bytes} {w : Wait} {later : List Wait}
    (hpass : Passes s p row s.cfg.opChRead (be16 index) false)
    (hanswered : Answered s p row s.cfg.opChRead timeout reply extra w later) (hlen : reply.length = s.cfg.recordLen) :
    ∃ t, readOne p timeout index s = .ok
        { record := decodeRecord s.cfg reply,
          valid := validRecord s.cfg (decodeRecord s.cfg reply),
          indexMatches := decide ((decodeRecord s.cfg reply).index = index) } t ∧
      Exchanged s t p row s.cfg.opChRead (be16 index) timeout reply extra w later := by
  obtain ⟨t, hsend, hexchanged⟩ := sendRequest_of_answered hpass hanswered
  refine ⟨t, ?_, hexchanged⟩
  rw [readOne, hsend]
  exact if_pos hlen

theorem exec_readChannel_of_ok {p : PortId} {index : Word16} {timeout : Nat} {s t : State} {report : ReadReport}
    (hindex : index.toNat ≤ s.cfg.maxChannel) (h : readOne p timeout index s = .ok report t) :
    exec (.readChannel p index timeout) s = .next (returnValue (.read report) t) := by
  simp only [exec, execReadChannel, indexTooLarge_iff, Nat.not_lt.mpr hindex, if_false, h]

/-- Settles O39: the index check, or one answered read with the validity written out. -/
theorem readChannelReportsTheRecord : Obligations.ReadChannelReportsTheRecord := by
  intro p index timeout s
  refine ⟨fun _ _ habove => exec_readChannel_of_index_too_large timeout habove, ?_⟩
  intro row reply extra w later hindex hpass hanswered hlen
  obtain ⟨t, hread, hexchanged⟩ := readOne_of_answered hpass hanswered hlen
  exact ⟨_, _, _, _, exec_readChannel_of_ok hindex hread, exec_decodeChannel_of_length hlen, rfl, rfl,
    validRecord_iff, hexchanged.returnValue _⟩

end Sys2Proof.Statements

/-!
WRITE_CHANNEL of an answered request, and O40 (46_host_operations.md R291, R294; 60_exceptions.md R315).
-/

namespace Sys2Proof.Machine

theorem exec_writeChannel_of_ok {p : PortId} {r : ChannelRecord} {timeout : Nat} {allow : Bool} {s t : State}
    (hindex : r.index.toNat ≤ s.cfg.maxChannel) (h : writeOne p timeout allow r s = .ok t) :
    exec (.writeChannel p r timeout allow) s = .next (returnValue .unit t) := by
  simp only [exec, execWriteChannel, indexTooLarge_iff, Nat.not_lt.mpr hindex, if_false, h]

/-- A write that ends in an error leaves nothing in flight, so taking the error writes only the value returned. -/
theorem exec_writeChannel_of_error {p : PortId} {r : ChannelRecord} {timeout : Nat} {allow : Bool} {s t : State}
    {report : ErrorReport} (hindex : r.index.toNat ≤ s.cfg.maxChannel)
    (h : writeOne p timeout allow r s = .error report t) :
    exec (.writeChannel p r timeout allow) s = .next (returnValue (.error report) t) := by
  simp only [exec, execWriteChannel, indexTooLarge_iff, Nat.not_lt.mpr hindex, if_false, h,
    raiseError_of_idle (writeOne_error h).2, returnValue]

end Sys2Proof.Machine

namespace Sys2Proof.Statements

open Sys2Proof Sys2Proof.Machine

/-- One channel write whose request is answered: one exchange of the encoding, then the echo compared with it
(R294, R315). -/
theorem writeOne_of_answered {p : PortId} {r : ChannelRecord} {timeout : Nat} {allow : Bool} {s : State} {row : Row}
    {echo extra : Bytes} {w : Wait} {later : List Wait}
    (hpass : Passes s p row s.cfg.opChWrite (encodeRecord s.cfg r) allow)
    (hanswered : Answered s p row s.cfg.opChWrite timeout echo extra w later) :
    ∃ t, Exchanged s t p row s.cfg.opChWrite (encodeRecord s.cfg r) timeout echo extra w later ∧
      (echo = encodeRecord s.cfg r → writeOne p timeout allow r s = .ok t) ∧
      (echo ≠ encodeRecord s.cfg r → writeOne p timeout allow r s = .error
        { error := .echoMismatch r.index (encodeRecord s.cfg r) echo, opcode := some s.cfg.opChWrite,
          channel := some r.index,
          risk := some (riskOf s.cfg row s.cfg.opChWrite (encodeRecord s.cfg r)) } t) := by
  obtain ⟨t, hsend, hexchanged⟩ := sendRequest_of_answered hpass hanswered
  refine ⟨t, hexchanged, fun hsame => ?_, fun hdiffers => ?_⟩ <;> rw [writeOne, hsend]
  · exact if_pos hsame
  · rw [← classOf_of_row hpass.table, ← reportedRisk_eq]
    exact if_neg hdiffers

/-- Settles O40: the index check, or one answered write with its echo equal or different. -/
theorem writeChannelComparesTheEcho : Obligations.WriteChannelComparesTheEcho := by
  intro p r timeout allow s
  refine ⟨fun _ _ habove => exec_writeChannel_of_index_too_large timeout allow habove, ?_⟩
  intro row echo extra w later sent hindex hpass hanswered
  obtain ⟨t, hexchanged, hsame, hdiffers⟩ := writeOne_of_answered hpass hanswered
  by_cases hecho : echo = sent
  · exact ⟨_, exec_writeChannel_of_ok hindex (hsame hecho), exec_encodeChannel r s, hexchanged.returnValue _,
      fun _ => rfl, absurd hecho⟩
  · exact ⟨_, exec_writeChannel_of_error hindex (hdiffers hecho), exec_encodeChannel r s, hexchanged.returnValue _,
      fun h => absurd h hecho, fun _ => rfl⟩

end Sys2Proof.Statements

/-!
READ_ALL item by item: the slot that an item fills, what the loop does with it, and O42 (46_host_operations.md R297,
R299). What an operation returned has no influence on the next (`readItems_ret`), so the loop's items are READ_CHANNEL.
-/

namespace Sys2Proof.Machine

/-! ## The slot of an item -/

/-- The slot that a channel read fills, and the state it leaves; none for a refusal, which refuses the batch. -/
def ReadResult.filled : ReadResult → Option (ReadSlot × State)
  | .ok report s => some (.ok report, s)
  | .error report s => some (.err report, s)
  | .refused _ => none

/-- The slot that a channel write fills, and the state it leaves. -/
def WriteResult.filled : WriteResult → Option (WriteSlot × State)
  | .ok s => some (.ok, s)
  | .error report s => some (.err report, s)
  | .refused _ => none

section
variable {p : PortId} {timeout : Nat} {s t : State}

/-- The loop puts an item's slot before those of the rest; an error changes nothing more, as nothing is in flight
after it. -/
theorem readItems_cons {index : Word16} {slot : ReadSlot} (rest : List Word16) (hgo : s.env.cancels.head? ≠ some true)
    (hone : (readOne p timeout index s.drawCancel.2).filled = some (slot, t)) :
    readItems p timeout (index :: rest) s = (readItems p timeout rest t).cons slot := by
  rw [readItems, drawCancel_fst, decide_eq_false hgo, if_neg Bool.false_ne_true]
  cases h : readOne p timeout index s.drawCancel.2 <;> rw [h] at hone <;> cases hone
  case ok => rfl
  case error => simp only [goIdle_of_idle (readOne_error h).2]

theorem writeItems_cons {r : ChannelRecord} {slot : WriteSlot} (rest : List ChannelRecord)
    (hgo : s.env.cancels.head? ≠ some true)
    (hone : (writeOne p timeout false r s.drawCancel.2).filled = some (slot, t)) :
    writeItems p timeout (r :: rest) s = (writeItems p timeout rest t).cons slot := by
  rw [writeItems, drawCancel_fst, decide_eq_false hgo, if_neg Bool.false_ne_true]
  cases h : writeOne p timeout false r s.drawCancel.2 <;> rw [h] at hone <;> cases hone
  case ok => rfl
  case error => simp only [goIdle_of_idle (writeOne_error h).2]

/-- A cancel request stops the loop before the item (R299). -/
theorem readItems_of_cancel (index : Word16) (rest : List Word16) (hstop : s.env.cancels.head? = some true) :
    readItems p timeout (index :: rest) s = .done [] s.drawCancel.2 := by
  rw [readItems, drawCancel_fst, decide_eq_true hstop, if_pos rfl]

/-! ## The operation READ_ALL -/

/-- A batch whose indices lie in the channel map passes the index check (R291). -/
theorem find?_indexTooLarge_eq_none {α : Type} {cfg : Config} {items : List α} {index : α → Word16}
    (h : ∀ a ∈ items, (index a).toNat ≤ cfg.maxChannel) :
    items.find? (fun a => indexTooLarge cfg (index a)) = none :=
  List.find?_eq_none.mpr fun a ha => by rw [indexTooLarge_iff]; exact Nat.not_lt.mpr (h a ha)

theorem exec_readAll_of_done {indices : List Word16} {slots : List ReadSlot} (hidle : (s.link p).busy = false)
    (hindices : ∀ j ∈ indices, j.toNat ≤ s.cfg.maxChannel) (h : readItems p timeout indices s = .done slots t) :
    exec (.readAll p timeout indices) s = .next (returnValue (.readAll slots) t) := by
  have hfind : indices.find? (indexTooLarge s.cfg) = none := find?_indexTooLarge_eq_none (index := id) hindices
  simp only [exec, execReadAll, hidle, Bool.false_eq_true, if_false, hfind, h]

/-- A READ_ALL that completed with `slots` ran its loop to the end. -/
theorem readItems_of_exec {indices : List Word16} {slots : List ReadSlot}
    (h : exec (.readAll p timeout indices) s = .next t) (hret : t.ret = .readAll slots) :
    ∃ u, readItems p timeout indices s = .done slots u ∧ t = returnValue (.readAll slots) u := by
  change execReadAll p timeout indices s = .next t at h
  unfold execReadAll at h
  split at h
  · cases h
  · split at h
    · cases h
    · split at h
      · rename_i hitems
        cases h
        cases hret
        exact ⟨_, hitems, rfl⟩
      · cases h

/-- READ_CHANNEL returns the slot that its item fills in a batch. -/
theorem readOne_filled_of_exec {index : Word16} {slot : ReadSlot}
    (h : exec (.readChannel p index timeout) s = .next t) (hslot : Statements.readSlotOf t.ret = some slot) :
    ∃ u, (readOne p timeout index s).filled = some (slot, u) ∧ t = returnValue t.ret u := by
  change execReadChannel p index timeout s = .next t at h
  unfold execReadChannel at h
  split at h
  · cases h
  · cases hone : readOne p timeout index s with (rw [hone] at h; cases h)
    | ok report u =>
      cases hslot
      exact ⟨u, rfl, rfl⟩
    | error report u =>
      rw [raiseError_of_idle (readOne_error hone).2] at hslot ⊢
      cases hslot
      exact ⟨u, rfl, rfl⟩

/-- The loop completes alike whatever value was returned before it. -/
theorem readItems_done_of_returnValue {v : RetVal} {indices : List Word16} {slots : List ReadSlot}
    (h : readItems p timeout indices (returnValue v s) = .done slots t) :
    ∃ u, readItems p timeout indices s = .done slots u ∧ t = returnValue v u := by
  rw [readItems_ret] at h
  cases hitems : readItems p timeout indices s <;> rw [hitems] at h <;> cases h
  exact ⟨_, rfl, rfl⟩

end

end Sys2Proof.Machine

namespace Sys2Proof.Statements

open Sys2Proof Sys2Proof.Machine

/-- Settles O42: READ_CHANNEL of the first index fills its slot in the loop, and the loop of the rest goes on from
there. -/
theorem readAllVisitsItemsInOrder : Obligations.ReadAllVisitsItemsInOrder := by
  intro p timeout s hidle
  refine ⟨exec_readAll_of_done hidle (fun _ hj => absurd hj List.not_mem_nil) rfl, ?_⟩
  intro index rest hindices sampled
  have hsampled : s.drawCancel.2 = sampled := drawCancel_snd s
  refine ⟨fun hstop => ?cancelled, fun hgo t u slot slots hread hslot hrest hslots => ?attempted⟩
  case cancelled =>
    rw [← hsampled]
    exact exec_readAll_of_done hidle hindices (readItems_of_cancel index rest hstop)
  case attempted =>
    obtain ⟨t', hone, ht⟩ := readOne_filled_of_exec hread hslot
    obtain ⟨u', hitems, rfl⟩ := readItems_of_exec hrest hslots
    rw [ht] at hitems
    obtain ⟨u'', hitems', rfl⟩ := readItems_done_of_returnValue hitems
    rw [← hsampled] at hone
    refine exec_readAll_of_done (t := u'') hidle hindices ?_
    rw [readItems_cons rest hgo hone, hitems']
    rfl

end Sys2Proof.Statements

/-!
A batch that is not cancelled: no item of it is refused, and O44 (46_host_operations.md R291, R297, R298, R300).
-/

namespace Sys2Proof.Machine

/-! ## The packets that SEND returns answer its request (R204), under any configuration -/

/-- An attempt that ends with a packet has classified it. -/
theorem attempt_decoded_classified {p : PortId} {s s' : State} {q : Packet} (h : attempt p s = .decoded q s') :
    ∃ s3, classify p s3 = .decoded q s' := by
  unfold attempt at h
  split at h
  · cases h
  · split at h
    · cases h
    · split at h
      · cases h
      · exact ⟨_, h⟩

theorem attempt_decoded_fits {p : PortId} {s s' : State} {q : Packet} (h : attempt p s = .decoded q s') :
    replyFits s.cfg (s.link p).curCmd q = true := by
  obtain ⟨s3, hclass⟩ := attempt_decoded_classified h
  rcases attempt_spec p s with ⟨_, _, ha, attempted⟩ | ⟨_, ha, -⟩ | ⟨_, ha, -⟩ <;> rw [h] at ha <;> cases ha
  rw [← attempted.evolves.cfg, ← attempted.curCmd]
  rcases classify_cases p s3 with ⟨_, _, -, hfits, hdecoded⟩ | ⟨_, _, hfailed⟩
  · rw [hdecoded] at hclass
    cases hclass
    rwa [passAttempt_cfg, link_passAttempt_same]
  · rw [hfailed] at hclass
    cases hclass

theorem tryAttempts_packet_fits {p : PortId} {n : Nat} {s s' : State} {q : Packet}
    (h : tryAttempts p n s = .packet q s') : replyFits s.cfg (s.link p).curCmd q = true := by
  induction n generalizing s with
  | zero =>
    rw [tryAttempts] at h
    cases ha : attempt p s <;> rw [ha] at h <;> cases h
    exact attempt_decoded_fits ha
  | succ n ih =>
    rw [tryAttempts] at h
    rcases attempt_spec p s with ⟨_, _, ha, -⟩ | ⟨s1, ha, attempted, -⟩ | ⟨_, ha, -⟩ <;> rw [ha] at h
    · cases h
      exact attempt_decoded_fits ha
    · obtain ⟨_, _, hpause⟩ := sameButInput_retryPause p s1
      have hfits := ih h
      rwa [(evolves_retryPause p s1).cfg, hpause, attempted.evolves.cfg, attempted.curCmd] at hfits
    · cases h

theorem sendRequest_packet_fits {p : PortId} {command : Byte} {payload : Bytes} {timeout : Nat} {allow : Bool}
    {s s' : State} {q : Packet} (h : sendRequest p command payload timeout allow s = .packet q s') :
    replyFits s.cfg command q = true := by
  rw [sendRequest] at h
  split at h
  · cases h
  · cases h
  · have hfits := tryAttempts_packet_fits h
    rwa [link_latch_same, latch_cfg, stampPolicy_cfg] at hfits

/-- SEND samples no cancel request (R299). -/
theorem sendRequest_cancels {p : PortId} {command : Byte} {payload : Bytes} {timeout : Nat} {allow : Bool}
    {s t : State} (h : (∃ q, sendRequest p command payload timeout allow s = .packet q t) ∨
      ∃ e, sendRequest p command payload timeout allow s = .error e t) : t.env.cancels = s.env.cancels := by
  rw [sendRequest] at h
  cases hg : gate s.cfg (s.link p) s.now p command payload allow with simp only [hg] at h
  | refused r =>
    rcases h with ⟨_, h⟩ | ⟨_, h⟩ <;> cases h
  | error e =>
    rcases h with ⟨_, h⟩ | ⟨_, h⟩ <;> cases h
    rfl
  | pass r =>
    obtain ⟨packetDrains, errorDrains⟩ := tryAttempts_drains p s.cfg.maxRetries
      (latch p command payload timeout (stampPolicy p command r s))
    have drains := h.elim (fun ⟨q, e⟩ => packetDrains q t e) (fun ⟨e, h⟩ => errorDrains e t h)
    rw [drains.cancels, latch_env, stampPolicy_env]

/-! ## The induction of a batch -/

/-- A loop that, from each good state, gives every item a slot and goes on from a good state fills every slot. -/
theorem exists_slots_of_step {α β : Type} {loop : List α → State → BulkResult β} {Good : State → Prop}
    (hnil : ∀ s, loop [] s = .done [] s)
    (hstep : ∀ a s, Good s → ∃ slot t, Good t ∧ ∀ rest, loop (a :: rest) s = (loop rest t).cons slot)
    (items : List α) {s : State} (h : Good s) :
    ∃ slots t, loop items s = .done slots t ∧ slots.length = items.length ∧ Good t := by
  induction items generalizing s with
  | nil => exact ⟨[], s, hnil s, rfl, h⟩
  | cons a rest ih =>
    obtain ⟨slot, t, ht, hcons⟩ := hstep a s h
    obtain ⟨slots, u, hrest, hlen, hu⟩ := ih ht
    refine ⟨slot :: slots, u, ?_, congrArg Nat.succ hlen, hu⟩
    rw [hcons, hrest]
    rfl

/-- What the next item of an uncancelled batch finds, whatever failed before it: the configuration, nothing in flight,
no cancel request to come. -/
structure BatchReady (cfg : Config) (p : PortId) (s : State) : Prop where
  cfg     : s.cfg = cfg
  idle    : (s.link p).busy = false
  cancels : s.env.cancels = []

theorem BatchReady.head_ne {cfg : Config} {p : PortId} {s : State} (h : BatchReady cfg p s) :
    s.env.cancels.head? ≠ some true := by
  rw [h.cancels]
  nofun

theorem BatchReady.drawCancel {cfg : Config} {p : PortId} {s : State} (h : BatchReady cfg p s) :
    s.drawCancel.2 = s := by rw [drawCancel_of_nil h.cancels]

/-! ## The operations -/

/-- The index check finds the first index above `MAX_CHANNEL` (R291). -/
theorem find?_indexTooLarge_eq_some {α : Type} {cfg : Config} {before : List α} (after : List α) {bad : α}
    {index : α → Word16} (hbefore : ∀ a ∈ before, (index a).toNat ≤ cfg.maxChannel)
    (hbad : cfg.maxChannel < (index bad).toNat) :
    (before ++ bad :: after).find? (fun a => indexTooLarge cfg (index a)) = some bad := by
  rw [List.find?_append, find?_indexTooLarge_eq_none hbefore, Option.none_or]
  exact List.find?_cons_of_pos (indexTooLarge_iff.mpr hbad)

theorem exec_writeAll_of_done {p : PortId} {timeout : Nat} {s t : State} {records : List ChannelRecord}
    {slots : List WriteSlot} (hidle : (s.link p).busy = false)
    (hindices : ∀ r ∈ records, r.index.toNat ≤ s.cfg.maxChannel)
    (h : writeItems p timeout records s = .done slots t) :
    exec (.writeAll p timeout records) s = .next (returnValue (.writeAll slots) t) := by
  simp only [exec, execWriteAll, hidle, Bool.false_eq_true, if_false, find?_indexTooLarge_eq_none hindices, h]

/-- The first index above `MAX_CHANNEL` refuses the batch before its first item (R291, log 22). -/
theorem exec_readAll_of_index_too_large {p : PortId} (timeout : Nat) {s : State} {before : List Word16}
    (after : List Word16) {bad : Word16} (hidle : (s.link p).busy = false)
    (hbefore : ∀ j ∈ before, j.toNat ≤ s.cfg.maxChannel) (hbad : s.cfg.maxChannel < bad.toNat) :
    exec (.readAll p timeout (before ++ bad :: after)) s = .refused (.indexOutOfRange bad) := by
  have hfind : (before ++ bad :: after).find? (indexTooLarge s.cfg) = some bad :=
    find?_indexTooLarge_eq_some (index := id) after hbefore hbad
  simp only [exec, execReadAll, hidle, Bool.false_eq_true, if_false, hfind]

theorem exec_writeAll_of_index_too_large {p : PortId} (timeout : Nat) {s : State} {before : List ChannelRecord}
    (after : List ChannelRecord) {bad : ChannelRecord} (hidle : (s.link p).busy = false)
    (hbefore : ∀ r ∈ before, r.index.toNat ≤ s.cfg.maxChannel) (hbad : s.cfg.maxChannel < bad.index.toNat) :
    exec (.writeAll p timeout (before ++ bad :: after)) s = .refused (.indexOutOfRange bad.index) := by
  simp only [exec, execWriteAll, hidle, Bool.false_eq_true, if_false,
    find?_indexTooLarge_eq_some after hbefore hbad]

end Sys2Proof.Machine

namespace Sys2Proof.Statements

open Sys2Proof Sys2Proof.Machine

/-! ## No item is refused -/

/-- With nothing in flight the gate refuses only a payload that does not fit (R191, R197). -/
theorem gate_ne_refused {cfg : Config} {l : Link} {row : Row} {command : Byte} {payload : Bytes} (now : Nat)
    (p : PortId) (allow : Bool) (hidle : l.busy = false) (hrow : rowOf cfg command = some row)
    (hfits : Fits cfg row.request payload) (hlen : payload.length ≤ 252) (r : Refusal) :
    gate cfg l now p command payload allow ≠ .refused r := by
  have shape (risk : Risk) := gateShape_of_fits (command := command) risk (fits_iff.mpr hfits) hlen
  cases hlive : l.isConnected with
  | false =>
    rw [gate_of_absent now command payload allow hidle hlive]
    nofun
  | true =>
    rw [gate_of_row now p payload allow hidle hlive hrow]
    split
    case h_1 =>
      rw [shape]
      split <;> nofun
    case h_2 =>
      unfold gateUnstable
      rw [shape]
      split
      · nofun
      · split
        · nofun
        · split <;> nofun
    case h_3 =>
      rw [shape]
      nofun

/-- From a state that is ready, a request that fits ends with a fitting reply or an error, and the state is ready
again. -/
theorem sendRequest_of_batchReady {cfg : Config} {p : PortId} {s : State} {row : Row} {command : Byte}
    {payload : Bytes} (timeout : Nat) (allow : Bool) (h : BatchReady cfg p s) (hrow : rowOf cfg command = some row)
    (hfits : Fits cfg row.request payload) (hlen : payload.length ≤ 252) :
    (∃ q t, sendRequest p command payload timeout allow s = .packet q t ∧ Fits cfg row.response q.payload ∧
      BatchReady cfg p t) ∨
    ∃ e t, sendRequest p command payload timeout allow s = .error e t ∧ BatchReady cfg p t := by
  obtain ⟨rfl, hidle, hcancels⟩ := h
  have ready {t : State} (leaves : SendLeaves p command payload s t) (he : t.env.cancels = s.env.cancels) :
      BatchReady s.cfg p t := ⟨leaves.evolves.cfg, leaves.idle, he.trans hcancels⟩
  cases hsend : sendRequest p command payload timeout allow s with
  | packet q t =>
    obtain ⟨-, row', hrow', hreply⟩ := replyFits_iff.mp (sendRequest_packet_fits hsend)
    obtain rfl := Option.some.inj (hrow.symm.trans hrow')
    exact .inl ⟨q, t, rfl, hreply, ready (sendRequest_packet hsend) (sendRequest_cancels (.inl ⟨q, hsend⟩))⟩
  | error e t =>
    exact .inr ⟨e, t, rfl, ready (sendRequest_error hsend) (sendRequest_cancels (.inr ⟨e, hsend⟩))⟩
  | refused r =>
    rcases sendRequest_spec p command payload timeout allow s with
      ⟨r', hgate, -⟩ | ⟨_, -, hsend', -⟩ | ⟨_, -, ⟨_, _, hsend', -⟩ | ⟨_, _, hsend', -⟩⟩
    · exact absurd hgate (gate_ne_refused s.now p allow hidle hrow hfits hlen r')
    all_goals
      rw [hsend'] at hsend
      cases hsend

/-- Under the row's shapes a channel read fills its slot: the index fits the request, and every reply accepted is as
long as a record (R204, R292). -/
theorem readOne_filled {cfg : Config} {p : PortId} {s : State} (timeout : Nat) (index : Word16)
    (hshapes : ReadRowShapes cfg) (h : BatchReady cfg p s) :
    ∃ slot t, (readOne p timeout index s).filled = some (slot, t) ∧ BatchReady cfg p t := by
  obtain ⟨row, hrow, hrequest, hresponse⟩ := hshapes
  have hfits : Fits cfg row.request (be16 index) := by
    rw [hrequest]
    rfl
  obtain rfl := h.cfg
  rcases sendRequest_of_batchReady timeout false h hrow hfits (by decide : 2 ≤ 252) with
    ⟨q, t, hsend, hreply, ready⟩ | ⟨e, t, hsend, ready⟩ <;> rw [readOne, hsend]
  · have hlen : q.payload.length = s.cfg.recordLen := by rwa [hresponse] at hreply
    exact ⟨_, t, congrArg _ (if_pos hlen), ready⟩
  · exact ⟨_, t, rfl, ready⟩

/-- Under the row's shapes a channel write fills its slot: the encoding is a record, and the echo is compared whatever
its length. -/
theorem writeOne_filled {cfg : Config} {p : PortId} {s : State} (timeout : Nat) (r : ChannelRecord)
    (hshapes : WriteRowShapes cfg) (h : BatchReady cfg p s) :
    ∃ slot t, (writeOne p timeout false r s).filled = some (slot, t) ∧ BatchReady cfg p t := by
  obtain ⟨row, hrow, hrequest, -, hrecord⟩ := hshapes
  have hlen := encodeRecord_length cfg r
  have hfits : Fits cfg row.request (encodeRecord cfg r) := by rwa [hrequest]
  obtain rfl := h.cfg
  rcases sendRequest_of_batchReady timeout false h hrow hfits (hlen.trans_le hrecord) with
    ⟨q, t, hsend, -, ready⟩ | ⟨e, t, hsend, ready⟩ <;> rw [writeOne, hsend]
  · by_cases hecho : q.payload = encodeRecord s.cfg r
    · exact ⟨_, t, congrArg _ (if_pos hecho), ready⟩
    · exact ⟨_, t, congrArg _ (if_neg hecho), ready⟩
  · exact ⟨_, t, rfl, ready⟩

theorem readItems_fills {cfg : Config} {p : PortId} {s : State} (timeout : Nat) (indices : List Word16)
    (hshapes : ReadRowShapes cfg) (h : BatchReady cfg p s) :
    ∃ slots t, readItems p timeout indices s = .done slots t ∧ slots.length = indices.length ∧
      BatchReady cfg p t := by
  refine exists_slots_of_step (loop := readItems p timeout) (fun _ => rfl) (fun index u hu => ?_) indices h
  obtain ⟨slot, t, hone, ready⟩ := readOne_filled timeout index hshapes hu
  exact ⟨slot, t, ready, fun rest => readItems_cons rest hu.head_ne (by rwa [hu.drawCancel])⟩

theorem writeItems_fills {cfg : Config} {p : PortId} {s : State} (timeout : Nat) (records : List ChannelRecord)
    (hshapes : WriteRowShapes cfg) (h : BatchReady cfg p s) :
    ∃ slots t, writeItems p timeout records s = .done slots t ∧ slots.length = records.length ∧
      BatchReady cfg p t := by
  refine exists_slots_of_step (loop := writeItems p timeout) (fun _ => rfl) (fun r u hu => ?_) records h
  obtain ⟨slot, t, hone, ready⟩ := writeOne_filled timeout r hshapes hu
  exact ⟨slot, t, ready, fun rest => writeItems_cons rest hu.head_ne (by rwa [hu.drawCancel])⟩

/-- Settles O44: each loop fills a slot for every item, and the index check runs before it. -/
theorem bulkOperationsFillEverySlot : Obligations.BulkOperationsFillEverySlot := by
  intro p timeout s hidle hcancels
  have ready : BatchReady s.cfg p s := ⟨rfl, hidle, hcancels⟩
  refine ⟨fun indices hshapes hindices => ?reads, fun records hshapes hindices => ?writes, fun _ => ⟨?_, ?_⟩⟩
  case reads =>
    obtain ⟨slots, t, hitems, hlen, after⟩ := readItems_fills timeout indices hshapes ready
    exact ⟨_, slots, exec_readAll_of_done hidle hindices hitems, rfl, hlen, after.idle⟩
  case writes =>
    obtain ⟨slots, t, hitems, hlen, after⟩ := writeItems_fills timeout records hshapes ready
    exact ⟨_, slots, exec_writeAll_of_done hidle hindices hitems, rfl, hlen, after.idle⟩
  · exact fun before after bad hbefore hbad => exec_readAll_of_index_too_large timeout after hidle hbefore hbad
  · exact fun before after bad hbefore hbad => exec_writeAll_of_index_too_large timeout after hidle hbefore hbad

end Sys2Proof.Statements

/-!
What the machine holds at power-on (10_state.md R46, 70_reset_and_hazards.md R351): the rate-limit registers of a
port's record, whatever their scope, and the decoder as DEC.START leaves it. Settles O57.
-/

namespace Sys2Proof.Machine

/-- At power-on no rate-limit time stands in either form of the register (R32, R46). -/
@[simp] theorem lastUnstable_powerOn (cfg : Config) (command : Byte) :
    Link.powerOn.lastUnstable cfg command = none := by
  unfold Link.lastUnstable
  cases cfg.rateScope with
  | perClass => rfl
  | perCommand => rfl

/-- DEC.START leaves the decoder registers as they are at power-on (R22, R152), from every state. -/
theorem exec_decStart_dec (s : State) :
    ∃ t, exec (.decStep .start) s = .next t ∧ t.dec = State.reset.dec :=
  ⟨_, exec_decStart s, returnValue_dec _ _⟩

end Sys2Proof.Machine

namespace Sys2Proof.Statements

open Sys2Proof Sys2Proof.Machine

/-- Settles O57: every port's record is `Link.powerOn`, whose fields are read off but for its rate-limit registers. -/
theorem powerOnValues : Obligations.PowerOnValues := by
  intro p
  rw [link_reset]
  exact ⟨rfl, rfl, rfl, rfl, rfl, rfl, rfl, rfl, rfl, rfl, rfl, rfl, lastUnstable_powerOn State.reset.cfg,
    List.not_mem_nil, exec_decStart_dec State.reset⟩

end Sys2Proof.Statements

/-!
The frame of a wire command read back, and O54: DECODE stops at the end of the frame, and its opcode, which no other
wire command has, names the command (30_encoding.md R90, 44_commands.md R231 to R242).
-/

namespace Sys2Proof.Machine

/-- The first frame of bytes that begin with one is that frame; the bytes after it are not examined (R151). -/
theorem decodeFrame_encodeFrame_append {cfg : Config} (hm : cfg.magic.length = 4) (command : Byte) {payload : Bytes}
    (hlen : payload.length ≤ 252) (more : Bytes) : decodeFrame cfg (encodeFrame cfg command payload ++ more) =
      .packet ⟨cfg.magic, lengthByte payload, command, payload, frameCrc cfg command payload⟩
        (payload.length + 8) := by
  have hfirst : findMagic cfg.magic ([] ++ cfg.magic) = some ([] : Bytes).length := by
    simpa using findMagic_append cfg.magic hm []
  have hbytes : encodeFrame cfg command payload ++ more = [] ++ cfg.magic ++
      lengthByte payload :: (command :: payload ++ be16 (frameCrc cfg command payload) ++ more) := by
    rw [encodeFrame_eq, List.nil_append, List.append_assoc, List.cons_append]
  rw [hbytes, decodeFrame_append_magic hm hfirst, decodeAfterMagic_encoded cfg _ command hlen, List.length_nil,
    Nat.zero_add]

/-- A good frame that stands for a command decodes to it, and the bytes after the frame remain. -/
theorem decode_encodeFrame_append {cfg : Config} (hm : cfg.magic.length = 4) {command : Byte} {payload : Bytes}
    (hlen : payload.length ≤ 252) {p : PortId} {t : Nat} {i : Instr} (hi : commandOf cfg p t command payload = .ok i)
    (more : Bytes) : decode cfg p t (encodeFrame cfg command payload ++ more) = .instr i more := by
  have hend : (encodeFrame cfg command payload).length = payload.length + 8 := by
    rw [encodeFrame_length, hm]
    omega
  simp only [decode, decodeFrame_encodeFrame_append hm command hlen more, hi, ← hend, List.drop_left]

/-- A frame is the encoding of a payload that fits it (R92). -/
theorem encodeCommand_of_le (cfg : Config) (command : Byte) {payload : Bytes} (hlen : payload.length ≤ 252) :
    encodeCommand cfg command payload = some (encodeFrame cfg command payload) :=
  if_pos (payloadWf_iff.mpr hlen)

end Sys2Proof.Machine

namespace Sys2Proof.Statements

open Sys2Proof Sys2Proof.Machine

/-- The encoder gives a wire command the frame of its request. -/
theorem encode_of_wireRequest {cfg : Config} {i : Instr} {p : PortId} {t : Nat} {op : Byte} {payload : Bytes}
    (h : wireRequest cfg i = some (p, t, op, payload)) : encode cfg i = encodeCommand cfg op payload := by
  cases i <;> cases h <;> rfl

/-- The payload of a well-formed wire command fits a frame: it is bounded, a record, or an index. -/
theorem payload_length_of_wireRequest {cfg : Config} {i : Instr} {p : PortId} {t : Nat} {op : Byte} {payload : Bytes}
    (hcfg : cfg.wf = true) (hi : i.wf cfg = true) (h : wireRequest cfg i = some (p, t, op, payload)) :
    payload.length ≤ 252 := by
  cases i <;> cases h
  case chWrite =>
    obtain ⟨-, hrecord⟩ := (Bool.and_eq_true ..).mp hi
    rw [recordBytesWf_iff.mp hrecord]
    exact recordLen_le hcfg
  case chRead => exact (by decide : 2 ≤ 252)
  all_goals exact Laws.EncodedFrame.payload_of_wf hi

/-- No opcode of R231 is one of those that `commandOf` tests before it. -/
theorem commandOf_of_wireRequest {cfg : Config} {i : Instr} {p : PortId} {t : Nat} {op : Byte} {payload : Bytes}
    (hcfg : cfg.wf = true) (hi : i.wf cfg = true) (h : wireRequest cfg i = some (p, t, op, payload)) :
    commandOf cfg p t op payload = .ok i := by
  have hdistinct := List.nodup_reverse.mpr (noRepeats_iff.mp (opcodes_noRepeats hcfg))
  simp only [Config.opcodes, List.reverse_cons, List.reverse_nil, List.nil_append, List.cons_append, List.nodup_cons,
    List.mem_cons, not_or] at hdistinct
  cases i <;> cases h
  case chWrite =>
    obtain ⟨-, hrecord⟩ := (Bool.and_eq_true ..).mp hi
    simp only [commandOf, hdistinct, recordBytesWf_iff.mp hrecord, if_true, if_false]
  case chRead index =>
    have hindex : unbe16 (index.extractLsb' 8 8) (index.extractLsb' 0 8) = index := unbe16_hi8_lo8 index
    simp only [commandOf, hdistinct, hindex, if_true, if_false]
  all_goals simp only [commandOf, hdistinct, if_true, if_false]

/-- Settles O54: the frame is the request's, DECODE reads it, and its opcode names the command. -/
theorem instructionDecodingInvertsEncoding : Obligations.InstructionDecodingInvertsEncoding := by
  intro cfg i p t op payload hcfg hi h
  have hlen := payload_length_of_wireRequest hcfg hi h
  rw [frameOf_eq, encode_of_wireRequest h]
  exact ⟨encodeCommand_of_le cfg op hlen,
    decode_encodeFrame_append (magic_length hcfg) hlen (commandOf_of_wireRequest hcfg hi h)⟩

end Sys2Proof.Statements

/-!
What an operation and a step can do, said once over all operations: an operation on a port is a run on that port, any
other touches no port. O58, O59, O60 and O56 from it (10_state.md sections 2 to 7, 42_transport.md section 2).
-/

namespace Sys2Proof.Machine

/-! ## The invariant -/

/-- A run on one port keeps what holds between two operations (R24). -/
theorem Ran.inv {p : PortId} {s t : State} (h : Ran p s t) (hs : s.Inv) : t.Inv where
  coherent := h.evolves.coherent hs.coherent
  idle := fun q => by
    by_cases hq : q = p
    · subst hq
      exact h.idle (hs.idle q)
    · rw [h.evolves.busy_other hq]
      exact hs.idle q

/-- The environment's step works on no port: each is another port than some port. -/
theorem inv_idleStep {s : State} (hs : s.Inv) : (idleStep s).Inv where
  coherent := (evolves_idleStep 0 s).coherent hs.coherent
  idle := fun q => by
    rw [(evolves_idleStep (q + 1) s).busy_other (Nat.ne_of_lt (Nat.lt_succ_self q))]
    exact hs.idle q

/-- The host's queue is no part of the invariant. -/
theorem inv_popRequest {s : State} (hs : s.Inv) : s.popRequest.Inv :=
  ⟨⟨hs.coherent.cfg, hs.coherent.links, hs.coherent.held, hs.coherent.live, hs.coherent.dec, hs.coherent.port⟩,
    hs.idle⟩

theorem inv_reset : State.reset.Inv where
  coherent :=
    { cfg := by decide
      links := rfl
      held := rfl
      live := fun p => by simp [State.reset, State.link, Link.powerOn]
      dec := decSafe_start
      port := fun p => by
        rw [link_reset]
        exact ⟨nofun, Nat.zero_le _, Nat.zero_le _, rfl⟩ }
  idle := fun p => by rw [link_reset]; rfl

/-! ## A step -/

/-- A step finds an operation or none, and takes its request off the queue. -/
theorem fetch_cases (s : State) : fetch s = .idle s.popRequest ∨ ∃ i, fetch s = .run i s.popRequest := by
  cases h : s.requests with
  | nil => exact .inl (fetch_idle (.inl h))
  | cons r rest =>
    rw [popRequest_cons h]
    cases r with
    | idle => exact .inl ((fetch_idle (.inr (by rw [h]; rfl))).trans (by rw [popRequest_cons h]))
    | op i => exact .inr ⟨i, fetch_op h⟩
    | frame p t bytes =>
      cases hd : decode s.cfg p t bytes with
      | instr i more => exact .inr ⟨i, fetch_frame_instr h hd⟩
      | rejected e => exact .inr ⟨rejectedOp p t bytes e, fetch_frame_rejected h hd⟩

/-- A step that answers a next state is one of the environment or one operation, under an admitted configuration. -/
theorem step_next {s t : State} (h : step s = .next t) :
    t = idleStep s.popRequest ∨ ∃ i, exec i s.popRequest = .next t := by
  cases hwf : s.cfg.wf with
  | false =>
    rw [step_illFormed hwf] at h
    cases h
  | true =>
    rcases fetch_cases s with hidle | ⟨i, hrun⟩
    · rw [step_idle hwf hidle] at h
      cases h
      exact .inl rfl
    · rw [step_run hwf hrun] at h
      exact .inr ⟨i, h⟩

end Sys2Proof.Machine

namespace Sys2Proof.Statements

open Sys2Proof Sys2Proof.Machine

/-- What any operation can do: it runs on its port, or on none. -/
theorem exec_ran {i : Instr} {s t : State} (h : exec i s = .next t) :
    (∃ p, portOf i = some p ∧ Ran p s t) ∨ (portOf i = none ∧ RanNowhere s t) := by
  cases i
  case ptt p _ _ | modeSet p _ _ | statusSync p _ _ | equipId p _ _ | powerSet p _ _ | rxoffSet p _ _ |
      meterSync p _ _ | paramSync p _ _ | spectrum p _ _ | chWrite p _ _ | chRead p _ _ | queryStatus p _ |
      queryMeters p _ | queryParams p _ => exact .inl ⟨p, rfl, wireCommand_ran h⟩
  case connect p => exact .inl ⟨p, rfl, execConnect_ran h⟩
  case disconnect p => exact .inl ⟨p, rfl, execDisconnect_ran h⟩
  case resetInput p => exact .inl ⟨p, rfl, execResetInput_ran h⟩
  case txPut p _ => exact .inl ⟨p, rfl, execTxPut_ran h⟩
  case rxTake p => exact .inl ⟨p, rfl, execRxTake_ran h⟩
  case send p _ _ _ _ => exact .inl ⟨p, rfl, execSend_ran h⟩
  case readChannel p _ _ => exact .inl ⟨p, rfl, execReadChannel_ran h⟩
  case writeChannel p _ _ _ => exact .inl ⟨p, rfl, execWriteChannel_ran h⟩
  case setAllowUnstable p _ => exact .inl ⟨p, rfl, execSetAllowUnstable_ran h⟩
  case readAll p _ _ => exact .inl ⟨p, rfl, execReadAll_ran h⟩
  case writeAll p _ _ => exact .inl ⟨p, rfl, execWriteAll_ran h⟩
  case crcValue => exact .inr ⟨rfl, execCrcValue_ran h⟩
  case encode => exact .inr ⟨rfl, execEncode_ran h⟩
  case decode => exact .inr ⟨rfl, execDecode_ran h⟩
  case decStep => exact .inr ⟨rfl, execDecStep_ran h⟩
  case decodeChannel => exact .inr ⟨rfl, execDecodeChannel_ran h⟩
  case crcInit | crcByte | crcBit | crc16 | crcCheck | encodeChannel | encodeChannelStrict | freqToIndex |
      indexToFreq =>
    cases h
    exact .inr ⟨rfl, rfl, rfl, rfl, rfl, rfl, rfl, id⟩

/-- Whether it works on a port or on none, an operation is a run on some port. -/
theorem exists_ran {i : Instr} {s t : State} (h : exec i s = .next t) : ∃ p, Ran p s t := by
  rcases exec_ran h with ⟨p, -, ran⟩ | ⟨-, nowhere⟩
  · exact ⟨p, ran⟩
  · exact ⟨0, nowhere.ran 0⟩

/-- Settles O58: an operation is a run on one port, which keeps the invariant, and so does the environment's step. -/
theorem stepKeepsTheInvariant : Obligations.StepKeepsTheInvariant := by
  intro s t hs h
  rcases step_next h with rfl | ⟨i, hexec⟩
  · exact inv_idleStep (inv_popRequest hs)
  · obtain ⟨p, ran⟩ := exists_ran hexec
    exact ran.inv (inv_popRequest hs)

/-- Settles O56: at power-on no port has a record of its own, and `cfgRef` is admitted. -/
theorem powerOnIsSafe : Obligations.PowerOnIsSafe := inv_reset

/-- Settles O59: the port worked on sends more bytes, every other port keeps its `tx`. -/
theorem transmitLogOnlyGrows : Obligations.TransmitLogOnlyGrows := by
  intro i s t h
  obtain ⟨p, evolves, -⟩ := exists_ran h
  refine ⟨evolves.cfg, evolves.now, fun q => ?_⟩
  by_cases hq : q = p
  · subst hq
    obtain ⟨more, htx⟩ := evolves.tx
    exact ⟨more, htx.symm⟩
  · obtain ⟨more, hlink⟩ := evolves.others hq
    rw [hlink]

/-- Settles O60: a run on another port brings `q` the bytes of its waits; one on no port takes no wait. -/
theorem otherPortsAreLeftAlone : Obligations.OtherPortsAreLeftAlone := by
  intro i s t q h hport
  rcases exec_ran h with ⟨p, hp, evolves, -⟩ | ⟨hnone, nowhere⟩
  · have hq : q ≠ p := fun e => hport (by rw [hp, e])
    obtain ⟨n, hwaits, hlink⟩ := evolves.arrivals
    refine ⟨⟨n, hwaits, ?_⟩, fun hnone => ?_, evolves.heldElse q hq⟩
    · rw [arrivingIn_eq]
      exact hlink q hq
    · rw [hp] at hnone
      cases hnone
  · have hlink := link_of_links_eq nowhere.links q
    refine ⟨⟨0, nowhere.waits, ?_⟩, fun _ => ⟨nowhere.waits, hlink⟩, by rw [nowhere.portsHeld]⟩
    rw [hlink, List.take_zero, arrivingIn_eq, bytesIn_nil, List.append_nil]

end Sys2Proof.Statements

/-!
The operations RESET_INPUT, RX_TAKE and SET_ALLOW_UNSTABLE on a live Session: O21, O23 and O41 (42_transport.md R174,
R176; 46_host_operations.md R296).
-/

namespace Sys2Proof.Machine

/-- Without an I/O failure listed an I/O step does not fail. -/
theorem drawIo_of_no_failure {s : State} (h : s.env.ioFails.head? ≠ some true) : s.drawIo.1 = false := by
  rw [drawIo_fst, decide_eq_false h]

theorem drawIo_of_failure {s : State} (h : s.env.ioFails.head? = some true) : s.drawIo.1 = true := by
  rw [drawIo_fst, decide_eq_true h]

/-- Without an I/O failure RxFlush takes one draw and discards the unread bytes (R174). -/
theorem rxFlush_of_no_failure {s : State} (h : s.env.ioFails.head? ≠ some true) (p : PortId) :
    rxFlush p s = .ok (s.drawIo.2.setLink p { s.link p with rx := [] }) := by
  simp only [rxFlush, drawIo_of_no_failure h, Bool.false_eq_true, if_false, link_drawIo]

/-- Without an I/O failure RxTake of an empty `rx` takes one draw and answers empty (R176). -/
theorem rxTake_of_nil {p : PortId} {s : State} (h : s.env.ioFails.head? ≠ some true) (hrx : (s.link p).rx = []) :
    rxTake p s = .empty s.drawIo.2 := by
  simp only [rxTake, drawIo_of_no_failure h, Bool.false_eq_true, if_false, link_drawIo, hrx]

/-- Without an I/O failure RxTake takes one draw and the oldest byte (R176). -/
theorem rxTake_of_cons {p : PortId} {s : State} {b : Byte} {rest : Bytes} (h : s.env.ioFails.head? ≠ some true)
    (hrx : (s.link p).rx = b :: rest) : rxTake p s = .byte b (s.drawIo.2.setLink p
      { s.link p with rx := rest, lastRaw := (s.link p).lastRaw ++ [b] }) := by
  simp only [rxTake, drawIo_of_no_failure h, Bool.false_eq_true, if_false, link_drawIo, hrx]

section
variable {p : PortId} {s : State}

theorem exec_resetInput_of_no_failure (hidle : (s.link p).busy = false) (hlive : (s.link p).isConnected = true)
    (hio : s.env.ioFails.head? ≠ some true) : exec (.resetInput p) s =
      .next (returnValue .unit (s.drawIo.2.setLink p { s.link p with rx := [] })) := by
  simp only [exec, execResetInput, hidle, hlive, rxFlush_of_no_failure hio, Bool.not_true, Bool.false_eq_true,
    if_false]

theorem exec_rxTake_of_nil (hidle : (s.link p).busy = false) (hlive : (s.link p).isConnected = true)
    (hio : s.env.ioFails.head? ≠ some true) (hrx : (s.link p).rx = []) :
    exec (.rxTake p) s = .next (returnValue (.taken none) s.drawIo.2) := by
  simp only [exec, execRxTake, hidle, hlive, rxTake_of_nil hio hrx, Bool.not_true, Bool.false_eq_true, if_false]

theorem exec_rxTake_of_cons {b : Byte} {rest : Bytes} (hidle : (s.link p).busy = false)
    (hlive : (s.link p).isConnected = true) (hio : s.env.ioFails.head? ≠ some true)
    (hrx : (s.link p).rx = b :: rest) : exec (.rxTake p) s = .next (returnValue (.taken (some b))
      (s.drawIo.2.setLink p { s.link p with rx := rest, lastRaw := (s.link p).lastRaw ++ [b] })) := by
  simp only [exec, execRxTake, hidle, hlive, rxTake_of_cons hio hrx, Bool.not_true, Bool.false_eq_true, if_false]

theorem exec_setAllowUnstable_of_live (b : Bool) (hidle : (s.link p).busy = false)
    (hlive : (s.link p).isConnected = true) :
    exec (.setAllowUnstable p b) s = .next (returnValue .unit (setOptIn p b s)) := by
  simp only [exec, execSetAllowUnstable, hidle, hlive, Bool.not_true, Bool.false_eq_true, if_false]

end

end Sys2Proof.Machine

namespace Sys2Proof.Statements

open Sys2Proof Sys2Proof.Machine

/-- Settles O21: the write of one record, after one draw. -/
theorem resetInputDiscardsUnreadBytes : Obligations.ResetInputDiscardsUnreadBytes := by
  intro p s hidle hlive hio
  refine ⟨_, exec_resetInput_of_no_failure hidle hlive hio, rfl, link_setLink_same ..,
    fun q hq => link_setLink_other hq .., ?_⟩
  rw [drawIo_snd]
  rfl

/-- Settles O23, by whether a byte waits in `rx`. -/
theorem rxTakeTakesTheOldestByte : Obligations.RxTakeTakesTheOldestByte := by
  intro p s hidle hlive hio
  cases hrx : (s.link p).rx with
  | nil =>
    refine ⟨_, exec_rxTake_of_nil hidle hlive hio hrx, rfl, ?_, fun q _ => rfl, ?_⟩
    · rw [link_returnValue, link_drawIo, List.tail_nil, List.head?_nil, Option.toList_none, List.append_nil, ← hrx]
    · rw [drawIo_snd]
      rfl
  | cons b rest =>
    refine ⟨_, exec_rxTake_of_cons hidle hlive hio hrx, rfl, link_setLink_same ..,
      fun q hq => link_setLink_other hq .., ?_⟩
    rw [drawIo_snd]
    rfl

/-- Settles O41: the write of one field of one record. -/
theorem optInIsWritten : Obligations.OptInIsWritten := by
  intro p b s x hidle hsession hconnected
  have hlive : (s.link p).isConnected = true := by
    rw [Link.isConnected, hsession]
    exact hconnected
  have hlink : (setOptIn p b s).link p = { s.link p with session := some { x with allowUnstable := b } } := by
    rw [link_setOptIn_same, hsession, Option.map_some]
  refine ⟨_, exec_setAllowUnstable_of_live b hidle hlive, rfl, hlink, ?_,
    fun q hq => link_setOptIn_other p b s hq, rfl⟩
  rw [link_returnValue, hlink]
  rfl

end Sys2Proof.Statements

/-!
CONNECT, check by check, and O18 and O19 (42_transport.md R171).
-/

namespace Sys2Proof.Machine

section
variable {p : PortId} {s : State}

theorem exec_connect_of_held (hidle : (s.link p).busy = false) (hheld : p ∈ s.portsHeld) :
    exec (.connect p) s = .next (returnValue (.error (connectionReport p .portUnavailable)) s) := by
  simp only [exec, execConnect, hidle, List.contains_iff_mem.mpr hheld, Bool.false_eq_true, if_false, if_true,
    raiseError_of_idle hidle, returnValue]

theorem exec_connect_of_not_opening (hidle : (s.link p).busy = false) (hfree : p ∉ s.portsHeld)
    (hopen : s.env.opens.head? = some false) : exec (.connect p) s =
      .next (returnValue (.error (connectionReport p .portUnavailable)) s.drawOpen.2) := by
  have hdraw : s.drawOpen.1 = false := by rw [drawOpen_fst, decide_eq_false (not_not.mpr hopen)]
  simp only [exec, execConnect, hidle, List.contains_iff_mem, hfree, hdraw, Bool.not_false, Bool.false_eq_true,
    if_false, if_true, raiseError_of_idle (s := s.drawOpen.2) hidle, returnValue]

theorem exec_connect_of_no_lines (hidle : (s.link p).busy = false) (hfree : p ∉ s.portsHeld)
    (hopen : s.env.opens.head? ≠ some false) (hlines : s.env.lines.head? = some false) : exec (.connect p) s =
      .next (returnValue (.error (connectionReport p .handshakeFailed)) s.drawOpen.2.drawLines.2) := by
  have hdraw : s.drawOpen.1 = true := by rw [drawOpen_fst, decide_eq_true hopen]
  have hdraw' : s.drawOpen.2.drawLines.1 = false := by
    rw [drawLines_fst, drawOpen_snd, decide_eq_false (not_not.mpr hlines)]
  simp only [exec, execConnect, hidle, List.contains_iff_mem, hfree, hdraw, hdraw', Bool.not_false, Bool.not_true,
    Bool.false_eq_true, if_false, if_true, raiseError_of_idle (s := s.drawOpen.2.drawLines.2) hidle, returnValue]

/-- A free port that opens and whose lines can be set: CONNECT goes on to the Session (R171). -/
theorem exec_connect_of_open (hidle : (s.link p).busy = false) (hfree : p ∉ s.portsHeld)
    (hopen : s.env.opens.head? ≠ some false) (hlines : s.env.lines.head? ≠ some false) :
    exec (.connect p) s = finishConnect p s.drawOpen.2.drawLines.2 := by
  have hdraw : s.drawOpen.1 = true := by rw [drawOpen_fst, decide_eq_true hopen]
  have hdraw' : s.drawOpen.2.drawLines.1 = true := by
    rw [drawLines_fst, drawOpen_snd, decide_eq_true hlines]
  simp only [exec, execConnect, hidle, List.contains_iff_mem, hfree, hdraw, hdraw', Bool.not_true,
    Bool.false_eq_true, if_false]

/-- What CONNECT leaves when its flush does not fail: the Session open, `k` waits taken until the lines are stable, and
nothing else changed (R171). -/
structure Connected (p : PortId) (k : Nat) (s t : State) : Prop where
  link      : t.link p = { s.link p with
    session := some (newSession s.cfg p), rx := bytesIn p (s.env.waits.take k), disp := .idle, attempt := 0,
    lastRaw := [] }
  others    : ∀ q, q ≠ p → t.link q = { s.link q with rx := (s.link q).rx ++ bytesIn q (s.env.waits.take k) }
  held      : t.portsHeld = holdPort p s.portsHeld
  now       : s.now + s.cfg.tStabilize ≤ t.now
  waits     : t.env.waits = s.env.waits.drop k
  cfg       : t.cfg = s.cfg
  crcReg    : t.crcReg = s.crcReg
  dec       : t.dec = s.dec
  requests  : t.requests = s.requests

theorem finishConnect_of_no_failure (hio : s.env.ioFails.head? ≠ some true) :
    ∃ t k, finishConnect p s = .next (returnValue (.session (newSession s.cfg p)) t) ∧ Connected p k s t := by
  have hflush := rxFlush_of_no_failure (s := openSession p s) hio p
  generalize hu : (openSession p s).drawIo.2.setLink p { (openSession p s).link p with rx := [] } = u at hflush
  obtain ⟨k, waited, hnow⟩ := waitUntil_spec (u.now + u.cfg.tStabilize) u
  refine ⟨readyLink p (waitUntil (u.now + u.cfg.tStabilize) u), k, by simp only [finishConnect, hflush],
    ?link, fun q hq => ?others, ?held, ?now, ?waits, ?cfg, ?crcReg, ?dec, ?requests⟩
  case link =>
    rw [link_readyLink_same, waited.link, ← hu]
    simp
  case others =>
    rw [link_readyLink_other p _ hq, waited.link, ← hu, link_setLink_other hq, link_drawIo,
      link_openSession_other p s hq]
    rfl
  case held => rw [readyLink_portsHeld, waited.portsHeld, ← hu]; rfl
  case now =>
    rw [readyLink_now]
    refine le_trans (le_of_eq ?_) hnow
    rw [← hu]
    rfl
  case waits => rw [readyLink_env, waited.env, ← hu]; rfl
  case cfg => rw [readyLink_cfg, waited.cfg, ← hu]; rfl
  case crcReg => rw [readyLink_crcReg, waited.crcReg, ← hu]; rfl
  case dec => rw [readyLink_dec, waited.dec, ← hu]; rfl
  case requests => rw [readyLink_requests, waited.requests, ← hu]; rfl

end

end Sys2Proof.Machine

namespace Sys2Proof.Statements

open Sys2Proof Sys2Proof.Machine

/-- Settles O18: after the two draws the Session is opened, the input flushed, and the waits of the stabilization
taken. -/
theorem connectOpensTheSession : Obligations.ConnectOpensTheSession := by
  intro p s hidle hfree hopen hlines hio
  have hio' : s.drawOpen.2.drawLines.2.env.ioFails.head? ≠ some true := by rwa [drawLines_snd, drawOpen_snd]
  obtain ⟨t, k, hfinish, connected⟩ := finishConnect_of_no_failure (p := p) hio'
  have hexec := (exec_connect_of_open hidle hfree hopen hlines).trans hfinish
  refine ⟨_, k, hexec, rfl, ?_, fun q hq => ?_, fun q => ?_, connected.now, connected.waits, connected.cfg,
    connected.crcReg, connected.dec, connected.requests⟩
  · rw [arrivingIn_eq]
    exact connected.link
  · rw [arrivingIn_eq]
    exact connected.others q hq
  · rw [returnValue_portsHeld, connected.held]
    exact mem_holdPort

/-- Settles O19, failure by failure. -/
theorem connectFailuresLeaveNoSession : Obligations.ConnectFailuresLeaveNoSession := by
  intro p s hidle
  refine ⟨fun hheld => ⟨_, exec_connect_of_held hidle hheld, rfl, rfl⟩,
    fun hfree hopen => ⟨_, exec_connect_of_not_opening hidle hfree hopen, rfl, ?_⟩,
    fun hfree hopen hlines => ⟨_, exec_connect_of_no_lines hidle hfree hopen hlines, rfl, ?_⟩⟩
  · rw [drawOpen_snd]
    rfl
  · rw [drawLines_snd, drawOpen_snd]
    rfl

end Sys2Proof.Statements

/-!
What SEND leaves on every exit and what it does not depend on: O35 and O36 (43_dispatcher.md R201, R212).
-/

namespace Sys2Proof.Machine

theorem busy_eq_false_iff {l : Link} : l.busy = false ↔ l.disp = .idle ∧ l.attempt = 0 := by
  simp [Link.busy]

/-- SEND that answers a next state has left the port as `SendLeaves` says, and then written the value returned. -/
theorem exec_send_next {p : PortId} {command : Byte} {payload : Bytes} {timeout : Nat} {allow : Bool} {s t : State}
    (h : exec (.send p command payload timeout allow) s = .next t) :
    ∃ v s', t = returnValue v s' ∧ SendLeaves p command payload s s' := by
  rw [exec_send, execSend] at h
  cases hsend : sendRequest p command payload timeout allow s <;> rw [hsend] at h <;> cases h
  case packet q s' => exact ⟨_, s', rfl, sendRequest_packet hsend⟩
  case error e s' =>
    have leaves := sendRequest_error hsend
    exact ⟨_, s', raiseError_of_idle leaves.idle _, leaves⟩

/-! ## Stale bytes -/

/-- RxFlush writes `rx` whatever stood there. -/
theorem rxFlush_setLink_rx (p : PortId) (bytes : Bytes) (s : State) :
    rxFlush p (s.setLink p { s.link p with rx := bytes }) = rxFlush p s := by
  have hdraw : (s.setLink p { s.link p with rx := bytes }).drawIo =
      (s.drawIo.1, s.drawIo.2.setLink p { s.link p with rx := bytes }) := rfl
  unfold rxFlush
  rw [hdraw]
  simp only [link_setLink_same, setLink_setLink, teardown, setLink_portsHeld, link_drawIo]

/-- An attempt begins with a flush. -/
theorem attempt_setLink_rx (p : PortId) (bytes : Bytes) (s : State) :
    attempt p (s.setLink p { s.link p with rx := bytes }) = attempt p s := by
  have hcount : countAttempt p (s.setLink p { s.link p with rx := bytes }) =
      (countAttempt p s).setLink p { (countAttempt p s).link p with rx := bytes } := by
    simp only [countAttempt, link_setLink_same, setLink_setLink]
  simp only [attempt, hcount, rxFlush_setLink_rx]

theorem tryAttempts_setLink_rx (p : PortId) (bytes : Bytes) (n : Nat) (s : State) :
    tryAttempts p n (s.setLink p { s.link p with rx := bytes }) = tryAttempts p n s := by
  cases n <;> simp only [tryAttempts, attempt_setLink_rx]

theorem stampPolicy_setLink_rx (p : PortId) (bytes : Bytes) (command : Byte) (r : Risk) (s : State) :
    stampPolicy p command r (s.setLink p { s.link p with rx := bytes }) =
      (stampPolicy p command r s).setLink p { (stampPolicy p command r s).link p with rx := bytes } := by
  cases r
  case unstable =>
    simp only [stampPolicy, link_setLink_same, setLink_setLink, setLink_cfg, setLink_now, Link.stampUnstable]
    cases s.cfg.rateScope <;> rfl
  case stable => rfl
  case blocked => rfl

theorem latch_setLink_rx (p : PortId) (bytes : Bytes) (command : Byte) (payload : Bytes) (timeout : Nat) (s : State) :
    latch p command payload timeout (s.setLink p { s.link p with rx := bytes }) =
      (latch p command payload timeout s).setLink p
        { (latch p command payload timeout s).link p with rx := bytes } := by
  simp only [link_latch_same]
  simp only [latch, link_setLink_same, setLink_setLink, setLink_cfg]
  simp only [State.setLink, putLink_putLink]

/-- The gate does not look at `rx` (R191 to R197). -/
theorem gate_setLink_rx (cfg : Config) (l : Link) (bytes : Bytes) (now : Nat) (p : PortId) (command : Byte)
    (payload : Bytes) (allow : Bool) :
    gate cfg { l with rx := bytes } now p command payload allow = gate cfg l now p command payload allow := rfl

/-- Once a request has passed the gate, the bytes that were unread have no influence (R201). -/
theorem sendRequest_setLink_rx {p : PortId} {command : Byte} {payload : Bytes} {timeout : Nat} {allow : Bool}
    {s : State} {r : Risk} (bytes : Bytes)
    (hg : gate s.cfg (s.link p) s.now p command payload allow = .pass r) :
    sendRequest p command payload timeout allow (s.setLink p { s.link p with rx := bytes }) =
      sendRequest p command payload timeout allow s := by
  simp only [sendRequest, setLink_cfg, setLink_now, link_setLink_same, gate_setLink_rx, hg, stampPolicy_setLink_rx,
    latch_setLink_rx, tryAttempts_setLink_rx]

end Sys2Proof.Machine

namespace Sys2Proof.Statements

open Sys2Proof Sys2Proof.Machine

theorem copiesOf_eq (k : Nat) (frame : Bytes) : copiesOf k frame = copies k frame := rfl

/-- A request that passes the gate leaves unread only bytes of the waits it took (R212). -/
theorem exec_send_rx_of_passes {p : PortId} {command : Byte} {payload : Bytes} {timeout : Nat} {allow : Bool}
    {s t : State} {row : Row} (hpass : Passes s p row command payload allow)
    (h : exec (.send p command payload timeout allow) s = .next t) :
    ∃ n, t.env.waits = s.env.waits.drop n ∧ (t.link p).rx <:+ arrivingIn p (s.env.waits.take n) := by
  obtain ⟨v, s', hexec, -, drains⟩ := exec_send_of_pass (t := timeout) (gate_of_passes hpass)
  rw [h] at hexec
  cases hexec
  obtain ⟨n, hwaits, hrx⟩ := drains.waits
  rw [latch_env, stampPolicy_env] at hwaits hrx
  exact ⟨n, hwaits, by rwa [arrivingIn_eq, link_returnValue]⟩

/-- Settles O35: what SEND leaves, and what it drains when the gate was passed. -/
theorem sendLeavesWholeFrames : Obligations.SendLeavesWholeFrames := by
  intro p command payload timeout allow s t h
  obtain ⟨v, s', rfl, leaves⟩ := exec_send_next h
  obtain ⟨hdisp, hattempt⟩ := busy_eq_false_iff.mp leaves.idle
  refine ⟨hdisp, hattempt, leaves.idle, ?_, fun row hpass => exec_send_rx_of_passes hpass h⟩
  simp only [copiesOf_eq, frameOf_eq]
  exact leaves.tx

/-- Settles O36: the first attempt's flush writes over the stale bytes. -/
theorem staleBytesDoNotMatter : Obligations.StaleBytesDoNotMatter := by
  intro p command payload timeout allow s row stale hpass
  simp only [exec_send, execSend, withInput, sendRequest_setLink_rx stale (gate_of_passes hpass), setLink_cfg]

end Sys2Proof.Statements

/-!
The wire commands and the queries made of SEND: O37 and O38 (44_commands.md R232 to R242, 46_host_operations.md R295,
R296).
-/

namespace Sys2Proof.Statements

open Sys2Proof Sys2Proof.Machine

/-- Settles O37: both operations take the same request apart by the same three ends. -/
theorem wireCommandsAreSend : Obligations.WireCommandsAreSend := by
  intro i p timeout op payload s h
  obtain ⟨channel, hwire⟩ := exec_of_wireRequest h
  rw [exec_send, execSend, hwire, wireCommand]
  cases sendRequest p op payload timeout false s with
  | packet q s' =>
    refine ⟨_, rfl, rfl, fun q' hq => ?_, fun e he => he.elim⟩
    cases hq
    rfl
  | error e s' => exact ⟨_, rfl, rfl, nofun, fun e' he => he⟩
  | refused r => rfl

/-- A wire command whose request is answered returns the reply's payload after one exchange. -/
theorem wireCommand_of_answered {p : PortId} {op : Byte} {payload : Bytes} {timeout : Nat} {s : State} {row : Row}
    {reply extra : Bytes} {w : Wait} {later : List Wait} (channel : Option Word16)
    (hpass : Passes s p row op payload false) (hanswered : Answered s p row op timeout reply extra w later) :
    ∃ t, wireCommand op p timeout payload channel s = .next t ∧ t.ret = .bytes reply ∧
      Exchanged s t p row op payload timeout reply extra w later := by
  obtain ⟨t, hsend, hexchanged⟩ := sendRequest_of_answered hpass hanswered
  exact ⟨returnValue (.bytes reply) t, by rw [wireCommand, hsend]; rfl, rfl, hexchanged.returnValue _⟩

/-- Settles O38: wire commands and queries are `wireCommand`. -/
theorem wireCommandsReturnTheReply : Obligations.WireCommandsReturnTheReply := by
  intro i p timeout op payload s row reply extra w later h hpass hanswered
  rcases h with hwire | hquery
  · obtain ⟨channel, hexec⟩ := exec_of_wireRequest hwire
    rw [hexec]
    exact wireCommand_of_answered channel hpass hanswered
  · rw [exec_of_queryRequest hquery]
    exact wireCommand_of_answered none hpass hanswered

end Sys2Proof.Statements

/-!
The spec's example frames, and O55 (44_commands.md section 2): each is the frame of its command, which O54 reads back.
-/

namespace Sys2Proof.Statements

open Sys2Proof Sys2Proof.Machine

/-- Settles O55: the bytes are the frames of their commands under `cfgRef`. -/
theorem exampleWordsDecode : Obligations.ExampleWordsDecode := by
  have decodes {i : Instr} {op : Byte} {payload bytes more : Bytes} (hi : i.wf cfgRef = true)
      (h : wireRequest cfgRef i = some (3, 1000, op, payload)) (hbytes : bytes = frameOf cfgRef op payload ++ more) :
      decode cfgRef 3 1000 bytes = .instr i more := by
    rw [hbytes]
    exact (instructionDecodingInvertsEncoding cfgRef i 3 1000 op payload (by decide) hi h).2 more
  exact ⟨decodes (by decide) rfl (by decide +kernel), decodes (by decide) rfl (by decide +kernel),
    decodes (by decide) rfl (by decide +kernel)⟩

end Sys2Proof.Statements

/-!
A frame with one changed byte, and O15 (41_frame_codec.md R156): a change behind the length byte leaves a CRC residue,
and a change before it is caught by the check that reads it.
-/

namespace Sys2Proof.Machine

/-- With a constant term of 1 different bytes take a register to different ones. -/
theorem crcByteStep_injective {poly : Word16} (hp : poly.getLsbD 0 = true) {c : Word16} {x y : Byte}
    (h : crcByteStep poly c x = crcByteStep poly c y) : x = y := by
  have hdifference : crcByteStep poly (c ^^^ c) (x ^^^ y) = 0#16 := by rw [crcByteStep_xor, h, BitVec.xor_self]
  rw [BitVec.xor_self] at hdifference
  have hshifted := crcShifts_eq_zero hp hdifference
  have hzero : (x ^^^ y).toNat = 0 := by
    have hnat := congrArg BitVec.toNat hshifted
    have hlt := (x ^^^ y).isLt
    simp only [BitVec.zero_xor, BitVec.toNat_shiftLeft, BitVec.truncate_eq_setWidth, BitVec.toNat_setWidth,
      Nat.shiftLeft_eq, BitVec.toNat_ofNat] at hnat
    omega
  exact BitVec.xor_eq_zero_iff.mp (BitVec.eq_of_toNat_eq hzero)

/-- With a constant term of 1 one changed byte changes the register. -/
theorem crcFold_set_ne {poly : Word16} (hp : poly.getLsbD 0 = true) (c : Word16) {s : Bytes} {k : Nat} {b : Byte}
    (hk : k < s.length) (hb : s[k]? ≠ some b) : crcFold poly c (s.set k b) ≠ crcFold poly c s := by
  intro h
  have hsplit : s = s.take k ++ s[k] :: s.drop (k + 1) := by
    rw [← List.drop_eq_getElem_cons hk, List.take_append_drop]
  rw [List.set_eq_take_append_cons_drop, if_pos hk] at h
  conv at h => rhs; rw [hsplit]
  rw [crcFold_append, crcFold_append, crcFold_cons, crcFold_cons] at h
  rw [List.getElem?_eq_getElem hk, ← crcByteStep_injective hp (crcFold_injective hp _ h)] at hb
  exact hb rfl

/-- The frame of a command leaves no residue (R130). -/
theorem crc16_frame (cfg : Config) (command : Byte) (payload : Bytes) :
    crc16 cfg (lengthByte payload :: (command :: payload ++ be16 (frameCrc cfg command payload))) = 0#16 := by
  have hcovered := crc16_append_be16 cfg (lengthByte payload :: command :: payload) (frameCrc cfg command payload)
  have hcrc : crc16 cfg (lengthByte payload :: command :: payload) = frameCrc cfg command payload := rfl
  rw [hcrc, BitVec.xor_self, crcShifts_zero] at hcovered
  exact hcovered

/-- A body that leaves a residue fails its CRC check (R127, R130). -/
theorem decodeBody_of_residue {cfg : Config} (p : Nat) {len : Byte} {body : Bytes} (hmin : 3 ≤ len.toNat)
    (hlen : body.length = len.toNat) (hresidue : crc16 cfg (len :: body) ≠ 0#16) :
    decodeBody cfg p len body = .error .crc := by
  obtain ⟨command, payload, received, rfl, hpayload⟩ := exists_parts_of_body (hlen ▸ hmin)
  rw [decodeBody_parts cfg p received (by rw [← hlen, hpayload])]
  refine if_neg fun hmatch => hresidue ?_
  rw [← List.cons_append, crc16_append_be16, hmatch, BitVec.xor_self, crcShifts_zero]

/-- DECODE of bytes that begin with the magic. -/
theorem decodeFrame_magic_append {cfg : Config} (hm : cfg.magic.length = 4) (rest : Bytes) :
    decodeFrame cfg (cfg.magic ++ rest) = decodeAfterMagic cfg 0 rest := by
  rw [decodeFrame_of_magic (findMagic_append cfg.magic hm rest), Nat.zero_add, ← hm, List.drop_left]

section
variable {cfg : Config} {command b : Byte} {payload : Bytes} {k : Nat}

/-- A byte behind the magic changed: the hunt is as before. -/
theorem decodeFrame_set_after_magic (hm : cfg.magic.length = 4) (hk : 4 ≤ k) :
    decodeFrame cfg ((encodeFrame cfg command payload).set k b) = decodeAfterMagic cfg 0
      ((lengthByte payload :: (command :: payload ++ be16 (frameCrc cfg command payload))).set (k - 4) b) := by
  rw [encodeFrame_eq, List.set_append_right (h := by omega), decodeFrame_magic_append hm, hm]

theorem decodeFrame_set_body (hm : cfg.magic.length = 4) (hlen : payload.length ≤ 252)
    (hb : (encodeFrame cfg command payload)[k]? ≠ some b) (hlow : 5 ≤ k) (hhigh : k < payload.length + 8)
    (hp : cfg.poly.getLsbD 0 = true) :
    decodeFrame cfg ((encodeFrame cfg command payload).set k b) = .error .crc := by
  have hbyte := lengthByte_toNat hlen
  have hresidue := crc16_frame cfg command payload
  obtain ⟨j, rfl⟩ := Nat.exists_eq_add_of_le' hlow
  rw [decodeFrame_set_after_magic hm (by omega), show j + 5 - 4 = j + 1 from rfl, List.set_cons_succ]
  have hsame : (encodeFrame cfg command payload)[j + 5]? =
      (command :: payload ++ be16 (frameCrc cfg command payload))[j]? := by
    rw [encodeFrame_eq, List.getElem?_append_right (by omega), hm]
    rfl
  rw [hsame] at hb
  have hbody : (command :: payload ++ be16 (frameCrc cfg command payload)).length = payload.length + 3 := by simp
  generalize command :: payload ++ be16 (frameCrc cfg command payload) = body at *
  have hset : (body.set j b).length = (lengthByte payload).toNat := by rw [List.length_set, hbody, hbyte]
  rw [decodeAfterMagic_of_complete cfg 0 (by omega) hset.ge, List.take_of_length_le hset.le]
  refine decodeBody_of_residue 0 (by omega) hset ?_
  rw [← hresidue]
  exact crcFold_set_ne hp _ (by omega) hb

theorem decodeFrame_set_length_short (hm : cfg.magic.length = 4) (hb : b.toNat < 3) :
    decodeFrame cfg ((encodeFrame cfg command payload).set 4 b) = .error .lengthInvalid := by
  rw [decodeFrame_set_after_magic hm (Nat.le_refl 4)]
  exact decodeAfterMagic_of_short cfg 0 hb _

theorem decodeFrame_set_length_long (hm : cfg.magic.length = 4) (hb : payload.length + 3 < b.toNat) :
    decodeFrame cfg ((encodeFrame cfg command payload).set 4 b) = .error .truncated := by
  rw [decodeFrame_set_after_magic hm (Nat.le_refl 4)]
  refine decodeAfterMagic_of_truncated cfg 0 (by omega) ?_
  rw [List.length_append, List.length_cons, be16_length]
  omega

end

end Sys2Proof.Machine

namespace Sys2Proof.Statements

open Sys2Proof Sys2Proof.Machine

/-- Settles O15, by the check that the changed byte comes to. -/
theorem corruptedFramesAreRejected : Obligations.CorruptedFramesAreRejected := by
  intro command b payload k s t r hm hlen hb hexec hret
  rw [exec_decode_ret hexec] at hret
  obtain rfl := RetVal.decoded.inj hret
  rw [frameOf_eq] at *
  refine ⟨fun hlow hhigh hp => decodeFrame_set_body hm hlen hb hlow hhigh hp, ?short, ?long, fun _ hnowhere => ?magic⟩
  case short =>
    rintro rfl hshort
    exact decodeFrame_set_length_short hm hshort
  case long =>
    rintro rfl hlong
    exact decodeFrame_set_length_long hm hlong
  case magic => exact decodeFrame_of_noMagic (findMagic_none.mpr fun i hi => hnowhere i hi.2)

end Sys2Proof.Statements

/-!
Tones without a table entry and tone indices without a frequency: O47 and O51 (45_channel_codec.md R267, R269;
20_memory.md R69).
-/

namespace Sys2Proof.Machine

theorem encodeRecordStrict_of_rx_unrepresentable {cfg : Config} {r : ChannelRecord}
    (hrx : toneRepresentable cfg r.rxTone = false) :
    encodeRecordStrict cfg r = .unrepresentable .rxTone r.rxTone := by
  rw [encodeRecordStrict, hrx, Bool.not_false, if_pos rfl]

theorem encodeRecordStrict_of_tx_unrepresentable {cfg : Config} {r : ChannelRecord}
    (hrx : toneRepresentable cfg r.rxTone = true) (htx : toneRepresentable cfg r.txTone = false) :
    encodeRecordStrict cfg r = .unrepresentable .txTone r.txTone := by
  rw [encodeRecordStrict, hrx, htx, Bool.not_true, Bool.not_false, if_neg Bool.false_ne_true, if_pos rfl]

/-- A tone is encoded as 0 or as an index that a table may assign (R269, R7). -/
theorem toneByte_assignable {cfg : Config} (h : cfg.wf = true) (x : Tone) :
    (toneByte cfg x).toNat ≤ 55 ∧ (toneByte cfg x).toNat ∉ reservedTones := by
  rcases toneByte_cases h x with ⟨hzero, -⟩ | ⟨i, f, -, hmem, hbyte, -⟩
  · rw [hzero]
    decide
  · obtain ⟨-, -, hassignable, -⟩ := wf_tones h
    obtain ⟨-, hle, hfree⟩ := hassignable _ hmem
    rw [hbyte]
    exact ⟨hle, hfree⟩

/-- A reserved index and one above 55 are in no table (R7, R69). -/
theorem indexToFrequency_of_unassignable {cfg : Config} (h : cfg.wf = true) {i : Nat}
    (hi : i ∈ reservedTones ∨ 55 < i) : indexToFrequency cfg i = none := by
  obtain ⟨-, -, hassignable, -⟩ := wf_tones h
  refine assoc_eq_none.mpr fun e he heq => ?_
  obtain ⟨-, hle, hfree⟩ := hassignable e he
  rw [heq] at hle hfree
  exact hi.elim hfree (Nat.not_lt.mpr hle)

theorem indexToFrequency_zero {cfg : Config} (h : cfg.wf = true) : indexToFrequency cfg 0 = none := by
  obtain ⟨-, -, hassignable, -⟩ := wf_tones h
  refine assoc_eq_none.mpr fun e he heq => ?_
  obtain ⟨hpos, -⟩ := hassignable e he
  omega

end Sys2Proof.Machine

namespace Sys2Proof.Statements

open Sys2Proof Sys2Proof.Machine

theorem toneRepresentable_eq_false_iff {cfg : Config} (h : cfg.wf = true) {x : Tone} :
    toneRepresentable cfg x = false ↔ NoEntry cfg x := by
  cases x with
  | noTone => simp [toneRepresentable, NoEntry]
  | freq f =>
    rw [toneRepresentable, Option.isSome_eq_false_iff, Option.isNone_iff_eq_none, frequencyToIndex_eq_none h]
    simp [NoEntry]
  | unknown i => simp [toneRepresentable, NoEntry]

theorem toneRepresentable_of_not_noEntry {cfg : Config} (h : cfg.wf = true) {x : Tone} (hx : ¬ NoEntry cfg x) :
    toneRepresentable cfg x = true := by
  rwa [← toneRepresentable_eq_false_iff h, Bool.not_eq_false] at hx

/-- Settles O47, by whether each tone has an entry; the tone bytes stand at offsets 12 and 13. -/
theorem strictEncoderReportsTones : Obligations.StrictEncoderReportsTones := by
  intro r s hwf
  refine ⟨_, _, exec_encodeChannel r s, exec_encodeChannelStrict r s, fun hrx => ?rx, fun hrx htx => ?tx,
    fun hrx htx => ?both, fun k b hk hbyte => ?bytes⟩
  case rx => exact encodeRecordStrict_of_rx_unrepresentable ((toneRepresentable_eq_false_iff hwf).mpr hrx)
  case tx =>
    exact encodeRecordStrict_of_tx_unrepresentable (toneRepresentable_of_not_noEntry hwf hrx)
      ((toneRepresentable_eq_false_iff hwf).mpr htx)
  case both =>
    exact encodeRecordStrict_of_representable (toneRepresentable_of_not_noEntry hwf hrx)
      (toneRepresentable_of_not_noEntry hwf htx)
  case bytes =>
    rw [encodeRecord_eq_cons] at hbyte
    rcases hk with rfl | rfl <;> cases hbyte
    · exact toneByte_assignable hwf r.rxTone
    · exact toneByte_assignable hwf r.txTone

/-- What a byte in a tone field decodes to, and its frequency (R267, R69). -/
theorem toneOf_says_with_frequency {cfg : Config} (h : cfg.wf = true) (b : Byte) :
    (b.toNat ∈ reservedTones ∨ 55 < b.toNat → toneOf cfg b = .unknown b ∧ indexToFrequency cfg b.toNat = none) ∧
    (b = 0#8 → toneOf cfg b = .noTone ∧ indexToFrequency cfg 0 = none) ∧
    ∀ f, (b.toNat, f) ∈ cfg.tones → toneOf cfg b = .freq f ∧ indexToFrequency cfg b.toNat = some f := by
  obtain ⟨hzero, hassigned, hunassigned⟩ := toneOf_says h b
  refine ⟨fun hi => ?_, fun hb => ⟨hzero hb, indexToFrequency_zero h⟩,
    fun f hmem => ⟨hassigned f hmem, (indexToFrequency_eq_some h).mpr hmem⟩⟩
  have hnone := indexToFrequency_of_unassignable h hi
  refine ⟨hunassigned ?_ (assoc_eq_none.mp hnone), hnone⟩
  rintro rfl
  exact absurd hi (by decide)

/-- Settles O51: either tone field is decoded by `toneOf`. -/
theorem reservedTonesAreUnknown : Obligations.ReservedTonesAreUnknown := by
  intro bytes b k s hwf hlen hk hbyte
  have hread : byteAt bytes k = b := by rw [byteAt, List.getD_eq_getElem?_getD, hbyte, Option.getD_some]
  obtain ⟨hunknown, hzero, hassigned⟩ := toneOf_says_with_frequency hwf b
  refine ⟨decodeRecord s.cfg bytes, toneOf s.cfg b, exec_decodeChannel_of_length hlen, ?_, ?_, fun hi => ?_,
    fun hb => ?_, fun f hmem => ?_⟩
  · rintro rfl
    rw [← hread]
    rfl
  · rintro rfl
    rw [← hread]
    rfl
  · obtain ⟨htone, hnone⟩ := hunknown hi
    exact ⟨htone, hnone ▸ exec_indexToFreq b.toNat s⟩
  · obtain ⟨htone, hnone⟩ := hzero hb
    exact ⟨htone, hnone ▸ exec_indexToFreq 0 s⟩
  · obtain ⟨htone, hsome⟩ := hassigned f hmem
    exact ⟨htone, hsome ▸ exec_indexToFreq b.toNat s⟩

end Sys2Proof.Statements

/-!
WRITE_CHANNEL of a Digital record without the override, and O28 (46_host_operations.md R293, 43_dispatcher.md R194,
R195).
-/

namespace Sys2Proof.Machine

/-- The first two bytes of an encoded record are its index (R99). -/
theorem u16At_encodeRecord (cfg : Config) (r : ChannelRecord) : u16At (encodeRecord cfg r) 0 = r.index :=
  congrArg ChannelRecord.index (decodeRecord_encodeRecord cfg r)

theorem writeIndex_encodeRecord (cfg : Config) (r : ChannelRecord) :
    writeIndex cfg cfg.opChWrite (encodeRecord cfg r) = some r.index := by
  have hlen : 2 ≤ (encodeRecord cfg r).length := by
    rw [encodeRecord_length, Config.recordLen]
    omega
  rw [writeIndex, if_pos ⟨rfl, hlen⟩, u16At_encodeRecord]

end Sys2Proof.Machine

namespace Sys2Proof.Statements

open Sys2Proof Sys2Proof.Machine

/-- The encoding of a Digital record with a timeslot is Blocked (R194): a bit of its timeslot field is 1 (R275). -/
theorem riskOf_encodeRecord_of_digital {cfg : Config} (h : cfg.wf = true) {row : Row} (hrow : row.request = .record)
    {r : ChannelRecord} {g i : Word32} {rc tc ts : Byte} (hkind : r.kind = .digital g i rc tc ts) (hts : ts ≠ 0#8) :
    riskOf cfg row cfg.opChWrite (encodeRecord cfg r) = .blocked := by
  obtain ⟨-, -, -, -, -, hzero, -⟩ := digitalTail_holds (wf_tail h) g i rc tc ts
  refine if_pos ⟨hrow, rfl, encodeRecord_length cfg r, ?_⟩
  rw [encodeRecord_drop_tail, hkind, any_bitOf_iff, ne_eq, ← forall_bitOf_eq_false_iff, ← hzero]
  exact hts

/-- A channel write that the gate ends with an error raises it with the index, and leaves the state (R198, R290). -/
theorem writeOne_of_gate_error {p : PortId} {r : ChannelRecord} {allow : Bool} {s : State} {e : TypedError}
    (timeout : Nat)
    (hg : gate s.cfg (s.link p) s.now p s.cfg.opChWrite (encodeRecord s.cfg r) allow = .error e) :
    writeOne p timeout allow r s = .error
      (sendReport s.cfg s.cfg.opChWrite (encodeRecord s.cfg r) (some r.index) e) s := by
  simp only [writeOne, sendRequest, hg]

/-- Settles O28: the effective class is Blocked, and the gate ends the request. -/
theorem blockedDigitalWriteSendsNothing : Obligations.BlockedDigitalWriteSendsNothing := by
  intro p r t s row g i rc tc ts hwf hidle hlive hrow hrecord hindex hkind hts
  have hrisk := riskOf_encodeRecord_of_digital hwf hrecord hkind hts
  have hgate := gate_of_row s.now p (encodeRecord s.cfg r) false hidle hlive hrow
  simp only [hrisk, Bool.not_false, if_true, writeIndex_encodeRecord] at hgate
  rw [exec_writeChannel_of_error hindex (writeOne_of_gate_error t hgate), sendReport, reportedRisk_eq,
    classOf_of_row hrow, hrisk]
  rfl

end Sys2Proof.Statements

/-!
WRITE_ALL item by item, as READ_ALL, and O43 (46_host_operations.md R298, R299).
-/

namespace Sys2Proof.Machine

section
variable {p : PortId} {timeout : Nat} {s t : State}

theorem writeItems_of_cancel (r : ChannelRecord) (rest : List ChannelRecord)
    (hstop : s.env.cancels.head? = some true) :
    writeItems p timeout (r :: rest) s = .done [] s.drawCancel.2 := by
  rw [writeItems, drawCancel_fst, decide_eq_true hstop, if_pos rfl]

/-- A WRITE_ALL that completed with `slots` ran its loop to the end. -/
theorem writeItems_of_exec {records : List ChannelRecord} {slots : List WriteSlot}
    (h : exec (.writeAll p timeout records) s = .next t) (hret : t.ret = .writeAll slots) :
    ∃ u, writeItems p timeout records s = .done slots u ∧ t = returnValue (.writeAll slots) u := by
  change execWriteAll p timeout records s = .next t at h
  unfold execWriteAll at h
  split at h
  · cases h
  · split at h
    · cases h
    · cases hitems : writeItems p timeout records s <;> rw [hitems] at h <;> cases h
      cases hret
      exact ⟨_, rfl, rfl⟩

/-- WRITE_CHANNEL without the override returns the slot that its item fills in a batch. -/
theorem writeOne_filled_of_exec {r : ChannelRecord} {slot : WriteSlot}
    (h : exec (.writeChannel p r timeout false) s = .next t) (hslot : Statements.writeSlotOf t.ret = some slot) :
    ∃ u, (writeOne p timeout false r s).filled = some (slot, u) ∧ t = returnValue t.ret u := by
  rcases Nat.lt_or_ge s.cfg.maxChannel r.index.toNat with habove | hindex
  · rw [exec_writeChannel_of_index_too_large timeout false habove] at h
    cases h
  · cases hone : writeOne p timeout false r s with
    | ok u =>
      rw [exec_writeChannel_of_ok hindex hone] at h
      cases h
      cases hslot
      exact ⟨u, rfl, rfl⟩
    | error report u =>
      rw [exec_writeChannel_of_error hindex hone] at h
      cases h
      cases hslot
      exact ⟨u, rfl, rfl⟩
    | refused reason =>
      simp only [exec, execWriteChannel, hone] at h
      split at h <;> cases h

theorem writeItems_done_of_returnValue {v : RetVal} {records : List ChannelRecord} {slots : List WriteSlot}
    (h : writeItems p timeout records (returnValue v s) = .done slots t) :
    ∃ u, writeItems p timeout records s = .done slots u ∧ t = returnValue v u := by
  rw [writeItems_ret] at h
  cases hitems : writeItems p timeout records s <;> rw [hitems] at h <;> cases h
  exact ⟨_, rfl, rfl⟩

end

end Sys2Proof.Machine

namespace Sys2Proof.Statements

open Sys2Proof Sys2Proof.Machine

/-- Settles O43: WRITE_CHANNEL of the first record fills its slot in the loop, and the loop of the rest goes on from
there. -/
theorem writeAllVisitsItemsInOrder : Obligations.WriteAllVisitsItemsInOrder := by
  intro p timeout s hidle
  refine ⟨exec_writeAll_of_done hidle (fun _ hr => absurd hr List.not_mem_nil) rfl, ?_⟩
  intro r rest hindices sampled
  have hsampled : s.drawCancel.2 = sampled := drawCancel_snd s
  rw [← hsampled]
  refine ⟨fun hstop => ?cancelled, fun hgo t u slot slots hwrite hslot hrest hslots => ?attempted⟩
  case cancelled => exact exec_writeAll_of_done hidle hindices (writeItems_of_cancel r rest hstop)
  case attempted =>
    obtain ⟨t', hone, ht⟩ := writeOne_filled_of_exec hwrite hslot
    obtain ⟨u', hitems, rfl⟩ := writeItems_of_exec hrest hslots
    rw [ht] at hitems
    obtain ⟨u'', hitems', rfl⟩ := writeItems_done_of_returnValue hitems
    refine exec_writeAll_of_done (t := u'') hidle hindices ?_
    rw [writeItems_cons rest hgo hone, hitems', BulkResult.cons]

end Sys2Proof.Statements

/-!
A batch cancelled before its item `k`, and O45 (46_host_operations.md R299): SEND samples no cancel request, so the
requests still to come are those that the items before did not sample.
-/

namespace Sys2Proof.Statements

open Sys2Proof Sys2Proof.Machine

/-- Under the row's shapes a channel read fills its slot, whatever cancel requests are to come, and samples none. -/
theorem readOne_fills_keeping_cancels {p : PortId} {s : State} (timeout : Nat) (index : Word16)
    (hshapes : ReadRowShapes s.cfg) (hidle : (s.link p).busy = false) :
    ∃ slot t, (readOne p timeout index s).filled = some (slot, t) ∧ t.cfg = s.cfg ∧ (t.link p).busy = false ∧
      t.env.cancels = s.env.cancels := by
  obtain ⟨row, hrow, hrequest, hresponse⟩ := hshapes
  have hfits : Fits s.cfg row.request (be16 index) := by
    rw [hrequest]
    rfl
  unfold readOne
  cases hsend : sendRequest p s.cfg.opChRead (be16 index) timeout false s with
  | packet q t =>
    have leaves := sendRequest_packet hsend
    obtain ⟨-, row', hrow', hreply⟩ := replyFits_iff.mp (sendRequest_packet_fits hsend)
    obtain rfl := Option.some.inj (hrow.symm.trans hrow')
    have hlen : q.payload.length = s.cfg.recordLen := by rwa [hresponse] at hreply
    exact ⟨_, t, congrArg _ (if_pos hlen), leaves.evolves.cfg, leaves.idle, sendRequest_cancels (.inl ⟨q, hsend⟩)⟩
  | error e t =>
    have leaves := sendRequest_error hsend
    exact ⟨_, t, rfl, leaves.evolves.cfg, leaves.idle, sendRequest_cancels (.inr ⟨e, hsend⟩)⟩
  | refused r =>
    rcases sendRequest_spec p s.cfg.opChRead (be16 index) timeout false s with
      ⟨r', hgate, -⟩ | ⟨_, -, hsend', -⟩ | ⟨_, -, ⟨_, _, hsend', -⟩ | ⟨_, _, hsend', -⟩⟩
    · exact absurd hgate (gate_ne_refused s.now p false hidle hrow hfits (by decide : 2 ≤ 252) r')
    all_goals
      rw [hsend'] at hsend
      cases hsend

/-- `k` samples without a request let `k` items pass, and the next one stops the loop. -/
theorem readItems_cancelled {p : PortId} (timeout k : Nat) {indices : List Word16} {more : List Bool} {s : State}
    (hshapes : ReadRowShapes s.cfg) (hidle : (s.link p).busy = false) (hk : k < indices.length)
    (hcancels : s.env.cancels = List.replicate k false ++ true :: more) :
    ∃ slots t, readItems p timeout indices s = .done slots t ∧ slots.length = k ∧ t.env.cancels = more := by
  have htail : s.drawCancel.2.env.cancels = s.env.cancels.tail := by rw [drawCancel_snd]
  rw [hcancels] at htail
  induction indices generalizing k s with
  | nil => cases hk
  | cons index rest ih =>
    cases k with
    | zero => exact ⟨[], _, readItems_of_cancel index rest (by rw [hcancels]; rfl), rfl, htail⟩
    | succ k =>
      obtain ⟨slot, t, hone, hcfg, hidle', hkept⟩ :=
        readOne_fills_keeping_cancels (s := s.drawCancel.2) timeout index hshapes hidle
      have hcancels' : t.env.cancels = List.replicate k false ++ true :: more := hkept.trans htail
      obtain ⟨slots, u, hrest, hlen, hmore⟩ := ih k (s := t) (hcfg ▸ hshapes) hidle' (Nat.lt_of_succ_lt_succ hk)
        hcancels' (by rw [drawCancel_snd, ← hcancels'])
      have hgo : s.env.cancels.head? ≠ some true := by
        rw [hcancels]
        nofun
      refine ⟨slot :: slots, u, ?_, congrArg Nat.succ hlen, hmore⟩
      rw [readItems_cons rest hgo hone, hrest, BulkResult.cons]

/-- Settles O45: the loop stops at the first request, and nothing else samples. -/
theorem cancelStopsBetweenItems : Obligations.CancelStopsBetweenItems := by
  intro p timeout k indices more s hidle hshapes hindices hk hcancels
  obtain ⟨slots, t, hitems, hlen, hmore⟩ := readItems_cancelled timeout k hshapes hidle hk hcancels
  exact ⟨_, slots, exec_readAll_of_done hidle hindices hitems, rfl, hlen, hmore⟩

end Sys2Proof.Statements

/-!
An absent Session, and O25 (42_transport.md R178, 43_dispatcher.md R192): the gate ends every request, and so do the
transport operations.
-/

namespace Sys2Proof.Machine

section
variable {p : PortId} {s : State}

theorem sendRequest_of_absent (command : Byte) (payload : Bytes) (timeout : Nat) (allow : Bool)
    (hidle : (s.link p).busy = false) (habsent : (s.link p).isConnected = false) :
    sendRequest p command payload timeout allow s = .error (.connection p .notConnected) s := by
  rw [sendRequest, gate_of_absent s.now command payload allow hidle habsent]

/-- A report of `NotConnected` on port `p`, whatever else it names. -/
def SaysNotConnected (p : PortId) (report : ErrorReport) : Prop := report.error = .connection p .notConnected

/-- The operation ended with `NotConnected` and changed nothing but the value returned. -/
def EndsNotConnected (p : PortId) (s : State) (o : Host.Outcome State Fault Refusal) : Prop :=
  ∃ report, SaysNotConnected p report ∧ o = .next (returnValue (.error report) s)

/-- On an idle port taking an error writes the value returned only. -/
theorem endsNotConnected_raiseError {report : ErrorReport} (hidle : (s.link p).busy = false)
    (h : SaysNotConnected p report) : EndsNotConnected p s (.next (raiseError p report s)) :=
  ⟨report, h, by rw [raiseError_of_idle hidle, returnValue]⟩

theorem wireCommand_of_absent (op : Byte) (timeout : Nat) (payload : Bytes) (channel : Option Word16)
    (hidle : (s.link p).busy = false) (habsent : (s.link p).isConnected = false) :
    EndsNotConnected p s (wireCommand op p timeout payload channel s) := by
  rw [wireCommand, sendRequest_of_absent op payload timeout false hidle habsent]
  exact endsNotConnected_raiseError hidle rfl

theorem execSend_of_absent (command : Byte) (payload : Bytes) (timeout : Nat) (allow : Bool)
    (hidle : (s.link p).busy = false) (habsent : (s.link p).isConnected = false) :
    EndsNotConnected p s (execSend p command payload timeout allow s) := by
  rw [execSend, sendRequest_of_absent command payload timeout allow hidle habsent]
  exact endsNotConnected_raiseError hidle rfl

theorem readOne_of_absent (timeout : Nat) (index : Word16) (hidle : (s.link p).busy = false)
    (habsent : (s.link p).isConnected = false) :
    ∃ report, SaysNotConnected p report ∧ readOne p timeout index s = .error report s := by
  refine ⟨sendReport s.cfg s.cfg.opChRead (be16 index) (some index) (.connection p .notConnected), rfl, ?_⟩
  rw [readOne, sendRequest_of_absent _ _ timeout false hidle habsent]

theorem writeOne_of_absent (timeout : Nat) (allow : Bool) (r : ChannelRecord) (hidle : (s.link p).busy = false)
    (habsent : (s.link p).isConnected = false) :
    ∃ report, SaysNotConnected p report ∧ writeOne p timeout allow r s = .error report s := by
  refine ⟨sendReport s.cfg s.cfg.opChWrite (encodeRecord s.cfg r) (some r.index) (.connection p .notConnected),
    rfl, ?_⟩
  rw [writeOne, sendRequest_of_absent _ _ timeout allow hidle habsent]

theorem exec_readChannel_of_absent {index : Word16} (timeout : Nat) (hindex : index.toNat ≤ s.cfg.maxChannel)
    (hidle : (s.link p).busy = false) (habsent : (s.link p).isConnected = false) :
    EndsNotConnected p s (exec (.readChannel p index timeout) s) := by
  obtain ⟨report, hreport, hone⟩ := readOne_of_absent timeout index hidle habsent
  simp only [exec, execReadChannel, indexTooLarge_iff, Nat.not_lt.mpr hindex, if_false, hone]
  exact endsNotConnected_raiseError hidle hreport

theorem exec_writeChannel_of_absent {r : ChannelRecord} (timeout : Nat) (allow : Bool)
    (hindex : r.index.toNat ≤ s.cfg.maxChannel) (hidle : (s.link p).busy = false)
    (habsent : (s.link p).isConnected = false) :
    EndsNotConnected p s (exec (.writeChannel p r timeout allow) s) := by
  obtain ⟨report, hreport, hone⟩ := writeOne_of_absent timeout allow r hidle habsent
  exact ⟨report, hreport, exec_writeChannel_of_error hindex hone⟩

/-- The operations that look at the Session themselves (log 20). -/
theorem exec_of_absent_transport {i : Instr} (hidle : (s.link p).busy = false)
    (habsent : (s.link p).isConnected = false)
    (hi : i = .resetInput p ∨ (∃ bytes, i = .txPut p bytes) ∨ i = .rxTake p ∨ ∃ b, i = .setAllowUnstable p b) :
    EndsNotConnected p s (exec i s) := by
  have hraise : exec i s = .next (raiseError p (connectionReport p .notConnected) s) := by
    rcases hi with rfl | ⟨bytes, rfl⟩ | rfl | ⟨b, rfl⟩ <;>
      simp only [exec, execResetInput, execTxPut, execRxTake, execSetAllowUnstable, hidle, habsent, Bool.not_false,
        Bool.false_eq_true, if_false, if_true]
  rw [hraise]
  exact endsNotConnected_raiseError hidle rfl

/-! ## The batches -/

/-- A loop that stops at a cancel request, or else fills the item's slot badly and changes nothing more, fills every
slot badly and changes no record. -/
theorem exists_bad_slots_of_step {α β : Type} {loop : List α → State → BulkResult β} {Bad : β → Prop}
    (hnil : ∀ s, loop [] s = .done [] s)
    (hstep : ∀ a (s : State), (s.link p).busy = false → (s.link p).isConnected = false →
      (∀ rest, loop (a :: rest) s = .done [] s.drawCancel.2) ∨
      ∃ slot, Bad slot ∧ ∀ rest, loop (a :: rest) s = (loop rest s.drawCancel.2).cons slot)
    (items : List α) (hidle : (s.link p).busy = false) (habsent : (s.link p).isConnected = false) :
    ∃ slots t, loop items s = .done slots t ∧ t.links = s.links ∧ ∀ x ∈ slots, Bad x := by
  induction items generalizing s with
  | nil => exact ⟨[], s, hnil s, rfl, nofun⟩
  | cons a rest ih =>
    rcases hstep a s hidle habsent with hstop | ⟨slot, hbad, hcons⟩
    · exact ⟨[], _, hstop rest, rfl, nofun⟩
    · obtain ⟨slots, t, hrest, hlinks, hslots⟩ := ih (s := s.drawCancel.2) hidle habsent
      refine ⟨slot :: slots, t, ?_, hlinks, List.forall_mem_cons.mpr ⟨hbad, hslots⟩⟩
      rw [hcons, hrest, BulkResult.cons]

theorem readItems_of_absent (timeout : Nat) (indices : List Word16) (hidle : (s.link p).busy = false)
    (habsent : (s.link p).isConnected = false) :
    ∃ slots t, readItems p timeout indices s = .done slots t ∧ t.links = s.links ∧
      ∀ x ∈ slots, ∃ report, x = .err report ∧ report.error = .connection p .notConnected := by
  refine exists_bad_slots_of_step (loop := readItems p timeout) (fun _ => rfl) (fun index u hidle' habsent' => ?_)
    indices hidle habsent
  by_cases hstop : u.env.cancels.head? = some true
  · exact .inl fun rest => readItems_of_cancel index rest hstop
  · obtain ⟨report, hreport, hone⟩ := readOne_of_absent (s := u.drawCancel.2) timeout index hidle' habsent'
    exact .inr ⟨.err report, ⟨report, rfl, hreport⟩, fun rest => readItems_cons rest hstop (by rw [hone]; rfl)⟩

theorem writeItems_of_absent (timeout : Nat) (records : List ChannelRecord) (hidle : (s.link p).busy = false)
    (habsent : (s.link p).isConnected = false) :
    ∃ slots t, writeItems p timeout records s = .done slots t ∧ t.links = s.links ∧
      ∀ x ∈ slots, ∃ report, x = .err report ∧ report.error = .connection p .notConnected := by
  refine exists_bad_slots_of_step (loop := writeItems p timeout) (fun _ => rfl) (fun r u hidle' habsent' => ?_)
    records hidle habsent
  by_cases hstop : u.env.cancels.head? = some true
  · exact .inl fun rest => writeItems_of_cancel r rest hstop
  · obtain ⟨report, hreport, hone⟩ := writeOne_of_absent (s := u.drawCancel.2) timeout false r hidle' habsent'
    exact .inr ⟨.err report, ⟨report, rfl, hreport⟩, fun rest => writeItems_cons rest hstop (by rw [hone]; rfl)⟩

end

end Sys2Proof.Machine

namespace Sys2Proof.Statements

open Sys2Proof Sys2Proof.Machine

/-- On an absent Session every operation that needs one ends with the error, but for the batches, which complete. -/
theorem exec_of_absent {i : Instr} {p : PortId} {s : State} (hport : sessionPort i = some p)
    (hindices : indicesOk s.cfg i) (hidle : (s.link p).busy = false) (habsent : (s.link p).isConnected = false) :
    EndsNotConnected p s (exec i s) ∨ (∃ timeout indices, i = .readAll p timeout indices) ∨
      ∃ timeout records, i = .writeAll p timeout records := by
  have wire {timeout : Nat} {op : Byte} {payload : Bytes}
      (h : wireRequest s.cfg i = some (p, timeout, op, payload)) : EndsNotConnected p s (exec i s) := by
    obtain ⟨channel, e⟩ := exec_of_wireRequest h
    rw [e]
    exact wireCommand_of_absent op timeout payload channel hidle habsent
  have query {timeout : Nat} {op : Byte} {payload : Bytes}
      (h : queryRequest s.cfg i = some (p, timeout, op, payload)) : EndsNotConnected p s (exec i s) := by
    rw [exec_of_queryRequest h]
    exact wireCommand_of_absent op timeout payload none hidle habsent
  have transport := exec_of_absent_transport (i := i) hidle habsent
  cases i <;> cases hport
  case ptt | modeSet | statusSync | equipId | powerSet | rxoffSet | meterSync | paramSync | spectrum | chWrite |
      chRead => exact .inl (wire rfl)
  case queryStatus | queryMeters | queryParams => exact .inl (query rfl)
  case resetInput => exact .inl (transport (.inl rfl))
  case txPut bytes => exact .inl (transport (.inr (.inl ⟨bytes, rfl⟩)))
  case rxTake => exact .inl (transport (.inr (.inr (.inl rfl))))
  case setAllowUnstable b => exact .inl (transport (.inr (.inr (.inr ⟨b, rfl⟩))))
  case send command payload timeout allow =>
    exact .inl (execSend_of_absent command payload timeout allow hidle habsent)
  case readChannel index timeout => exact .inl (exec_readChannel_of_absent timeout hindices hidle habsent)
  case writeChannel r timeout allow =>
    exact .inl (exec_writeChannel_of_absent timeout allow hindices hidle habsent)
  case readAll timeout indices => exact .inr (.inl ⟨timeout, indices, rfl⟩)
  case writeAll timeout records => exact .inr (.inr ⟨timeout, records, rfl⟩)

/-- Settles O25: a batch fills its slots with the error, every other operation ends with it. -/
theorem withoutASessionNothingIsSent : Obligations.WithoutASessionNothingIsSent := by
  intro i p s hport hindices hidle habsent
  rcases exec_of_absent hport hindices hidle habsent with
    ⟨report, hreport, hexec⟩ | ⟨timeout, indices, rfl⟩ | ⟨timeout, records, rfl⟩
  · exact ⟨_, hexec, fun _ => rfl, hreport⟩
  · obtain ⟨slots, t, hitems, hlinks, hslots⟩ := readItems_of_absent timeout indices hidle habsent
    exact ⟨_, exec_readAll_of_done hidle hindices hitems, fun q => link_of_links_eq hlinks q, hslots⟩
  · obtain ⟨slots, t, hitems, hlinks, hslots⟩ := writeItems_of_absent timeout records hidle habsent
    exact ⟨_, exec_writeAll_of_done hidle hindices hitems, fun q => link_of_links_eq hlinks q, hslots⟩

end Sys2Proof.Statements

/-!
How the retry loop ends: some attempts fail, each with its pause, and one more attempt decides (43_dispatcher.md R206 to
R208). O32 from it: the class of the last failure is that of the bytes it received (R203, R204).
-/

namespace Sys2Proof.Machine

/-- From `s` to `s'` exactly `k` attempts on port `p` failed, with the pause after each. -/
inductive Retried (p : PortId) : Nat → State → State → Prop
  | none (s : State) : Retried p 0 s s
  | again {k : Nat} {s s1 s' : State} (hfail : attempt p s = .failed s1) (rest : Retried p k (retryPause s1) s') :
      Retried p (k + 1) s s'

/-- The attempt that ended the retry loop, and how: answered, broken by the platform, or the last admitted one. -/
inductive Ended (p : PortId) (n k : Nat) (s' : State) : Reply → Prop
  | answered {q : Packet} {s1 : State} (h : attempt p s' = .decoded q s1) : Ended p n k s' (.packet q (goIdle p s1))
  | broken {s1 : State} (h : attempt p s' = .ioFailed s1) :
      Ended p n k s' (.error (.connection p .portUnavailable) s1)
  | exhausted {s1 : State} (h : attempt p s' = .failed s1) (hk : k = n) :
      Ended p n k s' (.error (protocolError (s1.link p)) (goIdle p s1))

theorem Ended.succ {p : PortId} {n k : Nat} {s' : State} {r : Reply} (h : Ended p n k s' r) :
    Ended p (n + 1) (k + 1) s' r := by
  cases h with
  | answered h => exact .answered h
  | broken h => exact .broken h
  | exhausted h hk => exact .exhausted h (congrArg _ hk)

/-- The retry loop is `k` failed attempts, at most `n`, and the one that ends it. -/
theorem tryAttempts_ended (p : PortId) (n : Nat) (s : State) :
    ∃ k s', k ≤ n ∧ Retried p k s s' ∧ Ended p n k s' (tryAttempts p n s) := by
  induction n generalizing s with
  | zero =>
    refine ⟨0, s, Nat.le_refl 0, .none s, ?_⟩
    unfold tryAttempts
    cases h : attempt p s with
    | decoded q s1 => exact .answered h
    | failed s1 => exact .exhausted h rfl
    | ioFailed s1 => exact .broken h
  | succ n ih =>
    unfold tryAttempts
    cases h : attempt p s with
    | decoded q s1 => exact ⟨0, s, Nat.zero_le _, .none s, .answered h⟩
    | failed s1 =>
      obtain ⟨k, s', hk, retried, ended⟩ := ih (retryPause s1)
      exact ⟨k + 1, s', Nat.succ_le_succ hk, .again h retried, ended.succ⟩
    | ioFailed s1 => exact ⟨0, s, Nat.zero_le _, .none s, .broken h⟩

theorem append_copies_append_frame (k : Nat) (x frame : Bytes) :
    x ++ copies k frame ++ frame = x ++ copies (k + 1) frame := by
  rw [copies, copies, List.replicate_succ', List.flatten_concat, List.append_assoc]

/-- A failed attempt is an attempt that ran to its end. -/
theorem attempted_of_failed {p : PortId} {s s1 : State} (h : attempt p s = .failed s1) : Attempted p s s1 := by
  rcases attempt_spec p s with ⟨_, _, ha, -⟩ | ⟨_, ha, attempted, -⟩ | ⟨_, ha, -⟩ <;> rw [h] at ha <;> cases ha
  exact attempted

/-- What `k` failed attempts add and keep. -/
structure RetriedLink (p : PortId) (k : Nat) (s s' : State) : Prop where
  cfg      : s'.cfg = s.cfg
  attempt  : (s'.link p).attempt = (s.link p).attempt + k
  tx       : (s'.link p).tx = (s.link p).tx ++ copies k (s.link p).curFrame
  curFrame : (s'.link p).curFrame = (s.link p).curFrame
  curCmd   : (s'.link p).curCmd = (s.link p).curCmd

theorem Retried.link {p : PortId} {k : Nat} {s s' : State} (h : Retried p k s s') : RetriedLink p k s s' := by
  induction h with
  | none s => exact ⟨rfl, rfl, by simp [copies], rfl, rfl⟩
  | @again k s s1 s' hfail _ ih =>
    obtain ⟨evolves, htx, hattempt, -, -, hframe, hcmd, -, -⟩ := attempted_of_failed hfail
    obtain ⟨rx, raw, hpause⟩ := sameButInput_retryPause p s1
    obtain ⟨icfg, iattempt, itx, iframe, icmd⟩ := ih
    rw [hpause] at iattempt itx iframe icmd
    refine ⟨icfg.trans ((evolves_retryPause p s1).cfg.trans evolves.cfg), ?_, ?_, iframe.trans hframe,
      icmd.trans hcmd⟩
    · rw [iattempt, hattempt, Nat.add_assoc, Nat.add_comm 1 k]
    · rw [itx, htx, hframe, copies_succ, List.append_assoc]

theorem link_goIdle_same (p : PortId) (s : State) :
    (goIdle p s).link p = { s.link p with disp := .idle, attempt := 0 } := by
  unfold goIdle
  cases hbusy : (s.link p).busy
  · obtain ⟨hdisp, hattempt⟩ := busy_eq_false_iff.mp hbusy
    rw [if_neg Bool.false_ne_true, ← hdisp, ← hattempt]
  · rw [if_pos rfl, link_setLink_same]

/-- SEND that returns an error is a request that ended with it. -/
theorem sendRequest_of_exec_error {p : PortId} {command : Byte} {payload : Bytes} {timeout : Nat} {allow : Bool}
    {s t : State} {report : ErrorReport} (h : exec (.send p command payload timeout allow) s = .next t)
    (hret : t.ret = .error report) : ∃ e s', sendRequest p command payload timeout allow s = .error e s' ∧
      report = sendReport s.cfg command payload none e ∧ t = returnValue (.error report) s' := by
  rw [exec_send, execSend] at h
  cases hsend : sendRequest p command payload timeout allow s <;> rw [hsend] at h <;> cases h
  case packet => cases hret
  case error e s' =>
    cases hret
    exact ⟨e, s', rfl, rfl, raiseError_of_idle (sendRequest_error hsend).idle _⟩

/-- No error of the gate is a `ProtocolError`: nothing was sent. -/
theorem gate_error_ne_protocol {cfg : Config} {l : Link} {now : Nat} {p : PortId} {command : Byte} {payload : Bytes}
    {allow : Bool} {e : TypedError} (h : gate cfg l now p command payload allow = .error e) (opcode : Byte)
    (cls : FailClass) (attempts : Nat) (raw : Bytes) : e ≠ .protocol opcode cls attempts raw := by
  rintro rfl
  unfold gate at h
  split at h
  · cases h
  split at h
  · cases h
  split at h
  · cases h
  split at h
  · split at h
    · cases h
    · exact gateShape_not_error h
  · unfold gateUnstable at h
    split at h
    · cases h
    split at h
    · exact gateShape_not_error h
    split at h
    · cases h
    · exact gateShape_not_error h
  · exact gateShape_not_error h

end Sys2Proof.Machine

namespace Sys2Proof.Statements

open Sys2Proof Sys2Proof.Machine

/-- The class that a failed attempt records is that of the bytes it received (R203, R204). -/
theorem classify_failedBy {p : PortId} {s s' : State} (received : Received p s) (h : classify p s = .failed s') :
    ∃ d cls, s' = failAttempt p d cls s ∧ FailedBy s.cfg (s.link p).curCmd (s.link p).lastRaw cls := by
  have hsays := decodeSays_decodeFrame s.cfg (s.link p).lastRaw
  rw [← received.outcome] at hsays
  unfold classify at h
  cases houtcome : s.dec.outcome with
  | error cls =>
    rw [houtcome] at h hsays
    by_cases hraw : (s.link p).lastRaw = []
    · simp only [hraw, if_true] at h
      cases h
      exact ⟨_, .timeout, rfl, hraw⟩
    · simp only [hraw, if_false] at h
      cases h
      refine ⟨_, _, rfl, ?_⟩
      cases cls
      case magic => exact ⟨hraw, hsays⟩
      case truncated => exact ⟨hraw, hsays⟩
      case lengthInvalid => exact hsays
      case crc => exact hsays
  | packet q n =>
    rw [received.consumed q n houtcome] at houtcome
    rw [houtcome] at h hsays
    by_cases hfits : replyFits s.cfg (s.link p).curCmd q = true
    · simp only [hfits, if_true] at h
      cases h
    · simp only [hfits, Bool.false_eq_true, if_false] at h
      cases h
      refine ⟨_, .shape, rfl, q, hsays, ?_⟩
      rw [replyFits_iff, not_and_or] at hfits
      exact hfits.imp_right fun hno row hrow hresponse => hno ⟨row, hrow, hresponse⟩

theorem attempt_failedBy {p : PortId} {s s1 : State} (hm : s.cfg.magic.length = 4) (h : attempt p s = .failed s1) :
    ∃ cls, (s1.link p).lastFail = some cls ∧ FailedBy s.cfg (s.link p).curCmd (s1.link p).lastRaw cls := by
  rcases attempt_cases hm p with ⟨_, hbroken⟩ | ⟨s3, hclass, received, hcfg, hcmd⟩
  · rw [h] at hbroken
    cases hbroken
  · rw [h] at hclass
    obtain ⟨d, cls, rfl, hfailed⟩ := classify_failedBy received hclass.symm
    rw [hcfg, hcmd] at hfailed
    rw [link_failAttempt_same]
    exact ⟨cls, rfl, hfailed⟩

theorem attempt_lastFail {p : PortId} {s s1 : State} (h : attempt p s = .failed s1) :
    ∃ cls, (s1.link p).lastFail = some cls := by
  rcases attempt_spec p s with ⟨_, _, ha, -⟩ | ⟨_, ha, -, hfail⟩ | ⟨_, ha, -⟩ <;> rw [h] at ha <;> cases ha
  exact Option.isSome_iff_exists.mp hfail

/-- What a request that exhausted its attempts leaves of the last one, which failed with class `cls` (R207). -/
structure GaveUp (p : PortId) (command : Byte) (payload : Bytes) (s s' : State) (cls : FailClass) : Prop where
  lastFail : (s'.link p).lastFail = some cls
  idle     : (s'.link p).busy = false
  tx       : (s'.link p).tx = (s.link p).tx ++ copies (1 + s.cfg.maxRetries) (encodeFrame s.cfg command payload)
  failed   : s.cfg.magic.length = 4 → FailedBy s.cfg command (s'.link p).lastRaw cls

/-- A request that ends with a `ProtocolError` has exhausted its attempts. -/
theorem sendRequest_protocol {p : PortId} {command : Byte} {payload : Bytes} {timeout : Nat} {allow : Bool}
    {s s' : State} {opcode : Byte} {cls : FailClass} {attempts : Nat} {raw : Bytes}
    (h : sendRequest p command payload timeout allow s = .error (.protocol opcode cls attempts raw) s') :
    opcode = command ∧ attempts = 1 + s.cfg.maxRetries ∧ raw = (s'.link p).lastRaw ∧
      GaveUp p command payload s s' cls := by
  unfold sendRequest at h
  cases hgate : gate s.cfg (s.link p) s.now p command payload allow with simp only [hgate] at h
  | refused r => cases h
  | error e =>
    cases h
    exact (gate_error_ne_protocol hgate opcode cls attempts raw rfl).elim
  | pass r =>
    obtain ⟨k, s0, -, retried, ended⟩ := tryAttempts_ended p s.cfg.maxRetries
      (latch p command payload timeout (stampPolicy p command r s))
    generalize hreply : tryAttempts p s.cfg.maxRetries (latch p command payload timeout (stampPolicy p command r s)) =
      reply at ended
    rw [h] at hreply
    cases ended with
    | answered => cases hreply
    | broken => cases hreply
    | @exhausted s1 hfail hk =>
      obtain ⟨herror, rfl⟩ := Reply.error.inj hreply
      obtain ⟨hcfg, hattempt, htx, hframe, hcmd⟩ := retried.link
      simp only [link_latch_same, latch_cfg, stampPolicy_cfg, (link_stampPolicy_fields p command r s).1, hk,
        Nat.zero_add] at hcfg hattempt htx hframe hcmd
      have attempted := attempted_of_failed hfail
      obtain ⟨last, hlast⟩ := attempt_lastFail hfail
      rw [protocolError, hlast, attempted.curCmd, hcmd, attempted.attempt, hattempt] at herror
      obtain ⟨rfl, rfl, rfl, rfl⟩ := TypedError.protocol.inj herror
      refine ⟨rfl, Nat.add_comm .., ?raw, ?lastFail, goIdle_busy p s1, ?tx, fun hm => ?failed⟩
      all_goals rw [link_goIdle_same]
      case lastFail => exact hlast
      case tx => rw [attempted.tx, htx, hframe, Nat.add_comm 1, append_copies_append_frame]
      case failed =>
        obtain ⟨_, hlast', hfailed⟩ := attempt_failedBy (hcfg ▸ hm) hfail
        obtain rfl := Option.some.inj (hlast.symm.trans hlast')
        rwa [hcfg, hcmd] at hfailed

/-- Settles O32: the error is that of the last admitted attempt, and every attempt sent one copy of the frame. -/
theorem exhaustionRaisesProtocolError : Obligations.ExhaustionRaisesProtocolError := by
  intro p command payload timeout allow s t report opcode cls attempts raw hexec hret herror
  obtain ⟨e, s', hsend, rfl, rfl⟩ := sendRequest_of_exec_error hexec hret
  obtain rfl : e = .protocol opcode cls attempts raw := herror
  obtain ⟨rfl, rfl, rfl, gaveUp⟩ := sendRequest_protocol hsend
  obtain ⟨hdisp, hattempt⟩ := busy_eq_false_iff.mp gaveUp.idle
  refine ⟨rfl, reportedRisk_eq .., rfl, rfl, gaveUp.lastFail, rfl, hattempt, hdisp, ?_, gaveUp.failed⟩
  rw [copiesOf_eq, frameOf_eq]
  exact gaveUp.tx

end Sys2Proof.Statements

/-!
The I/O draws of an attempt (42_transport.md R177): which of them fails decides where the attempt breaks off, and one
that nobody answers takes four. O34 from it (43_dispatcher.md R201 to R207).
-/

namespace Sys2Proof.Machine

/-! ## Draws -/

/-- None of the next `k` I/O steps fails. -/
def Undisturbed (k : Nat) (s : State) : Prop := true ∉ s.env.ioFails.take k

/-- The I/O step after the next `k` is the first that fails. -/
def FailsAt (k : Nat) (s : State) : Prop := Undisturbed k s ∧ (s.env.ioFails.drop k).head? = some true

/-- `s` after `k` I/O draws. -/
def afterDraws (k : Nat) (s : State) : State := { s with env := { s.env with ioFails := s.env.ioFails.drop k } }

@[simp] theorem link_afterDraws (k : Nat) (s : State) (q : PortId) : (afterDraws k s).link q = s.link q := rfl

theorem drawIo_snd_eq_afterDraws (s : State) : s.drawIo.2 = afterDraws 1 s := by
  rw [drawIo_snd, afterDraws, List.drop_one]

theorem afterDraws_afterDraws (j k : Nat) (s : State) : afterDraws j (afterDraws k s) = afterDraws (k + j) s := by
  simp only [afterDraws, List.drop_drop]

theorem Undisturbed.head_ne {k : Nat} {s : State} (h : Undisturbed (k + 1) s) :
    s.env.ioFails.head? ≠ some true := by
  unfold Undisturbed at h
  cases hio : s.env.ioFails with
  | nil => nofun
  | cons b rest =>
    rintro hb
    rw [hio, Option.some.inj hb, List.take_succ_cons] at h
    exact h List.mem_cons_self

theorem Undisturbed.mono {j k : Nat} {s : State} (h : Undisturbed k s) (hle : j ≤ k) : Undisturbed j s :=
  fun hmem => h ((List.take_prefix_take_left hle).mem hmem)

theorem Undisturbed.drop {j k : Nat} {s t : State} (h : Undisturbed (k + j) s)
    (ht : t.env.ioFails = s.env.ioFails.drop k) : Undisturbed j t := by
  unfold Undisturbed at h ⊢
  rw [List.take_add] at h
  rw [ht]
  exact fun hmem => h (List.mem_append_right _ hmem)

theorem FailsAt.drop {j k : Nat} {s t : State} (h : FailsAt (k + j) s)
    (ht : t.env.ioFails = s.env.ioFails.drop k) : FailsAt j t := by
  refine ⟨h.1.drop ht, ?_⟩
  rw [ht, List.drop_drop]
  exact h.2

/-- A list of draws that begins with `k` good ones and a failure. -/
theorem failsAt_of_take {k : Nat} {s : State} (h : s.env.ioFails.take (k + 1) = List.replicate k false ++ [true]) :
    FailsAt k s := by
  constructor
  · have hgood : s.env.ioFails.take k = List.replicate k false := by
      rw [← List.take_left' (l₂ := [true]) (List.length_replicate (n := k) (a := false)), ← h, List.take_take,
        Nat.min_eq_left (Nat.le_succ k)]
    rw [Undisturbed, hgood]
    simp
  · rw [List.head?_drop, ← List.getElem?_take_of_lt (Nat.lt_succ_self k), h]
    simp

/-! ## Where an attempt breaks off -/

/-- From `s` to `u` port `p` sent `sent`, and nothing came in or changed on the other ports. -/
structure SentOnly (p : PortId) (sent : Bytes) (s u : State) : Prop where
  tx     : (u.link p).tx = (s.link p).tx ++ sent
  others : ∀ q, q ≠ p → u.link q = s.link q

/-- The attempt on port `p` ends with an I/O failure after it has sent `sent`. -/
def BreaksAfter (p : PortId) (sent : Bytes) (s : State) : Prop :=
  ∃ u, attempt p s = .ioFailed (teardown p u) ∧ SentOnly p sent s u

section
variable {p : PortId} {s : State}

theorem breaksAfter_of_flush (h : FailsAt 0 s) : BreaksAfter p [] s := by
  have hdraw : (countAttempt p s).drawIo.1 = true := drawIo_of_failure h.2
  refine ⟨(countAttempt p s).drawIo.2, by simp only [attempt, rxFlush, hdraw, if_true], ?_,
    fun q hq => link_countAttempt_other p s hq⟩
  rw [link_drawIo, link_countAttempt_same, List.append_nil]

/-- The state in which an attempt transmits, after its flush (R201). -/
def flushed (p : PortId) (s : State) : State :=
  ((countAttempt p (afterDraws 1 s)).setLink p { (countAttempt p s).link p with rx := [] }).decBegin

theorem link_flushed_same : (flushed p s).link p =
    { s.link p with attempt := (s.link p).attempt + 1, lastRaw := [], rx := [] } := by
  rw [flushed, link_decBegin, link_setLink_same, link_countAttempt_same]

theorem link_flushed_other {q : PortId} (h : q ≠ p) : (flushed p s).link q = s.link q := by
  rw [flushed, link_decBegin, link_setLink_other h, link_countAttempt_other p _ h, link_afterDraws]

theorem attempt_of_flushed (h : Undisturbed 1 s) : attempt p s =
    match txPut p ((flushed p s).link p).curFrame (flushed p s) with
    | .failed s2 => .ioFailed s2
    | .ok s2 =>
      match receive p (armDeadline p s2) with
      | .ioFailed s3 => .ioFailed s3
      | .done s3 => classify p s3 := by
  have hflush := rxFlush_of_no_failure (s := countAttempt p s) h.head_ne p
  rw [drawIo_snd_eq_afterDraws] at hflush
  unfold attempt
  rw [hflush]
  rfl

theorem breaksAfter_of_transmission (h : FailsAt 1 s) : BreaksAfter p [] s := by
  have hdraw : (flushed p s).drawIo.1 = true := drawIo_of_failure h.2
  refine ⟨(flushed p s).drawIo.2, ?_, ?_, fun q hq => link_flushed_other hq⟩
  · rw [attempt_of_flushed h.1]
    simp only [txPut, hdraw, if_true]
  · rw [link_drawIo, link_flushed_same, List.append_nil]

/-- Without a failure at the flush and the transmission the attempt receives (R201, R202). -/
theorem attempt_of_transmitted (h : Undisturbed 2 s) :
    attempt p s = match receive p (transmitted p (afterDraws 2 s)) with
      | .ioFailed s3 => .ioFailed s3
      | .done s3 => classify p s3 := by
  have hflushed : (flushed p s).env.ioFails = s.env.ioFails.drop 1 := rfl
  have hput := txPut_of_no_failure (h.drop (k := 1) (j := 1) hflushed).head_ne p ((flushed p s).link p).curFrame
  have harmed : armDeadline p ((flushed p s).drawIo.2.setLink p
      { (flushed p s).link p with tx := ((flushed p s).link p).tx ++ ((flushed p s).link p).curFrame }) =
      transmitted p (afterDraws 2 s) := by
    rw [drawIo_snd_eq_afterDraws, link_flushed_same]
    simp only [armDeadline, link_setLink_same, setLink_setLink]
    simp only [flushed, countAttempt, transmitted, afterDraws, State.decBegin, State.setLink, State.link,
      putLink_putLink, List.drop_drop]
  rw [attempt_of_flushed (h.mono (by omega)), hput]
  simp only [harmed]

theorem breaksAfter_of_receive (h : FailsAt 2 s) : BreaksAfter p (s.link p).curFrame s := by
  have hdraw : (transmitted p (afterDraws 2 s)).drawIo.1 = true := drawIo_of_failure h.2
  have hreceive : receive p (transmitted p (afterDraws 2 s)) =
      .ioFailed (teardown p (transmitted p (afterDraws 2 s)).drawIo.2) := by
    rw [receive, receiveFuel, receiveLoop, if_neg nofun]
    simp only [rxTake, hdraw, if_true]
  refine ⟨(transmitted p (afterDraws 2 s)).drawIo.2, by simp only [attempt_of_transmitted h.1, hreceive], ?_,
    fun q hq => link_transmitted_other hq _⟩
  rw [link_drawIo, link_transmitted, link_afterDraws]

end

/-! ## An attempt that nobody answers -/

section
variable {p : PortId} {s : State}

/-- An empty `rx` without an I/O failure: the loop ends at the deadline, and waits for it before (R202). -/
theorem receiveLoop_of_empty (n : Nat) (hphase : s.dec.phase ≠ .done) (hio : s.env.ioFails.head? ≠ some true)
    (hrx : (s.link p).rx = []) : receiveLoop p (n + 1) s =
      if (s.link p).deadline ≤ s.now then .done (afterDraws 1 s).decStop
      else receiveLoop p n (waitStep (s.link p).deadline (afterDraws 1 s)) := by
  rw [receiveLoop, if_neg hphase, rxTake_of_nil hio hrx, drawIo_snd_eq_afterDraws]
  rfl

/-- The waits of the environment begin with a silence on every port that outlasts `timeout`, and nothing fails in the
four I/O steps of an attempt in it. -/
structure Silence (timeout dt : Nat) (later : List Wait) (s : State) : Prop where
  waits : s.env.waits = { dt := dt, arrive := [] } :: later
  pos   : 0 < timeout
  long  : timeout ≤ dt
  io    : Undisturbed 4 s

/-- What an attempt in a silence leaves: the frame sent once, nothing received, one wait and four draws taken. -/
structure Missed (p : PortId) (dt : Nat) (later : List Wait) (s s' : State) : Prop where
  link   : s'.link p = { s.link p with
    attempt := (s.link p).attempt + 1, lastRaw := [], rx := [], tx := (s.link p).tx ++ (s.link p).curFrame,
    deadline := s.now + (s.link p).curTimeout, disp := .idle, lastFail := some .timeout }
  others : ∀ q, q ≠ p → s'.link q = s.link q
  now    : s'.now = s.now + dt
  env    : s'.env = { s.env with waits := later, ioFails := s.env.ioFails.drop 4 }
  cfg    : s'.cfg = s.cfg

/-- `s` after a wait of `dt` in which nothing arrived. -/
def afterSilence (dt : Nat) (later : List Wait) (s : State) : State :=
  { s with now := s.now + dt, env := { s.env with waits := later } }

theorem waitStep_of_silence {dt : Nat} {later : List Wait} (hwaits : s.env.waits = { dt := dt, arrive := [] } :: later)
    (target : Nat) : waitStep target s = afterSilence dt later s := by
  rw [waitStep, hwaits]
  rfl

/-- The receive loop of a silent attempt: one look at the empty `rx`, the wait past the deadline, and a last look. -/
theorem receive_of_silence {dt : Nat} {later : List Wait}
    (hwaits : s.env.waits = { dt := dt, arrive := [] } :: later) (hio : Undisturbed 2 s) (hdec : s.dec = Dec.start)
    (hrx : (s.link p).rx = []) (hbefore : s.now < (s.link p).deadline) (hafter : (s.link p).deadline ≤ s.now + dt) :
    receive p s = .done (afterDraws 1 (afterSilence dt later (afterDraws 1 s))).decStop := by
  have hphase : s.dec.phase ≠ .done := by
    rw [hdec]
    nofun
  have hfuel : receiveFuel p s = (s.link p).rx.length + (s.env.waits.map (fun w => w.arrive.length)).sum +
      s.env.waits.length + 1 + 1 := rfl
  have hio' : Undisturbed 1 (afterSilence dt later (afterDraws 1 s)) := hio.drop rfl
  rw [receive, hfuel, receiveLoop_of_empty _ hphase hio.head_ne hrx, if_neg (Nat.not_le.mpr hbefore),
    waitStep_of_silence (s := afterDraws 1 s) hwaits,
    receiveLoop_of_empty (s := afterSilence dt later (afterDraws 1 s)) _ hphase hio'.head_ne hrx]
  exact if_pos hafter

theorem attempt_of_silence {dt : Nat} {later : List Wait} (h : Silence (s.link p).curTimeout dt later s) :
    ∃ s', attempt p s = .failed s' ∧ Missed p dt later s s' := by
  obtain ⟨hwaits, hpos, hlong, hio⟩ := h
  have hio' : Undisturbed 2 (transmitted p (afterDraws 2 s)) := hio.drop rfl
  have hreceive := receive_of_silence (p := p) (s := transmitted p (afterDraws 2 s)) hwaits hio' rfl
    (by rw [link_transmitted])
    (by rw [link_transmitted]; exact Nat.lt_add_of_pos_right hpos)
    (by rw [link_transmitted]; exact Nat.add_le_add_left hlong _)
  generalize hu : (afterDraws 1 (afterSilence dt later (afterDraws 1 (transmitted p (afterDraws 2 s))))).decStop = u
    at hreceive
  have hlink (q : PortId) : u.link q = (transmitted p (afterDraws 2 s)).link q := by
    rw [← hu]
    rfl
  have hclass : classify p u = .failed (failAttempt p .timedOut .timeout u) :=
    classify_timeout (cls := .magic) (by rw [← hu]; rfl) (by rw [hlink, link_transmitted])
  refine ⟨failAttempt p .timedOut .timeout u,
    by simp only [attempt_of_transmitted (hio.mono (by omega : 2 ≤ 4)), hreceive, hclass],
    ?link, fun q hq => ?others, ?now, ?env, ?cfg⟩
  case link =>
    rw [link_failAttempt_same, hlink, link_transmitted]
    rfl
  case others => rw [link_failAttempt_other p _ _ _ hq, hlink, link_transmitted_other hq, link_afterDraws]
  case now => rw [failAttempt_now, ← hu]; rfl
  case env =>
    rw [failAttempt_env, ← hu]
    simp only [decStop_env, afterDraws, afterSilence, transmitted, setLink_env, List.drop_drop]
  case cfg => rw [failAttempt_cfg, ← hu]; rfl

/-- R200: no pause takes no wait. -/
theorem retryPause_of_no_delay (h : s.cfg.retryDelay = 0) : retryPause s = s := by
  rw [retryPause, h, waitUntil, waitLoop, if_pos (Nat.le_of_eq (Nat.add_zero _))]

/-- After a silent attempt the next one begins at once (R206). -/
theorem tryAttempts_of_silence {dt n : Nat} {later : List Wait} (h : Silence (s.link p).curTimeout dt later s)
    (hdelay : s.cfg.retryDelay = 0) (hn : 1 ≤ n) :
    ∃ s', tryAttempts p n s = tryAttempts p (n - 1) s' ∧ Missed p dt later s s' := by
  obtain ⟨s', hfail, missed⟩ := attempt_of_silence h
  obtain ⟨m, rfl⟩ := Nat.exists_eq_add_of_le' hn
  refine ⟨s', ?_, missed⟩
  rw [Nat.add_sub_cancel, tryAttempts, hfail]
  simp only [retryPause_of_no_delay (missed.cfg ▸ hdelay)]

end

end Sys2Proof.Machine

namespace Sys2Proof.Statements

open Sys2Proof Sys2Proof.Machine

/-- The state in which the attempts of a request begin, when the gate has admitted it (R199). -/
def latched (p : PortId) (row : Row) (command : Byte) (payload : Bytes) (timeout : Nat) (s : State) : State :=
  latch p command payload timeout (stampPolicy p command (riskOf s.cfg row command payload) s)

section
variable {p : PortId} {row : Row} {command : Byte} {payload : Bytes} {timeout : Nat} {s : State}

theorem latched_link : (latched p row command payload timeout s).link p = { stampedLink s p row command payload with
    curCmd := command, curPayload := payload, curFrame := encodeFrame s.cfg command payload,
    curTimeout := timeout, attempt := 0, lastFail := none } := by
  rw [latched, link_latch_same, link_stampPolicy, stampPolicy_cfg]

theorem latched_tx : ((latched p row command payload timeout s).link p).tx = (s.link p).tx := by
  rw [latched, link_latch_same]
  exact (link_stampPolicy_fields p command _ s).1

theorem latched_link_other {q : PortId} (h : q ≠ p) : (latched p row command payload timeout s).link q = s.link q := by
  rw [latched, link_latch_other p _ _ _ _ h, link_stampPolicy_other h]

theorem latched_cfg : (latched p row command payload timeout s).cfg = s.cfg := by
  rw [latched, latch_cfg, stampPolicy_cfg]

theorem latched_env : (latched p row command payload timeout s).env = s.env := by
  rw [latched, latch_env, stampPolicy_env]

theorem latched_now : (latched p row command payload timeout s).now = s.now := by
  rw [latched, latch_now, stampPolicy_now]

theorem latched_silence {dt : Nat} {later : List Wait} (h : Silence timeout dt later s) :
    Silence ((latched p row command payload timeout s).link p).curTimeout dt later
      (latched p row command payload timeout s) := by
  obtain ⟨hwaits, hpos, hlong, hio⟩ := h
  rw [latched_link]
  exact ⟨by rw [latched_env, hwaits], hpos, hlong, by rwa [Undisturbed, latched_env]⟩

/-- A request that passes the gate is its attempts. -/
theorem sendRequest_of_passes {allow : Bool} (hpass : Passes s p row command payload allow) :
    sendRequest p command payload timeout allow s =
      tryAttempts p s.cfg.maxRetries (latched p row command payload timeout s) := by
  simp only [sendRequest, gate_of_passes hpass, latched]

/-- The reply that a request finds after a silent first attempt. -/
theorem replyArrives_of_missed {dt : Nat} {later rest : List Wait} {w : Wait} {reply extra : Bytes} {s1 : State}
    (missed : Missed p dt rest (latched p row command payload timeout s) s1) (hrest : rest = w :: later)
    (h : Answered { s with env := { s.env with waits := rest } } p row command timeout reply extra w later) :
    ReplyArrives p s1 reply extra w later := by
  have hlink := missed.link
  rw [latched_link] at hlink
  have hcfg : s1.cfg = s.cfg := missed.cfg.trans latched_cfg
  refine ⟨by rw [hcfg]; exact h.magic, h.length, by rw [hlink]; exact h.timeout, ?_, by rw [missed.env, hrest], ?_⟩
  · have hnone : s.env.ioFails = [] := h.noFailure
    rw [missed.env, latched_env, hnone, List.drop_nil]
  · rw [hlink, hcfg, ← arriving_eq, ← frameOf_eq]
    exact h.arrives

end

/-- Settles O34: the first attempt is silent, and the second finds the reply. -/
theorem secondAttemptSucceeds : Obligations.SecondAttemptSucceeds := by
  intro p command payload timeout dt allow s row reply extra w later hpass hretries hdelay hlong hwaits hanswered
  have hnone : s.env.ioFails = [] := hanswered.noFailure
  have silence : Silence timeout dt (w :: later) s :=
    ⟨hwaits, hanswered.timeout, hlong, by rw [Undisturbed, hnone, List.take_nil]; exact List.not_mem_nil⟩
  obtain ⟨s1, hsecond, missed⟩ := tryAttempts_of_silence (n := s.cfg.maxRetries)
    (latched_silence (p := p) (row := row) (command := command) (payload := payload) silence)
    (by rwa [latched_cfg]) hretries
  have harrives := replyArrives_of_missed missed rfl hanswered
  have hlink := missed.link
  have hcfg : s1.cfg = s.cfg := missed.cfg.trans latched_cfg
  have hcmd : (s1.link p).curCmd = command := by rw [hlink, latched_link]
  obtain ⟨t, htry, taken, htlink⟩ := tryAttempts_reply (row := row) (s.cfg.maxRetries - 1) harrives
    (by rw [hcmd, hcfg]; exact hpass.table) (by rw [hcfg]; exact fits_iff.mpr hanswered.response)
  rw [hcmd, hcfg] at htry
  refine ⟨returnValue (.packet (replyPacket s.cfg command reply)) t, ?_, rfl, ?_, ?_, ?_⟩
  · simp only [exec_send, execSend, sendRequest_of_passes hpass, hsecond, htry]
  · rw [returnValue_now, taken.now, missed.now, latched_now]
  · rw [link_returnValue, htlink]
  · rw [link_returnValue, htlink, hlink, latched_tx, latched_link, frameOf_eq, List.append_assoc]
    simp [copiesOf]

end Sys2Proof.Statements

/-!
An I/O failure wherever an operation takes one, and O24 (42_transport.md R177, 43_dispatcher.md R212): the operation
ends with `PortUnavailable`, its Session torn down. An operation that ends otherwise has taken no failure.
-/

namespace Sys2Proof.Machine

/-! ## An attempt that ends otherwise -/

/-- From `s` to `s'` the engine took I/O draws, and none of them was a failure. -/
def NoFailureTaken (s s' : State) : Prop := ∃ m, s'.env.ioFails = s.env.ioFails.drop m ∧ Undisturbed m s

theorem noFailureTaken_of_ioFails_eq {s s' : State} (h : s'.env.ioFails = s.env.ioFails) : NoFailureTaken s s' :=
  ⟨0, by rw [h, List.drop_zero], by rw [Undisturbed, List.take_zero]; exact List.not_mem_nil⟩

theorem NoFailureTaken.trans {a b c : State} (h : NoFailureTaken a b) (g : NoFailureTaken b c) :
    NoFailureTaken a c := by
  obtain ⟨m, hm, hgood⟩ := h
  obtain ⟨n, hn, ggood⟩ := g
  refine ⟨m + n, by rw [hn, hm, List.drop_drop], ?_⟩
  rw [Undisturbed, List.take_add, ← hm, List.mem_append]
  exact not_or.mpr ⟨hgood, ggood⟩

/-- A draw that does not fail. -/
theorem noFailureTaken_drawIo {s : State} (h : s.drawIo.1 = false) : NoFailureTaken s s.drawIo.2 := by
  rw [drawIo_fst, decide_eq_false_iff_not] at h
  refine ⟨1, by rw [drawIo_snd, List.drop_one], ?_⟩
  rw [Undisturbed]
  cases hio : s.env.ioFails with
  | nil => exact List.not_mem_nil
  | cons b rest =>
    rw [hio, List.head?_cons] at h
    rw [List.take_succ_cons, List.take_zero, List.mem_singleton]
    exact fun hb => h (congrArg some hb.symm)

theorem noFailureTaken_waitStep (target : Nat) (s : State) : NoFailureTaken s (waitStep target s) := by
  rcases waited_waitStep target s with ⟨-, e⟩ | ⟨w, ws, -, waited, -⟩
  · rw [e]
    exact noFailureTaken_of_ioFails_eq rfl
  · exact noFailureTaken_of_ioFails_eq (by rw [waited.env])

theorem noFailureTaken_retryPause (s : State) : NoFailureTaken s (retryPause s) := by
  obtain ⟨k, waited, -⟩ := waitUntil_spec (s.now + s.cfg.retryDelay) s
  exact noFailureTaken_of_ioFails_eq (by rw [retryPause, waited.env])

theorem goIdle_env (p : PortId) (s : State) : (goIdle p s).env = s.env := by
  unfold goIdle
  split <;> rfl

theorem receiveLoop_noFailureTaken {p : PortId} {n : Nat} {s s' : State} (h : receiveLoop p n s = .done s') :
    NoFailureTaken s s' := by
  induction n generalizing s with
  | zero =>
    cases h
    exact noFailureTaken_of_ioFails_eq rfl
  | succ n ih =>
    unfold receiveLoop at h
    split at h
    · cases h
      exact noFailureTaken_of_ioFails_eq rfl
    · rcases rxTake_cases p s with ⟨-, e⟩ | ⟨hdraw, -, e⟩ | ⟨b, rest, hdraw, -, e⟩ <;> simp only [e] at h
      · cases h
      · split at h
        · cases h
          exact (noFailureTaken_drawIo hdraw).trans (noFailureTaken_of_ioFails_eq rfl)
        · exact (noFailureTaken_drawIo hdraw).trans ((noFailureTaken_waitStep _ _).trans (ih h))
      · have taken := ih h
        exact (noFailureTaken_drawIo hdraw).trans (NoFailureTaken.trans (noFailureTaken_of_ioFails_eq rfl) taken)

/-- Classification draws nothing. -/
theorem classify_noFailureTaken {p : PortId} {s s' : State}
    (h : (∃ q, classify p s = .decoded q s') ∨ classify p s = .failed s') : NoFailureTaken s s' := by
  rcases classify_cases p s with ⟨q, n, -, -, hdecoded⟩ | ⟨d, c, hfailed⟩
  · rw [hdecoded] at h
    rcases h with ⟨q', h⟩ | h <;> cases h
    exact noFailureTaken_of_ioFails_eq rfl
  · rw [hfailed] at h
    rcases h with ⟨q', h⟩ | h <;> cases h
    exact noFailureTaken_of_ioFails_eq rfl

/-- An attempt that ends with a packet or by failing has taken no I/O failure. -/
theorem attempt_noFailureTaken {p : PortId} {s s' : State}
    (h : (∃ q, attempt p s = .decoded q s') ∨ attempt p s = .failed s') : NoFailureTaken s s' := by
  unfold attempt at h
  rcases rxFlush_cases p (countAttempt p s) with ⟨-, hflush⟩ | ⟨hdraw, hflush⟩ <;> simp only [hflush] at h
  · rcases h with ⟨q, h⟩ | h <;> cases h
  · generalize hs1 : ((countAttempt p s).drawIo.2.setLink p { (countAttempt p s).link p with rx := [] }).decBegin = s1
      at h
    have taken1 : NoFailureTaken s s1 := by
      rw [← hs1]
      exact (noFailureTaken_of_ioFails_eq rfl).trans ((noFailureTaken_drawIo hdraw).trans
        (noFailureTaken_of_ioFails_eq rfl))
    rcases txPut_cases p (s1.link p).curFrame s1 with ⟨-, hput⟩ | ⟨hdraw', hput⟩ <;> simp only [hput] at h
    · rcases h with ⟨q, h⟩ | h <;> cases h
    · generalize hs2 : armDeadline p (s1.drawIo.2.setLink p
        { s1.link p with tx := (s1.link p).tx ++ (s1.link p).curFrame }) = s2 at h
      have taken2 : NoFailureTaken s1 s2 := by
        rw [← hs2]
        exact (noFailureTaken_drawIo hdraw').trans (noFailureTaken_of_ioFails_eq rfl)
      cases hreceive : receive p s2 with
      | ioFailed s3 =>
        simp only [hreceive] at h
        rcases h with ⟨q, h⟩ | h <;> cases h
      | done s3 =>
        simp only [hreceive] at h
        exact taken1.trans (taken2.trans ((receiveLoop_noFailureTaken hreceive).trans (classify_noFailureTaken h)))

/-! ## A request that ends otherwise -/

theorem Retried.noFailureTaken {p : PortId} {k : Nat} {s s' : State} (h : Retried p k s s') : NoFailureTaken s s' := by
  induction h with
  | none s => exact noFailureTaken_of_ioFails_eq rfl
  | again hfail _ ih => exact (attempt_noFailureTaken (.inr hfail)).trans ((noFailureTaken_retryPause _).trans ih)

/-- What an attempt leaves that the platform broke off. -/
theorem attemptTorn_of_ioFailed {p : PortId} {s s1 : State} (h : attempt p s = .ioFailed s1) : AttemptTorn p s s1 := by
  rcases attempt_spec p s with ⟨_, _, ha, -⟩ | ⟨_, ha, -⟩ | ⟨_, ha, torn⟩ <;> rw [h] at ha <;> cases ha
  exact torn

/-- How SEND ends: with the failure that the platform reported, its Session gone, or without having taken one. -/
inductive SendEnd (p : PortId) (s : State) : Reply → Prop
  | intact_packet {q : Packet} {s' : State} (h : NoFailureTaken s s') : SendEnd p s (.packet q s')
  | intact_error {e : TypedError} {s' : State} (h : NoFailureTaken s s') : SendEnd p s (.error e s')
  | torn {s' : State} (hsession : (s'.link p).session = none) (hheld : p ∉ s'.portsHeld) :
      SendEnd p s (.error (.connection p .portUnavailable) s')
  | refused (r : Refusal) : SendEnd p s (.refused r)

theorem tryAttempts_sendEnd (p : PortId) (n : Nat) (s : State) : SendEnd p s (tryAttempts p n s) := by
  obtain ⟨k, s', -, retried, ended⟩ := tryAttempts_ended p n s
  have idle (s1 : State) : NoFailureTaken s1 (goIdle p s1) := noFailureTaken_of_ioFails_eq (by rw [goIdle_env])
  generalize tryAttempts p n s = r at ended
  cases ended with
  | answered h =>
    exact .intact_packet (retried.noFailureTaken.trans ((attempt_noFailureTaken (.inl ⟨_, h⟩)).trans (idle _)))
  | broken h => exact .torn (attemptTorn_of_ioFailed h).session (attemptTorn_of_ioFailed h).held
  | exhausted h _ =>
    exact .intact_error (retried.noFailureTaken.trans ((attempt_noFailureTaken (.inr h)).trans (idle _)))

theorem SendEnd.of_ioFails_eq {p : PortId} {s s0 : State} {r : Reply} (h : SendEnd p s0 r)
    (hio : s0.env.ioFails = s.env.ioFails) : SendEnd p s r := by
  have start : NoFailureTaken s s0 := noFailureTaken_of_ioFails_eq hio
  cases h with
  | intact_packet h => exact .intact_packet (start.trans h)
  | intact_error h => exact .intact_error (start.trans h)
  | torn hsession hheld => exact .torn hsession hheld
  | refused r => exact .refused r

theorem sendRequest_sendEnd (p : PortId) (command : Byte) (payload : Bytes) (timeout : Nat) (allow : Bool) (s : State) :
    SendEnd p s (sendRequest p command payload timeout allow s) := by
  unfold sendRequest
  cases gate s.cfg (s.link p) s.now p command payload allow with
  | refused r => exact .refused r
  | error e => exact .intact_error (noFailureTaken_of_ioFails_eq rfl)
  | pass r => exact (tryAttempts_sendEnd p _ _).of_ioFails_eq (by rw [latch_env, stampPolicy_env])

/-- What is left of a list tells what was taken of it. -/
theorem take_eq_take_of_drop_eq_drop {α : Type} {l : List α} {m n : Nat} (h : l.drop m = l.drop n) :
    l.take m = l.take n := by
  have hsplit : l.take m ++ l.drop n = l.take n ++ l.drop n := by
    rw [← h, List.take_append_drop, h, List.take_append_drop]
  exact List.append_cancel_right hsplit

theorem NoFailureTaken.not_mem {s s' : State} {n : Nat} (h : NoFailureTaken s s')
    (hn : s'.env.ioFails = s.env.ioFails.drop n) : true ∉ s.env.ioFails.take n := by
  obtain ⟨m, hm, hgood⟩ := h
  rw [← take_eq_take_of_drop_eq_drop (hm.symm.trans hn)]
  exact hgood

/-! ## The transport operations that break off -/

theorem raiseError_teardown (p : PortId) (report : ErrorReport) (u : State) :
    raiseError p report (teardown p u) = returnValue (.error report) (teardown p u) :=
  raiseError_of_idle (tornDown_teardown p u).idle report

theorem exec_of_failing_transport {p : PortId} {s : State} {i : Instr} (hidle : (s.link p).busy = false)
    (hlive : (s.link p).isConnected = true) (hio : s.env.ioFails.head? = some true)
    (hi : i = .resetInput p ∨ (∃ bytes, i = .txPut p bytes) ∨ i = .rxTake p) :
    exec i s = .next (returnValue (.error (connectionReport p .portUnavailable)) (teardown p s.drawIo.2)) := by
  have hdraw := drawIo_of_failure hio
  rw [← raiseError_teardown]
  rcases hi with rfl | ⟨bytes, rfl⟩ | rfl
  · simp only [exec, execResetInput, rxFlush, hidle, hlive, hdraw, Bool.not_true, Bool.false_eq_true, if_false, if_true]
  · simp only [exec, execTxPut, txPut, hidle, hlive, hdraw, Bool.not_true, Bool.false_eq_true, if_false, if_true]
  · simp only [exec, execRxTake, rxTake, hidle, hlive, hdraw, Bool.not_true, Bool.false_eq_true, if_false, if_true]

theorem finishConnect_of_failure {p : PortId} {s : State} (hio : s.env.ioFails.head? = some true) :
    finishConnect p s = .next (returnValue (.error (connectionReport p .portUnavailable))
      (teardown p (openSession p s).drawIo.2)) := by
  have hdraw : (openSession p s).drawIo.1 = true := drawIo_of_failure hio
  rw [← raiseError_teardown]
  simp only [finishConnect, rxFlush, hdraw, if_true]

end Sys2Proof.Machine

namespace Sys2Proof.Statements

open Sys2Proof Sys2Proof.Machine

/-- An operation that returned `PortUnavailable` and left its port without a Session has torn it down: every other port
is held as before (R31, R177). -/
theorem tornDown_of_exec {i : Instr} {p : PortId} {s t : State} (hport : portOf i = some p)
    (hexec : exec i s = .next t) (herror : isErrorOf (.connection p .portUnavailable) t.ret)
    (hsession : (t.link p).session = none) (hidle : (t.link p).busy = false) (hheld : p ∉ t.portsHeld) :
    TornDown s t p := by
  obtain ⟨hdisp, hattempt⟩ := busy_eq_false_iff.mp hidle
  refine ⟨herror, hsession, isConnected_of_absent hsession, dtrLevel_of_absent hsession,
    rtsLevel_of_absent hsession, hdisp, hattempt, fun q => ?_⟩
  rcases exec_ran hexec with ⟨p', hp', evolves, -⟩ | ⟨hnone, -⟩
  · obtain rfl := Option.some.inj (hport.symm.trans hp')
    by_cases hq : q = p
    · subst hq
      exact ⟨fun h => absurd h hheld, fun h => absurd rfl h.2⟩
    · exact (evolves.heldElse q hq).trans ⟨fun h => ⟨h, hq⟩, fun h => h.1⟩
  · rw [hport] at hnone
    cases hnone

/-- An operation that ended with a teardown of `u`: torn down, and otherwise as `u` was. -/
theorem exists_tornDown {i : Instr} {p : PortId} {s u : State} {report : ErrorReport} {sent : Bytes}
    (hport : portOf i = some p) (hexec : exec i s = .next (returnValue (.error report) (teardown p u)))
    (herror : report.error = .connection p .portUnavailable) (hsent : SentOnly p sent s u) :
    ∃ t, exec i s = .next t ∧ TornDown s t p ∧ (t.link p).tx = (s.link p).tx ++ sent ∧
      ∀ q, q ≠ p → t.link q = s.link q := by
  have torn := tornDown_teardown p u
  refine ⟨_, hexec, tornDown_of_exec hport hexec herror torn.session torn.idle torn.held, ?_, fun q hq => ?_⟩
  · rw [link_returnValue, torn.tx, hsent.tx]
  · rw [link_returnValue, link_teardown_other p u hq, hsent.others q hq]

section
variable {p : PortId} {s : State} {row : Row} {command : Byte} {payload : Bytes} {timeout : Nat} {allow : Bool}

/-- SEND whose attempts end with a teardown of `u`. -/
theorem exists_tornDown_of_tryAttempts {u : State} {sent : Bytes} (hpass : Passes s p row command payload allow)
    (htry : tryAttempts p s.cfg.maxRetries (latched p row command payload timeout s) =
      .error (.connection p .portUnavailable) (teardown p u)) (hsent : SentOnly p sent s u) :
    ∃ t, exec (.send p command payload timeout allow) s = .next t ∧ TornDown s t p ∧
      (t.link p).tx = (s.link p).tx ++ sent ∧ ∀ q, q ≠ p → t.link q = s.link q := by
  refine exists_tornDown (report := sendReport s.cfg command payload none (.connection p .portUnavailable)) rfl ?_ rfl
    hsent
  simp only [exec_send, execSend, sendRequest_of_passes hpass, htry, raiseError_teardown]

theorem tryAttempts_of_ioFailed {n : Nat} {s1 : State} (h : attempt p s = .ioFailed s1) :
    tryAttempts p n s = .error (.connection p .portUnavailable) s1 := by
  cases n <;> simp only [tryAttempts, h]

/-- SEND whose first attempt breaks off. -/
theorem exists_tornDown_of_first {sent : Bytes} (hpass : Passes s p row command payload allow)
    (h : BreaksAfter p sent (latched p row command payload timeout s)) :
    ∃ t, exec (.send p command payload timeout allow) s = .next t ∧ TornDown s t p ∧
      (t.link p).tx = (s.link p).tx ++ sent ∧ ∀ q, q ≠ p → t.link q = s.link q := by
  obtain ⟨u, hattempt, hsent⟩ := h
  refine exists_tornDown_of_tryAttempts hpass (tryAttempts_of_ioFailed hattempt) ⟨?_, fun q hq => ?_⟩
  · rw [hsent.tx, latched_tx]
  · rw [hsent.others q hq, latched_link_other hq]

/-- SEND whose second attempt breaks off before it sends, after a silent first one. -/
theorem exists_tornDown_of_second {dt : Nat} {later : List Wait} (hpass : Passes s p row command payload allow)
    (hretries : 1 ≤ s.cfg.maxRetries) (hdelay : s.cfg.retryDelay = 0) (silence : Silence timeout dt later s)
    (h : ∀ s1 : State, s1.env.ioFails = s.env.ioFails.drop 4 → BreaksAfter p [] s1) :
    ∃ t, exec (.send p command payload timeout allow) s = .next t ∧ TornDown s t p ∧
      (t.link p).tx = (s.link p).tx ++ frameOf s.cfg command payload := by
  obtain ⟨s1, hsecond, missed⟩ := tryAttempts_of_silence (n := s.cfg.maxRetries)
    (latched_silence (p := p) (row := row) (command := command) (payload := payload) silence)
    (by rwa [latched_cfg]) hretries
  obtain ⟨u, hattempt, hsent⟩ := h s1 (by rw [missed.env, latched_env])
  have hsent' : SentOnly p (frameOf s.cfg command payload) s u := by
    refine ⟨?_, fun q hq => by rw [hsent.others q hq, missed.others q hq, latched_link_other hq]⟩
    rw [hsent.tx, List.append_nil, missed.link, latched_tx, latched_link, frameOf_eq]
  obtain ⟨t, hexec, torn, htx, -⟩ := exists_tornDown_of_tryAttempts hpass
    (hsecond.trans (tryAttempts_of_ioFailed hattempt)) hsent'
  exact ⟨t, hexec, torn, htx⟩

theorem latched_failsAt {k : Nat} (h : FailsAt k s) : FailsAt k (latched p row command payload timeout s) := by
  rwa [FailsAt, Undisturbed, latched_env]

end

/-- A SEND that took a failure has ended with it. -/
theorem tornDown_of_failure_taken {p : PortId} {command : Byte} {payload : Bytes} {timeout : Nat} {allow : Bool}
    {s t : State} {n : Nat} (hexec : exec (.send p command payload timeout allow) s = .next t)
    (hleft : t.env.ioFails = s.env.ioFails.drop n) (htaken : true ∈ s.env.ioFails.take n) : TornDown s t p := by
  have leaves := hexec
  rw [exec_send, execSend] at leaves
  have hend := sendRequest_sendEnd p command payload timeout allow s
  have hidle := @sendRequest_error p command payload timeout allow s
  generalize sendRequest p command payload timeout allow s = reply at leaves hend hidle
  cases hend with
  | intact_packet intact =>
    cases leaves
    exact absurd htaken (intact.not_mem hleft)
  | intact_error intact =>
    simp only [raiseError_of_idle (hidle rfl).idle] at leaves
    cases leaves
    exact absurd htaken (intact.not_mem hleft)
  | torn hsession hheld =>
    have idle := (hidle rfl).idle
    simp only [raiseError_of_idle idle] at leaves
    cases leaves
    exact tornDown_of_exec rfl hexec rfl hsession idle hheld
  | refused r => cases leaves

/-- Settles O24, by the operation that takes the failure and, in SEND, by the draw that fails. -/
theorem ioFailureTearsTheSessionDown : Obligations.IoFailureTearsTheSessionDown := by
  intro p s
  refine ⟨fun hidle hlive hio i hi => ?transport, fun hidle hfree hopen hlines hio => ?connect,
    fun command payload timeout allow => ⟨fun row hpass => ⟨fun hio => ?first, fun hio => ?third,
      fun dt later hretries hdelay hpos hlong hwaits hio => ?second⟩,
    fun t n hexec hleft htaken => tornDown_of_failure_taken hexec hleft htaken⟩⟩
  case transport =>
    have hport : portOf i = some p := by rcases hi with rfl | ⟨_, rfl⟩ | rfl <;> rfl
    simpa only [List.append_nil] using exists_tornDown hport (exec_of_failing_transport hidle hlive hio hi) rfl
      (sent := []) ⟨(List.append_nil _).symm, fun _ _ => rfl⟩
  case connect =>
    have hfinish := finishConnect_of_failure (p := p) (s := s.drawOpen.2.drawLines.2) hio
    simpa only [List.append_nil] using exists_tornDown rfl
      ((exec_connect_of_open hidle hfree hopen hlines).trans hfinish) rfl (sent := [])
      ⟨by rw [link_drawIo, link_openSession_same]; exact (List.append_nil _).symm,
        fun q hq => link_openSession_other p s.drawOpen.2.drawLines.2 hq⟩
  case first =>
    have hbreaks : BreaksAfter p [] (latched p row command payload timeout s) := by
      rcases hio with hflush | hput
      · refine breaksAfter_of_flush (latched_failsAt ⟨?_, hflush⟩)
        rw [Undisturbed, List.take_zero]
        exact List.not_mem_nil
      · exact breaksAfter_of_transmission (latched_failsAt (failsAt_of_take hput))
    simpa only [List.append_nil] using exists_tornDown_of_first hpass hbreaks
  case third =>
    have hbreaks := breaksAfter_of_receive (p := p) (s := latched p row command payload timeout s)
      (latched_failsAt (failsAt_of_take hio))
    rw [latched_link, ← frameOf_eq] at hbreaks
    exact exists_tornDown_of_first hpass hbreaks
  case second =>
    rcases hio with hflush | hput
    · have hfails : FailsAt 4 s := failsAt_of_take hflush
      exact exists_tornDown_of_second hpass hretries hdelay ⟨hwaits, hpos, hlong, hfails.1⟩
        fun s1 hs1 => breaksAfter_of_flush (hfails.drop hs1)
    · have hfails : FailsAt 5 s := failsAt_of_take hput
      exact exists_tornDown_of_second hpass hretries hdelay ⟨hwaits, hpos, hlong, hfails.1.mono (by omega)⟩
        fun s1 hs1 => breaksAfter_of_transmission (hfails.drop hs1)

end Sys2Proof.Statements
